-- ==== Sys2Proof/Word.lean ====
section
/-! DEFINITION. The words of the block's two encodings (spec/30_encoding.md): bytes on the bus, 32-bit host command
words and their fields, and what can be asked of the block. -/

namespace Sys2Proof

/-- R13: "A byte is 8 bits." -/
abbrev Byte := BitVec 8

/-- R111: "A host operation is one 32-bit word". -/
abbrev HostWord := BitVec 32

/-- R111: field `chip`, bits 27:24. -/
abbrev ChipField := BitVec 4

/-- R111: field `arg`, bits 23:0. -/
abbrev ArgField := BitVec 24

/-- R71: the 24-bit address field `{byte0, byte1, byte2}` of an SPI command. -/
abbrev AddrField := BitVec 24

/-- What can be asked of the block. `word` is a host command word (R111). `frame` asks for one whole SPI frame on one
chip, the source's `issueCommand` (R150): the level of the SPI rows of the opcode table (R100). DESIGN CHOICE, log 9. -/
inductive Request where
  | word (w : HostWord)
  | frame (chip : ChipField) (bytes : List Byte)
  deriving DecidableEq, Repr

/-- The three address bytes, most significant first (R65): `byte0`, `byte1`, `byte2`. -/
def addrBytes (a : AddrField) : List Byte :=
  [a.extractLsb' 16 8, a.extractLsb' 8 8, a.extractLsb' 0 8]

/-- The field `{byte0, byte1, byte2}` of three bytes (R71), the first the most significant. -/
def addrOf (b0 b1 b2 : Byte) : AddrField := b0 ++ b1 ++ b2

end Sys2Proof
end

