-- ==== Sys2Proof/Config.lean ====
section
/-! DEFINITION. The parameters of one instance of the block (spec/00_scope.md R4 to R12; SECTOR_PAGES of the reference chip,
spec/20_memory.md R87) and the free values: what the spec leaves open and no proof may see. -/

namespace Sys2Proof

/-- The configuration record `cfg` (section 3 of 00_scope.md). It is held in State and no operation writes it (R12). -/
structure Config where
  /-- R4: `N`, the number of chips. -/
  chips : Nat
  /-- R5: `P`, the page size in bytes. -/
  pageSize : Nat
  /-- R6: `PAGE_BITS`, the width of a page index. -/
  pageBits : Nat
  /-- R7: `SHIFT`, the codec's shift amount. -/
  shift : Nat
  /-- R8: `POLL_LIMIT`, the bound on one ready-poll, in status reads. -/
  pollLimit : Nat
  /-- R9: `COMMIT_VARIANT`; `false` is 0, `true` is 1. -/
  commitVariant : Bool
  /-- R10: `BUF_READ_DUMMY`. -/
  bufReadDummy : Nat
  /-- R11: `HAS_BUS_FAULT`. -/
  hasBusFault : Bool
  /-- R87: `SECTOR_PAGES` of the reference chip. -/
  sectorPages : Nat
  deriving DecidableEq, Repr

namespace Config

/-- R6: `NUM_PAGES = 2^PAGE_BITS`. -/
def numPages (cfg : Config) : Nat := 2 ^ cfg.pageBits

/-- `N * NUM_PAGES`: how many logical pages the stream has (R64). -/
def totalPages (cfg : Config) : Nat := cfg.chips * cfg.numPages

/-- R12: the bounds of R4 to R10 (and of R87), "validated once, at construction". -/
def valid (cfg : Config) : Bool :=
  decide (1 ≤ cfg.chips) && decide (cfg.chips ≤ 16) &&
  decide (1 ≤ cfg.pageSize) && decide (cfg.pageSize ≤ 65536) &&
  (cfg.pageBits == 11 || cfg.pageBits == 12 || cfg.pageBits == 13) &&
  decide (cfg.pageBits + cfg.shift ≤ 16) &&
  decide (1 ≤ cfg.pollLimit) && decide (1 ≤ cfg.sectorPages)

/-- The instance `State.reset` is made with: the spec's defaults (R6, R8, R9, R10, R11); `N = 2` and `P = 512` are the
source's one example (95_test_vectors T6), `SHIFT = 1` the vectors' value, `SECTOR_PAGES = 256` the model's own.
DESIGN CHOICE, unsafe, log 1. -/
def standard : Config where
  chips := 2
  pageSize := 512
  pageBits := 12
  shift := 1
  pollLimit := 500
  commitVariant := false
  bufReadDummy := 1
  hasBusFault := false
  sectorPages := 256

/-! Free values (log 3, log 4, log 5, log 7). None has a body a proof could use. -/

/-- The byte of bus event number `n` where nothing fixes it: answers in discarded positions, bits 6 to 0 of a status
byte (R37, R81, R82, U3). -/
opaque freeByte (n : Nat) : Byte

/-- R11, R14: whether exchange number `n` answers `fault`, where `HAS_BUS_FAULT` is true and nothing else fixes it. -/
opaque freeFault (n : Nat) : Bool

/-- R80: whether busy chip `c` turns ready just before bus event number `n`. -/
opaque chipFinishes (c n : Nat) : Bool

/-- R79, R293, U2, U4, U5: the byte a location of chip `c` holds where its contents are unspecified. `space` is 0 for the
main array, 1 and 2 for the two SRAM buffers; `n` is 0 before anything has happened to the chip, else the number of the bus
event after which the contents were lost; `a` is the location's address in that space. -/
opaque unknownByte (c space n a : Nat) : Byte

/-- R69, U4: the byte at address `a` of chip `c`'s main array while its page is in doubt, since commit number `n` of that
chip. -/
opaque doubtByte (c n a : Nat) : Byte

/-- R293, U2, U5: whether chip `c` is busy at the reset that bus event number `n` precedes (0: construction). -/
opaque unknownBusy (c n : Nat) : Bool

/-- R293, U2, U5: the buffer that the operation of such a busy chip uses, if it uses one; `true` is buffer 2. -/
opaque unknownInUse (c n : Nat) : Option Bool

end Config

end Sys2Proof
end

