-- ==== Sys2Proof/Machine/State.lean ====
section
/-! DEFINITION. The machine's state (spec/10_state.md), the chips it drives (spec/20_memory.md R79), what an execution
produces and consumes (spec/00_scope.md R15, spec/70_reset_and_hazards.md R308), and why a step can stop. Plain data. -/

namespace Sys2Proof.Machine

/-- R21: the parity bit. `a` is 0, buffer A, the chip's buffer 1; `b` is 1, buffer B, buffer 2. -/
inductive Parity where
  | a
  | b
  deriving DecidableEq, Repr

/-- R25: the engine states. The parity of `Filling` and `Committing` is `Handle.par`. -/
inductive EngineState where
  | idle
  | filling
  | committing
  deriving DecidableEq, Repr

/-- R20: one chip-handle bank. -/
structure Handle where
  /-- R21 -/
  par : Parity
  /-- R22: the page the next commit programs; `NUM_PAGES` when the chip is full -/
  wpage : Nat
  /-- R23: the page the next read transfers; `NUM_PAGES` when nothing is left -/
  rpage : Nat
  /-- R24: bytes fed into the open buffer -/
  off : Nat
  /-- R25 -/
  est : EngineState
  deriving DecidableEq, Repr

/-- R39: a bank after reset. -/
def Handle.reset : Handle where
  par := .a
  wpage := 0
  rpage := 0
  off := 0
  est := .idle

/-- R14: what an exchange answers: a byte, or `fault` (R11). -/
inductive Answer where
  | byte (b : Byte)
  | fault
  deriving DecidableEq, Repr

/-- R15: a bus event. -/
inductive Event where
  /-- `Sel(c)` -/
  | sel (c : Nat)
  /-- `Desel(c)` -/
  | desel (c : Nat)
  /-- `X(o,i)`: sent `out`, received `inp` -/
  | x (out : Byte) (inp : Answer)
  deriving DecidableEq, Repr

/-- R250: the error kinds. -/
inductive ErrorKind where
  | busFault
  | deviceTimeout
  | invalidAddress
  | sequenceMisuse
  deriving DecidableEq, Repr

/-- R114: a response. `err = none` is OK. `word` is the same response as a 16-bit word. -/
structure Response where
  err : Option ErrorKind
  chip : Nat
  data : List Byte
  word : BitVec 16
  deriving DecidableEq, Repr

/-- What the unlisted addresses of a memory hold. -/
inductive Background where
  /-- R79, U4, U5: unspecified, since bus event `n` (0: since the beginning) -/
  | unspecified (n : Nat)
  /-- R88: erased to `v` -/
  | erased (v : Byte)
  deriving DecidableEq, Repr

/-- A memory of bytes in one canonical form: `cells` by strictly rising address, none equal to what an unlisted address
holds. Log 5. -/
structure Memory where
  background : Background
  cells : List Host.Cell
  deriving DecidableEq, Repr

/-- A memory whose contents are all unspecified since bus event `n`. -/
def Memory.unspecified (n : Nat) : Memory where
  background := .unspecified n
  cells := []

/-- R69, U4: a page of the main array whose commit frame was sent and not yet confirmed by a ready status (R74). -/
structure Doubt where
  page : Nat
  /-- which commit of the chip it was, the argument of the free value `Config.doubtByte` -/
  commit : Nat
  deriving DecidableEq, Repr

/-- R79: the reference chip of one select line, with the pages in doubt (U4) and the model's own `commits` (log 5),
`finish` (log 7) and `knownReady` (log 17). -/
structure Chip where
  /-- R60: `main[p][o]` at address `p * P + o`, as it is once every commit has been confirmed (R74) -/
  main : Memory
  /-- R61: `buf[1][o]` at address `o` -/
  buf1 : Memory
  /-- R61: `buf[2][o]` at address `o` -/
  buf2 : Memory
  /-- R79 -/
  busy : Bool
  /-- R82: the buffer the running operation uses; it counts only while `busy` -/
  inUse : Option Parity
  /-- R79: the list `m` of bytes received since the last `Sel(c)` -/
  received : List Byte
  /-- R80: choices, supplied from outside, of whether the busy chip turns ready before the next bus events; when the
  list is empty the choice is free -/
  finish : List Bool
  /-- R297: the chip has been seen ready after the last frame that makes it busy -/
  knownReady : Bool
  /-- U4: the pages committed and not confirmed, the newest first, each page once -/
  doubts : List Doubt
  /-- how many commits the chip has taken -/
  commits : Nat
  deriving DecidableEq, Repr

/-- R79: "All initial contents are unspecified except `busy = false` and `m` empty." -/
def Chip.blank : Chip where
  main := .unspecified 0
  buf1 := .unspecified 0
  buf2 := .unspecified 0
  busy := false
  inUse := none
  received := []
  finish := []
  knownReady := false
  doubts := []
  commits := 0

/-- R21: a parity from its bit. -/
def Parity.ofBit (second : Bool) : Parity := if second then .b else .a

/-- R293, U2: chip `c` when the block is constructed: its contents and whether it is busy are free (log 4). -/
def Chip.reset (c : Nat) : Chip :=
  { Chip.blank with busy := Config.unknownBusy c 0, inUse := (Config.unknownInUse c 0).map Parity.ofBit }

/-- The fault bits 93_implementation_defined.md asks of a model for the host-kept hazards. Once set they stay set. -/
structure Hazard where
  /-- R298: a transfer, commit or erase frame was sent to a chip not known to be ready -/
  unreadyFrame : Bool
  /-- R304, U9: a commit of variant 1 was sent for a page not known to be erased -/
  unerasedCommit : Bool
  deriving DecidableEq, Repr

/-- The bus: the select owner, what has happened on it, and what is on its other side. -/
structure Bus where
  /-- R29: the chip-select owner -/
  cs : Option Nat
  /-- R15: the bus events since the block's last reset, oldest first -/
  trace : List Event
  /-- R308: answers of the next exchanges, supplied from outside; when the list is empty the chip answers (log 6) -/
  answers : List Answer
  /-- the number of bus events ever, the argument of the free values (log 3) -/
  tick : Nat
  /-- R42, R79: the chips, chip `c` at index `c` -/
  chips : List Chip
  hazard : Hazard
  deriving DecidableEq, Repr

/-- The state of the machine. -/
structure State where
  /-- R4 to R12: the parameters; no operation writes them -/
  cfg : Config
  /-- R20: the handle banks, bank `c` at index `c` -/
  handles : List Handle
  /-- R26 -/
  curW : Nat
  /-- R27 -/
  curR : Nat
  /-- R28 -/
  soff : Nat
  /-- R29 and everything on the bus -/
  bus : Bus
  /-- R17: what has been asked of the block and not begun, oldest first (log 9, log 14) -/
  pending : List Request
  /-- R114: the responses so far, oldest first -/
  responses : List Response
  /-- R114: the bytes that have left on the read-data stream, oldest first (log 13) -/
  stream : List Byte
  /-- R290, R291: a reset from outside, which comes after this many more bus events; `none`: none is coming (log 21) -/
  resetIn : Option Nat
  /-- R15: the traces of the runs that a reset has ended, oldest first (log 23) -/
  past : List (List Event)
  deriving DecidableEq, Repr

/-- R39, R291: the block right after reset with parameters `cfg`. -/
def State.resetWith (cfg : Config) : State where
  cfg := cfg
  handles := List.replicate cfg.chips Handle.reset
  curW := 0
  curR := 0
  soff := 0
  bus :=
    { cs := none
      trace := []
      answers := []
      tick := 0
      chips := (List.range cfg.chips).map Chip.reset
      hazard := { unreadyFrame := false, unerasedCommit := false } }
  pending := []
  responses := []
  stream := []
  resetIn := none
  past := []

/-- R12, R290: construction. "An instance whose parameters break a bound ... does not exist". -/
def State.construct (cfg : Config) : Option State :=
  if cfg.valid then some (State.resetWith cfg) else none

/-- The machine right after reset, made with `Config.standard` (log 1). -/
def State.reset : State := State.resetWith Config.standard

/-- Why the machine can stop with a fault. The block itself raises none ("Nothing in the block raises a fault in the
modelling guide's sense", 93_implementation_defined.md). -/
inductive Fault where
  /-- Raised by `step` alone, on a state whose parameters break a bound of R4 to R10: such an instance does not exist
  (R12). Safe: the machine stops. Log 16. -/
  | parameterOutOfRange
  deriving DecidableEq, Repr

/-- Why an instruction can have no meaning. -/
inductive Refusal where
  /-- Raised by an arm of `exec` that has no meaning yet; no arm is in that case. Safe: the machine stops. -/
  | notModelled (mnemonic : String)
  /-- Raised by `SPI_ID_READ` and `SPI_SECURITY_READ`: "the block never emits" these opcodes and "the spec gives them no
  frame shape" (R3, R107). Safe: the machine stops. Log 11. -/
  | neverEmitted (opcode : Byte)
  deriving DecidableEq, Repr

end Sys2Proof.Machine
end

