-- ==== Sys2Proof/Machine/Memory.lean ====
section
/-! DEFINITION. The operations over one memory of a chip (R60, R61): reading a byte, storing a run of bytes, erasing. -/

namespace Sys2Proof.Machine

/-- The byte of an unlisted address, where it is specified. -/
def Background.byte? : Background → Option Byte
  | .unspecified _ => none
  | .erased v => some v

/-- Which unspecified contents a background stands for. -/
def Background.stamp : Background → Nat
  | .unspecified n => n
  | .erased _ => 0

namespace Memory

/-- What an address holds: a byte, or `none` where it is unspecified. -/
def read? (m : Memory) (a : Nat) : Option Byte :=
  match m.cells.find? (fun cell => cell.1 == a) with
  | some cell => some cell.2
  | none => m.background.byte?

/-- The byte at an address: the one stored there, or the free value of unspecified contents. `c` and `space` say whose
memory it is. -/
def byteAt (m : Memory) (c space a : Nat) : Byte := (m.read? a).getD (Config.unknownByte c space m.background.stamp a)

/-- The cells of a run of bytes from address `a`, leaving out those equal to the background. -/
def run (background : Background) : Nat → List Byte → List Host.Cell
  | _, [] => []
  | a, v :: vs =>
    if background = .erased v then run background (a + 1) vs else (a, v) :: run background (a + 1) vs

/-- Store the bytes `vs` at the addresses from `a` on. -/
def store (m : Memory) (a : Nat) (vs : List Byte) : Memory where
  background := m.background
  cells := m.cells.filter (fun cell => decide (cell.1 < a)) ++ run m.background a vs ++
    m.cells.filter (fun cell => decide (a + vs.length ≤ cell.1))

/-- R88: every byte set to `v`. -/
def eraseAll (v : Byte) : Memory where
  background := .erased v
  cells := []

/-- The canonical form: addresses strictly rising, no entry equal to what an unlisted address holds. -/
abbrev wf (m : Memory) : Prop :=
  m.cells.Pairwise (fun x y => x.1 < y.1) ∧ ∀ cell ∈ m.cells, m.background ≠ .erased cell.2

end Memory

end Sys2Proof.Machine
end

