-- ==== Sys2Proof/Syntax.lean ====
section
/-! DEFINITION. The instructions: one constructor for each row of spec/opcode_table.json. The first sixteen rows are host
operations (R111 to R113), the last sixteen SPI frames (R100 to R107). -/

namespace Sys2Proof

/-- One constructor for each row of the opcode table. -/
inductive Instr where
  /-- R210 -/
  | startW
  /-- R211; `b = arg[7:0]` -/
  | writeByte (b : Byte)
  /-- R213 -/
  | endW
  /-- R214 -/
  | readPage
  /-- R215; `n = arg` -/
  | eraseRange (n : ArgField)
  /-- R216; `L = arg` -/
  | seekW (l : ArgField)
  /-- R217; `L = arg` -/
  | seekR (l : ArgField)
  /-- R155 -/
  | readStatus (c : ChipField)
  /-- R156 -/
  | waitReady (c : ChipField)
  /-- R157; `p = arg` -/
  | pageErase (c : ChipField) (p : ArgField)
  /-- R158; `p = arg` -/
  | sectorErase (c : ChipField) (p : ArgField)
  /-- R159 -/
  | chipErase (c : ChipField)
  /-- R113, `op = 0x0`; `rest` is bits 27:0 -/
  | reservedOp0 (rest : BitVec 28)
  /-- R113, `op = 0xD` -/
  | reservedOpD (rest : BitVec 28)
  /-- R113, `op = 0xE` -/
  | reservedOpE (rest : BitVec 28)
  /-- R113, `op = 0xF` -/
  | reservedOpF (rest : BitVec 28)
  /-- R102, R152: `0xD7` -/
  | spiStatusRead (c : ChipField)
  /-- R103, R84: `0x53` -/
  | spiPageToBuf1 (c : ChipField) (a : AddrField)
  /-- R103, R84: `0x55` -/
  | spiPageToBuf2 (c : ChipField) (a : AddrField)
  /-- R105, R85: `0xD4` -/
  | spiBuf1Read (c : ChipField) (a : AddrField)
  /-- R105, R85: `0xD6` -/
  | spiBuf2Read (c : ChipField) (a : AddrField)
  /-- R104, R82: `0x84` -/
  | spiBuf1Write (c : ChipField) (a : AddrField) (data : List Byte)
  /-- R104, R82: `0x87` -/
  | spiBuf2Write (c : ChipField) (a : AddrField) (data : List Byte)
  /-- R103, R83: `0x83`, `COMMIT_VARIANT = 0` -/
  | spiBuf1Commit (c : ChipField) (a : AddrField)
  /-- R103, R83: `0x88`, `COMMIT_VARIANT = 1` -/
  | spiBuf1CommitAlt (c : ChipField) (a : AddrField)
  /-- R103, R83: `0x86`, `COMMIT_VARIANT = 0` -/
  | spiBuf2Commit (c : ChipField) (a : AddrField)
  /-- R103, R83: `0x89`, `COMMIT_VARIANT = 1` -/
  | spiBuf2CommitAlt (c : ChipField) (a : AddrField)
  /-- R103, R86: `0x81` -/
  | spiPageErase (c : ChipField) (a : AddrField)
  /-- R103, R87: `0x7C` -/
  | spiSectorErase (c : ChipField) (a : AddrField)
  /-- R106, R88: `0xC7 0x94 0x80 0x9A` -/
  | spiChipErase (c : ChipField)
  /-- R107: `0x9F`; the spec gives it no frame shape, so `rest` is whatever follows -/
  | spiIdRead (c : ChipField) (rest : List Byte)
  /-- R107: `0x77` -/
  | spiSecurityRead (c : ChipField) (rest : List Byte)
  deriving DecidableEq, Repr

end Sys2Proof
end

