-- ==== Sys2Proof/WellFormed.lean ====
section
/-! DEFINITION. Which terms of `Instr` are instructions. The widths of the fields are in their types; what is left is the
length of the data of a buffer-write frame (R104, R110: at most `P` bytes, and `P <= 65536` by R5). -/

namespace Sys2Proof

/-- R5, R110: the most data bytes a buffer-write frame can carry on any instance. -/
def maxPayload : Nat := 65536

/-- The well-formed instructions. -/
def Instr.wf : Instr → Bool
  | .startW => true
  | .writeByte _ => true
  | .endW => true
  | .readPage => true
  | .eraseRange _ => true
  | .seekW _ => true
  | .seekR _ => true
  | .readStatus _ => true
  | .waitReady _ => true
  | .pageErase _ _ => true
  | .sectorErase _ _ => true
  | .chipErase _ => true
  | .reservedOp0 _ => true
  | .reservedOpD _ => true
  | .reservedOpE _ => true
  | .reservedOpF _ => true
  | .spiStatusRead _ => true
  | .spiPageToBuf1 _ _ => true
  | .spiPageToBuf2 _ _ => true
  | .spiBuf1Read _ _ => true
  | .spiBuf2Read _ _ => true
  | .spiBuf1Write _ _ data => decide (data.length ≤ maxPayload)
  | .spiBuf2Write _ _ data => decide (data.length ≤ maxPayload)
  | .spiBuf1Commit _ _ => true
  | .spiBuf1CommitAlt _ _ => true
  | .spiBuf2Commit _ _ => true
  | .spiBuf2CommitAlt _ _ => true
  | .spiPageErase _ _ => true
  | .spiSectorErase _ _ => true
  | .spiChipErase _ => true
  | .spiIdRead _ _ => true
  | .spiSecurityRead _ _ => true

end Sys2Proof
end

