-- ==== Sys2Proof/Decode.lean ====
section
/-! DEFINITION. The decoder of host command words (R111 to R113) and of SPI frames (R100 to R110), total, rejecting by
name; the encoder written from the same tables; and the two as the opcode table numbers their bits. -/

namespace Sys2Proof

/-- Why a request is no instruction. Each is a malformed request, answered `SequenceMisuse` (R113). -/
inductive DecodeError where
  /-- R113: a bit is set in a field the operation does not use. -/
  | nonzeroUnusedField
  /-- A frame has at least its opcode byte (R150: `hdr` is non-empty). -/
  | emptyFrame
  /-- R107: the first byte is no opcode of the table. -/
  | unknownOpcode
  /-- R110: the opcode fixes the length of what follows it. -/
  | wrongFrameLength
  /-- R110: more data bytes than any page holds. -/
  | payloadTooLong
  deriving DecidableEq, Repr

/-! SPI opcodes, from the table (R102 to R107). -/

def opcStatusRead : Byte := 0xD7
def opcPageToBuf1 : Byte := 0x53
def opcPageToBuf2 : Byte := 0x55
def opcBuf1Read : Byte := 0xD4
def opcBuf2Read : Byte := 0xD6
def opcBuf1Write : Byte := 0x84
def opcBuf2Write : Byte := 0x87
def opcBuf1Commit : Byte := 0x83
def opcBuf1CommitAlt : Byte := 0x88
def opcBuf2Commit : Byte := 0x86
def opcBuf2CommitAlt : Byte := 0x89
def opcPageErase : Byte := 0x81
def opcSectorErase : Byte := 0x7C
def opcIdRead : Byte := 0x9F
def opcSecurityRead : Byte := 0x77

/-- R106: the four bytes of the chip-erase frame. -/
def chipEraseFrame : List Byte := [0xC7, 0x94, 0x80, 0x9A]

/-- R111: field `op`. -/
def opField (w : HostWord) : BitVec 4 := w.extractLsb' 28 4

/-- R111: field `chip`. -/
def chipField (w : HostWord) : ChipField := w.extractLsb' 24 4

/-- R111: field `arg`. -/
def argField (w : HostWord) : ArgField := w.extractLsb' 0 24

/-- R113: the instruction if every unused field is zero. -/
def ifUnusedZero (zero : Bool) (i : Instr) : Except DecodeError Instr :=
  if zero then .ok i else .error .nonzeroUnusedField

/-- R111, R112, R113: a host command word. -/
def decodeWord (w : HostWord) : Except DecodeError Instr :=
  let chip := chipField w
  let arg := argField w
  match (opField w).toNat with
  | 0x1 => ifUnusedZero (chip == 0 && arg == 0) .startW
  | 0x2 => ifUnusedZero (chip == 0 && arg.extractLsb' 8 16 == 0) (.writeByte (arg.extractLsb' 0 8))
  | 0x3 => ifUnusedZero (chip == 0 && arg == 0) .endW
  | 0x4 => ifUnusedZero (chip == 0 && arg == 0) .readPage
  | 0x5 => ifUnusedZero (chip == 0) (.eraseRange arg)
  | 0x6 => ifUnusedZero (chip == 0) (.seekW arg)
  | 0x7 => ifUnusedZero (chip == 0) (.seekR arg)
  | 0x8 => ifUnusedZero (arg == 0) (.readStatus chip)
  | 0x9 => ifUnusedZero (arg == 0) (.waitReady chip)
  | 0xA => .ok (.pageErase chip arg)
  | 0xB => .ok (.sectorErase chip arg)
  | 0xC => ifUnusedZero (arg == 0) (.chipErase chip)
  | 0xD => .ok (.reservedOpD (w.extractLsb' 0 28))
  | 0xE => .ok (.reservedOpE (w.extractLsb' 0 28))
  | 0xF => .ok (.reservedOpF (w.extractLsb' 0 28))
  | _ => .ok (.reservedOp0 (w.extractLsb' 0 28))

/-- R103, R105: exactly three address bytes follow the opcode. -/
def withAddress (rest : List Byte) (f : AddrField → Instr) : Except DecodeError Instr :=
  match rest with
  | [b0, b1, b2] => .ok (f (addrOf b0 b1 b2))
  | _ => .error .wrongFrameLength

/-- R104: three address bytes, then the data bytes. -/
def withPayload (rest : List Byte) (f : AddrField → List Byte → Instr) : Except DecodeError Instr :=
  match rest with
  | b0 :: b1 :: b2 :: data =>
    if data.length ≤ maxPayload then .ok (f (addrOf b0 b1 b2) data) else .error .payloadTooLong
  | _ => .error .wrongFrameLength

/-- R100, R110: an SPI frame, told apart by its first byte. `bytes` is what the frame sends before its dummy and
response positions: opcode, address bytes, payload (`hdr` of R150). -/
def decodeFrame (c : ChipField) (bytes : List Byte) : Except DecodeError Instr :=
  match bytes with
  | [] => .error .emptyFrame
  | op :: rest =>
    if op = opcStatusRead then (if rest = [] then .ok (.spiStatusRead c) else .error .wrongFrameLength)
    else if op = opcPageToBuf1 then withAddress rest (.spiPageToBuf1 c)
    else if op = opcPageToBuf2 then withAddress rest (.spiPageToBuf2 c)
    else if op = opcBuf1Read then withAddress rest (.spiBuf1Read c)
    else if op = opcBuf2Read then withAddress rest (.spiBuf2Read c)
    else if op = opcBuf1Write then withPayload rest (.spiBuf1Write c)
    else if op = opcBuf2Write then withPayload rest (.spiBuf2Write c)
    else if op = opcBuf1Commit then withAddress rest (.spiBuf1Commit c)
    else if op = opcBuf1CommitAlt then withAddress rest (.spiBuf1CommitAlt c)
    else if op = opcBuf2Commit then withAddress rest (.spiBuf2Commit c)
    else if op = opcBuf2CommitAlt then withAddress rest (.spiBuf2CommitAlt c)
    else if op = opcPageErase then withAddress rest (.spiPageErase c)
    else if op = opcSectorErase then withAddress rest (.spiSectorErase c)
    else if op :: rest = chipEraseFrame then .ok (.spiChipErase c)
    else if op = opcIdRead then .ok (.spiIdRead c rest)
    else if op = opcSecurityRead then .ok (.spiSecurityRead c rest)
    else .error .unknownOpcode

/-- The decoder. -/
def decode : Request → Except DecodeError Instr
  | .word w => decodeWord w
  | .frame c bytes => decodeFrame c bytes

/-! The encoder, from the same tables. -/

/-- R111: `{op, chip, arg}`. -/
def hostWord (op : BitVec 4) (chip : ChipField) (arg : ArgField) : HostWord := op ++ chip ++ arg

/-- The words of an instruction. -/
def encode : Instr → Request
  | .startW => .word (hostWord 0x1 0 0)
  | .writeByte b => .word (hostWord 0x2 0 ((0 : BitVec 16) ++ b))
  | .endW => .word (hostWord 0x3 0 0)
  | .readPage => .word (hostWord 0x4 0 0)
  | .eraseRange n => .word (hostWord 0x5 0 n)
  | .seekW l => .word (hostWord 0x6 0 l)
  | .seekR l => .word (hostWord 0x7 0 l)
  | .readStatus c => .word (hostWord 0x8 c 0)
  | .waitReady c => .word (hostWord 0x9 c 0)
  | .pageErase c p => .word (hostWord 0xA c p)
  | .sectorErase c p => .word (hostWord 0xB c p)
  | .chipErase c => .word (hostWord 0xC c 0)
  | .reservedOp0 rest => .word ((0x0 : BitVec 4) ++ rest)
  | .reservedOpD rest => .word ((0xD : BitVec 4) ++ rest)
  | .reservedOpE rest => .word ((0xE : BitVec 4) ++ rest)
  | .reservedOpF rest => .word ((0xF : BitVec 4) ++ rest)
  | .spiStatusRead c => .frame c [opcStatusRead]
  | .spiPageToBuf1 c a => .frame c (opcPageToBuf1 :: addrBytes a)
  | .spiPageToBuf2 c a => .frame c (opcPageToBuf2 :: addrBytes a)
  | .spiBuf1Read c a => .frame c (opcBuf1Read :: addrBytes a)
  | .spiBuf2Read c a => .frame c (opcBuf2Read :: addrBytes a)
  | .spiBuf1Write c a data => .frame c (opcBuf1Write :: addrBytes a ++ data)
  | .spiBuf2Write c a data => .frame c (opcBuf2Write :: addrBytes a ++ data)
  | .spiBuf1Commit c a => .frame c (opcBuf1Commit :: addrBytes a)
  | .spiBuf1CommitAlt c a => .frame c (opcBuf1CommitAlt :: addrBytes a)
  | .spiBuf2Commit c a => .frame c (opcBuf2Commit :: addrBytes a)
  | .spiBuf2CommitAlt c a => .frame c (opcBuf2CommitAlt :: addrBytes a)
  | .spiPageErase c a => .frame c (opcPageErase :: addrBytes a)
  | .spiSectorErase c a => .frame c (opcSectorErase :: addrBytes a)
  | .spiChipErase c => .frame c chipEraseFrame
  | .spiIdRead c rest => .frame c (opcIdRead :: rest)
  | .spiSecurityRead c rest => .frame c (opcSecurityRead :: rest)

/-! The same, as spec/opcode_table.json numbers bits. -/

/-- R115: the mnemonic of an instruction, as the opcode table spells it. -/
def mnemonic : Instr → String
  | .startW => "START_W"
  | .writeByte _ => "WRITE_BYTE"
  | .endW => "END_W"
  | .readPage => "READ_PAGE"
  | .eraseRange _ => "ERASE_RANGE"
  | .seekW _ => "SEEK_W"
  | .seekR _ => "SEEK_R"
  | .readStatus _ => "READ_STATUS"
  | .waitReady _ => "WAIT_READY"
  | .pageErase _ _ => "PAGE_ERASE"
  | .sectorErase _ _ => "SECTOR_ERASE"
  | .chipErase _ => "CHIP_ERASE"
  | .reservedOp0 _ => "RESERVED_OP_0"
  | .reservedOpD _ => "RESERVED_OP_D"
  | .reservedOpE _ => "RESERVED_OP_E"
  | .reservedOpF _ => "RESERVED_OP_F"
  | .spiStatusRead _ => "SPI_STATUS_READ"
  | .spiPageToBuf1 _ _ => "SPI_PAGE_TO_BUF1"
  | .spiPageToBuf2 _ _ => "SPI_PAGE_TO_BUF2"
  | .spiBuf1Read _ _ => "SPI_BUF1_READ"
  | .spiBuf2Read _ _ => "SPI_BUF2_READ"
  | .spiBuf1Write _ _ _ => "SPI_BUF1_WRITE"
  | .spiBuf2Write _ _ _ => "SPI_BUF2_WRITE"
  | .spiBuf1Commit _ _ => "SPI_BUF1_COMMIT"
  | .spiBuf1CommitAlt _ _ => "SPI_BUF1_COMMIT_ALT"
  | .spiBuf2Commit _ _ => "SPI_BUF2_COMMIT"
  | .spiBuf2CommitAlt _ _ => "SPI_BUF2_COMMIT_ALT"
  | .spiPageErase _ _ => "SPI_PAGE_ERASE"
  | .spiSectorErase _ _ => "SPI_SECTOR_ERASE"
  | .spiChipErase _ => "SPI_CHIP_ERASE"
  | .spiIdRead _ _ => "SPI_ID_READ"
  | .spiSecurityRead _ _ => "SPI_SECURITY_READ"

/-- The operands of a line of R115, comma separated, in decimal. -/
def operands : Instr → String
  | .writeByte b => " " ++ toString b.toNat
  | .eraseRange n => " " ++ toString n.toNat
  | .seekW l => " " ++ toString l.toNat
  | .seekR l => " " ++ toString l.toNat
  | .readStatus c => " " ++ toString c.toNat
  | .waitReady c => " " ++ toString c.toNat
  | .pageErase c p => " " ++ toString c.toNat ++ ", " ++ toString p.toNat
  | .sectorErase c p => " " ++ toString c.toNat ++ ", " ++ toString p.toNat
  | .chipErase c => " " ++ toString c.toNat
  | _ => ""

/-- R115: the assembler line of a host operation. -/
def asmLine (i : Instr) : String := mnemonic i ++ operands i

/-- The `n` bytes of `w`, the least significant first. -/
def tableBytes : Nat → Nat → List Byte
  | 0, _ => []
  | n + 1, w => BitVec.ofNat 8 w :: tableBytes n (w / 256)

/-- R110: how many bytes a frame's header has: `S1` one, `SA`, `SW` and `SR` four; the rows with no shape, one. -/
def headerLength (op : Byte) : Nat :=
  if op = opcStatusRead ∨ op = opcIdRead ∨ op = opcSecurityRead then 1 else 4

/-- A frame of the table with its missing operand bytes zero. -/
def padFrame (bytes : List Byte) : List Byte :=
  bytes ++ List.replicate (headerLength (bytes.headD 0) - bytes.length) 0

/-- The request the opcode table's bits stand for. A row of 32 bits is a host word, but for the chip-erase frame, whose
first byte the table puts in bits 31:24 (its note); a shorter row is an SPI frame, its first byte in bits 7:0, sent to
chip 0 (log 9, log 22). -/
def tableRequest (nbits w : Nat) : Request :=
  if nbits = 32 then
    if w = 0xC794809A then .frame 0 chipEraseFrame else .word (BitVec.ofNat 32 w)
  else .frame 0 (padFrame (tableBytes (nbits / 8) w))

/-- The instruction the decoder reads from the table's bits. -/
def decodeTableWord (nbits w : Nat) : Option Instr :=
  match decode (tableRequest nbits w) with
  | .ok i => some i
  | .error _ => none

end Sys2Proof
end

