-- ==== Sys2Proof/Machine/Flags.lean ====
section
/-! DEFINITION. The one condition bit of the block (R37) and the parity bit's arithmetic (R21, R117). The block has no
other flag. -/

namespace Sys2Proof.Machine

/-- R37, R62: bit 7 of a status byte; 1 means ready. -/
def ready (status : Byte) : Bool := status.getLsbD 7

/-- R81: a status byte: bit 7 as given, bits 6 to 0 from `low`. -/
def statusByte (isReady : Bool) (low : Byte) : Byte :=
  (low &&& 0x7F) ||| (if isReady then 0x80 else 0x00)

/-- R184 step 7: `par ^ 1`. -/
def Parity.flip : Parity → Parity
  | .a => .b
  | .b => .a

/-- R117, R186: `k mod 2` as a parity. -/
def Parity.ofPage (k : Nat) : Parity := if k % 2 = 0 then .a else .b

/-- R250: field `err` of the response word. -/
def errCode : Option ErrorKind → Nat
  | none => 0
  | some .busFault => 1
  | some .deviceTimeout => 2
  | some .invalidAddress => 3
  | some .sequenceMisuse => 4

end Sys2Proof.Machine
end

