-- ==== Sys2Proof/Machine/Operands.lean ====
section
/-! DEFINITION. The operand forms: the Page Address Codec (spec/40_codec.md), the choice of opcodes by parity (R117), the
striping map (R64), the cursors of a logical page (R216) and the range checks (R253). -/

namespace Sys2Proof.Machine

/-- R140: `encode(p)`, as the address field `{byte0, byte1, byte2}`: `v = p << SHIFT`, `byte0 = v[15:8]`,
`byte1 = v[7:0]`, `byte2 = 0`. -/
def encodePage (cfg : Config) (p : Nat) : AddrField :=
  let v : BitVec 16 := BitVec.ofNat 16 (p <<< cfg.shift)
  addrOf (v.extractLsb' 8 8) (v.extractLsb' 0 8) 0x00

/-- R141: `decode(byte0, byte1, byte2) = ({byte0, byte1} >> SHIFT) mod 2^PAGE_BITS`. -/
def decodePage (cfg : Config) (a : AddrField) : Nat :=
  ((a.extractLsb' 8 16).toNat >>> cfg.shift) % 2 ^ cfg.pageBits

/-- R71, R108: the address field is `encode(p)` of some page `p`. -/
def isPageField (cfg : Config) (a : AddrField) : Bool := encodePage cfg (decodePage cfg a) == a

/-- R109: the block opens and reads a buffer only from offset 0. -/
def bufferStart : AddrField := 0

/-- R109, D14: the address field is the one buffer address there is. -/
def isBufferField (a : AddrField) : Bool := a == bufferStart

/-- R82, R85: the buffer offset an address field names, `{m[1], m[2], m[3]} mod P`. -/
def bufferOffset (cfg : Config) (a : AddrField) : Nat := a.toNat % cfg.pageSize

/-- R10: `DUMMY_OUT`. -/
def dummyOut : Byte := 0x00

/-- R117: `opcBufWrite(q)`. -/
def opcBufWrite : Parity → Byte
  | .a => opcBuf1Write
  | .b => opcBuf2Write

/-- R9, R117: `opcCommit(q)`. -/
def opcCommit (cfg : Config) : Parity → Byte
  | .a => if cfg.commitVariant then opcBuf1CommitAlt else opcBuf1Commit
  | .b => if cfg.commitVariant then opcBuf2CommitAlt else opcBuf2Commit

/-- R117: `opcPageToBuf(q)`. -/
def opcPageToBuf : Parity → Byte
  | .a => opcPageToBuf1
  | .b => opcPageToBuf2

/-- R117: `opcBufRead(q)`. -/
def opcBufRead : Parity → Byte
  | .a => opcBuf1Read
  | .b => opcBuf2Read

/-- R64: the chip of logical page `l`. -/
def pageChip (cfg : Config) (l : Nat) : Nat := l % cfg.chips

/-- R64: the page, on its chip, of logical page `l`. -/
def pageIndex (cfg : Config) (l : Nat) : Nat := l / cfg.chips

/-- R64: the main-array location `(c, p, o)` of byte number `n` of the stream. -/
def streamLocation (cfg : Config) (n : Nat) : Nat × Nat × Nat :=
  (pageChip cfg (n / cfg.pageSize), pageIndex cfg (n / cfg.pageSize), n % cfg.pageSize)

/-- R216, R217, R40: the cursor of chip `c` when `l` logical pages lie behind the stream's position. -/
def cursorAt (cfg : Config) (l c : Nat) : Nat := l / cfg.chips + (if c < l % cfg.chips then 1 else 0)

/-- R60: the address of `main[p][o]` in `Chip.main`. -/
def mainAddr (cfg : Config) (p o : Nat) : Nat := p * cfg.pageSize + o

/-- R253: a chip operand names a chip. -/
def chipInRange (cfg : Config) (c : ChipField) : Bool := decide (c.toNat < cfg.chips)

/-- R142, R253: a page operand names a page. -/
def pageInRange (cfg : Config) (p : ArgField) : Bool := decide (p.toNat < cfg.numPages)

/-- R253: a count of pages, or a logical page to seek to, is at most `N * NUM_PAGES`. -/
def countInRange (cfg : Config) (n : ArgField) : Bool := decide (n.toNat ≤ cfg.totalPages)

end Sys2Proof.Machine
end

