-- ==== Sys2Proof/Machine/Chip.lean ====
section
/-! DEFINITION. The reference chip (spec/20_memory.md section 6): what it holds, what it answers, and what a bus event does
to it. `c` is the chip's index, `n` the number of the bus event; they only choose free values. -/

namespace Sys2Proof.Machine.Chip

/-- R61: buffer 1 or 2. -/
def buf (ch : Chip) : Parity → Memory
  | .a => ch.buf1
  | .b => ch.buf2

/-- Replace buffer 1 or 2. -/
def setBuf (ch : Chip) (q : Parity) (m : Memory) : Chip :=
  match q with
  | .a => { ch with buf1 := m }
  | .b => { ch with buf2 := m }

/-- Which of a chip's memories a buffer is, for the free values (R79). -/
def bufSpace : Parity → Nat
  | .a => 1
  | .b => 2

/-- The byte `buf[q][o]`. -/
def bufByte (c : Nat) (ch : Chip) (q : Parity) (o : Nat) : Byte :=
  (ch.buf q).byteAt c (bufSpace q) o

/-- The byte at an address of the main array, as it is once every commit has been confirmed (R74). -/
def mainByte (c : Nat) (ch : Chip) (a : Nat) : Byte := ch.main.byteAt c 0 a

/-- U4: the page is in doubt. -/
def doubt? (ch : Chip) (p : Nat) : Option Doubt := ch.doubts.find? (fun d => d.page == p)

/-- R69, R74, U4: the byte `main[p][o]` as a transfer finds it. While the page is in doubt it is neither the old content nor
the new nor a mixture: a free value. -/
def arrayByte (cfg : Config) (c : Nat) (ch : Chip) (p o : Nat) : Byte :=
  match ch.doubt? p with
  | some d => Config.doubtByte c d.commit (mainAddr cfg p o)
  | none => ch.mainByte c (mainAddr cfg p o)

/-- All `P` bytes of a buffer. -/
def bufPage (cfg : Config) (c : Nat) (ch : Chip) (q : Parity) : List Byte :=
  (List.range cfg.pageSize).map (bufByte c ch q)

/-- All `P` bytes of page `p` of the main array, as a transfer finds them. -/
def mainPage (cfg : Config) (c : Nat) (ch : Chip) (p : Nat) : List Byte :=
  (List.range cfg.pageSize).map (arrayByte cfg c ch p)

/-- U9: every byte of page `p` is known to be erased. -/
def pageErased (cfg : Config) (ch : Chip) (p : Nat) : Bool :=
  (ch.doubt? p).isNone && (List.range cfg.pageSize).all (fun o => decide (ch.main.read? (mainAddr cfg p o) = some 0xFF))

/-- R80: just before bus event `n`, a busy chip may turn ready. -/
def settle (c n : Nat) (ch : Chip) : Chip :=
  if ch.busy then
    match ch.finish with
    | done :: later => { ch with busy := !done, finish := later }
    | [] => { ch with busy := !Config.chipFinishes c n }
  else ch

/-- R79: `Sel(c)` begins a new list of received bytes. -/
def select (ch : Chip) : Chip := { ch with received := [] }

/-- R82, R85: which buffer a buffer-write opcode names. -/
def writeBuffer? (op : Byte) : Option Parity :=
  if op = opcBuf1Write then some .a else if op = opcBuf2Write then some .b else none

/-- R85: which buffer a buffer-read opcode names. -/
def readBuffer? (op : Byte) : Option Parity :=
  if op = opcBuf1Read then some .a else if op = opcBuf2Read then some .b else none

/-- R83: which buffer a commit opcode names, the pair chosen by `COMMIT_VARIANT`. -/
def commitBuffer? (cfg : Config) (op : Byte) : Option Parity :=
  if op = opcCommit cfg .a then some .a else if op = opcCommit cfg .b then some .b else none

/-- R84: which buffer a page-to-buffer opcode names. -/
def transferBuffer? (op : Byte) : Option Parity :=
  if op = opcPageToBuf1 then some .a else if op = opcPageToBuf2 then some .b else none

/-- R82: where the next byte the chip receives is stored: buffer and offset; `none` if it is not a data byte of a
buffer-write frame. -/
def storeTarget (cfg : Config) (ch : Chip) : Option (Parity × Nat) :=
  match ch.received with
  | op :: b0 :: b1 :: b2 :: data =>
    (writeBuffer? op).map fun q => (q, (bufferOffset cfg (addrOf b0 b1 b2) + data.length) % cfg.pageSize)
  | _ => none

/-- R82: a buffer accepts data unless a running operation uses it. -/
def accepts (ch : Chip) (q : Parity) : Bool := !(ch.busy && decide (ch.inUse = some q))

/-- R82: the buffer and offset the next byte the chip receives is stored at; `none` if it is stored nowhere (log 8). -/
def storesAt (cfg : Config) (ch : Chip) : Option (Parity × Nat) :=
  match ch.storeTarget cfg with
  | some (q, a) => if ch.accepts q then some (q, a) else none
  | none => none

/-- R82: a byte arrives. -/
def receive (cfg : Config) (o : Byte) (ch : Chip) : Chip :=
  match ch.storesAt cfg with
  | some (q, a) => { ch.setBuf q ((ch.buf q).store a [o]) with received := ch.received ++ [o] }
  | none => { ch with received := ch.received ++ [o] }

/-- R81, R85: what the chip answers to the next exchange; where the reference chip's answer is unspecified, the free
byte of event `n`. -/
def answer (cfg : Config) (c n : Nat) (ch : Chip) : Byte :=
  match ch.received with
  | [] => Config.freeByte n
  | op :: rest =>
    if op = opcStatusRead then statusByte (!ch.busy) (Config.freeByte n)
    else
      match readBuffer? op, rest with
      | some q, b0 :: b1 :: b2 :: sent =>
        if sent.length < cfg.bufReadDummy then Config.freeByte n
        else bufByte c ch q
          ((bufferOffset cfg (addrOf b0 b1 b2) + (sent.length - cfg.bufReadDummy)) % cfg.pageSize)
      | _, _ => Config.freeByte n

/-- The `k` pages from page `p` on are not in doubt any more. -/
def settled (p k : Nat) (l : List Doubt) : List Doubt := l.filter (fun d => decide (d.page < p) || decide (p + k ≤ d.page))

/-- R83: `main[p][o] <- buf[q][o]` for all `o`, and the chip is busy. Until a status read shows the chip ready the page is in
doubt (R74, U4). -/
def commit (cfg : Config) (c : Nat) (q : Parity) (p : Nat) (ch : Chip) : Chip :=
  { ch with
    main := ch.main.store (mainAddr cfg p 0) (ch.bufPage cfg c q)
    busy := true
    inUse := some q
    doubts := ⟨p, ch.commits⟩ :: settled p 1 ch.doubts
    commits := ch.commits + 1 }

/-- R73, R74, R297: a status read has shown the chip ready: what was committed is confirmed. -/
def confirmed (ch : Chip) : Chip := { ch with knownReady := true, doubts := [] }

/-- R301, U4: after bus event `n` the chip's buffers hold unknown mixtures. -/
def loseBuffers (n : Nat) (ch : Chip) : Chip := { ch with buf1 := .unspecified n, buf2 := .unspecified n }

/-- R293, U2: the chip at a reset of the block after bus event `n`: its buffers hold anything and it may be busy, its main
array is what was programmed. It is not known to be ready any more (R297). -/
def atReset (c n : Nat) (ch : Chip) : Chip :=
  { ch with
    buf1 := .unspecified n
    buf2 := .unspecified n
    busy := Config.unknownBusy c n
    inUse := (Config.unknownInUse c n).map Parity.ofBit
    knownReady := false }

/-- R291, U5: a reset after bus event `n` has cut the frame the chip was receiving: the main array is any value afterwards, as
everything else it holds. -/
def cutShort (n : Nat) (ch : Chip) : Chip := { ch with main := .unspecified n, doubts := [] }

/-- R84: `buf[q][o] <- main[p][o]` for all `o`, and the chip is busy. -/
def transfer (cfg : Config) (c : Nat) (q : Parity) (p : Nat) (ch : Chip) : Chip :=
  { ch.setBuf q ((ch.buf q).store 0 (ch.mainPage cfg c p)) with busy := true, inUse := some q }

/-- R86, R87: the `k` pages from page `p` on are erased, and the chip is busy. -/
def erasePages (cfg : Config) (p k : Nat) (ch : Chip) : Chip :=
  { ch with
    main := ch.main.store (mainAddr cfg p 0) (List.replicate (k * cfg.pageSize) 0xFF)
    busy := true
    inUse := none
    doubts := settled p k ch.doubts }

/-- R87: the first page of the sector that contains page `p`. -/
def sectorStart (cfg : Config) (p : Nat) : Nat := p / cfg.sectorPages * cfg.sectorPages

/-- R87: how many pages that sector has; none lies beyond the last page of the chip (log 18). -/
def sectorLength (cfg : Config) (p : Nat) : Nat := min cfg.sectorPages (cfg.numPages - sectorStart cfg p)

/-- R88: every byte of the main array is `0xFF`, and the chip is busy. -/
def eraseChip (ch : Chip) : Chip :=
  { ch with main := Memory.eraseAll 0xFF, busy := true, inUse := none, doubts := [] }

/-- R83, R84, R86, R87: what a whole `SA` frame does to a chip that is not busy; R89: any other changes nothing. -/
def addressed (cfg : Config) (c : Nat) (op : Byte) (p : Nat) (ch : Chip) : Chip :=
  match commitBuffer? cfg op with
  | some q => ch.commit cfg c q p
  | none =>
    match transferBuffer? op with
    | some q => ch.transfer cfg c q p
    | none =>
      if op = opcPageErase then ch.erasePages cfg p 1
      else if op = opcSectorErase then ch.erasePages cfg (sectorStart cfg p) (sectorLength cfg p)
      else ch

/-- R83 to R89: `Desel(c)` ends the frame and, if the chip is not busy, starts what the frame asks for. -/
def deselect (cfg : Config) (c : Nat) (ch : Chip) : Chip :=
  if ch.busy then ch
  else
    match ch.received with
    | [op, b0, b1, b2] =>
      if [op, b0, b1, b2] = chipEraseFrame then ch.eraseChip
      else ch.addressed cfg c op (decodePage cfg (addrOf b0 b1 b2))
    | _ => ch

end Sys2Proof.Machine.Chip
end

