-- ==== Sys2Proof/Machine/Bus.lean ====
section
/-! DEFINITION. The bus primitives `Sel`, `Desel`, `Xfer` (R14) and the result of a procedure (R18). Every primitive is one
bus event (R15); the chips settle before it (R80) and the selected chip reacts to it (R79). -/

namespace Sys2Proof.Machine

/-- R18: how a procedure ends: normally with a value, or by `raise <Error>(c)`. -/
inductive Res (σ α : Type) where
  | ok (a : α) (s : σ)
  | raise (e : ErrorKind) (c : Nat) (s : σ)
  deriving DecidableEq, Repr

/-- Go on after a normal end. -/
def Res.andThen {σ α β : Type} (r : Res σ α) (f : α → σ → Res σ β) : Res σ β :=
  match r with
  | .ok a s => f a s
  | .raise e c s => .raise e c s

namespace Bus

/-- R80: every busy chip may turn ready before bus event `n`; `c` is the index of the first chip of the list. -/
def settleFrom (n : Nat) : Nat → List Chip → List Chip
  | _, [] => []
  | c, ch :: chs => ch.settle c n :: settleFrom n (c + 1) chs

/-- R80: the moment before the next bus event. -/
def settle (b : Bus) : Bus := { b with chips := settleFrom b.tick 0 b.chips }

/-- A change of chip `c` alone (R90). -/
def onChip (c : Nat) (f : Chip → Chip) (b : Bus) : Bus := { b with chips := b.chips.modify c f }

/-- R15: a bus event has happened. -/
def emit (e : Event) (b : Bus) : Bus := { b with trace := b.trace ++ [e], tick := b.tick + 1 }

/-- R14, R29: `Sel(c)`. -/
def sel (c : Nat) (b : Bus) : Bus :=
  ({ b.settle with cs := some c }.onChip c Chip.select).emit (.sel c)

/-- R14, R29: `Desel(c)`. -/
def desel (cfg : Config) (c : Nat) (b : Bus) : Bus :=
  ({ b.settle with cs := none }.onChip c (Chip.deselect cfg c)).emit (.desel c)

/-- What the other side of the bus answers to the next exchange when nothing outside supplies it: the selected chip's
answer (R81, R85), a free byte where no chip is selected (log 6). -/
def chipAnswer (cfg : Config) (b : Bus) : Byte :=
  match b.cs with
  | some c =>
    match b.chips[c]? with
    | some ch => ch.answer cfg c b.tick
    | none => Config.freeByte b.tick
  | none => Config.freeByte b.tick

/-- R14, R308: the answer of the next exchange: the one supplied from outside, else the chip's. Only with
`HAS_BUS_FAULT` true can it be `fault` (R11). -/
def answer (cfg : Config) (b : Bus) : Answer :=
  match b.answers with
  | .byte v :: _ => .byte v
  | .fault :: _ => if cfg.hasBusFault then .fault else .byte (b.chipAnswer cfg)
  | [] => if cfg.hasBusFault && Config.freeFault b.tick then .fault else .byte (b.chipAnswer cfg)

/-- R79: the selected chip receives the byte sent, unless the exchange faulted (log 8). -/
def deliver (cfg : Config) (o : Byte) (a : Answer) (b : Bus) : Bus :=
  match a, b.cs with
  | .byte _, some c => b.onChip c (Chip.receive cfg o)
  | _, _ => b

/-- R14: an exchange in which `o` is sent and `a` answered. -/
def exchange (cfg : Config) (o : Byte) (a : Answer) (b : Bus) : Bus :=
  ({ b.settle with answers := b.answers.tail }.deliver cfg o a).emit (.x o a)

/-- R14: `Xfer(o)`: the answer, and the bus after it. -/
def xfer (cfg : Config) (o : Byte) (b : Bus) : Answer × Bus :=
  let a := b.settle.answer cfg
  (a, b.exchange cfg o a)

/-- The chip of select line `c`. -/
def chip (b : Bus) (c : Nat) : Chip := b.chips[c]?.getD Chip.blank

/-- R73, R297: chip `c` has been seen ready. -/
def noteReady (c : Nat) (b : Bus) : Bus := b.onChip c Chip.confirmed

/-- R301, U4: every chip's buffers hold unknown mixtures. -/
def loseBuffers (b : Bus) : Bus := { b with chips := b.chips.map (Chip.loseBuffers b.tick) }

/-- R298: a frame that makes chip `c` busy is about to be sent. -/
def noteBusyFrame (c : Nat) (b : Bus) : Bus :=
  { b with hazard := { b.hazard with unreadyFrame := b.hazard.unreadyFrame || !(b.chip c).knownReady } }.onChip c
    (fun ch => { ch with knownReady := false })

/-- U9, R304: a commit of page `p` of chip `c` is about to be sent. -/
def noteCommit (cfg : Config) (c p : Nat) (b : Bus) : Bus :=
  { b with hazard := { b.hazard with
      unerasedCommit := b.hazard.unerasedCommit || (cfg.commitVariant && !(b.chip c).pageErased cfg p) } }

end Bus

end Sys2Proof.Machine
end

