-- ==== Sys2Proof/Machine/Ops.lean ====
section
/-! DEFINITION. The named operations over the block's registers: reading and changing a handle bank (R20), the state
preconditions (R32), the order of checks (R255), answering (R114), and taking an error, the abort (R256), beside it. -/

namespace Sys2Proof.Machine

namespace State

/-- R20: bank `c`. -/
def handle (s : State) (c : Nat) : Handle := s.handles[c]?.getD Handle.reset

/-- A change of bank `c` alone. -/
def onHandle (c : Nat) (f : Handle → Handle) (s : State) : State := { s with handles := s.handles.modify c f }

/-- R32: "the block is Idle". -/
def idle (s : State) : Bool := s.handles.all (fun h => decide (h.est = .idle))

/-- R32: "the block is Filling". -/
def filling (s : State) : Bool := s.handles.all (fun h => decide (h.est = .filling))

/-- Run a bus procedure. -/
def onBus {α : Type} (f : Bus → Res Bus α) (s : State) : Res State α :=
  match f s.bus with
  | .ok a b => .ok a { s with bus := b }
  | .raise e c b => .raise e c { s with bus := b }

/-- R114: `resp[15:12] = chip`, `resp[11] = 0`, `resp[10:8] = err`, `resp[7:0]` the status byte for `READ_STATUS`, else 0. -/
def responseWord (err : Option ErrorKind) (chip : Nat) (low : Byte) : BitVec 16 :=
  (BitVec.ofNat 4 chip) ++ (0 : BitVec 1) ++ (BitVec.ofNat 3 (errCode err)) ++ low

/-- R114: one response. `low` is the low byte of its word. -/
def respond (err : Option ErrorKind) (chip : Nat) (data : List Byte) (low : Byte) (s : State) : State :=
  { s with responses := s.responses ++ [⟨err, chip, data, responseWord err chip low⟩] }

/-- R256: an error found by a check: no bus event, no state change, the response `(kind, 0, [])`. -/
def refuse (e : ErrorKind) (s : State) : State := s.respond (some e) 0 [] 0

/-- R256 step 1: `if cs = some j: Desel(j)`. -/
def release (s : State) : Bus :=
  match s.bus.cs with
  | some j => s.bus.desel s.cfg j
  | none => s.bus

/-- R256 steps 1 to 3: deselect, every engine Idle with offset 0, the striper's offset 0. An abort that ends a write session
leaves the chips' buffers unknown (R301, U4). -/
def abort (s : State) : State :=
  { s with
    bus := if s.idle then s.release else s.release.loseBuffers
    handles := s.handles.map (fun h => { h with est := .idle, off := 0 })
    soff := 0 }

/-- R256: taking `DeviceTimeout(c)` or `BusFault(c)`: the abort, then the response `(kind, c, [])`. -/
def takeError (e : ErrorKind) (c : Nat) (s : State) : State := s.abort.respond (some e) c [] 0

/-- R18, R256: the end of a host operation: `OK(data)`, or the error taken. `low` gives the low byte of the OK word.
There is no return from an error: the block is ready for the next operation (R258). -/
def conclude (low : List Byte → Byte) : Res State (List Byte) → State
  | .ok data s => s.respond none 0 data (low data)
  | .raise e c s => s.takeError e c

end State

/-- R255: the checks in order; the first that fails decides. -/
def firstError : List (Bool × ErrorKind) → Option ErrorKind
  | [] => none
  | (holds, e) :: rest => if holds then firstError rest else some e

/-- R114: the low byte of the OK word of every operation but `READ_STATUS`. -/
def lowZero (_ : List Byte) : Byte := 0

/-- R114: the low byte of `READ_STATUS`'s OK word. -/
def lowStatus (data : List Byte) : Byte := data.headD 0

/-- The state after a host operation: its checks, then its body. -/
def operate (checks : List (Bool × ErrorKind)) (low : List Byte → Byte) (body : State → Res State (List Byte))
    (s : State) : State :=
  match firstError checks with
  | some e => s.refuse e
  | none => State.conclude low (body s)

/-- R17, R305: a host operation always ends in an answer. -/
def perform (checks : List (Bool × ErrorKind)) (low : List Byte → Byte) (body : State → Res State (List Byte))
    (s : State) : Host.Outcome State Fault Refusal :=
  .next (operate checks low body s)

/-- R113: a malformed request: "no bus event, changes no state and answers `SequenceMisuse`". -/
def answerMalformed (s : State) : Host.Outcome State Fault Refusal := .next (s.refuse .sequenceMisuse)

/-- R17: the oldest request, and the state without it. -/
def takeRequest (s : State) : Option (Request × State) :=
  match s.pending with
  | [] => none
  | r :: rest => some (r, { s with pending := rest })

end Sys2Proof.Machine
end

