-- ==== Sys2Proof/Machine/Transport.lean ====
section
/-! DEFINITION. The Command Transport (spec/41_transport.md): `issue`, `statusRead`, `pollReady`, and the five host
operations that are one transport call. -/

namespace Sys2Proof.Machine

/-- R161: `transferBlock(outBuf, size) -> inBuf`, one exchange for each byte sent, in order; R160: the first exchange that
answers `fault` ends it with `BusFault(c)`. -/
def transferBlock (cfg : Config) (c : Nat) : List Byte → Bus → Res Bus (List Byte)
  | [], b => .ok [] b
  | o :: os, b =>
    match b.xfer cfg o with
    | (.fault, b') => .raise .busFault c b'
    | (.byte v, b') => (transferBlock cfg c os b').andThen fun vs b'' => .ok (v :: vs) b''

/-- R101: the bytes sent in `n` dummy or response positions. -/
def dummies (n : Nat) : List Byte := List.replicate n dummyOut

/-- R150: `issue(c, hdr, nd, nr) -> resp`, one whole frame. -/
def issue (cfg : Config) (c : Nat) (hdr : List Byte) (nd nr : Nat) (b : Bus) : Res Bus (List Byte) :=
  (transferBlock cfg c hdr (b.sel c)).andThen fun _ b =>
  (transferBlock cfg c (dummies nd) b).andThen fun _ b =>
  (transferBlock cfg c (dummies nr) b).andThen fun resp b =>
  .ok resp (b.desel cfg c)

/-- R152: `statusRead(c) -> s`. A byte with bit 7 set shows the chip ready (R73). -/
def statusRead (cfg : Config) (c : Nat) (b : Bus) : Res Bus Byte :=
  (issue cfg c [opcStatusRead] 0 1 b).andThen fun resp b =>
  let s := resp.headD 0
  .ok s (if ready s then b.noteReady c else b)

/-- R153: at most `k` status reads, until one shows bit 7 set. -/
def pollLoop (cfg : Config) (c : Nat) : Nat → Bus → Res Bus Unit
  | 0, b => .raise .deviceTimeout c b
  | k + 1, b => (statusRead cfg c b).andThen fun s b => if ready s then .ok () b else pollLoop cfg c k b

/-- R153: `pollReady(c)`. -/
def pollReady (cfg : Config) (c : Nat) (b : Bus) : Res Bus Unit := pollLoop cfg c cfg.pollLimit b

/-- A transfer, commit or erase frame: `issue` with nothing to receive, on a chip the frame makes busy (R298). -/
def issueBusy (cfg : Config) (c : Nat) (hdr : List Byte) (b : Bus) : Res Bus Unit :=
  (issue cfg c hdr 0 0 (b.noteBusyFrame c)).andThen fun _ b => .ok () b

/-- R157 to R159, R215 steps 4 and 5: an erase frame, then the poll. -/
def eraseAndPoll (cfg : Config) (c : Nat) (hdr : List Byte) (b : Bus) : Res Bus Unit :=
  (issueBusy cfg c hdr b).andThen fun _ b => pollReady cfg c b

/-- R157, R215: the page-erase frame. -/
def pageEraseFrame (cfg : Config) (p : Nat) : List Byte := opcPageErase :: addrBytes (encodePage cfg p)

/-- R158: the sector-erase frame. -/
def sectorEraseFrame (cfg : Config) (p : Nat) : List Byte := opcSectorErase :: addrBytes (encodePage cfg p)

/-- A bus procedure that returns no data, as the body of a host operation. -/
def busBody (f : Bus → Res Bus Unit) (s : State) : Res State (List Byte) :=
  (s.onBus f).andThen fun _ s => .ok [] s

/-- R162 checks (2) and (3): the block is Idle, the chip operand names a chip. -/
def transportChecks (c : ChipField) (s : State) : List (Bool × ErrorKind) :=
  [(s.idle, .sequenceMisuse), (chipInRange s.cfg c, .invalidAddress)]

/-- R162 checks (2), (3) and (4): the page operand names a page as well. -/
def pageChecks (c : ChipField) (p : ArgField) (s : State) : List (Bool × ErrorKind) :=
  transportChecks c s ++ [(pageInRange s.cfg p, .invalidAddress)]

/-- R155: `READ_STATUS c`. -/
def execReadStatus (c : ChipField) (s : State) : Host.Outcome State Fault Refusal :=
  perform (transportChecks c s) lowStatus
    (fun s => (s.onBus (statusRead s.cfg c.toNat)).andThen fun v s => .ok [v] s) s

/-- R156: `WAIT_READY c`. -/
def execWaitReady (c : ChipField) (s : State) : Host.Outcome State Fault Refusal :=
  perform (transportChecks c s) lowZero (busBody (pollReady s.cfg c.toNat)) s

/-- R157: `PAGE_ERASE c, p`. -/
def execPageErase (c : ChipField) (p : ArgField) (s : State) : Host.Outcome State Fault Refusal :=
  perform (pageChecks c p s) lowZero
    (busBody (eraseAndPoll s.cfg c.toNat (pageEraseFrame s.cfg p.toNat))) s

/-- R158: `SECTOR_ERASE c, p`. -/
def execSectorErase (c : ChipField) (p : ArgField) (s : State) : Host.Outcome State Fault Refusal :=
  perform (pageChecks c p s) lowZero
    (busBody (eraseAndPoll s.cfg c.toNat (sectorEraseFrame s.cfg p.toNat))) s

/-- R159: `CHIP_ERASE c`. -/
def execChipErase (c : ChipField) (s : State) : Host.Outcome State Fault Refusal :=
  perform (transportChecks c s) lowZero (busBody (eraseAndPoll s.cfg c.toNat chipEraseFrame)) s

end Sys2Proof.Machine
end

