-- ==== Sys2Proof/Machine/Frames.lean ====
section
/-! DEFINITION. The SPI frames (spec/30_encoding.md R100 to R110): one whole frame sent by `issue` (R150) on one chip, which
reacts to it (spec/20_memory.md R81 to R88). The checks are those of every transport call (R162), after the frame's own
form (log 9, log 10, log 25). -/

namespace Sys2Proof.Machine

/-- The checks of a frame: it is one this instance emits (R107 to R110), the block is Idle, the chip exists (R162). -/
def frameChecks (emitted : Bool) (c : ChipField) (s : State) : List (Bool × ErrorKind) :=
  (emitted, .sequenceMisuse) :: transportChecks c s

/-- A frame of format `SA` (R103) or `S4` (R106) that makes the chip busy. -/
def busyFrame (emitted : Bool) (c : ChipField) (hdr : List Byte) (s : State) : Host.Outcome State Fault Refusal :=
  perform (frameChecks emitted c s) lowZero (busBody (issueBusy s.cfg c.toNat hdr)) s

/-- A frame of format `SA` that is no commit. "No frame builds" its address bytes "any other way" than by `encode` (R108): one asked
for with another field is not sent (log 25). -/
def pageFrameOp (c : ChipField) (op : Byte) (a : AddrField) (s : State) : Host.Outcome State Fault Refusal :=
  busyFrame (isPageField s.cfg a) c (op :: addrBytes a) s

/-- A commit frame (R83), of the pair `variant` selects (R9), with the hazard bit of U9; its address bytes are built by `encode`
(R108, log 25). -/
def commitOp (variant : Bool) (c : ChipField) (op : Byte) (a : AddrField) (s : State) :
    Host.Outcome State Fault Refusal :=
  perform (frameChecks (s.cfg.commitVariant == variant && isPageField s.cfg a) c s) lowZero
    (busBody fun b =>
      issueBusy s.cfg c.toNat (op :: addrBytes a) (b.noteCommit s.cfg c.toNat (decodePage s.cfg a))) s

/-- A whole frame of format `SW` (R104): at most `P` data bytes (R110), and "no other buffer address is ever sent" than `00 00 00`
(R109, D14): one asked for with another is not sent (log 25). With more than none and fewer than `P` data bytes, which in the
block's own operations only an abort leaves (R68, R104), it is sent and completes all the same: DESIGN CHOICE, unsafe, log 26. -/
def writeFrameOp (c : ChipField) (op : Byte) (a : AddrField) (data : List Byte) (s : State) :
    Host.Outcome State Fault Refusal :=
  perform (frameChecks (decide (data.length ≤ s.cfg.pageSize) && isBufferField a) c s) lowZero
    (busBody fun b => (issue s.cfg c.toNat (op :: addrBytes a ++ data) 0 0 b).andThen fun _ b => .ok () b) s

/-- A frame of format `SR` (R105): the `P` response bytes are the data of the response (log 12). Its buffer address is `00 00 00`
(R109, D14): one asked for with another is not sent (log 25). -/
def readFrameOp (c : ChipField) (op : Byte) (a : AddrField) (s : State) : Host.Outcome State Fault Refusal :=
  perform (frameChecks (isBufferField a) c s) lowZero
    (State.onBus (issue s.cfg c.toNat (op :: addrBytes a) s.cfg.bufReadDummy s.cfg.pageSize)) s

/-- R102, R152: `0xD7`. -/
def execSpiStatusRead (c : ChipField) (s : State) : Host.Outcome State Fault Refusal :=
  perform (frameChecks true c s) lowZero
    (fun s => (s.onBus (statusRead s.cfg c.toNat)).andThen fun v s => .ok [v] s) s

/-- R103, R84: `0x53`. -/
def execSpiPageToBuf1 (c : ChipField) (a : AddrField) (s : State) : Host.Outcome State Fault Refusal :=
  pageFrameOp c opcPageToBuf1 a s

/-- R103, R84: `0x55`. -/
def execSpiPageToBuf2 (c : ChipField) (a : AddrField) (s : State) : Host.Outcome State Fault Refusal :=
  pageFrameOp c opcPageToBuf2 a s

/-- R105, R85: `0xD4`. -/
def execSpiBuf1Read (c : ChipField) (a : AddrField) (s : State) : Host.Outcome State Fault Refusal :=
  readFrameOp c opcBuf1Read a s

/-- R105, R85: `0xD6`. -/
def execSpiBuf2Read (c : ChipField) (a : AddrField) (s : State) : Host.Outcome State Fault Refusal :=
  readFrameOp c opcBuf2Read a s

/-- R104, R82: `0x84`. -/
def execSpiBuf1Write (c : ChipField) (a : AddrField) (data : List Byte) (s : State) :
    Host.Outcome State Fault Refusal :=
  writeFrameOp c opcBuf1Write a data s

/-- R104, R82: `0x87`. -/
def execSpiBuf2Write (c : ChipField) (a : AddrField) (data : List Byte) (s : State) :
    Host.Outcome State Fault Refusal :=
  writeFrameOp c opcBuf2Write a data s

/-- R103, R83: `0x83`. -/
def execSpiBuf1Commit (c : ChipField) (a : AddrField) (s : State) : Host.Outcome State Fault Refusal :=
  commitOp false c opcBuf1Commit a s

/-- R103, R83: `0x88`. -/
def execSpiBuf1CommitAlt (c : ChipField) (a : AddrField) (s : State) : Host.Outcome State Fault Refusal :=
  commitOp true c opcBuf1CommitAlt a s

/-- R103, R83: `0x86`. -/
def execSpiBuf2Commit (c : ChipField) (a : AddrField) (s : State) : Host.Outcome State Fault Refusal :=
  commitOp false c opcBuf2Commit a s

/-- R103, R83: `0x89`. -/
def execSpiBuf2CommitAlt (c : ChipField) (a : AddrField) (s : State) : Host.Outcome State Fault Refusal :=
  commitOp true c opcBuf2CommitAlt a s

/-- R103, R86: `0x81`. -/
def execSpiPageErase (c : ChipField) (a : AddrField) (s : State) : Host.Outcome State Fault Refusal :=
  pageFrameOp c opcPageErase a s

/-- R103, R87: `0x7C`. -/
def execSpiSectorErase (c : ChipField) (a : AddrField) (s : State) : Host.Outcome State Fault Refusal :=
  pageFrameOp c opcSectorErase a s

/-- R106, R88: `0xC7 0x94 0x80 0x9A`. -/
def execSpiChipErase (c : ChipField) (s : State) : Host.Outcome State Fault Refusal :=
  busyFrame true c chipEraseFrame s

/-- R107, R163: `0x9F`, never emitted, no frame shape (log 11). -/
def execSpiIdRead (_ : ChipField) (_ : List Byte) (_ : State) : Host.Outcome State Fault Refusal :=
  .refused (.neverEmitted opcIdRead)

/-- R107, R163: `0x77`, never emitted, no frame shape (log 11). -/
def execSpiSecurityRead (_ : ChipField) (_ : List Byte) (_ : State) : Host.Outcome State Fault Refusal :=
  .refused (.neverEmitted opcSecurityRead)

end Sys2Proof.Machine
end

