-- ==== Sys2Proof/Machine/Reserved.lean ====
section
/-! DEFINITION. The four reserved operation codes (R113): "the block performs no bus event, changes no state and answers
`SequenceMisuse`". -/

namespace Sys2Proof.Machine

/-- R113: `op = 0x0`. -/
def execReservedOp0 (_ : BitVec 28) (s : State) : Host.Outcome State Fault Refusal := answerMalformed s

/-- R113: `op = 0xD`. -/
def execReservedOpD (_ : BitVec 28) (s : State) : Host.Outcome State Fault Refusal := answerMalformed s

/-- R113: `op = 0xE`. -/
def execReservedOpE (_ : BitVec 28) (s : State) : Host.Outcome State Fault Refusal := answerMalformed s

/-- R113: `op = 0xF`. -/
def execReservedOpF (_ : BitVec 28) (s : State) : Host.Outcome State Fault Refusal := answerMalformed s

end Sys2Proof.Machine
end

