-- ==== Sys2Proof/Machine/Engine.lean ====
section
/-! DEFINITION. The Single-Chip Sequential Engine (spec/42_engine.md): `engStart`, `engOpen`, `engCommit`, `engFeed`,
`engEnd`, `engReadPage`, over handle bank `c` and chip-select line `c`. -/

namespace Sys2Proof.Machine

/-- R181: `par <- 0`, `est <- Filling`. -/
def Handle.start (h : Handle) : Handle := { h with par := .a, est := .filling }

/-- R181: `engStart(c)`. -/
def engStart (c : Nat) (s : State) : State := s.onHandle c Handle.start

/-- R104, R182: the header of a buffer write at offset 0. -/
def openFrame (q : Parity) : List Byte := opcBufWrite q :: addrBytes bufferStart

/-- R182: `engOpen(c)`. The frame is left open. -/
def engOpen (c : Nat) (s : State) : Res State Unit :=
  (s.onBus fun b => transferBlock s.cfg c (openFrame (s.handle c).par) (b.sel c)).andThen fun _ s => .ok () s

/-- R184 step 5: the commit frame of buffer `q` at page `p`. -/
def commitFrame (cfg : Config) (q : Parity) (p : Nat) : List Byte := opcCommit cfg q :: addrBytes (encodePage cfg p)

/-- R184 steps 6 to 9. -/
def Handle.committed (h : Handle) : Handle where
  par := h.par.flip
  wpage := h.wpage + 1
  rpage := h.rpage
  off := 0
  est := .filling

/-- R184 steps 1 and 2. -/
def engCloseFull (c : Nat) (s : State) : State :=
  { s with bus := s.bus.desel s.cfg c }.onHandle c (fun h => { h with est := .committing })

/-- R184: `engCommit(c)`, the page-full sequence. -/
def engCommit (c : Nat) (s : State) : Res State Unit :=
  ((engCloseFull c s).onBus (pollReady s.cfg c)).andThen fun _ s =>
  let h := s.handle c
  (s.onBus fun b => issueBusy s.cfg c (commitFrame s.cfg h.par h.wpage) (b.noteCommit s.cfg c h.wpage)).andThen fun _ s =>
  .ok () (s.onHandle c Handle.committed)

/-- R183 step 2, first branch: `off <- off + 1`. -/
def Handle.fed (h : Handle) : Handle := { h with off := h.off + 1 }

/-- R183 step 1: the byte on the open frame. -/
def engSend (c : Nat) (v : Byte) (s : State) : Res State Unit :=
  (s.onBus (transferBlock s.cfg c [v])).andThen fun _ s => .ok () s

/-- R183: `engFeed(c, b)`. -/
def engFeed (c : Nat) (v : Byte) (s : State) : Res State Unit :=
  (engSend c v s).andThen fun _ s =>
  if (s.handle c).off + 1 < s.cfg.pageSize then .ok () (s.onHandle c Handle.fed) else engCommit c s

/-- R188: `est <- Idle`. -/
def Handle.finished (h : Handle) : Handle := { h with est := .idle }

/-- R188: `engEnd(c)`. -/
def engEnd (c : Nat) (s : State) : State := s.onHandle c Handle.finished

/-- R186 step 6: `rpage <- rpage + 1`. -/
def Handle.wasRead (h : Handle) : Handle := { h with rpage := h.rpage + 1 }

/-- R186 step 3: the page-to-buffer frame. -/
def transferFrame (cfg : Config) (p : Nat) : List Byte :=
  opcPageToBuf (.ofPage p) :: addrBytes (encodePage cfg p)

/-- R186 step 5: the header of the buffer-read frame. -/
def readFrame (p : Nat) : List Byte := opcBufRead (.ofPage p) :: addrBytes bufferStart

/-- R186: `engReadPage(c) -> data`. -/
def engReadPage (c : Nat) (s : State) : Res State (List Byte) :=
  let p := (s.handle c).rpage
  (s.onBus (issueBusy s.cfg c (transferFrame s.cfg p))).andThen fun _ s =>
  (s.onBus (pollReady s.cfg c)).andThen fun _ s =>
  (s.onBus (issue s.cfg c (readFrame p) s.cfg.bufReadDummy s.cfg.pageSize)).andThen fun data s =>
  .ok data (s.onHandle c Handle.wasRead)

end Sys2Proof.Machine
end

