-- ==== Sys2Proof/Machine/Striper.lean ====
section
/-! DEFINITION. The Multi-Chip Striper (spec/43_striper.md): the seven stream operations. -/

namespace Sys2Proof.Machine

/-- R210 step 1, R213 step 3, R216 and R217 step 1: `for c = 0 .. N-1` over the handle banks. -/
def State.forEachChip (f : Nat → State → State) : Nat → State → State
  | 0, s => s
  | k + 1, s => f k (forEachChip f k s)

/-- R210: the body of `START_W`. -/
def startBody (s : State) : Res State (List Byte) :=
  (engOpen s.curW (s.forEachChip engStart s.cfg.chips)).andThen fun _ s => .ok [] s

/-- R210: `START_W`. -/
def execStartW (s : State) : Host.Outcome State Fault Refusal :=
  perform [(s.idle, .sequenceMisuse)] lowZero startBody s

/-- R26, R222: `(cur + 1) mod N`. -/
def nextChip (cfg : Config) (cur : Nat) : Nat := (cur + 1) % cfg.chips

/-- R211 steps 5 to 8: the page advance. -/
def pageAdvance (c : Nat) (s : State) : Res State (List Byte) :=
  (engCommit c s).andThen fun _ s =>
  let s := { s with soff := 0, curW := nextChip s.cfg s.curW }
  (engOpen s.curW s).andThen fun _ s => .ok [] s

/-- R211: the body of `WRITE_BYTE`. -/
def writeBody (v : Byte) (s : State) : Res State (List Byte) :=
  let c := s.curW
  (engSend c v s).andThen fun _ s =>
  if s.soff + 1 < s.cfg.pageSize then .ok [] { s.onHandle c Handle.fed with soff := s.soff + 1 }
  else pageAdvance c s

/-- R211 checks (2) and (3). -/
def writeChecks (s : State) : List (Bool × ErrorKind) :=
  [(s.filling, .sequenceMisuse), (decide ((s.handle s.curW).wpage < s.cfg.numPages), .invalidAddress)]

/-- R211: `WRITE_BYTE b`. -/
def execWriteByte (v : Byte) (s : State) : Host.Outcome State Fault Refusal :=
  perform (writeChecks s) lowZero (writeBody v) s

/-- R213 step 2: `for c = ..: pollReady(c)`, `k` chips from chip `c` on. -/
def pollFrom (cfg : Config) : Nat → Nat → Bus → Res Bus Unit
  | 0, _, b => .ok () b
  | k + 1, c, b => (pollReady cfg c b).andThen fun _ b => pollFrom cfg k (c + 1) b

/-- R213: the body of `END_W`. -/
def endBody (s : State) : Res State (List Byte) :=
  (State.onBus (pollFrom s.cfg s.cfg.chips 0) { s with bus := s.bus.desel s.cfg s.curW }).andThen fun _ s =>
  .ok [] (s.forEachChip engEnd s.cfg.chips)

/-- R213: `END_W`. -/
def execEndW (s : State) : Host.Outcome State Fault Refusal :=
  perform [(s.filling, .sequenceMisuse), (decide (s.soff = 0), .sequenceMisuse)] lowZero endBody s

/-- R214: the body of `READ_PAGE`. The data leave on the byte stream (R114). -/
def readBody (s : State) : Res State (List Byte) :=
  (engReadPage s.curR s).andThen fun data s =>
  .ok data { s with curR := nextChip s.cfg s.curR, stream := s.stream ++ data }

/-- R214: `READ_PAGE`. -/
def execReadPage (s : State) : Host.Outcome State Fault Refusal :=
  perform [(s.idle, .sequenceMisuse), (decide ((s.handle s.curR).rpage < s.cfg.numPages), .invalidAddress)] lowZero
    readBody s

/-- R215 steps 1 to 5: `k` logical pages from `l` on. -/
def eraseFrom (cfg : Config) : Nat → Nat → Bus → Res Bus Unit
  | 0, _, b => .ok () b
  | k + 1, l, b =>
    (eraseAndPoll cfg (pageChip cfg l) (pageEraseFrame cfg (pageIndex cfg l)) b).andThen fun _ b =>
    eraseFrom cfg k (l + 1) b

/-- R215 to R217: the block is Idle, the operand is at most `N * NUM_PAGES`. -/
def countChecks (n : ArgField) (s : State) : List (Bool × ErrorKind) :=
  [(s.idle, .sequenceMisuse), (countInRange s.cfg n, .invalidAddress)]

/-- R215: `ERASE_RANGE n`. -/
def execEraseRange (n : ArgField) (s : State) : Host.Outcome State Fault Refusal :=
  perform (countChecks n s) lowZero (busBody (eraseFrom s.cfg n.toNat 0)) s

/-- R216 step 1, for one chip. -/
def seekChipW (l c : Nat) (s : State) : State := s.onHandle c (fun h => { h with wpage := cursorAt s.cfg l c })

/-- R216: the body of `SEEK_W`. -/
def seekBodyW (l : Nat) (s : State) : Res State (List Byte) :=
  .ok [] { s.forEachChip (seekChipW l) s.cfg.chips with curW := pageChip s.cfg l }

/-- R216: `SEEK_W L`. -/
def execSeekW (l : ArgField) (s : State) : Host.Outcome State Fault Refusal :=
  perform (countChecks l s) lowZero (seekBodyW l.toNat) s

/-- R217 step 1, for one chip. -/
def seekChipR (l c : Nat) (s : State) : State := s.onHandle c (fun h => { h with rpage := cursorAt s.cfg l c })

/-- R217: the body of `SEEK_R`. -/
def seekBodyR (l : Nat) (s : State) : Res State (List Byte) :=
  .ok [] { s.forEachChip (seekChipR l) s.cfg.chips with curR := pageChip s.cfg l }

/-- R217: `SEEK_R L`. -/
def execSeekR (l : ArgField) (s : State) : Host.Outcome State Fault Refusal :=
  perform (countChecks l s) lowZero (seekBodyR l.toNat) s

/-- R258: `Lw`, the next logical page the block would write. -/
def State.nextLogicalPage (s : State) : Nat := (s.handle s.curW).wpage * s.cfg.chips + s.curW

end Sys2Proof.Machine
end

