-- ==== Sys2Proof/Machine/Dispatch.lean ====
section
/-! DEFINITION. One arm for each instruction. -/

namespace Sys2Proof.Machine

def exec (i : Instr) (s : State) : Host.Outcome State Fault Refusal :=
  match i with
  | .startW => Sys2Proof.Machine.execStartW s
  | .writeByte b => Sys2Proof.Machine.execWriteByte b s
  | .endW => Sys2Proof.Machine.execEndW s
  | .readPage => Sys2Proof.Machine.execReadPage s
  | .eraseRange n => Sys2Proof.Machine.execEraseRange n s
  | .seekW l => Sys2Proof.Machine.execSeekW l s
  | .seekR l => Sys2Proof.Machine.execSeekR l s
  | .readStatus c => Sys2Proof.Machine.execReadStatus c s
  | .waitReady c => Sys2Proof.Machine.execWaitReady c s
  | .pageErase c p => Sys2Proof.Machine.execPageErase c p s
  | .sectorErase c p => Sys2Proof.Machine.execSectorErase c p s
  | .chipErase c => Sys2Proof.Machine.execChipErase c s
  | .reservedOp0 rest => Sys2Proof.Machine.execReservedOp0 rest s
  | .reservedOpD rest => Sys2Proof.Machine.execReservedOpD rest s
  | .reservedOpE rest => Sys2Proof.Machine.execReservedOpE rest s
  | .reservedOpF rest => Sys2Proof.Machine.execReservedOpF rest s
  | .spiStatusRead c => Sys2Proof.Machine.execSpiStatusRead c s
  | .spiPageToBuf1 c a => Sys2Proof.Machine.execSpiPageToBuf1 c a s
  | .spiPageToBuf2 c a => Sys2Proof.Machine.execSpiPageToBuf2 c a s
  | .spiBuf1Read c a => Sys2Proof.Machine.execSpiBuf1Read c a s
  | .spiBuf2Read c a => Sys2Proof.Machine.execSpiBuf2Read c a s
  | .spiBuf1Write c a data => Sys2Proof.Machine.execSpiBuf1Write c a data s
  | .spiBuf2Write c a data => Sys2Proof.Machine.execSpiBuf2Write c a data s
  | .spiBuf1Commit c a => Sys2Proof.Machine.execSpiBuf1Commit c a s
  | .spiBuf1CommitAlt c a => Sys2Proof.Machine.execSpiBuf1CommitAlt c a s
  | .spiBuf2Commit c a => Sys2Proof.Machine.execSpiBuf2Commit c a s
  | .spiBuf2CommitAlt c a => Sys2Proof.Machine.execSpiBuf2CommitAlt c a s
  | .spiPageErase c a => Sys2Proof.Machine.execSpiPageErase c a s
  | .spiSectorErase c a => Sys2Proof.Machine.execSpiSectorErase c a s
  | .spiChipErase c => Sys2Proof.Machine.execSpiChipErase c s
  | .spiIdRead c rest => Sys2Proof.Machine.execSpiIdRead c rest s
  | .spiSecurityRead c rest => Sys2Proof.Machine.execSpiSecurityRead c rest s

end Sys2Proof.Machine
end

