-- ==== Sys2Proof/Machine/Reset.lean ====
section
/-! DEFINITION. A reset of a block in place (spec/70_reset_and_hazards.md R290 to R293): between host operations, and in the
middle of one, which it cuts off. No host operation does this: it is an input (log 21). -/

namespace Sys2Proof.Machine

/-- R62: the event brings a byte that shows a chip ready. -/
def Event.bringsReady : Event → Bool
  | .x _ (.byte v) => ready v
  | _ => false

/-- The event sends the byte `o`. -/
def Event.sends (o : Byte) : Event → Bool
  | .x out _ => out == o
  | _ => false

/-- The event begins a frame. -/
def Event.isSel : Event → Bool
  | .sel _ => true
  | _ => false

/-- R73, R152: a trace, newest event first, that a `Desel` ends: the frame is a whole status frame and its byte shows the chip
ready. -/
def showsReady : List Event → Bool
  | _ :: status :: opcode :: start :: _ => status.bringsReady && opcode.sends opcStatusRead && start.isSel
  | _ => false

/-- R73, R74: a frame of chip `c` has ended; if it has shown the chip ready, what was committed is confirmed. -/
def Bus.confirmSeen (c : Nat) (b : Bus) : Bus := if showsReady b.trace.reverse then b.noteReady c else b

/-- R14, R15: what one bus event does to the bus and the chips. -/
def Bus.react (cfg : Config) (b : Bus) : Event → Bus
  | .sel c => b.sel c
  | .desel c => (b.desel cfg c).confirmSeen c
  | .x o a => b.exchange cfg o a

/-- R15: the bus after the events `es`. -/
def Bus.replay (cfg : Config) (es : List Event) (b : Bus) : Bus := es.foldl (Bus.react cfg) b

/-- R291, R293: the chips at a reset. The one whose frame is cut, if a select is asserted, holds any value (U5); the main
arrays of the others are not touched. -/
def Bus.resetSelects (b : Bus) : Bus :=
  let cut := match b.cs with
    | some c => b.onChip c (Chip.cutShort b.tick)
    | none => b
  { cut with cs := none, chips := cut.chips.mapIdx fun c ch => ch.atReset c b.tick }

namespace State

/-- R290, R291, R293: a reset of the block in place: every register as after construction (R39), every select line deasserted,
no bus event. A new trace begins; what has been answered, and what is still asked, stays as it is. -/
def blockReset (s : State) : State :=
  { s with
    handles := List.replicate s.cfg.chips Handle.reset
    curW := 0
    curR := 0
    soff := 0
    bus := { s.bus.resetSelects with trace := [] }
    resetIn := none
    past := s.past ++ [s.bus.trace] }

/-- The bus events by which a run of the block has led from `s` to `t`. -/
def eventsSince (s t : State) : List Event := t.bus.trace.drop s.bus.trace.length

/-- R291: the host operation that leads from `s` to `t` is cut off after its first `k` bus events. It does not answer. The
chips are as those events leave them; the hazard bits are those of the whole operation (log 21). -/
def cutOff (k : Nat) (s t : State) : State :=
  blockReset { s with bus := { s.bus.replay s.cfg ((eventsSince s t).take k) with hazard := t.bus.hazard } }

/-- R291: a host operation leads from `s` to `t` while a reset comes after `k` more bus events: it is cut off if it makes
more than those, else it ends and the reset is still to come. -/
def resetDuring (k : Nat) (s t : State) : State :=
  if k < (eventsSince s t).length then cutOff k s t else { t with resetIn := some (k - (eventsSince s t).length) }

end State

end Sys2Proof.Machine
end

