-- ==== Sys2Proof/Machine/Step.lean ====
section
/-! DEFINITION. One step: the oldest request is taken, decoded and run to its end (R17), or to the reset that cuts it off
(R291). -/

namespace Sys2Proof.Machine

/-- What the block does with one request: a malformed one is answered `SequenceMisuse` (R113). -/
def serve (r : Request) (s : State) : Host.Outcome State Fault Refusal :=
  match decode r with
  | .ok i => exec i s
  | .error _ => answerMalformed s

/-- R17: the oldest request is served. With nothing asked the block waits (R267: "either executing a host operation or
waiting for the next"; log 14). -/
def serveOldest (s : State) : Host.Outcome State Fault Refusal :=
  match takeRequest s with
  | some (r, s') => serve r s'
  | none => .next s

/-- R291: the oldest request is served while a reset comes after `k` more bus events. -/
def serveUntilReset (k : Nat) (s : State) : Host.Outcome State Fault Refusal :=
  match takeRequest s with
  | some (r, s') =>
    match serve r s' with
    | .next t => .next (State.resetDuring k s' t)
    | .fault f => .fault f
    | .refused e => .refused e
  | none => .next s

/-- One step: a reset that is due, else the oldest request. A state whose parameters break a bound is no instance (R12;
log 16). -/
def step (s : State) : Host.Outcome State Fault Refusal :=
  if s.cfg.valid then
    match s.resetIn with
    | none => serveOldest s
    | some 0 => .next s.blockReset
    | some (k + 1) => serveUntilReset (k + 1) s
  else .fault .parameterOutOfRange

/-- The state with the request the opcode table's bits stand for asked next, and no reset coming (log 9, log 20). -/
def State.withFetchWord (s : State) (nbits w : Nat) : State :=
  { s with pending := tableRequest nbits w :: s.pending, resetIn := none }

end Sys2Proof.Machine
end

