-- ==== Sys2Proof/Machine/Pseudo.lean ====
section
/-! DEFINITION. The pseudo-operations (R116), fixed expansions into host operations, and how an expansion runs: "An expansion
stops at the first operation that answers an error." -/

namespace Sys2Proof.Machine

/-- `WRITE_BLOCK b0, b1, ..., bk`. -/
def writeBlock (bs : List Byte) : List Instr := bs.map .writeByte

/-- `WRITE_FILL n, b`. -/
def writeFill (n : Nat) (b : Byte) : List Instr := List.replicate n (.writeByte b)

/-- `READ_PAGES n`. -/
def readPages (n : Nat) : List Instr := List.replicate n .readPage

/-- `REWIND_W`. -/
def rewindW : List Instr := [.seekW 0]

/-- `REWIND_R`. -/
def rewindR : List Instr := [.seekR 0]

/-- The last response is an error. -/
def lastErred (s : State) : Bool :=
  match s.responses.getLast? with
  | some r => r.err.isSome
  | none => false

/-- Run an expansion, stopping after the first operation that answers an error. -/
def runExpansion : List Instr → State → Host.Outcome State Fault Refusal
  | [], s => .next s
  | i :: is, s =>
    match exec i s with
    | .next s' => if lastErred s' then .next s' else runExpansion is s'
    | .fault f => .fault f
    | .refused r => .refused r

end Sys2Proof.Machine
end

