-- ==== Sys2Proof/Safety.lean ====
section
/-! DEFINITION. The terms claims use: the invariants of spec/10_state.md, the monitor of the bus (R29, R101, R107 to R110),
what a safe run is (R298, R304), and the words for a dialogue on the bus. -/

namespace Sys2Proof.Machine

/-! Invariants of the block. -/

/-- R31, R22, R23: the ranges of a bank's fields. -/
def Handle.InRange (cfg : Config) (h : Handle) : Prop :=
  h.wpage ≤ cfg.numPages ∧ h.rpage ≤ cfg.numPages ∧ h.off < cfg.pageSize

/-- R32: "When the block is Idle, `cs = none`". -/
def State.Resting (s : State) : Prop := (∀ h ∈ s.handles, h.est = .idle) ∧ s.bus.cs = none

/-- R32, R104: "When the block is Filling, `cs = some curW`", and the open frame on chip `curW` holds its header and
`soff` data bytes. -/
def State.Streaming (s : State) : Prop :=
  (∀ h ∈ s.handles, h.est = .filling) ∧ s.bus.cs = some s.curW ∧
  ∃ data, (s.bus.chip s.curW).received = openFrame (s.handle s.curW).par ++ data ∧ data.length = s.soff

/-- Every memory of a chip is in canonical form. -/
def Chip.Canonical (ch : Chip) : Prop := ch.main.wf ∧ ch.buf1.wf ∧ ch.buf2.wf

/-- The invariant of the block and its chips between host operations (section 4 of 10_state.md). -/
structure State.Inv (s : State) : Prop where
  valid : s.cfg.valid = true
  banks : s.handles.length = s.cfg.chips
  devices : s.bus.chips.length = s.cfg.chips
  /-- R26 -/
  curW_lt : s.curW < s.cfg.chips
  /-- R27 -/
  curR_lt : s.curR < s.cfg.chips
  /-- R31, with R22 and R23 -/
  ranges : ∀ h ∈ s.handles, h.InRange s.cfg
  /-- R31 -/
  soff_lt : s.soff < s.cfg.pageSize
  /-- R32 -/
  phase : s.Resting ∨ s.Streaming
  /-- R33 -/
  soff_eq : s.soff = (s.handle s.curW).off
  /-- R33 -/
  parked : ∀ c, c < s.cfg.chips → c ≠ s.curW → (s.handle c).off = 0
  /-- R33: "When the block is Idle, all of them are 0." -/
  rest_soff : s.Resting → s.soff = 0
  canonical : ∀ ch ∈ s.bus.chips, ch.Canonical

/-- R40: the write cursors are those of `k` logical pages behind the stream's position. -/
def State.WriteShape (s : State) (k : Nat) : Prop :=
  k ≤ s.cfg.totalPages ∧ s.curW = pageChip s.cfg k ∧
  ∀ c, c < s.cfg.chips → (s.handle c).wpage = cursorAt s.cfg k c

/-- R40, for the read side. -/
def State.ReadShape (s : State) (k : Nat) : Prop :=
  k ≤ s.cfg.totalPages ∧ s.curR = pageChip s.cfg k ∧
  ∀ c, c < s.cfg.chips → (s.handle c).rpage = cursorAt s.cfg k c

/-- R40: the round-robin shape of both sets of cursors. -/
def State.RoundRobin (s : State) : Prop := (∃ k, s.WriteShape k) ∧ ∃ k, s.ReadShape k

/-- R297: with no answer supplied from outside, a chip known to be ready is not busy. -/
def State.KnownReadyHonest (s : State) : Prop :=
  s.bus.answers = [] ∧ ∀ ch ∈ s.bus.chips, ch.knownReady = true → ch.busy = false

/-- A run that met neither of the host-kept hazards R298 and R304. -/
def State.safe (s : State) : Bool := !s.bus.hazard.unreadyFrame && !s.bus.hazard.unerasedCommit

/-! The bus monitor: "a decoder on the bus (a chip, a bus monitor, a model's trace checker)" (R100). -/

/-- R107: the first bytes of the frames the block emits. -/
def emittedOpcode (cfg : Config) (op : Byte) : Bool :=
  [opcStatusRead, opcPageToBuf1, opcPageToBuf2, opcBuf1Read, opcBuf2Read, opcBuf1Write, opcBuf2Write,
    opcCommit cfg .a, opcCommit cfg .b, opcPageErase, opcSectorErase, 0xC7].contains op

/-- R110: the number of exchanges of a whole frame, from its first byte. -/
def frameLengthOk (cfg : Config) (op : Byte) (n : Nat) : Bool :=
  if op = opcStatusRead then n == 2
  else if op = opcBuf1Write ∨ op = opcBuf2Write then decide (4 ≤ n) && decide (n ≤ 4 + cfg.pageSize)
  else if op = opcBuf1Read ∨ op = opcBuf2Read then n == 4 + cfg.bufReadDummy + cfg.pageSize
  else n == 4

/-- R103 to R109: the address bytes of a frame, once they are all sent: those of `S4` (R106), `00 00 00` for a buffer (R109), else
`encode(p)` of a page (R108). -/
def addressOk (cfg : Config) : List Byte → Bool
  | op :: b0 :: b1 :: b2 :: _ =>
    if op = 0xC7 then [op, b0, b1, b2] == chipEraseFrame
    else if op ∈ [opcBuf1Write, opcBuf2Write, opcBuf1Read, opcBuf2Read] then isBufferField (addrOf b0 b1 b2)
    else isPageField cfg (addrOf b0 b1 b2)
  | _ => true

/-- What a bus monitor knows: no select asserted, or a frame of chip `c`, the bytes sent in it, and whether its last
exchange faulted. -/
inductive Monitor where
  | free
  | inFrame (c : Nat) (sent : List Byte) (faulted : Bool)
  deriving DecidableEq, Repr

/-- One bus event: `none` if the rules forbid it. A frame whose exchange faulted has no further exchange and may be cut
short (R160); every other frame ends whole (R110), with its own chip's `Desel` (R101). -/
def Monitor.next (cfg : Config) : Monitor → Event → Option Monitor
  | .free, .sel c => some (.inFrame c [] false)
  | .inFrame c sent false, .x o i =>
    if emittedOpcode cfg (sent.headD o) && addressOk cfg (sent ++ [o]) then
      some (.inFrame c (sent ++ [o]) (decide (i = .fault)))
    else none
  | .inFrame c sent faulted, .desel d =>
    if c = d ∧ (faulted = true ∨ frameLengthOk cfg (sent.headD 0) sent.length = true) then some .free else none
  | _, _ => none

/-- The monitor over a trace. -/
def Monitor.run (cfg : Config) : Monitor → List Event → Option Monitor
  | m, [] => some m
  | m, e :: es => (m.next cfg e).bind fun m' => run cfg m' es

/-- R29, R101, R107 to R110: the monitor accepts the trace, and knows what `cs` says; an open frame is that of R104 and
holds `soff` data bytes. -/
def State.BusOrderly (s : State) : Prop :=
  match s.bus.cs with
  | none => Monitor.run s.cfg .free s.bus.trace = some .free
  | some c => ∃ data, data.length = s.soff ∧
      Monitor.run s.cfg .free s.bus.trace = some (.inFrame c (openFrame (s.handle c).par ++ data) false)

/-! Words for a dialogue on the bus. Answers are supplied from outside (R308). -/

/-- Exchanges in which `outs` is sent and `ins` received. -/
def exchanges (outs ins : List Byte) : List Event := List.zipWith (fun o i => .x o (.byte i)) outs ins

/-- R101: a whole frame. -/
def frameTrace (c : Nat) (outs ins : List Byte) : List Event := .sel c :: exchanges outs ins ++ [.desel c]

/-- Bytes as answers. -/
def answersOf (ins : List Byte) : List Answer := ins.map .byte

/-- R102, R152: one status frame; the two bytes are what comes in. -/
def statusTrace (c : Nat) (p : Byte × Byte) : List Event := frameTrace c [opcStatusRead, dummyOut] [p.1, p.2]

/-- R153: the status frames of one poll. -/
def pollTrace (c : Nat) (ps : List (Byte × Byte)) : List Event := ps.flatMap (statusTrace c)

/-- The incoming bytes of one poll. -/
def pollBytes (ps : List (Byte × Byte)) : List Byte := ps.flatMap fun p => [p.1, p.2]

/-- R160, R256: a frame cut short: the exchange after the bytes `ins` have come in answers `fault`, and the abort deselects
the chip. -/
def cutFrame (c : Nat) (outs ins : List Byte) : List Event :=
  .sel c :: exchanges (outs.take ins.length) ins ++ [.x (outs.getD ins.length 0) .fault, .desel c]

/-- R160, R153: a poll that meets a bus fault: fewer than `limit` status reads, all with bit 7 clear, then a status frame cut
short after the bytes `is`. -/
def PollFaults (limit : Nat) (ps : List (Byte × Byte)) (is : List Byte) : Prop :=
  ps.length < limit ∧ (∀ p ∈ ps, ready p.2 = false) ∧ is.length < 2

/-- The bus events of such a poll. -/
def pollFaultTrace (c : Nat) (ps : List (Byte × Byte)) (is : List Byte) : List Event :=
  pollTrace c ps ++ cutFrame c [opcStatusRead, dummyOut] is

/-- The answers of such a poll. -/
def pollFaultAnswers (ps : List (Byte × Byte)) (is : List Byte) : List Answer := answersOf (pollBytes ps ++ is) ++ [.fault]

/-- R153: a poll that succeeds: at most `limit` status reads, only the last with bit 7 set. -/
def PollSucceeds (limit : Nat) (ps : List (Byte × Byte)) : Prop :=
  ps.length ≤ limit ∧ ∃ busy last, ps = busy ++ [last] ∧ (∀ p ∈ busy, ready p.2 = false) ∧ ready last.2 = true

/-- R153, R252: a poll that runs out: `limit` status reads, all with bit 7 clear. -/
def PollFails (limit : Nat) (ps : List (Byte × Byte)) : Prop :=
  ps.length = limit ∧ ∀ p ∈ ps, ready p.2 = false

/-- R114: the response `(OK, 0, data)`; `low` is the low byte of its word. -/
def okResponse (data : List Byte) (low : Byte := 0) : Response :=
  { err := none, chip := 0, data := data, word := State.responseWord none 0 low }

/-- R114, R256: the response `(kind, c, [])`. -/
def errResponse (kind : ErrorKind) (c : Nat) : Response :=
  { err := some kind, chip := c, data := [], word := State.responseWord (some kind) c 0 }

/-- R15: the bus after the events `es`: the select owner, what has happened, what answers are left. -/
def Bus.After (b b' : Bus) (cs : Option Nat) (es : List Event) (rest : List Answer) : Prop :=
  b'.cs = cs ∧ b'.trace = b.trace ++ es ∧ b'.answers = rest

/-- R256: the bank of an aborted session. -/
def Handle.aborted (h : Handle) : Handle := { h with est := .idle, off := 0 }

/-- Every register of the block (R20 to R29) is unchanged, and so are the parameters, the queue and the byte stream. -/
def State.SameRegisters (s t : State) : Prop :=
  t.cfg = s.cfg ∧ t.handles = s.handles ∧ t.curW = s.curW ∧ t.curR = s.curR ∧ t.soff = s.soff ∧
  t.bus.cs = s.bus.cs ∧ t.pending = s.pending ∧ t.stream = s.stream

/-- Every byte of chip `c`'s main array reads as before, and no page is newly in doubt (U4). -/
def Bus.SameArray (c : Nat) (b b' : Bus) : Prop :=
  (∀ a, (b'.chip c).mainByte c a = (b.chip c).mainByte c a) ∧ ∀ d ∈ (b'.chip c).doubts, d ∈ (b.chip c).doubts

/-- Every byte of chip `c`'s buffers reads as before. -/
def Bus.SameBuffers (c : Nat) (b b' : Bus) : Prop := ∀ q o, (b'.chip c).bufByte c q o = (b.chip c).bufByte c q o

/-- Every byte of every memory of chip `c` reads as before. -/
def Bus.SameMemory (c : Nat) (b b' : Bus) : Prop := b.SameArray c b' ∧ b.SameBuffers c b'

/-! Tables of the spec. -/

/-- R41: the operations that write `par`. -/
def writesPar : Instr → Bool
  | .startW => true
  | .writeByte _ => true
  | _ => false

/-- R41: the operations that write `wpage`, and those that write `curW`. -/
def writesWriteCursor : Instr → Bool
  | .writeByte _ => true
  | .seekW _ => true
  | _ => false

/-- R41: the operations that write `rpage`, and those that write `curR`. -/
def writesReadCursor : Instr → Bool
  | .readPage => true
  | .seekR _ => true
  | _ => false

/-- R41: the operations that write `off` and `soff` when they answer `OK`. -/
def writesOffset : Instr → Bool
  | .writeByte _ => true
  | _ => false

/-- R41: the operations that write `est` when they answer `OK`. -/
def writesEngineState : Instr → Bool
  | .startW => true
  | .endW => true
  | _ => false

/-- The operations of a write session (R32). Only they may leave `cs` changed, the others write it transiently (R41); an abort
in one of them leaves the chips' buffers unknown (R301, U4). -/
def inSession : Instr → Bool
  | .startW => true
  | .writeByte _ => true
  | .endW => true
  | _ => false

/-- R256: an error that runs the abort. -/
def aborts (r : Response) : Prop := r.err = some .deviceTimeout ∨ r.err = some .busFault

/-- R256: an error found by a check. -/
def turnedAway (r : Response) : Prop := r.err = some .sequenceMisuse ∨ r.err = some .invalidAddress

/-- R298: the chip that gets the first frame of an operation of the Idle block, where no poll stands in front of it and the
frame makes the chip busy; a single frame of that kind too. -/
def firstBusyFrame (s : State) : Instr → Option Nat
  | .readPage => some s.curR
  | .eraseRange n => if n = 0 then none else some (pageChip s.cfg 0)
  | .pageErase c _ => some c.toNat
  | .sectorErase c _ => some c.toNat
  | .chipErase c => some c.toNat
  | .spiPageToBuf1 c _ => some c.toNat
  | .spiPageToBuf2 c _ => some c.toNat
  | .spiBuf1Commit c _ => some c.toNat
  | .spiBuf1CommitAlt c _ => some c.toNat
  | .spiBuf2Commit c _ => some c.toNat
  | .spiBuf2CommitAlt c _ => some c.toNat
  | .spiPageErase c _ => some c.toNat
  | .spiSectorErase c _ => some c.toNat
  | .spiChipErase c => some c.toNat
  | _ => none

/-- R162: the transport calls, with `ERASE_RANGE` (R41, R215) and the single frames: no register is written. -/
def keepsRegisters : Instr → Bool
  | .startW => false
  | .writeByte _ => false
  | .endW => false
  | .readPage => false
  | .seekW _ => false
  | .seekR _ => false
  | _ => true

/-- R269: which operation can answer which error. A single frame has the errors of `READ_STATUS` (log 9). -/
def mayAnswer (i : Instr) (e : ErrorKind) : Bool :=
  match e, i with
  | .sequenceMisuse, _ => true
  | .invalidAddress, .startW => false
  | .invalidAddress, .endW => false
  | .invalidAddress, .reservedOp0 _ => false
  | .invalidAddress, .reservedOpD _ => false
  | .invalidAddress, .reservedOpE _ => false
  | .invalidAddress, .reservedOpF _ => false
  | .invalidAddress, _ => true
  | .deviceTimeout, .writeByte _ => true
  | .deviceTimeout, .endW => true
  | .deviceTimeout, .readPage => true
  | .deviceTimeout, .eraseRange _ => true
  | .deviceTimeout, .waitReady _ => true
  | .deviceTimeout, .pageErase _ _ => true
  | .deviceTimeout, .sectorErase _ _ => true
  | .deviceTimeout, .chipErase _ => true
  | .deviceTimeout, _ => false
  | .busFault, .seekW _ => false
  | .busFault, .seekR _ => false
  | .busFault, .reservedOp0 _ => false
  | .busFault, .reservedOpD _ => false
  | .busFault, .reservedOpE _ => false
  | .busFault, .reservedOpF _ => false
  | .busFault, _ => true

/-- R114: how many data bytes an OK response has. -/
def responseLength (cfg : Config) : Instr → Nat
  | .readPage => cfg.pageSize
  | .readStatus _ => 1
  | .spiStatusRead _ => 1
  | .spiBuf1Read _ _ => cfg.pageSize
  | .spiBuf2Read _ _ => cfg.pageSize
  | _ => 0

/-- R114: the low byte of the response word. -/
def responseLow (i : Instr) (r : Response) : Byte :=
  match i with
  | .readStatus _ => r.data.headD 0
  | _ => 0

/-- R305: the bus events of one whole `pollReady`. -/
def pollEvents (cfg : Config) : Nat := 4 * cfg.pollLimit

/-- R305: an upper bound on the bus events of one host operation that meets no bus fault; for a reserved code, none (R113). For a
single frame R305 gives no number: the bound is the model's (log 9), two events more than the exchanges of the frame (R110,
R150). -/
def eventBound (s : State) : Instr → Nat
  | .startW => 5
  | .writeByte _ => if s.soff + 1 < s.cfg.pageSize then 1 else 1 + 1 + pollEvents s.cfg + 6 + 5
  | .endW => 1 + s.cfg.chips * pollEvents s.cfg
  | .readPage => 6 + pollEvents s.cfg + 6 + s.cfg.bufReadDummy + s.cfg.pageSize
  | .eraseRange n => n.toNat * (6 + pollEvents s.cfg)
  | .seekW _ => 0
  | .seekR _ => 0
  | .readStatus _ => 4
  | .waitReady _ => pollEvents s.cfg
  | .pageErase _ _ => 6 + pollEvents s.cfg
  | .sectorErase _ _ => 6 + pollEvents s.cfg
  | .chipErase _ => 6 + pollEvents s.cfg
  | .reservedOp0 _ => 0
  | .reservedOpD _ => 0
  | .reservedOpE _ => 0
  | .reservedOpF _ => 0
  | .spiStatusRead _ => 4
  | .spiBuf1Read _ _ => 6 + s.cfg.bufReadDummy + s.cfg.pageSize
  | .spiBuf2Read _ _ => 6 + s.cfg.bufReadDummy + s.cfg.pageSize
  | .spiBuf1Write _ _ data => 6 + data.length
  | .spiBuf2Write _ _ data => 6 + data.length
  | _ => 6

/-- R63, R90: the chips whose memory an operation can change. -/
def storesOn (s : State) (i : Instr) (c : Nat) : Prop :=
  match i with
  | .writeByte _ => c = s.curW
  | .readPage => c = s.curR
  | .eraseRange n => ∃ l, l < n.toNat ∧ c = pageChip s.cfg l
  | .pageErase d _ => c = d.toNat
  | .sectorErase d _ => c = d.toNat
  | .chipErase d => c = d.toNat
  | .spiPageToBuf1 d _ => c = d.toNat
  | .spiPageToBuf2 d _ => c = d.toNat
  | .spiBuf1Write d _ _ => c = d.toNat
  | .spiBuf2Write d _ _ => c = d.toNat
  | .spiBuf1Commit d _ => c = d.toNat
  | .spiBuf1CommitAlt d _ => c = d.toNat
  | .spiBuf2Commit d _ => c = d.toNat
  | .spiBuf2CommitAlt d _ => c = d.toNat
  | .spiPageErase d _ => c = d.toNat
  | .spiSectorErase d _ => c = d.toNat
  | .spiChipErase d => c = d.toNat
  | _ => False

/-- R9, R83: the commit frame of buffer `q` that `COMMIT_VARIANT` selects. -/
def commitInstr (cfg : Config) (q : Parity) (c : ChipField) (a : AddrField) : Instr :=
  match q, cfg.commitVariant with
  | .a, false => .spiBuf1Commit c a
  | .a, true => .spiBuf1CommitAlt c a
  | .b, false => .spiBuf2Commit c a
  | .b, true => .spiBuf2CommitAlt c a

/-- R84: the page-to-buffer frame of buffer `q`. -/
def transferInstr (q : Parity) (c : ChipField) (a : AddrField) : Instr :=
  match q with
  | .a => .spiPageToBuf1 c a
  | .b => .spiPageToBuf2 c a

/-- R82: the buffer-write frame of buffer `q`. -/
def writeInstr (q : Parity) (c : ChipField) (a : AddrField) (data : List Byte) : Instr :=
  match q with
  | .a => .spiBuf1Write c a data
  | .b => .spiBuf2Write c a data

/-- R85: the buffer-read frame of buffer `q`. -/
def readInstr (q : Parity) (c : ChipField) (a : AddrField) : Instr :=
  match q with
  | .a => .spiBuf1Read c a
  | .b => .spiBuf2Read c a

/-- R113: a word with a reserved `op`, or with a non-zero bit in a field that the table of R112 shows as 0. -/
def MalformedWord (w : HostWord) : Prop :=
  (opField w = 0x0 ∨ opField w = 0xD ∨ opField w = 0xE ∨ opField w = 0xF) ∨
  ((opField w = 0x1 ∨ opField w = 0x3 ∨ opField w = 0x4) ∧ (chipField w ≠ 0 ∨ argField w ≠ 0)) ∨
  (opField w = 0x2 ∧ (chipField w ≠ 0 ∨ (argField w).extractLsb' 8 16 ≠ 0)) ∨
  ((opField w = 0x5 ∨ opField w = 0x6 ∨ opField w = 0x7) ∧ chipField w ≠ 0) ∨
  ((opField w = 0x8 ∨ opField w = 0x9 ∨ opField w = 0xC) ∧ argField w ≠ 0)

/-- R37, U3: two answers an outside observer may exchange for each other: two faults, or two bytes with the same
bit 7. -/
def AnswersAlike : Answer → Answer → Prop
  | .byte x, .byte y => ready x = ready y
  | .fault, .fault => True
  | _, _ => False

/-- Lists of answers of one length, alike one by one. -/
def AllAlike : List Answer → List Answer → Prop
  | [], [] => True
  | x :: xs, y :: ys => AnswersAlike x y ∧ AllAlike xs ys
  | _, _ => False

/-- An event without bits 6 to 0 of the incoming byte. -/
def observed : Event → Event
  | .x o (.byte v) => .x o (.byte (if ready v then 0x80 else 0))
  | e => e

/-- What an outside observer may not tell apart of a response: the bytes read. -/
def Response.shape (r : Response) : Option ErrorKind × Nat × Nat := (r.err, r.chip, r.data.length)

/-- Two buses that differ at most in bits 6 to 0 of incoming bytes, past and supplied. -/
structure Bus.Alike (b b' : Bus) : Prop where
  cs : b'.cs = b.cs
  tick : b'.tick = b.tick
  chips : b'.chips = b.chips
  hazard : b'.hazard = b.hazard
  answers : AllAlike b.answers b'.answers
  trace : b'.trace.map observed = b.trace.map observed

/-- R37, U3: two states that differ at most in bits 6 to 0 of incoming bytes: those supplied, those seen on the bus, and
those handed on as data. -/
structure State.Alike (s s' : State) : Prop where
  cfg : s'.cfg = s.cfg
  handles : s'.handles = s.handles
  curW : s'.curW = s.curW
  curR : s'.curR = s.curR
  soff : s'.soff = s.soff
  pending : s'.pending = s.pending
  resetIn : s'.resetIn = s.resetIn
  bus : s.bus.Alike s'.bus
  responses : s'.responses.map Response.shape = s.responses.map Response.shape
  stream : s'.stream.length = s.stream.length
  past : s'.past.map (List.map observed) = s.past.map (List.map observed)

end Sys2Proof.Machine
end

