-- ==== Sys2Proof/Certificates/Slice0/Obligations.lean ====
section
/-! DEFINITION. The statements for the provers. A hypothesis `s.bus.answers = answersOf is ++ rest` names the incoming bytes
(R308: an oracle gives the incoming byte of every exchange); without it the reference chip and the free values answer.
Where a cited rule is marked [decision: D<n>] or [derived: ...], the statement follows the spec's own choice. -/

section

open Sys2Proof Sys2Proof.Machine

/-! Encodings. -/

/-- R100 to R113: no bit of an encoding is dropped. -/
def Obligations.EncodeThenDecode : Prop :=
  ∀ i : Instr, i.wf = true → decode (encode i) = .ok i

/-- R100 to R113: a request that decodes is the encoding of exactly the instruction it decodes to. -/
def Obligations.DecodedRequestsAreEncodings : Prop :=
  ∀ (r : Request) (i : Instr), decode r = .ok i → i.wf = true ∧ encode i = r

/-- R113: "the block performs no bus event, changes no state and answers `SequenceMisuse`". A word that is neither
reserved nor malformed decodes to the operation its `op` names. -/
def Obligations.MalformedWordsAreRefused : Prop :=
  (∀ (w : HostWord) (s : State), MalformedWord w →
    serve (.word w) s = .next { s with responses := s.responses ++ [errResponse .sequenceMisuse 0] }) ∧
  ∀ w : HostWord, ¬ MalformedWord w → ∃ i, decode (.word w) = .ok i ∧ encode i = .word w

/-- Sanity: words written out from R111, R112, R115, frames from R102 to R106, and the opcodes R117 gives each parity. -/
def Obligations.SpecWordsDecode : Prop :=
  decode (.word 0x10000000) = .ok .startW ∧
  decode (.word 0x200000AA) = .ok (.writeByte 0xAA) ∧
  decode (.word 0xA1000123) = .ok (.pageErase 1 0x123) ∧
  decode (.frame 0 [0xD7]) = .ok (.spiStatusRead 0) ∧
  decode (.frame 1 [0x83, 0x02, 0x46, 0x00]) = .ok (.spiBuf1Commit 1 0x024600) ∧
  decode (.frame 2 [0xC7, 0x94, 0x80, 0x9A]) = .ok (.spiChipErase 2) ∧
  (opcBufWrite .a = 0x84 ∧ opcBufWrite .b = 0x87 ∧ opcPageToBuf .a = 0x53 ∧ opcPageToBuf .b = 0x55 ∧
    opcBufRead .a = 0xD4 ∧ opcBufRead .b = 0xD6) ∧
  (∀ cfg : Config, cfg.commitVariant = false → opcCommit cfg .a = 0x83 ∧ opcCommit cfg .b = 0x86) ∧
  ∀ cfg : Config, cfg.commitVariant = true → opcCommit cfg .a = 0x88 ∧ opcCommit cfg .b = 0x89

/-- R17, R291: a step runs the oldest request; if a reset comes after `k` more bus events, an operation that makes more is cut
off after `k`. The waiting step, the refusal of requests that do not decode, the stop on invalid parameters and the moment of
a reset are the model's (log 14, log 15, log 16, log 21). -/
def Obligations.StepRunsDecodedInstruction : Prop :=
  ∀ s : State,
    (s.cfg.valid = true → s.resetIn = none → ∀ r later i, s.pending = r :: later → decode r = .ok i →
      step s = exec i { s with pending := later }) ∧
    (s.cfg.valid = true → s.resetIn ≠ some 0 → ∀ r later e, s.pending = r :: later → decode r = .error e →
      step s = .next { s with
        pending := later
        responses := s.responses ++ [errResponse .sequenceMisuse 0] }) ∧
    (s.cfg.valid = true → s.resetIn ≠ some 0 → s.pending = [] → step s = .next s) ∧
    (s.cfg.valid = true → s.resetIn = some 0 → step s = .next s.blockReset) ∧
    (s.cfg.valid = true → ∀ k r later i, s.resetIn = some (k + 1) → s.pending = r :: later → decode r = .ok i →
      (∀ e, exec i { s with pending := later } = .refused e → step s = .refused e) ∧
      ∀ t es, exec i { s with pending := later } = .next t → t.bus.trace = s.bus.trace ++ es →
        (k + 1 < es.length → step s = .next (State.cutOff (k + 1) { s with pending := later } t)) ∧
        (es.length ≤ k + 1 → step s = .next { t with resetIn := some (k + 1 - es.length) })) ∧
    (s.cfg.valid = false → step s = .fault .parameterOutOfRange)

/-! The Page Address Codec and the striping map. -/

/-- R143 (1), (2), (4); law (3), that `encode` is a pure function, is the form of `encodePage`. -/
def Obligations.CodecRoundTrip : Prop :=
  ∀ cfg : Config, cfg.valid = true →
    (∀ p, p < cfg.numPages → decodePage cfg (encodePage cfg p) = p ∧ (encodePage cfg p).extractLsb' 0 8 = 0) ∧
    ∀ p q, p < cfg.numPages → q < cfg.numPages → encodePage cfg p = encodePage cfg q → p = q

/-- R140, R71: the page index stands at bits `[SHIFT + PAGE_BITS + 7 : SHIFT + 8]`, every other bit is 0, and the three
bytes go out as `v[15:8]`, `v[7:0]`, `0x00`. -/
def Obligations.PageIndexPlacement : Prop :=
  ∀ (cfg : Config) (p : Nat), cfg.valid = true → p < cfg.numPages →
    (encodePage cfg p).toNat = p * 2 ^ (cfg.shift + 8) ∧
    addrBytes (encodePage cfg p) =
      [BitVec.ofNat 8 (p * 2 ^ cfg.shift / 256), BitVec.ofNat 8 (p * 2 ^ cfg.shift), 0x00]

/-- R141: the page is bits `[SHIFT + PAGE_BITS + 7 : SHIFT + 8]` of the field; every other bit is ignored. -/
def Obligations.DecodeReadsOnlyThePageField : Prop :=
  ∀ (cfg : Config) (b0 b1 b2 : Byte),
    decodePage cfg (addrOf b0 b1 b2) = (b0.toNat * 256 + b1.toNat) / 2 ^ cfg.shift % 2 ^ cfg.pageBits ∧
    ∀ a a' : AddrField,
      a.toNat / 2 ^ (cfg.shift + 8) % 2 ^ cfg.pageBits = a'.toNat / 2 ^ (cfg.shift + 8) % 2 ^ cfg.pageBits →
      decodePage cfg a = decodePage cfg a'

/-- R64: byte `n` of the stream is at `(c, p, o)` with `c = (n div P) mod N`, `p = (n div P) div N`, `o = n mod P`; the
map is one to one onto the locations of the chips. -/
def Obligations.StripingMapIsOneToOne : Prop :=
  ∀ cfg : Config, cfg.valid = true →
    (∀ n, n < cfg.totalPages * cfg.pageSize → ∃ c p o, streamLocation cfg n = (c, p, o) ∧
      c = n / cfg.pageSize % cfg.chips ∧ p = n / cfg.pageSize / cfg.chips ∧ o = n % cfg.pageSize ∧
      c < cfg.chips ∧ p < cfg.numPages ∧ o < cfg.pageSize) ∧
    ∀ c p o, c < cfg.chips → p < cfg.numPages → o < cfg.pageSize →
      ∃ n, n < cfg.totalPages * cfg.pageSize ∧ streamLocation cfg n = (c, p, o) ∧
        ∀ m, streamLocation cfg m = (c, p, o) → m = n

/-! Reset and the invariants. -/

/-- R12, R290: an instance exists exactly when its parameters meet the bounds of R4 to R10 (and, for the reference
chip, `SECTOR_PAGES >= 1`: log 1). -/
def Obligations.ParametersAreValidatedAtConstruction : Prop :=
  ∀ (cfg : Config) (s : State), State.construct cfg = some s ↔
    ((1 ≤ cfg.chips ∧ cfg.chips ≤ 16) ∧ (1 ≤ cfg.pageSize ∧ cfg.pageSize ≤ 65536) ∧
      (cfg.pageBits = 11 ∨ cfg.pageBits = 12 ∨ cfg.pageBits = 13) ∧ cfg.pageBits + cfg.shift ≤ 16 ∧
      1 ≤ cfg.pollLimit ∧ 1 ≤ cfg.sectorPages) ∧ s = State.resetWith cfg

/-- The reset value of every state element, the spec's own choice (R39, decision D27). A reset of the block in place (R291),
between two operations or in the middle of one, gives the same registers and adds no bus event; an operation it cuts off does
not answer. The main arrays hold what was programmed before; the buffers hold anything and a chip may be busy (R293, U2); the
chip whose frame it cuts holds any value (U5). A page that a status read of the operation has confirmed is what was committed
(R74). That a new trace begins and what is asked stays asked is the model's (log 21, log 23). -/
def Obligations.ResetValues : Prop :=
  (∀ cfg : Config,
    (State.resetWith cfg).handles.length = cfg.chips ∧
    (∀ h ∈ (State.resetWith cfg).handles, h.par = .a ∧ h.wpage = 0 ∧ h.rpage = 0 ∧ h.off = 0 ∧ h.est = .idle) ∧
    (State.resetWith cfg).curW = 0 ∧ (State.resetWith cfg).curR = 0 ∧ (State.resetWith cfg).soff = 0 ∧
    (State.resetWith cfg).bus.cs = none) ∧
  (∀ s : State, s.Inv →
    let t := s.blockReset
    t.Inv ∧ t.cfg = s.cfg ∧ t.handles = (State.resetWith s.cfg).handles ∧ t.curW = 0 ∧ t.curR = 0 ∧ t.soff = 0 ∧
    t.bus.cs = none ∧ t.bus.trace = [] ∧ t.past = s.past ++ [s.bus.trace] ∧ t.resetIn = none ∧ t.pending = s.pending ∧
    t.responses = s.responses ∧ t.stream = s.stream ∧
    ∀ c, c < s.cfg.chips → (t.bus.chip c).busy = Config.unknownBusy c s.bus.tick ∧
      (∀ q o, (t.bus.chip c).bufByte c q o = Config.unknownByte c (Chip.bufSpace q) s.bus.tick o) ∧
      (s.bus.cs ≠ some c → ∀ p o, (t.bus.chip c).arrayByte s.cfg c p o = (s.bus.chip c).arrayByte s.cfg c p o) ∧
      (s.bus.cs = some c → ∀ p o, (t.bus.chip c).arrayByte s.cfg c p o =
        Config.unknownByte c 0 s.bus.tick (mainAddr s.cfg p o))) ∧
  ∀ (i : Instr) (s t : State) (es : List Event) (k : Nat), s.Inv → exec i s = .next t → t.bus.trace = s.bus.trace ++ es →
    k < es.length →
    let u := State.cutOff k s t
    let b := s.bus.replay s.cfg (es.take k)
    u.Inv ∧ u.handles = (State.resetWith s.cfg).handles ∧ u.curW = 0 ∧ u.curR = 0 ∧ u.soff = 0 ∧ u.bus.cs = none ∧
    u.bus.trace = [] ∧ u.past = s.past ++ [s.bus.trace ++ es.take k] ∧ u.resetIn = none ∧ u.pending = s.pending ∧
    u.responses = s.responses ∧ u.stream = s.stream ∧
    ∀ c, c < s.cfg.chips → (u.bus.chip c).busy = Config.unknownBusy c b.tick ∧
      (∀ q o, (u.bus.chip c).bufByte c q o = Config.unknownByte c (Chip.bufSpace q) b.tick o) ∧
      (b.cs ≠ some c → ∀ p o, (u.bus.chip c).arrayByte s.cfg c p o = (b.chip c).arrayByte s.cfg c p o) ∧
      (b.cs = some c → ∀ p o, (u.bus.chip c).arrayByte s.cfg c p o = Config.unknownByte c 0 b.tick (mainAddr s.cfg p o)) ∧
      ∀ before later x v, es.take k = before ++ [.sel c, .x 0xD7 (.byte x), .x 0x00 (.byte v), .desel c] ++ later →
        ready v = true → .desel c ∉ later → b.cs ≠ some c → ∀ p o,
          (u.bus.chip c).arrayByte s.cfg c p o = (b.chip c).mainByte c (mainAddr s.cfg p o)

/-- The invariants below hold of every instance right after reset. -/
def Obligations.ResetMeetsTheInvariants : Prop :=
  ∀ cfg : Config, cfg.valid = true →
    (State.resetWith cfg).Inv ∧ (State.resetWith cfg).RoundRobin ∧ (State.resetWith cfg).BusOrderly ∧
    (State.resetWith cfg).KnownReadyHonest ∧ (State.resetWith cfg).safe = true

/-- R31, R32, R33, with the ranges of R22 to R29 and the canonical form of every memory: kept by every step. -/
def Obligations.StepKeepsInvariant : Prop :=
  ∀ s t : State, s.Inv → step s = .next t → t.Inv

/-- R40, in every state, whether or not an abort has happened: both cursors stay those of some number of pages. -/
def Obligations.StepKeepsRoundRobinShape : Prop :=
  ∀ s t : State, s.Inv → s.RoundRobin → step s = .next t → t.RoundRobin

/-- R29, R101, R107 to R110: whatever the chips answer, the bus carries only whole frames of the table, one select at a
time; address bytes are `encode(p)` of a page or, for a buffer, `00 00 00`; the select owner is what `cs` says, and an open frame
is the buffer write of R104. -/
def Obligations.StepKeepsBusOrderly : Prop :=
  ∀ s t : State, s.Inv → s.BusOrderly → step s = .next t → t.BusOrderly

/-- R297: with the reference chips answering, a chip the block has seen ready after its last busy-making frame is
ready. -/
def Obligations.StepKeepsKnownReadyHonest : Prop :=
  ∀ s t : State, s.Inv → s.KnownReadyHonest → step s = .next t → t.KnownReadyHonest

/-- R37, U3: of every incoming byte only bit 7 matters: two states that differ at most in bits 6 to 0 of incoming bytes, past
and to come, step to two such states. `State.Alike` asks for equal registers, chips, hazard bits and event counts, and for
equal errors and data lengths of the responses. -/
def Obligations.OnlyBitSevenMatters : Prop :=
  ∀ s s' t : State, s.Alike s' → step s = .next t → ∃ t', step s' = .next t' ∧ t.Alike t'

/-! The stream operations. -/

/-- R210: `START_W` opens the buffer of the current write chip; R256: a bus fault in the header ends it with
`BusFault(curW)` and the abort. -/
def Obligations.StartWOpensTheCurrentChip : Prop :=
  ∀ (s : State) (is : List Byte) (rest : List Answer), s.Inv → s.idle = true →
    (is.length = 4 → s.bus.answers = answersOf is ++ rest →
      ∃ b, exec .startW s = .next { s with
            handles := s.handles.map fun h => { h with par := .a, est := .filling }
            bus := b
            responses := s.responses ++ [okResponse []] } ∧
        s.bus.After b (some s.curW) (.sel s.curW :: exchanges [0x84, 0x00, 0x00, 0x00] is) rest) ∧
    (s.cfg.hasBusFault = true → is.length < 4 → s.bus.answers = answersOf is ++ .fault :: rest →
      ∃ b, exec .startW s = .next { s with
            handles := s.handles.map fun h => { h with par := .a }
            bus := b
            responses := s.responses ++ [errResponse .busFault s.curW] } ∧
        s.bus.After b none (.sel s.curW :: exchanges ([0x84, 0x00, 0x00, 0x00].take is.length) is ++
          [.x ([0x84, 0x00, 0x00, 0x00].getD is.length 0) .fault, .desel s.curW]) rest)

/-- R211 steps 1 to 3: a byte that does not fill the page. -/
def Obligations.WriteByteWithinAPage : Prop :=
  ∀ (s : State) (v i : Byte) (rest : List Answer), s.Inv → s.filling = true →
    (s.handle s.curW).wpage < s.cfg.numPages → s.soff + 1 < s.cfg.pageSize → s.bus.answers = .byte i :: rest →
    ∃ b, exec (.writeByte v) s = .next { s with
          handles := s.handles.set s.curW { s.handle s.curW with off := (s.handle s.curW).off + 1 }
          soff := s.soff + 1
          bus := b
          responses := s.responses ++ [okResponse []] } ∧
      s.bus.After b (some s.curW) [.x v (.byte i)] rest

/-- R211 steps 4 to 9, R184: the byte that fills the page: the frame is closed, the chip polled, the page committed, the
next chip opened. -/
def Obligations.WriteByteEndsAPage : Prop :=
  ∀ (s : State) (v i : Byte) (ps : List (Byte × Byte)) (ks os : List Byte) (rest : List Answer),
    s.Inv → s.filling = true → (s.handle s.curW).wpage < s.cfg.numPages → s.soff + 1 = s.cfg.pageSize →
    PollSucceeds s.cfg.pollLimit ps → ks.length = 4 → os.length = 4 →
    s.bus.answers = .byte i :: (answersOf (pollBytes ps ++ ks ++ os) ++ rest) →
    let c := s.curW
    let h := s.handle c
    let next := (c + 1) % s.cfg.chips
    let handles := s.handles.set c { h with par := h.par.flip, wpage := h.wpage + 1, off := 0 }
    ∃ b, exec (.writeByte v) s = .next { s with
          handles := handles
          curW := next
          soff := 0
          bus := b
          responses := s.responses ++ [okResponse []] } ∧
      s.bus.After b (some next)
        ([.x v (.byte i), .desel c] ++ pollTrace c ps ++
          frameTrace c (opcCommit s.cfg h.par :: addrBytes (encodePage s.cfg h.wpage)) ks ++
          .sel next :: exchanges [opcBufWrite ({ s with handles := handles }.handle next).par, 0x00, 0x00, 0x00] os) rest

/-- R184, R256, R257: a poll that runs out at a page end: the page is not committed, the session is aborted. -/
def Obligations.WriteByteTimesOut : Prop :=
  ∀ (s : State) (v i : Byte) (ps : List (Byte × Byte)) (rest : List Answer),
    s.Inv → s.filling = true → (s.handle s.curW).wpage < s.cfg.numPages → s.soff + 1 = s.cfg.pageSize →
    PollFails s.cfg.pollLimit ps → s.bus.answers = .byte i :: (answersOf (pollBytes ps) ++ rest) →
    ∃ b, exec (.writeByte v) s = .next { s with
          handles := s.handles.map fun h => { h with est := .idle, off := 0 }
          soff := 0
          bus := b
          responses := s.responses ++ [errResponse .deviceTimeout s.curW] } ∧
      s.bus.After b none ([.x v (.byte i), .desel s.curW] ++ pollTrace s.curW ps) rest

/-- R160, R257: bus faults in `WRITE_BYTE`: on the byte; in the poll and in the commit frame (the page is not committed); in
the header of the next chip (the page is committed, `curW` has advanced). -/
def Obligations.WriteByteBusFaults : Prop :=
  ∀ (s : State) (v : Byte) (rest : List Answer), s.Inv → s.filling = true → s.cfg.hasBusFault = true →
    (s.handle s.curW).wpage < s.cfg.numPages →
    let c := s.curW
    let h := s.handle c
    let next := (c + 1) % s.cfg.chips
    let handles := s.handles.set c { h with par := h.par.flip, wpage := h.wpage + 1, off := 0 }
    let abort := fun h : Handle => { h with est := .idle, off := 0 }
    let commit := opcCommit s.cfg h.par :: addrBytes (encodePage s.cfg h.wpage)
    let header := [opcBufWrite ({ s with handles := handles }.handle next).par, 0x00, 0x00, 0x00]
    (s.bus.answers = .fault :: rest →
      ∃ b, exec (.writeByte v) s = .next { s with
            handles := s.handles.map abort
            soff := 0
            bus := b
            responses := s.responses ++ [errResponse .busFault c] } ∧
        s.bus.After b none [.x v .fault, .desel c] rest) ∧
    (∀ (i : Byte) (ps : List (Byte × Byte)) (is : List Byte), s.soff + 1 = s.cfg.pageSize →
      PollFaults s.cfg.pollLimit ps is → s.bus.answers = .byte i :: (pollFaultAnswers ps is ++ rest) →
      ∃ b, exec (.writeByte v) s = .next { s with
            handles := s.handles.map abort
            soff := 0
            bus := b
            responses := s.responses ++ [errResponse .busFault c] } ∧
        s.bus.After b none ([.x v (.byte i), .desel c] ++ pollFaultTrace c ps is) rest) ∧
    (∀ (i : Byte) (ps : List (Byte × Byte)) (ks : List Byte), s.soff + 1 = s.cfg.pageSize →
      PollSucceeds s.cfg.pollLimit ps → ks.length < 4 →
      s.bus.answers = .byte i :: (answersOf (pollBytes ps ++ ks) ++ .fault :: rest) →
      ∃ b, exec (.writeByte v) s = .next { s with
            handles := s.handles.map abort
            soff := 0
            bus := b
            responses := s.responses ++ [errResponse .busFault c] } ∧
        s.bus.After b none
          ([.x v (.byte i), .desel c] ++ pollTrace c ps ++ .sel c :: exchanges (commit.take ks.length) ks ++
            [.x (commit.getD ks.length 0) .fault, .desel c]) rest) ∧
    (∀ (i : Byte) (ps : List (Byte × Byte)) (ks os : List Byte), s.soff + 1 = s.cfg.pageSize →
      PollSucceeds s.cfg.pollLimit ps → ks.length = 4 → os.length < 4 →
      s.bus.answers = .byte i :: (answersOf (pollBytes ps ++ ks ++ os) ++ .fault :: rest) →
      ∃ b, exec (.writeByte v) s = .next { s with
            handles := handles.map abort
            curW := next
            soff := 0
            bus := b
            responses := s.responses ++ [errResponse .busFault next] } ∧
        s.bus.After b none
          ([.x v (.byte i), .desel c] ++ pollTrace c ps ++ frameTrace c commit ks ++
            .sel next :: exchanges (header.take os.length) os ++
            [.x (header.getD os.length 0) .fault, .desel next]) rest)

/-- R213: `END_W` closes the frame, polls every chip in order and makes every engine Idle. -/
def Obligations.EndWConfirmsEveryChip : Prop :=
  ∀ (s : State) (polls : Nat → List (Byte × Byte)) (rest : List Answer),
    s.Inv → s.filling = true → s.soff = 0 → (∀ c, c < s.cfg.chips → PollSucceeds s.cfg.pollLimit (polls c)) →
    s.bus.answers = answersOf ((List.range s.cfg.chips).flatMap fun c => pollBytes (polls c)) ++ rest →
    ∃ b, exec .endW s = .next { s with
          handles := s.handles.map fun h => { h with est := .idle }
          bus := b
          responses := s.responses ++ [okResponse []] } ∧
      s.bus.After b none
        (.desel s.curW :: (List.range s.cfg.chips).flatMap fun c => pollTrace c (polls c)) rest

/-- R213, R257: the first chip whose poll runs out, or meets a bus fault, ends `END_W`; the chips after it are not polled;
every engine is Idle all the same. -/
def Obligations.EndWTimesOut : Prop :=
  ∀ (s : State) (c : Nat) (polls : Nat → List (Byte × Byte)) (rest : List Answer),
    s.Inv → s.filling = true → s.soff = 0 → c < s.cfg.chips →
    (∀ d, d < c → PollSucceeds s.cfg.pollLimit (polls d)) →
    (PollFails s.cfg.pollLimit (polls c) →
      s.bus.answers = answersOf ((List.range (c + 1)).flatMap fun d => pollBytes (polls d)) ++ rest →
      ∃ b, exec .endW s = .next { s with
            handles := s.handles.map fun h => { h with est := .idle }
            bus := b
            responses := s.responses ++ [errResponse .deviceTimeout c] } ∧
        s.bus.After b none (.desel s.curW :: (List.range (c + 1)).flatMap fun d => pollTrace d (polls d)) rest) ∧
    ∀ is : List Byte, s.cfg.hasBusFault = true → PollFaults s.cfg.pollLimit (polls c) is →
      s.bus.answers = answersOf ((List.range c).flatMap fun d => pollBytes (polls d)) ++ (pollFaultAnswers (polls c) is ++ rest) →
      ∃ b, exec .endW s = .next { s with
            handles := s.handles.map fun h => { h with est := .idle }
            bus := b
            responses := s.responses ++ [errResponse .busFault c] } ∧
        s.bus.After b none
          (.desel s.curW :: ((List.range c).flatMap fun d => pollTrace d (polls d)) ++ pollFaultTrace c (polls c) is) rest

/-- R214, R186: `READ_PAGE` transfers a page into the buffer of its parity, polls, and streams the buffer out. -/
def Obligations.ReadPageStreamsAPage : Prop :=
  ∀ (s : State) (ts hs data : List Byte) (ps : List (Byte × Byte)) (rest : List Answer),
    s.Inv → s.idle = true → (s.handle s.curR).rpage < s.cfg.numPages → ts.length = 4 →
    PollSucceeds s.cfg.pollLimit ps → hs.length = 4 + s.cfg.bufReadDummy → data.length = s.cfg.pageSize →
    s.bus.answers = answersOf (ts ++ pollBytes ps ++ hs ++ data) ++ rest →
    let c := s.curR
    let h := s.handle c
    let q := if h.rpage % 2 = 0 then Parity.a else Parity.b
    ∃ b, exec .readPage s = .next { s with
          handles := s.handles.set c { h with rpage := h.rpage + 1 }
          curR := (c + 1) % s.cfg.chips
          bus := b
          stream := s.stream ++ data
          responses := s.responses ++ [okResponse data] } ∧
      s.bus.After b none
        (frameTrace c (opcPageToBuf q :: addrBytes (encodePage s.cfg h.rpage)) ts ++ pollTrace c ps ++
          frameTrace c ([opcBufRead q, 0x00, 0x00, 0x00] ++
            List.replicate (s.cfg.bufReadDummy + s.cfg.pageSize) 0x00) (hs ++ data)) rest

/-- R214, R257: a `READ_PAGE` that fails changes no register and answers no data: a poll that runs out, a bus fault in
the transfer frame, in the poll, in the buffer-read frame. That no byte of a cut buffer-read frame has left on the read-data
stream is the model's choice (log 13): R114 lets them leave as they come. -/
def Obligations.ReadPageFails : Prop :=
  ∀ (s : State) (rest : List Answer), s.Inv → s.idle = true → (s.handle s.curR).rpage < s.cfg.numPages →
    let c := s.curR
    let h := s.handle c
    let q := if h.rpage % 2 = 0 then Parity.a else Parity.b
    let transfer := opcPageToBuf q :: addrBytes (encodePage s.cfg h.rpage)
    let read := [opcBufRead q, 0x00, 0x00, 0x00] ++ List.replicate (s.cfg.bufReadDummy + s.cfg.pageSize) 0x00
    (∀ (ts : List Byte) (ps : List (Byte × Byte)), ts.length = 4 → PollFails s.cfg.pollLimit ps →
      s.bus.answers = answersOf (ts ++ pollBytes ps) ++ rest →
      ∃ b, exec .readPage s = .next { s with
            bus := b
            responses := s.responses ++ [errResponse .deviceTimeout c] } ∧
        s.bus.After b none (frameTrace c transfer ts ++ pollTrace c ps) rest) ∧
    (∀ ts : List Byte, s.cfg.hasBusFault = true → ts.length < 4 → s.bus.answers = answersOf ts ++ .fault :: rest →
      ∃ b, exec .readPage s = .next { s with
            bus := b
            responses := s.responses ++ [errResponse .busFault c] } ∧
        s.bus.After b none
          (.sel c :: exchanges (transfer.take ts.length) ts ++ [.x (transfer.getD ts.length 0) .fault, .desel c]) rest) ∧
    (∀ (ts is : List Byte) (ps : List (Byte × Byte)), s.cfg.hasBusFault = true → ts.length = 4 →
      PollFaults s.cfg.pollLimit ps is → s.bus.answers = answersOf ts ++ (pollFaultAnswers ps is ++ rest) →
      ∃ b, exec .readPage s = .next { s with
            bus := b
            responses := s.responses ++ [errResponse .busFault c] } ∧
        s.bus.After b none (frameTrace c transfer ts ++ pollFaultTrace c ps is) rest) ∧
    (∀ (ts is : List Byte) (ps : List (Byte × Byte)), s.cfg.hasBusFault = true → ts.length = 4 →
      PollSucceeds s.cfg.pollLimit ps → is.length < read.length →
      s.bus.answers = answersOf (ts ++ pollBytes ps ++ is) ++ .fault :: rest →
      ∃ b, exec .readPage s = .next { s with
            bus := b
            responses := s.responses ++ [errResponse .busFault c] } ∧
        s.bus.After b none
          (frameTrace c transfer ts ++ pollTrace c ps ++ .sel c :: exchanges (read.take is.length) is ++
            [.x (read.getD is.length 0) .fault, .desel c]) rest)

/-- R215, R219: `ERASE_RANGE n` sends exactly `n` page-erase frames, logical pages `0 .. n-1`, each polled; no register is
written. -/
def Obligations.EraseRangeErasesEachPageOnce : Prop :=
  ∀ (s : State) (n : ArgField) (es : Nat → List Byte) (polls : Nat → List (Byte × Byte)) (rest : List Answer),
    s.Inv → s.idle = true → n.toNat ≤ s.cfg.chips * s.cfg.numPages →
    (∀ l, l < n.toNat → (es l).length = 4 ∧ PollSucceeds s.cfg.pollLimit (polls l)) →
    s.bus.answers = answersOf ((List.range n.toNat).flatMap fun l => es l ++ pollBytes (polls l)) ++ rest →
    ∃ b, exec (.eraseRange n) s = .next { s with bus := b, responses := s.responses ++ [okResponse []] } ∧
      s.bus.After b none
        ((List.range n.toNat).flatMap fun l =>
          frameTrace (l % s.cfg.chips) (0x81 :: addrBytes (encodePage s.cfg (l / s.cfg.chips))) (es l) ++
            pollTrace (l % s.cfg.chips) (polls l)) rest

/-- R215, R257: `ERASE_RANGE` that fails at logical page `k`, by a poll that runs out, a bus fault in that page's erase frame
or a bus fault in its poll: the pages below `k` have been erased and confirmed, the later ones are sent nothing; no register
is written. -/
def Obligations.EraseRangeTimesOut : Prop :=
  ∀ (s : State) (n : ArgField) (k : Nat) (es : Nat → List Byte) (polls : Nat → List (Byte × Byte)) (rest : List Answer),
    s.Inv → s.idle = true → n.toNat ≤ s.cfg.chips * s.cfg.numPages → k < n.toNat →
    (∀ l, l < k → (es l).length = 4 ∧ PollSucceeds s.cfg.pollLimit (polls l)) →
    let erase := fun l => 0x81 :: addrBytes (encodePage s.cfg (l / s.cfg.chips))
    let before := (List.range k).flatMap fun l =>
      frameTrace (l % s.cfg.chips) (erase l) (es l) ++ pollTrace (l % s.cfg.chips) (polls l)
    let answered := answersOf ((List.range k).flatMap fun l => es l ++ pollBytes (polls l))
    let c := k % s.cfg.chips
    ((es k).length = 4 → PollFails s.cfg.pollLimit (polls k) →
      s.bus.answers = answered ++ (answersOf (es k ++ pollBytes (polls k)) ++ rest) →
      ∃ b, exec (.eraseRange n) s = .next { s with bus := b, responses := s.responses ++ [errResponse .deviceTimeout c] } ∧
        s.bus.After b none (before ++ (frameTrace c (erase k) (es k) ++ pollTrace c (polls k))) rest) ∧
    (s.cfg.hasBusFault = true → (es k).length < 4 → s.bus.answers = answered ++ (answersOf (es k) ++ .fault :: rest) →
      ∃ b, exec (.eraseRange n) s = .next { s with bus := b, responses := s.responses ++ [errResponse .busFault c] } ∧
        s.bus.After b none (before ++ cutFrame c (erase k) (es k)) rest) ∧
    ∀ is : List Byte, s.cfg.hasBusFault = true → (es k).length = 4 → PollFaults s.cfg.pollLimit (polls k) is →
      s.bus.answers = answered ++ (answersOf (es k) ++ (pollFaultAnswers (polls k) is ++ rest)) →
      ∃ b, exec (.eraseRange n) s = .next { s with bus := b, responses := s.responses ++ [errResponse .busFault c] } ∧
        s.bus.After b none (before ++ (frameTrace c (erase k) (es k) ++ pollFaultTrace c (polls k) is)) rest

/-- R216, R217: the cursors of logical page `L`; no bus event. -/
def Obligations.SeekSetsTheCursors : Prop :=
  ∀ (s : State) (l : ArgField), s.Inv → s.idle = true → l.toNat ≤ s.cfg.chips * s.cfg.numPages →
    exec (.seekW l) s = .next { s with
      handles := s.handles.mapIdx fun c h =>
        { h with wpage := l.toNat / s.cfg.chips + if c < l.toNat % s.cfg.chips then 1 else 0 }
      curW := l.toNat % s.cfg.chips
      responses := s.responses ++ [okResponse []] } ∧
    exec (.seekR l) s = .next { s with
      handles := s.handles.mapIdx fun c h =>
        { h with rpage := l.toNat / s.cfg.chips + if c < l.toNat % s.cfg.chips then 1 else 0 }
      curR := l.toNat % s.cfg.chips
      responses := s.responses ++ [okResponse []] }

/-- R258, R40: with the cursors of `k` pages, the next logical page to write is `k`; a page end makes it `k + 1`, and
`SEEK_W L` makes it `L`. -/
def Obligations.NextLogicalPageFollowsTheStream : Prop :=
  ∀ (s : State) (k : Nat), s.Inv → s.WriteShape k →
    s.nextLogicalPage = k ∧
    (∀ v t, s.filling = true → k < s.cfg.totalPages → s.soff + 1 = s.cfg.pageSize → exec (.writeByte v) s = .next t →
      t.responses.getLast? = some (okResponse []) → t.WriteShape (k + 1)) ∧
    ∀ l t, s.idle = true → l.toNat ≤ s.cfg.totalPages → exec (.seekW l) s = .next t → t.WriteShape l.toNat

/-! The operations of the Command Transport. -/

/-- R155, R152: `READ_STATUS` is one status frame and returns the whole byte, in the low byte of the response word too
(R114). The single status frame (R102) returns it as data (log 9, log 12). R160, R256: a bus fault in the frame ends either
with `BusFault(c)`. -/
def Obligations.StatusReadsReturnTheByte : Prop :=
  ∀ (s : State) (c : ChipField) (rest : List Answer), s.Inv → s.idle = true → c.toNat < s.cfg.chips →
    (∀ i v : Byte, s.bus.answers = .byte i :: .byte v :: rest →
      (∃ b, exec (.readStatus c) s = .next { s with bus := b, responses := s.responses ++ [okResponse [v] v] } ∧
        s.bus.After b none [.sel c.toNat, .x 0xD7 (.byte i), .x 0x00 (.byte v), .desel c.toNat] rest) ∧
      ∃ b, exec (.spiStatusRead c) s = .next { s with bus := b, responses := s.responses ++ [okResponse [v]] } ∧
        s.bus.After b none [.sel c.toNat, .x 0xD7 (.byte i), .x 0x00 (.byte v), .desel c.toNat] rest) ∧
    ∀ (is : List Byte) (i : Instr), s.cfg.hasBusFault = true → is.length < 2 → s.bus.answers = answersOf is ++ .fault :: rest →
      (i = .readStatus c ∨ i = .spiStatusRead c) →
      ∃ b, exec i s = .next { s with bus := b, responses := s.responses ++ [errResponse .busFault c.toNat] } ∧
        s.bus.After b none (cutFrame c.toNat [0xD7, 0x00] is) rest

/-- R156, R153, R252: `WAIT_READY` reads the status until bit 7 is set, at most `POLL_LIMIT` times; a chip that shows
bit 7 clear in `POLL_LIMIT` status reads costs exactly those and `DeviceTimeout`. R160, R256: a bus fault in one of them ends
it with `BusFault(c)`. -/
def Obligations.WaitReadyPolls : Prop :=
  ∀ (s : State) (c : ChipField) (ps : List (Byte × Byte)) (rest : List Answer),
    s.Inv → s.idle = true → c.toNat < s.cfg.chips →
    (PollSucceeds s.cfg.pollLimit ps → s.bus.answers = answersOf (pollBytes ps) ++ rest →
      ∃ b, exec (.waitReady c) s = .next { s with bus := b, responses := s.responses ++ [okResponse []] } ∧
        s.bus.After b none (pollTrace c.toNat ps) rest) ∧
    (PollFails s.cfg.pollLimit ps → s.bus.answers = answersOf (pollBytes ps) ++ rest →
      ∃ b, exec (.waitReady c) s = .next { s with
            bus := b
            responses := s.responses ++ [errResponse .deviceTimeout c.toNat] } ∧
        s.bus.After b none (pollTrace c.toNat ps) rest) ∧
    ∀ is : List Byte, s.cfg.hasBusFault = true → PollFaults s.cfg.pollLimit ps is →
      s.bus.answers = pollFaultAnswers ps is ++ rest →
      ∃ b, exec (.waitReady c) s = .next { s with
            bus := b
            responses := s.responses ++ [errResponse .busFault c.toNat] } ∧
        s.bus.After b none (pollFaultTrace c.toNat ps is) rest

/-- R157, R158, R159: the erase frame, then the poll. -/
def Obligations.ErasesSendAFrameAndPoll : Prop :=
  ∀ (s : State) (c : ChipField) (p : ArgField) (es : List Byte) (ps : List (Byte × Byte)) (rest : List Answer)
    (i : Instr) (frame : List Byte),
    s.Inv → s.idle = true → c.toNat < s.cfg.chips → es.length = 4 → PollSucceeds s.cfg.pollLimit ps →
    s.bus.answers = answersOf (es ++ pollBytes ps) ++ rest →
    (i = .pageErase c p ∧ p.toNat < s.cfg.numPages ∧ frame = 0x81 :: addrBytes (encodePage s.cfg p.toNat) ∨
      i = .sectorErase c p ∧ p.toNat < s.cfg.numPages ∧ frame = 0x7C :: addrBytes (encodePage s.cfg p.toNat) ∨
      i = .chipErase c ∧ frame = [0xC7, 0x94, 0x80, 0x9A]) →
    ∃ b, exec i s = .next { s with bus := b, responses := s.responses ++ [okResponse []] } ∧
      s.bus.After b none (frameTrace c.toNat frame es ++ pollTrace c.toNat ps) rest

/-- R157, R158, R159, R160, R257: an erase that fails: a poll that runs out, with the frame sent whole, answers
`DeviceTimeout`; a bus fault in the frame or in the poll answers `BusFault`. -/
def Obligations.ErasesTimeOut : Prop :=
  ∀ (s : State) (c : ChipField) (p : ArgField) (es : List Byte) (ps : List (Byte × Byte)) (rest : List Answer)
    (i : Instr) (frame : List Byte),
    s.Inv → s.idle = true → c.toNat < s.cfg.chips →
    (i = .pageErase c p ∧ p.toNat < s.cfg.numPages ∧ frame = 0x81 :: addrBytes (encodePage s.cfg p.toNat) ∨
      i = .sectorErase c p ∧ p.toNat < s.cfg.numPages ∧ frame = 0x7C :: addrBytes (encodePage s.cfg p.toNat) ∨
      i = .chipErase c ∧ frame = [0xC7, 0x94, 0x80, 0x9A]) →
    (es.length = 4 → PollFails s.cfg.pollLimit ps → s.bus.answers = answersOf (es ++ pollBytes ps) ++ rest →
      ∃ b, exec i s = .next { s with
            bus := b
            responses := s.responses ++ [errResponse .deviceTimeout c.toNat] } ∧
        s.bus.After b none (frameTrace c.toNat frame es ++ pollTrace c.toNat ps) rest) ∧
    (s.cfg.hasBusFault = true → es.length < 4 → s.bus.answers = answersOf es ++ .fault :: rest →
      ∃ b, exec i s = .next { s with
            bus := b
            responses := s.responses ++ [errResponse .busFault c.toNat] } ∧
        s.bus.After b none (cutFrame c.toNat frame es) rest) ∧
    ∀ is : List Byte, s.cfg.hasBusFault = true → es.length = 4 → PollFaults s.cfg.pollLimit ps is →
      s.bus.answers = answersOf es ++ (pollFaultAnswers ps is ++ rest) →
      ∃ b, exec i s = .next { s with
            bus := b
            responses := s.responses ++ [errResponse .busFault c.toNat] } ∧
        s.bus.After b none (frameTrace c.toNat frame es ++ pollFaultTrace c.toNat ps is) rest

/-- R113: each reserved operation code, whatever its other bits, answers `SequenceMisuse` and does nothing else. -/
def Obligations.ReservedOperationsAnswerMisuse : Prop :=
  ∀ (rest : BitVec 28) (s : State) (i : Instr),
    (i = .reservedOp0 rest ∨ i = .reservedOpD rest ∨ i = .reservedOpE rest ∨ i = .reservedOpF rest) →
    exec i s = .next { s with responses := s.responses ++ [errResponse .sequenceMisuse 0] }

/-! Errors found by a check, and the order of checks. -/

/-- R254, R255: the state precondition is checked before the ranges: nothing happens but the answer; nor for a malformed
or reserved word. -/
def Obligations.WrongPhaseIsSequenceMisuse : Prop :=
  ∀ (s : State) (i : Instr), s.Inv →
    ((s.idle = true ∧ ((∃ v, i = .writeByte v) ∨ i = .endW) ∨
      s.filling = true ∧ s.soff ≠ 0 ∧ i = .endW ∨
      s.filling = true ∧ (i = .startW ∨ i = .readPage ∨ (∃ n, i = .eraseRange n) ∨ (∃ l, i = .seekW l) ∨
        (∃ l, i = .seekR l) ∨ (∃ c, i = .readStatus c) ∨ (∃ c, i = .waitReady c) ∨ (∃ c p, i = .pageErase c p) ∨
        (∃ c p, i = .sectorErase c p) ∨ (∃ c, i = .chipErase c))) →
      exec i s = .next { s with responses := s.responses ++ [errResponse .sequenceMisuse 0] }) ∧
    ∀ w, MalformedWord w →
      serve (.word w) s = .next { s with responses := s.responses ++ [errResponse .sequenceMisuse 0] }

/-- R253: the range checks: nothing happens but the answer. That a chip operand out of range is `InvalidAddress` is the
spec's own decision D32. -/
def Obligations.OutOfRangeIsInvalidAddress : Prop :=
  ∀ (s : State) (i : Instr), s.Inv →
    (s.filling = true ∧ (∃ v, i = .writeByte v) ∧ (s.handle s.curW).wpage = s.cfg.numPages ∨
      s.idle = true ∧
        (i = .readPage ∧ (s.handle s.curR).rpage = s.cfg.numPages ∨
          (∃ c p, (i = .pageErase c p ∨ i = .sectorErase c p) ∧ s.cfg.numPages ≤ p.toNat) ∨
          (∃ n, (i = .eraseRange n ∨ i = .seekW n ∨ i = .seekR n) ∧ s.cfg.chips * s.cfg.numPages < n.toNat) ∨
          ∃ c p, (i = .readStatus c ∨ i = .waitReady c ∨ i = .pageErase c p ∨ i = .sectorErase c p ∨
            i = .chipErase c) ∧ s.cfg.chips ≤ c.toNat)) →
    exec i s = .next { s with responses := s.responses ++ [errResponse .invalidAddress 0] }

/-! Whole SPI frames. That a frame can be asked for alone, its checks and what its response holds are the model's (log 9,
log 10, log 12). -/

/-- R103, R106, R108: the frames of four bytes; a commit frame is the one `COMMIT_VARIANT` selects; the address is `encode(p)`.
R160, R256: a bus fault in one ends it with `BusFault(c)`. That it is asked for alone is log 9, that its response has no data
log 12. -/
def Obligations.FourByteFramesAreSent : Prop :=
  ∀ (s : State) (c : ChipField) (p : Nat) (is : List Byte) (rest : List Answer) (i : Instr) (frame : List Byte),
    s.Inv → s.idle = true → c.toNat < s.cfg.chips → p < s.cfg.numPages →
    let a := encodePage s.cfg p
    (i = .spiPageToBuf1 c a ∧ frame = 0x53 :: addrBytes a ∨ i = .spiPageToBuf2 c a ∧ frame = 0x55 :: addrBytes a ∨
      i = .spiPageErase c a ∧ frame = 0x81 :: addrBytes a ∨ i = .spiSectorErase c a ∧ frame = 0x7C :: addrBytes a ∨
      i = .spiChipErase c ∧ frame = [0xC7, 0x94, 0x80, 0x9A] ∨
      s.cfg.commitVariant = false ∧
        (i = .spiBuf1Commit c a ∧ frame = 0x83 :: addrBytes a ∨ i = .spiBuf2Commit c a ∧ frame = 0x86 :: addrBytes a) ∨
      s.cfg.commitVariant = true ∧
        (i = .spiBuf1CommitAlt c a ∧ frame = 0x88 :: addrBytes a ∨
          i = .spiBuf2CommitAlt c a ∧ frame = 0x89 :: addrBytes a)) →
    (is.length = 4 → s.bus.answers = answersOf is ++ rest →
      ∃ b, exec i s = .next { s with bus := b, responses := s.responses ++ [okResponse []] } ∧
        s.bus.After b none (frameTrace c.toNat frame is) rest) ∧
    (s.cfg.hasBusFault = true → is.length < 4 → s.bus.answers = answersOf is ++ .fault :: rest →
      ∃ b, exec i s = .next { s with bus := b, responses := s.responses ++ [errResponse .busFault c.toNat] } ∧
        s.bus.After b none (cutFrame c.toNat frame is) rest)

/-- R104: a whole buffer-write frame, with at most `P` data bytes; R160, R256: a bus fault in it ends it with `BusFault(c)`.
R109: the buffer address is `00 00 00`. That it is asked for alone is log 9, that its response has no data log 12, that a frame
of 0 to `P` bytes, and not of 0 or `P` alone (R68, R104), completes log 26. -/
def Obligations.BufferWriteFramesAreSent : Prop :=
  ∀ (s : State) (c : ChipField) (data is : List Byte) (rest : List Answer) (i : Instr) (op : Byte),
    s.Inv → s.idle = true → c.toNat < s.cfg.chips → data.length ≤ s.cfg.pageSize →
    (i = .spiBuf1Write c 0 data ∧ op = 0x84 ∨ i = .spiBuf2Write c 0 data ∧ op = 0x87) →
    (is.length = 4 + data.length → s.bus.answers = answersOf is ++ rest →
      ∃ b, exec i s = .next { s with bus := b, responses := s.responses ++ [okResponse []] } ∧
        s.bus.After b none (frameTrace c.toNat ([op, 0x00, 0x00, 0x00] ++ data) is) rest) ∧
    (s.cfg.hasBusFault = true → is.length < 4 + data.length → s.bus.answers = answersOf is ++ .fault :: rest →
      ∃ b, exec i s = .next { s with bus := b, responses := s.responses ++ [errResponse .busFault c.toNat] } ∧
        s.bus.After b none (cutFrame c.toNat ([op, 0x00, 0x00, 0x00] ++ data) is) rest)

/-- R105: a buffer-read frame receives `P` response bytes; R160, R256: a bus fault in it ends it with `BusFault(c)`. That it is
asked for alone is log 9, that its response carries these bytes as data (R114 says empty but for `READ_PAGE` and
`READ_STATUS`) log 12: the model's choices. R109: the buffer address is `00 00 00`. -/
def Obligations.BufferReadFramesReturnThePage : Prop :=
  ∀ (s : State) (c : ChipField) (rest : List Answer) (i : Instr) (op : Byte),
    s.Inv → s.idle = true → c.toNat < s.cfg.chips →
    (i = .spiBuf1Read c 0 ∧ op = 0xD4 ∨ i = .spiBuf2Read c 0 ∧ op = 0xD6) →
    let frame := [op, 0x00, 0x00, 0x00] ++ List.replicate (s.cfg.bufReadDummy + s.cfg.pageSize) 0x00
    (∀ hs data : List Byte, hs.length = 4 + s.cfg.bufReadDummy → data.length = s.cfg.pageSize →
      s.bus.answers = answersOf (hs ++ data) ++ rest →
      ∃ b, exec i s = .next { s with bus := b, responses := s.responses ++ [okResponse data] } ∧
        s.bus.After b none (frameTrace c.toNat frame (hs ++ data)) rest) ∧
    ∀ is : List Byte, s.cfg.hasBusFault = true → is.length < frame.length → s.bus.answers = answersOf is ++ .fault :: rest →
      ∃ b, exec i s = .next { s with bus := b, responses := s.responses ++ [errResponse .busFault c.toNat] } ∧
        s.bus.After b none (cutFrame c.toNat frame is) rest

/-- The ID read and the security register read, which the block never emits and the spec gives no frame shape (R107, R163),
stop. That a request for one ends in this refusal is the model's (log 11, DEDUCED). Every other instruction answers in every
state. -/
def Obligations.OnlyUnemittedFramesStop : Prop :=
  (∀ c rest s, exec (.spiIdRead c rest) s = .refused (.neverEmitted 0x9F) ∧
    exec (.spiSecurityRead c rest) s = .refused (.neverEmitted 0x77)) ∧
  ∀ (i : Instr) (s : State), (∀ c rest, i ≠ .spiIdRead c rest ∧ i ≠ .spiSecurityRead c rest) →
    ∃ t, exec i s = .next t

/-- R107 to R110, R162: a frame this instance does not emit (the other pair of commit opcodes, an over-long write, address bytes
that are no `encode(p)` or, for a buffer, not `00 00 00`) is not sent. That asking for it answers `SequenceMisuse` is the model's
(log 10, log 25). One asked for while Filling is `SequenceMisuse`; a chip that does not exist is `InvalidAddress` (log 9). -/
def Obligations.FrameChecks : Prop :=
  ∀ (s : State) (c : ChipField) (a : AddrField) (data : List Byte) (q : Parity) (i : Instr), s.Inv →
    ((s.cfg.commitVariant = true ∧ (i = .spiBuf1Commit c a ∨ i = .spiBuf2Commit c a) ∨
        s.cfg.commitVariant = false ∧ (i = .spiBuf1CommitAlt c a ∨ i = .spiBuf2CommitAlt c a) ∨
        (∀ p, p < s.cfg.numPages → a ≠ encodePage s.cfg p) ∧
          (i = transferInstr q c a ∨ i = commitInstr s.cfg q c a ∨ i = .spiPageErase c a ∨ i = .spiSectorErase c a) ∨
        a ≠ 0 ∧ (i = readInstr q c a ∨ i = writeInstr q c a data) ∨
        s.cfg.pageSize < data.length ∧ i = writeInstr q c a data) →
      exec i s = .next { s with responses := s.responses ++ [errResponse .sequenceMisuse 0] }) ∧
    ∀ p, p < s.cfg.numPages → data.length ≤ s.cfg.pageSize →
      (i = .spiStatusRead c ∨ i = transferInstr q c (encodePage s.cfg p) ∨ i = commitInstr s.cfg q c (encodePage s.cfg p) ∨
        i = .spiPageErase c (encodePage s.cfg p) ∨ i = .spiSectorErase c (encodePage s.cfg p) ∨ i = .spiChipErase c ∨
        i = readInstr q c 0 ∨ i = writeInstr q c 0 data) →
      (s.filling = true →
        exec i s = .next { s with responses := s.responses ++ [errResponse .sequenceMisuse 0] }) ∧
      (s.idle = true → s.cfg.chips ≤ c.toNat →
        exec i s = .next { s with responses := s.responses ++ [errResponse .invalidAddress 0] })

/-! What every operation may answer and change. -/

/-- R269, R11: which operation can answer which error; `BusFault` only where the bus layer reports faults. -/
def Obligations.OperationsAnswerOnlyTheirErrors : Prop :=
  ∀ (i : Instr) (s t : State) (r : Response) (e : ErrorKind), s.Inv → exec i s = .next t →
    t.responses = s.responses ++ [r] → r.err = some e →
    mayAnswer i e = true ∧ (e = .busFault → s.cfg.hasBusFault = true)

/-- R114, R250: exactly one response; its fields, and its word. That a single frame answers as a host operation does, and what
data and what low byte of the word it has, are the model's choice (log 9, log 12). -/
def Obligations.EveryOperationAnswersOnce : Prop :=
  ∀ (i : Instr) (s t : State), s.Inv → exec i s = .next t →
    ∃ r, t.responses = s.responses ++ [r] ∧ r.chip < s.cfg.chips ∧
      (r.err = none ∨ r.err = some .sequenceMisuse ∨ r.err = some .invalidAddress → r.chip = 0) ∧
      (r.err ≠ none → r.data = []) ∧ (r.err = none → r.data.length = responseLength s.cfg i) ∧
      r.word.toNat = r.chip * 2 ^ 12 +
        (match r.err with
          | none => 0
          | some .busFault => 1
          | some .deviceTimeout => 2
          | some .invalidAddress => 3
          | some .sequenceMisuse => 4) * 2 ^ 8 + (responseLow i r).toNat

/-- R256: an error found by a check leaves everything as it was; any other error leaves the block Idle with every offset
0 and no select asserted. U4, R301: where it ends a write session, every buffer of every chip holds any value (log 5). -/
def Obligations.ErrorsLeaveTheBlockReady : Prop :=
  ∀ (i : Instr) (s t : State) (r : Response), s.Inv → exec i s = .next t → t.responses = s.responses ++ [r] →
    (turnedAway r → t = { s with responses := s.responses ++ [r] }) ∧
    (aborts r → (∀ h ∈ t.handles, h.est = .idle ∧ h.off = 0) ∧ t.soff = 0 ∧ t.bus.cs = none ∧
      (inSession i = true → ∀ c q o, c < s.cfg.chips →
        (t.bus.chip c).bufByte c q o = Config.unknownByte c (Chip.bufSpace q) t.bus.tick o))

/-- R162, R41: transport calls, `ERASE_RANGE`, single frames and reserved codes write no register, however they end. -/
def Obligations.TransportKeepsEveryRegister : Prop :=
  ∀ (i : Instr) (s t : State), s.Inv → keepsRegisters i = true → exec i s = .next t → s.SameRegisters t

/-- R41, R35, R12: the access matrix: only the listed operations write each element; a cursor moves only by plus 1 on the
current chip, never past `NUM_PAGES`, or by a seek; only the operations of a write session leave `cs` changed; parameters
never change. -/
def Obligations.AccessMatrix : Prop :=
  ∀ (i : Instr) (s t : State) (r : Response), s.Inv → exec i s = .next t → t.responses = s.responses ++ [r] →
    t.cfg = s.cfg ∧ t.pending = s.pending ∧ t.resetIn = s.resetIn ∧ t.past = s.past ∧ t.handles.length = s.handles.length ∧
    (writesPar i = false → ∀ c, (t.handle c).par = (s.handle c).par) ∧
    (writesWriteCursor i = false → t.curW = s.curW ∧ ∀ c, (t.handle c).wpage = (s.handle c).wpage) ∧
    (writesReadCursor i = false → t.curR = s.curR ∧ ∀ c, (t.handle c).rpage = (s.handle c).rpage) ∧
    ((∃ v, i = .writeByte v) → ∀ c, (t.handle c).wpage = (s.handle c).wpage ∨
      c = s.curW ∧ (t.handle c).wpage = (s.handle c).wpage + 1 ∧ (t.handle c).wpage ≤ s.cfg.numPages) ∧
    (i = .readPage → ∀ c, (t.handle c).rpage = (s.handle c).rpage ∨
      c = s.curR ∧ (t.handle c).rpage = (s.handle c).rpage + 1 ∧ (t.handle c).rpage ≤ s.cfg.numPages) ∧
    (writesOffset i = false → t.soff = s.soff ∧ ∀ c, (t.handle c).off = (s.handle c).off) ∧
    (inSession i = false → t.bus.cs = s.bus.cs ∧ ∀ c, (t.handle c).est = (s.handle c).est) ∧
    (writesEngineState i = false → r.err = none → ∀ c, (t.handle c).est = (s.handle c).est)

/-- R305, with one event more where a bus fault ends the operation: the `Desel` of the abort (log 24). A reserved code makes no
event (R113). R305 gives no number for a
single frame: its bound, two events more than the exchanges of its frame (R110, R150), is the model's (log 9). -/
def Obligations.EveryOperationTerminatesInBound : Prop :=
  ∀ (i : Instr) (s t : State) (r : Response), s.Inv → exec i s = .next t → t.responses = s.responses ++ [r] →
    ∃ es, t.bus.trace = s.bus.trace ++ es ∧
      es.length ≤ eventBound s i + if r.err = some .busFault then 1 else 0

/-- Log 17, R297, R298, R304, U9: the hazard bits stay set once set. The frame that an operation of the Idle block sends
without a poll in front of it sets `unreadyFrame` if the chip is not known to be ready, and a commit of variant 1 sets
`unerasedCommit` if the page is not known to be erased; however the operation ends, once its checks have let it through. -/
def Obligations.HazardsAreRemembered : Prop :=
  ∀ (i : Instr) (s t : State) (r : Response), s.Inv → exec i s = .next t → t.responses = s.responses ++ [r] →
    (s.bus.hazard.unreadyFrame = true → t.bus.hazard.unreadyFrame = true) ∧
    (s.bus.hazard.unerasedCommit = true → t.bus.hazard.unerasedCommit = true) ∧
    (∀ c, firstBusyFrame s i = some c → ¬ turnedAway r → (s.bus.chip c).knownReady = false →
      t.bus.hazard.unreadyFrame = true) ∧
    (∀ c a, (i = .spiBuf1CommitAlt c a ∨ i = .spiBuf2CommitAlt c a) → ¬ turnedAway r →
      (s.bus.chip c.toNat).pageErased s.cfg (decodePage s.cfg a) = false → t.bus.hazard.unerasedCommit = true) ∧
    ∀ v o, i = .writeByte v → s.cfg.commitVariant = true →
      (t.handle s.curW).wpage = (s.handle s.curW).wpage + 1 → o < s.cfg.pageSize →
      (s.bus.chip s.curW).main.read? (mainAddr s.cfg (s.handle s.curW).wpage o) ≠ some 0xFF →
      t.bus.hazard.unerasedCommit = true

/-! The reference chips (R79 to R90). That a single frame is asked for alone is the model's (log 9). The
chips read any address field, as R82 to R87 have them do; the block sends only the fields of R108 and R109. -/

/-- R63, R90: an operation changes memory only on the chips it stores on: every byte of every other chip reads as before, and
no page of it is newly in doubt. The abort of a write session is the exception, for the buffers alone (U4, log 5). -/
def Obligations.MemoryChangesOnlyWhereStored : Prop :=
  ∀ (i : Instr) (s t : State) (r : Response), s.Inv → exec i s = .next t → t.responses = s.responses ++ [r] →
    ∀ c, ¬ storesOn s i c → s.bus.SameArray c t.bus ∧ (¬ (inSession i = true ∧ aborts r) → s.bus.SameBuffers c t.bus)

/-- R83: a commit frame on a ready chip programs the whole page from the buffer. U4, R74: until a status read shows the chip
ready, what the page reads as is any value, and from then on it is the buffer (log 5). -/
def Obligations.CommitFrameProgramsThePage : Prop :=
  ∀ (s : State) (c : ChipField) (a : AddrField) (q : Parity),
    s.Inv → s.idle = true → c.toNat < s.cfg.chips → s.cfg.hasBusFault = false → (s.bus.chip c.toNat).busy = false →
    let p := decodePage s.cfg a
    let d := s.bus.chip c.toNat
    ∃ b, issueBusy s.cfg c.toNat (opcCommit s.cfg q :: addrBytes a) (s.bus.noteCommit s.cfg c.toNat p) = .ok () b ∧
      ((∃ x, x < s.cfg.numPages ∧ a = encodePage s.cfg x) → ∃ t, exec (commitInstr s.cfg q c a) s = .next t ∧ t.bus = b) ∧
      let d' := b.chip c.toNat
      d'.busy = true ∧
      (∀ x o, o < s.cfg.pageSize → d'.mainByte c.toNat (mainAddr s.cfg x o) =
        if x = p then d.bufByte c.toNat q o else d.mainByte c.toNat (mainAddr s.cfg x o)) ∧
      (∀ x o, o < s.cfg.pageSize → d'.arrayByte s.cfg c.toNat x o =
        if x = p then Config.doubtByte c.toNat d.commits (mainAddr s.cfg x o) else d.arrayByte s.cfg c.toNat x o) ∧
      (∀ x o, d'.confirmed.arrayByte s.cfg c.toNat x o = d'.mainByte c.toNat (mainAddr s.cfg x o)) ∧
      ∀ r o, d'.bufByte c.toNat r o = d.bufByte c.toNat r o

/-- R84: a page-to-buffer frame on a ready chip loads the whole page into the buffer; of a page in doubt, any value (U4). -/
def Obligations.TransferFrameLoadsTheBuffer : Prop :=
  ∀ (s : State) (c : ChipField) (a : AddrField) (q : Parity),
    s.Inv → s.idle = true → c.toNat < s.cfg.chips → s.cfg.hasBusFault = false → (s.bus.chip c.toNat).busy = false →
    ∃ b, issueBusy s.cfg c.toNat (opcPageToBuf q :: addrBytes a) s.bus = .ok () b ∧
      ((∃ x, x < s.cfg.numPages ∧ a = encodePage s.cfg x) → ∃ t, exec (transferInstr q c a) s = .next t ∧ t.bus = b) ∧
      (b.chip c.toNat).busy = true ∧
      (∀ x, (b.chip c.toNat).mainByte c.toNat x = (s.bus.chip c.toNat).mainByte c.toNat x) ∧
      (b.chip c.toNat).doubts = (s.bus.chip c.toNat).doubts ∧
      ∀ r o, (b.chip c.toNat).bufByte c.toNat r o =
        if r = q ∧ o < s.cfg.pageSize then (s.bus.chip c.toNat).arrayByte s.cfg c.toNat (decodePage s.cfg a) o
        else (s.bus.chip c.toNat).bufByte c.toNat r o

/-- R86, R87, R88, R157, R158, R159: an erase frame on a ready chip, alone or with its poll, sets the page, the sector or
the whole array to `0xFF` and leaves the rest of the chip, whatever the poll answers. No page is newly in doubt (U4). The chip
takes the page from any address field. -/
def Obligations.ErasesSetPagesToFF : Prop :=
  ∀ (s : State) (c : ChipField), s.Inv → s.idle = true → c.toNat < s.cfg.chips → s.cfg.hasBusFault = false →
    (s.bus.chip c.toNat).busy = false →
    let leaves (b : Bus) (erased : Nat → Prop) : Prop :=
      (∀ x o, x < s.cfg.numPages → o < s.cfg.pageSize →
        (erased x → (b.chip c.toNat).arrayByte s.cfg c.toNat x o = 0xFF) ∧
        (¬ erased x → (b.chip c.toNat).mainByte c.toNat (mainAddr s.cfg x o) =
          (s.bus.chip c.toNat).mainByte c.toNat (mainAddr s.cfg x o))) ∧
      (∀ d ∈ (b.chip c.toNat).doubts, d ∈ (s.bus.chip c.toNat).doubts) ∧
      ∀ r o, (b.chip c.toNat).bufByte c.toNat r o = (s.bus.chip c.toNat).bufByte c.toNat r o
    (∀ (a : AddrField) (hdr : List Byte) (erased : Nat → Prop),
      (hdr = opcPageErase :: addrBytes a ∧ (∀ x, erased x ↔ x = decodePage s.cfg a) ∨
        hdr = opcSectorErase :: addrBytes a ∧
          (∀ x, erased x ↔ x / s.cfg.sectorPages = decodePage s.cfg a / s.cfg.sectorPages) ∨
        hdr = [0xC7, 0x94, 0x80, 0x9A] ∧ ∀ x, erased x) →
      ∃ b, issueBusy s.cfg c.toNat hdr s.bus = .ok () b ∧ (b.chip c.toNat).busy = true ∧ leaves b erased ∧
        ∀ i, (i = .spiPageErase c a ∨ i = .spiSectorErase c a) ∧ (∃ x, x < s.cfg.numPages ∧ a = encodePage s.cfg x) ∨
            i = .spiChipErase c →
          encode i = .frame c hdr → ∃ t, exec i s = .next t ∧ t.bus = b) ∧
    ∀ (p : ArgField) (i : Instr) (erased : Nat → Prop),
      (i = .pageErase c p ∧ p.toNat < s.cfg.numPages ∧ (∀ x, erased x ↔ x = p.toNat) ∨
        i = .sectorErase c p ∧ p.toNat < s.cfg.numPages ∧
          (∀ x, erased x ↔ x / s.cfg.sectorPages = p.toNat / s.cfg.sectorPages) ∨
        i = .chipErase c ∧ ∀ x, erased x) →
      ∃ t, exec i s = .next t ∧ leaves t.bus erased

/-- R215, R64, R86 with the reference chips: an `ERASE_RANGE n` on ready chips that answers `OK` has set logical pages
`0 .. n-1` to `0xFF`; every other page and every buffer holds what it held, and no page is newly in doubt (U4). -/
def Obligations.EraseRangeErasesItsPages : Prop :=
  ∀ (s t : State) (n : ArgField), s.Inv → s.idle = true → n.toNat ≤ s.cfg.chips * s.cfg.numPages →
    s.cfg.hasBusFault = false → s.bus.answers = [] → (∀ c, c < s.cfg.chips → (s.bus.chip c).busy = false) →
    exec (.eraseRange n) s = .next t → t.responses = s.responses ++ [okResponse []] →
    (∀ c p o, c < s.cfg.chips → p < s.cfg.numPages → o < s.cfg.pageSize →
      (p * s.cfg.chips + c < n.toNat → (t.bus.chip c).arrayByte s.cfg c p o = 0xFF) ∧
      (n.toNat ≤ p * s.cfg.chips + c →
        (t.bus.chip c).mainByte c (mainAddr s.cfg p o) = (s.bus.chip c).mainByte c (mainAddr s.cfg p o))) ∧
    ∀ c, c < s.cfg.chips → s.bus.SameBuffers c t.bus ∧ ∀ d ∈ (t.bus.chip c).doubts, d ∈ (s.bus.chip c).doubts

/-- R82: data byte `j` of a buffer-write frame is stored at `(a + j) mod P`; nothing else of the chip changes. The block sends
`a = 0` (R109). That a frame of fewer than `P` bytes can be asked for and completes (R68, R104) is log 26. -/
def Obligations.BufferWriteFrameStoresItsData : Prop :=
  ∀ (s : State) (c : ChipField) (a : AddrField) (data : List Byte) (q : Parity),
    s.Inv → s.idle = true → c.toNat < s.cfg.chips → s.cfg.hasBusFault = false → data.length ≤ s.cfg.pageSize →
    ((s.bus.chip c.toNat).busy = false ∨ (s.bus.chip c.toNat).inUse ≠ some q) →
    ∃ b is, issue s.cfg c.toNat (opcBufWrite q :: addrBytes a ++ data) 0 0 s.bus = .ok is b ∧
      (a = 0 → ∃ t, exec (writeInstr q c a data) s = .next t ∧ t.bus = b) ∧
      (∀ j v, data[j]? = some v →
        (b.chip c.toNat).bufByte c.toNat q ((a.toNat + j) % s.cfg.pageSize) = v) ∧
      (∀ r o, ¬ (r = q ∧ ∃ j, j < data.length ∧ o = (a.toNat + j) % s.cfg.pageSize) →
        (b.chip c.toNat).bufByte c.toNat r o = (s.bus.chip c.toNat).bufByte c.toNat r o) ∧
      s.bus.SameArray c.toNat b

/-- R85, R81: a buffer-read frame receives `buf[b][(a + j) mod P]`; a status read shows in bit 7 whether the chip is
ready. R74, U4: one that shows it ready confirms every commit of the chip (log 5). That a single buffer-read frame is asked for
(log 9) and that its response carries the bytes as data (log 12) are the model's choices. The block sends `a = 0` (R109). -/
def Obligations.ChipsAnswerReads : Prop :=
  ∀ (s : State) (c : ChipField) (a : AddrField) (q : Parity),
    s.Inv → s.idle = true → c.toNat < s.cfg.chips → s.cfg.hasBusFault = false → s.bus.answers = [] →
    (∃ b data, issue s.cfg c.toNat (opcBufRead q :: addrBytes a) s.cfg.bufReadDummy s.cfg.pageSize s.bus = .ok data b ∧
      (data = (List.range s.cfg.pageSize).map fun j =>
        (s.bus.chip c.toNat).bufByte c.toNat q ((a.toNat + j) % s.cfg.pageSize)) ∧
      (a = 0 → ∃ t, exec (readInstr q c a) s = .next t ∧ t.bus = b ∧ t.responses = s.responses ++ [okResponse data])) ∧
    ∃ t v, exec (.readStatus c) s = .next t ∧ t.responses = s.responses ++ [okResponse [v] v] ∧
      ((s.bus.chip c.toNat).busy = false → ready v = true) ∧
      (ready v = true → (t.bus.chip c.toNat).busy = false ∧ ∀ p o,
        (t.bus.chip c.toNat).arrayByte s.cfg c.toNat p o = (s.bus.chip c.toNat).mainByte c.toNat (mainAddr s.cfg p o)) ∧
      (ready v = false → ∀ p o,
        (t.bus.chip c.toNat).arrayByte s.cfg c.toNat p o = (s.bus.chip c.toNat).arrayByte s.cfg c.toNat p o)

/-- R89, R80: a chip that stays busy through a commit, transfer or erase frame ignores it, whatever its address field. -/
def Obligations.BusyChipIgnoresFrames : Prop :=
  ∀ (s : State) (c : ChipField) (a : AddrField) (q : Parity) (later : List Bool) (hdr : List Byte),
    s.Inv → s.idle = true → c.toNat < s.cfg.chips → s.cfg.hasBusFault = false → (s.bus.chip c.toNat).busy = true →
    (s.bus.chip c.toNat).finish = List.replicate 6 false ++ later →
    (hdr = opcCommit s.cfg q :: addrBytes a ∨ hdr = opcPageToBuf q :: addrBytes a ∨ hdr = opcPageErase :: addrBytes a ∨
      hdr = opcSectorErase :: addrBytes a ∨ hdr = [0xC7, 0x94, 0x80, 0x9A]) →
    (∃ b, issueBusy s.cfg c.toNat hdr s.bus = .ok () b ∧ (b.chip c.toNat).busy = true ∧ s.bus.SameMemory c.toNat b) ∧
    ∀ i p, p < s.cfg.numPages → a = encodePage s.cfg p →
      (i = commitInstr s.cfg q c a ∨ i = transferInstr q c a ∨ i = .spiPageErase c a ∨ i = .spiSectorErase c a ∨
        i = .spiChipErase c) →
      ∃ t, exec i s = .next t ∧ (t.bus.chip c.toNat).busy = true ∧ s.bus.SameMemory c.toNat t.bus

/-- R66, R82: a `WRITE_BYTE` within a page stores its byte at offset `soff` of the open buffer, and nothing else. -/
def Obligations.WriteByteStoresOneByte : Prop :=
  ∀ (s : State) (v : Byte), s.Inv → s.filling = true → (s.handle s.curW).wpage < s.cfg.numPages →
    s.soff + 1 < s.cfg.pageSize → s.cfg.hasBusFault = false →
    ((s.bus.chip s.curW).busy = false ∨ (s.bus.chip s.curW).inUse ≠ some (s.handle s.curW).par) →
    ∃ t, exec (.writeByte v) s = .next t ∧ t.soff = s.soff + 1 ∧
      (∀ q o, (t.bus.chip s.curW).bufByte s.curW q o =
        if q = (s.handle s.curW).par ∧ o = s.soff then v else (s.bus.chip s.curW).bufByte s.curW q o) ∧
      s.bus.SameArray s.curW t.bus

/-- R74, R184 with the reference chips: a `WRITE_BYTE` that fills a page and answers `OK` has programmed the page the
write cursor named with the buffer, its last byte included, and no other page; of the buffers only the byte written has
changed. Until the next status read that shows the chip ready the page reads as any value (U4, log 5); every earlier commit of
the chip is confirmed. One that answers `DeviceTimeout` has programmed nothing. -/
def Obligations.WriteByteProgramsItsPage : Prop :=
  ∀ (s t : State) (v : Byte), s.Inv → s.filling = true → (s.handle s.curW).wpage < s.cfg.numPages →
    s.soff + 1 = s.cfg.pageSize → s.cfg.hasBusFault = false → s.bus.answers = [] →
    ((s.bus.chip s.curW).busy = false ∨ (s.bus.chip s.curW).inUse ≠ some (s.handle s.curW).par) →
    exec (.writeByte v) s = .next t →
    let c := s.curW
    let h := s.handle c
    (t.responses = s.responses ++ [okResponse []] →
      (∀ p o, o < s.cfg.pageSize → (t.bus.chip c).mainByte c (mainAddr s.cfg p o) =
        if p = h.wpage then if o = s.soff then v else (s.bus.chip c).bufByte c h.par o
        else (s.bus.chip c).mainByte c (mainAddr s.cfg p o)) ∧
      (∀ p o, o < s.cfg.pageSize → (t.bus.chip c).arrayByte s.cfg c p o =
        if p = h.wpage then Config.doubtByte c (s.bus.chip c).commits (mainAddr s.cfg p o)
        else (t.bus.chip c).mainByte c (mainAddr s.cfg p o)) ∧
      ∀ q o, (t.bus.chip c).bufByte c q o = if q = h.par ∧ o = s.soff then v else (s.bus.chip c).bufByte c q o) ∧
    (t.responses = s.responses ++ [errResponse .deviceTimeout c] →
      ∀ p o, (t.bus.chip c).mainByte c (mainAddr s.cfg p o) = (s.bus.chip c).mainByte c (mainAddr s.cfg p o) ∧
        (t.bus.chip c).arrayByte s.cfg c p o = (s.bus.chip c).arrayByte s.cfg c p o)

/-- R74, R84, R85, R186 with the reference chips: a `READ_PAGE` on a ready chip leaves the main array and loads the page
the read cursor named into the buffer of its parity; if it answers `OK` its data are that page (of a page in doubt, any value:
U4). -/
def Obligations.ReadPageReturnsTheStoredPage : Prop :=
  ∀ (s t : State), s.Inv → s.idle = true → (s.handle s.curR).rpage < s.cfg.numPages →
    s.cfg.hasBusFault = false → s.bus.answers = [] → (s.bus.chip s.curR).busy = false → exec .readPage s = .next t →
    let c := s.curR
    let p := (s.handle c).rpage
    s.bus.SameArray c t.bus ∧
    (∀ q o, (t.bus.chip c).bufByte c q o =
      if q = (if p % 2 = 0 then .a else .b) ∧ o < s.cfg.pageSize then (s.bus.chip c).arrayByte s.cfg c p o
      else (s.bus.chip c).bufByte c q o) ∧
    ∀ r, t.responses = s.responses ++ [r] → r.err = none →
      r.data = (List.range s.cfg.pageSize).map fun o => (s.bus.chip c).arrayByte s.cfg c p o

end
end

