-- ==== Sys2Proof/Laws/Encoding.lean ====
section
/-! SUPPORT. The fields of a host command word (R111) and of an address field (R71), in both directions, and the Page Address Codec
(R140, R141) as arithmetic. -/

namespace Sys2Proof

theorem toNat_append_eq {m n : Nat} (x : BitVec m) (y : BitVec n) : (x ++ y).toNat = x.toNat * 2 ^ n + y.toNat := by
  rw [BitVec.toNat_append, ← Nat.shiftLeft_add_eq_or_of_lt y.isLt, Nat.shiftLeft_eq]

theorem hostWord_toNat (op : BitVec 4) (chip : ChipField) (arg : ArgField) :
    (hostWord op chip arg).toNat = op.toNat * 2 ^ 28 + chip.toNat * 2 ^ 24 + arg.toNat := by
  unfold hostWord
  rw [toNat_append_eq, toNat_append_eq]
  ring

@[simp] theorem opField_hostWord (op : BitVec 4) (chip : ChipField) (arg : ArgField) :
    opField (hostWord op chip arg) = op := by
  apply BitVec.eq_of_toNat_eq
  have h1 := op.isLt; have h2 := chip.isLt; have h3 := arg.isLt
  simp only [opField, BitVec.extractLsb'_toNat, hostWord_toNat, Nat.shiftRight_eq_div_pow]
  omega

@[simp] theorem chipField_hostWord (op : BitVec 4) (chip : ChipField) (arg : ArgField) :
    chipField (hostWord op chip arg) = chip := by
  apply BitVec.eq_of_toNat_eq
  have h1 := op.isLt; have h2 := chip.isLt; have h3 := arg.isLt
  simp only [chipField, BitVec.extractLsb'_toNat, hostWord_toNat, Nat.shiftRight_eq_div_pow]
  omega

@[simp] theorem argField_hostWord (op : BitVec 4) (chip : ChipField) (arg : ArgField) :
    argField (hostWord op chip arg) = arg := by
  apply BitVec.eq_of_toNat_eq
  have h1 := op.isLt; have h2 := chip.isLt; have h3 := arg.isLt
  simp only [argField, BitVec.extractLsb'_toNat, hostWord_toNat, Nat.shiftRight_eq_div_pow]
  omega

/-- A host command word is its three fields. -/
theorem hostWord_fields (w : HostWord) : hostWord (opField w) (chipField w) (argField w) = w := by
  apply BitVec.eq_of_toNat_eq
  have h := w.isLt
  simp only [hostWord_toNat, opField, chipField, argField, BitVec.extractLsb'_toNat, Nat.shiftRight_eq_div_pow]
  omega

theorem opField_reserved (op : BitVec 4) (rest : BitVec 28) : opField (op ++ rest) = op := by
  apply BitVec.eq_of_toNat_eq
  have h1 := op.isLt; have h2 := rest.isLt
  simp only [opField, BitVec.extractLsb'_toNat, toNat_append_eq, Nat.shiftRight_eq_div_pow]
  omega

theorem rest_reserved (op : BitVec 4) (rest : BitVec 28) : (op ++ rest).extractLsb' 0 28 = rest := by
  apply BitVec.eq_of_toNat_eq
  have h1 := op.isLt; have h2 := rest.isLt
  simp only [BitVec.extractLsb'_toNat, toNat_append_eq, Nat.shiftRight_eq_div_pow]
  omega

theorem reserved_fields (w : HostWord) : opField w ++ w.extractLsb' 0 28 = w := by
  apply BitVec.eq_of_toNat_eq
  have h := w.isLt
  simp only [opField, toNat_append_eq, BitVec.extractLsb'_toNat, Nat.shiftRight_eq_div_pow]
  omega

theorem byteArg_high (b : Byte) : ((0 : BitVec 16) ++ b : ArgField).extractLsb' 8 16 = 0 := by
  apply BitVec.eq_of_toNat_eq
  have h := b.isLt
  simp only [BitVec.extractLsb'_toNat, toNat_append_eq, Nat.shiftRight_eq_div_pow]
  simp; omega

theorem byteArg_low (b : Byte) : ((0 : BitVec 16) ++ b : ArgField).extractLsb' 0 8 = b := by
  apply BitVec.eq_of_toNat_eq
  have h := b.isLt
  simp only [BitVec.extractLsb'_toNat, toNat_append_eq, Nat.shiftRight_eq_div_pow]
  simp
  omega

/-- R113: with its upper bits zero, the operand of `WRITE_BYTE` is one byte. -/
theorem byteArg_eq {a : ArgField} (h : a.extractLsb' 8 16 = 0) : (0 : BitVec 16) ++ a.extractLsb' 0 8 = a := by
  have h := congrArg BitVec.toNat h
  apply BitVec.eq_of_toNat_eq
  have ha := a.isLt
  simp only [BitVec.extractLsb'_toNat, toNat_append_eq, Nat.shiftRight_eq_div_pow] at h ⊢
  simp at h ⊢
  omega

theorem addrOf_toNat (b0 b1 b2 : Byte) : (addrOf b0 b1 b2).toNat = b0.toNat * 2 ^ 16 + b1.toNat * 2 ^ 8 + b2.toNat := by
  unfold addrOf
  rw [toNat_append_eq, toNat_append_eq]
  ring

/-- R65, R71: an address field is its three bytes. -/
@[simp] theorem addrOf_bytes (a : AddrField) :
    addrOf (a.extractLsb' 16 8) (a.extractLsb' 8 8) (a.extractLsb' 0 8) = a := by
  apply BitVec.eq_of_toNat_eq
  have h := a.isLt
  simp only [addrOf_toNat, BitVec.extractLsb'_toNat, Nat.shiftRight_eq_div_pow]
  omega

@[simp] theorem addrBytes_addrOf (b0 b1 b2 : Byte) : addrBytes (addrOf b0 b1 b2) = [b0, b1, b2] := by
  have h0 := b0.isLt; have h1 := b1.isLt; have h2 := b2.isLt
  simp only [addrBytes, List.cons.injEq, and_true]
  refine ⟨?_, ?_, ?_⟩ <;> apply BitVec.eq_of_toNat_eq <;>
    simp only [addrOf_toNat, BitVec.extractLsb'_toNat, Nat.shiftRight_eq_div_pow] <;> omega

@[simp] theorem addrBytes_length (a : AddrField) : (addrBytes a).length = 3 := rfl

end Sys2Proof

namespace Sys2Proof.Machine

/-- R12: the bounds, one by one. -/
theorem config_valid_iff {cfg : Config} : cfg.valid = true ↔ ((1 ≤ cfg.chips ∧ cfg.chips ≤ 16) ∧ (1 ≤ cfg.pageSize ∧ cfg.pageSize ≤ 65536) ∧
      (cfg.pageBits = 11 ∨ cfg.pageBits = 12 ∨ cfg.pageBits = 13) ∧ cfg.pageBits + cfg.shift ≤ 16 ∧
      1 ≤ cfg.pollLimit ∧ 1 ≤ cfg.sectorPages) := by
  simp only [Config.valid, Bool.and_eq_true, decide_eq_true_eq, Bool.or_eq_true, beq_iff_eq]
  tauto

/-- R7: `PAGE_BITS + SHIFT` bits hold a shifted page index. -/
theorem shl_lt {cfg : Config} (hv : cfg.valid = true) {p : Nat} (hp : p < cfg.numPages) : p * 2 ^ cfg.shift < 65536 := by
  obtain ⟨-, -, -, h, -⟩ := config_valid_iff.1 hv
  have h1 : p * 2 ^ cfg.shift < 2 ^ cfg.pageBits * 2 ^ cfg.shift := Nat.mul_lt_mul_of_pos_right hp (by positivity)
  rw [← Nat.pow_add] at h1
  have h2 : 2 ^ (cfg.pageBits + cfg.shift) ≤ 2 ^ 16 := Nat.pow_le_pow_right (by norm_num) h
  omega

/-- R140 as arithmetic. -/
theorem encodePage_toNat {cfg : Config} (hv : cfg.valid = true) {p : Nat} (hp : p < cfg.numPages) :
    (encodePage cfg p).toNat = p * 2 ^ cfg.shift * 256 := by
  have h := shl_lt hv hp
  simp only [encodePage, addrOf_toNat, BitVec.extractLsb'_toNat, BitVec.toNat_ofNat, Nat.shiftRight_eq_div_pow, Nat.shiftLeft_eq]
  simp
  omega

/-- R141 as arithmetic. -/
theorem decodePage_eq (cfg : Config) (a : AddrField) : decodePage cfg a = a.toNat / 2 ^ (cfg.shift + 8) % 2 ^ cfg.pageBits := by
  have h := a.isLt
  simp only [decodePage, BitVec.extractLsb'_toNat, Nat.shiftRight_eq_div_pow]
  rw [Nat.pow_add, Nat.mul_comm (2 ^ cfg.shift), ← Nat.div_div_eq_div_mul]
  congr 2
  omega

/-- R142: what decodes is a page. -/
theorem decodePage_lt (cfg : Config) (a : AddrField) : decodePage cfg a < cfg.numPages :=
  Nat.mod_lt _ (Nat.two_pow_pos _)

/-- R108: what `encode` builds is a page field. -/
theorem isPageField_encode {cfg : Config} (hv : cfg.valid = true) {p : Nat} (hp : p < cfg.numPages) :
    isPageField cfg (encodePage cfg p) = true := by
  have hd : decodePage cfg (encodePage cfg p) = p := by
    rw [decodePage_eq, encodePage_toNat hv hp, Nat.pow_add, Nat.mul_assoc,
      Nat.mul_div_cancel _ (by positivity)]
    exact Nat.mod_eq_of_lt hp
  rw [isPageField, hd, beq_self_eq_true]

/-- R108: a page field is `encode(p)` of the page it decodes to. -/
theorem isPageField_iff {cfg : Config} {a : AddrField} : isPageField cfg a = true ↔ encodePage cfg (decodePage cfg a) = a := by
  simp [isPageField]

@[simp] theorem isBufferField_zero : isBufferField 0#24 = true := rfl

@[simp] theorem addrBytes_zero : addrBytes 0#24 = [0#8, 0#8, 0#8] := rfl

/-- R109: the one buffer address. -/
theorem isBufferField_iff {a : AddrField} : isBufferField a = true ↔ a = 0 := by simp [isBufferField, bufferStart]

end Sys2Proof.Machine
end

