-- ==== Sys2Proof/Laws/Memory.lean ====
section
/-! SUPPORT. The laws of one memory: what a read gives after a store, and that every operation keeps the canonical form. -/

namespace Sys2Proof.Machine.Memory

theorem mem_run {bg : Background} {a : Nat} {vs : List Byte} {cell : Host.Cell} (h : cell ∈ run bg a vs) :
    a ≤ cell.1 ∧ cell.1 < a + vs.length ∧ bg ≠ .erased cell.2 := by
  induction vs generalizing a with
  | nil => simp [run] at h
  | cons v vs ih =>
    simp only [run] at h
    split at h
    · obtain ⟨h1, h2, h3⟩ := ih h
      exact ⟨by omega, by simp only [List.length_cons]; omega, h3⟩
    · next hv =>
      rcases List.mem_cons.1 h with rfl | h
      · exact ⟨le_refl _, by simp, hv⟩
      · obtain ⟨h1, h2, h3⟩ := ih h
        exact ⟨by omega, by simp only [List.length_cons]; omega, h3⟩

theorem run_rising (bg : Background) (a : Nat) (vs : List Byte) :
    (run bg a vs).Pairwise (fun x y => x.1 < y.1) := by
  induction vs generalizing a with
  | nil => simp [run]
  | cons v vs ih =>
    simp only [run]
    split
    · exact ih _
    · refine List.Pairwise.cons (fun y hy => ?_) (ih _)
      have := mem_run hy; simp only; omega

@[simp] theorem store_background (m : Memory) (a : Nat) (vs : List Byte) : (m.store a vs).background = m.background :=
  rfl

theorem wf_unspecified (n : Nat) : (Memory.unspecified n).wf := by simp [wf, Memory.unspecified]

theorem wf_eraseAll (v : Byte) : (eraseAll v).wf := by simp [wf, eraseAll]

/-- A store keeps the canonical form. -/
theorem wf_store {m : Memory} (h : m.wf) (a : Nat) (vs : List Byte) : (m.store a vs).wf := by
  obtain ⟨hp, hb⟩ := h
  refine ⟨?_, ?_⟩
  · simp only [store, List.pairwise_append]
    refine ⟨⟨hp.filter _, run_rising _ _ _, ?_⟩, hp.filter _, ?_⟩
    · intro x hx y hy
      have := mem_run hy
      simp only [List.mem_filter, decide_eq_true_eq] at hx; omega
    · intro x hx y hy
      simp only [List.mem_append, List.mem_filter, decide_eq_true_eq] at hx hy
      rcases hx with hx | hx
      · omega
      · have := mem_run hx; omega
  · intro cell hc
    simp only [store, List.mem_append, List.mem_filter] at hc
    rcases hc with (hc | hc) | hc
    · exact hb _ hc.1
    · exact (mem_run hc).2.2
    · exact hb _ hc.1

theorem find?_append_of_none {l l' : List Host.Cell} {q : Host.Cell → Bool} (h : l.find? q = none) :
    (l ++ l').find? q = l'.find? q := by simp [List.find?_append, h]

theorem find?_run (bg : Background) (a : Nat) (vs : List Byte) (x : Nat) :
    (match (run bg a vs).find? (fun cell => cell.1 == x) with | some cell => some cell.2 | none => bg.byte?) =
      if a ≤ x then (match vs[x - a]? with | some v => some v | none => bg.byte?) else bg.byte? := by
  induction vs generalizing a with
  | nil => simp [run]
  | cons v vs ih =>
    have step : (match (run bg a (v :: vs)).find? (fun cell => cell.1 == x) with
        | some cell => some cell.2 | none => bg.byte?) =
        if a = x then some v else
          (match (run bg (a + 1) vs).find? (fun cell => cell.1 == x) with
            | some cell => some cell.2 | none => bg.byte?) := by
      by_cases hv : bg = .erased v
      · rw [run, if_pos hv]
        split_ifs with hx
        · rw [ih (a + 1), if_neg (by omega), hv]; rfl
        · rfl
      · rw [run, if_neg hv]
        split_ifs with hx
        · simp [hx]
        · rw [List.find?_cons_of_neg (by simpa using hx)]
    rw [step, ih (a + 1)]
    rcases Nat.lt_trichotomy a x with h | rfl | h
    · rw [if_neg (by omega), if_pos (by omega), if_pos (by omega), show x - a = (x - (a + 1)) + 1 by omega,
        List.getElem?_cons_succ]
    · simp
    · rw [if_neg (by omega), if_neg (by omega), if_neg (by omega)]

theorem find?_filter_of_false {l : List Host.Cell} {q : Host.Cell → Bool} {x : Nat}
    (h : ∀ cell : Host.Cell, cell.1 = x → q cell = false) :
    (l.filter q).find? (fun cell => cell.1 == x) = none := by
  rw [List.find?_eq_none]
  intro cell hc
  rw [List.mem_filter] at hc
  intro hx
  rw [h cell (by simpa using hx)] at hc
  simp at hc

theorem find?_filter_of_true {l : List Host.Cell} {q : Host.Cell → Bool} {x : Nat}
    (h : ∀ cell : Host.Cell, cell.1 = x → q cell = true) :
    (l.filter q).find? (fun cell => cell.1 == x) = l.find? (fun cell => cell.1 == x) := by
  induction l with
  | nil => rfl
  | cons y l ih =>
    by_cases hy : y.1 = x
    · simp [h y hy, hy]
    · by_cases hq : q y = true
      · simp [hq, hy, ih]
      · simp [hq, hy, ih]

/-- What a byte reads as after a store: the byte stored there, else what it read as before. -/
theorem read?_store (m : Memory) (a : Nat) (vs : List Byte) (x : Nat) :
    (m.store a vs).read? x =
      if a ≤ x ∧ x < a + vs.length then vs[x - a]? else m.read? x := by
  have hrun := find?_run m.background a vs x
  simp only [read?, store, List.find?_append]
  by_cases hlo : x < a
  · rw [find?_filter_of_true (by intro cell h; simp [h, hlo])]
    rw [if_neg (by omega)] at hrun
    rw [if_neg (by omega)]
    have hnone : (run m.background a vs).find? (fun cell => cell.1 == x) = none := by
      rw [List.find?_eq_none]; intro cell hc hx
      have := mem_run hc; simp at hx; omega
    have hhi : (m.cells.filter (fun cell => decide (a + vs.length ≤ cell.1))).find? (fun cell => cell.1 == x) = none :=
      find?_filter_of_false (by intro cell h; simp [h]; omega)
    rw [hnone, hhi]
    cases h : m.cells.find? (fun cell => cell.1 == x) <;> simp
  · rw [find?_filter_of_false (by intro cell h; simp [h]; omega)]
    by_cases hhi : a + vs.length ≤ x
    · rw [if_neg (by omega)]
      have hnone : (run m.background a vs).find? (fun cell => cell.1 == x) = none := by
        rw [List.find?_eq_none]; intro cell hc hx
        have := mem_run hc; simp at hx; omega
      rw [find?_filter_of_true (by intro cell h; simp [h, hhi]), hnone]
      simp
    · rw [if_pos (by omega)]
      rw [if_pos (by omega)] at hrun
      rw [find?_filter_of_false (by intro cell h; simp [h]; omega)]
      have hsome : vs[x - a]? = some (vs[x - a]'(by omega)) := List.getElem?_eq_getElem _
      rw [hsome] at hrun ⊢
      cases h : (run m.background a vs).find? (fun cell => cell.1 == x) <;> simp [h] at hrun ⊢ <;> exact hrun

@[simp] theorem read?_eraseAll (v : Byte) (x : Nat) : (eraseAll v).read? x = some v := rfl

@[simp] theorem read?_unspecified (n x : Nat) : (Memory.unspecified n).read? x = none := rfl

/-- U4, U5: unspecified contents are free values. -/
@[simp] theorem byteAt_unspecified (n c space x : Nat) :
    (Memory.unspecified n).byteAt c space x = Config.unknownByte c space n x := rfl

@[simp] theorem byteAt_eraseAll (v : Byte) (c space x : Nat) : (eraseAll v).byteAt c space x = v := rfl

/-- What a byte reads as after a store. -/
theorem byteAt_store (m : Memory) (c space a : Nat) (vs : List Byte) (x : Nat) :
    (m.store a vs).byteAt c space x =
      if a ≤ x ∧ x < a + vs.length then (vs[x - a]?).getD (m.byteAt c space x) else m.byteAt c space x := by
  simp only [byteAt, read?_store, store_background]
  split
  · next h => rw [List.getElem?_eq_getElem (by omega)]; rfl
  · rfl

end Sys2Proof.Machine.Memory
end

