-- ==== Sys2Proof/Laws/State.lean ====
section
/-! SUPPORT. One lemma per field per update, so that no later proof unfolds a record update. -/

namespace Sys2Proof.Machine

/-! Bus updates. -/

namespace Bus

variable (b : Bus) (c : Nat) (e : Event) (f : Chip → Chip) (cfg : Config) (o : Byte)

@[simp] theorem settle_cs : b.settle.cs = b.cs := rfl
@[simp] theorem settle_trace : b.settle.trace = b.trace := rfl
@[simp] theorem settle_answers : b.settle.answers = b.answers := rfl
@[simp] theorem settle_tick : b.settle.tick = b.tick := rfl
@[simp] theorem settle_chips : b.settle.chips = settleFrom b.tick 0 b.chips := rfl
@[simp] theorem settle_hazard : b.settle.hazard = b.hazard := rfl

@[simp] theorem onChip_cs : (b.onChip c f).cs = b.cs := rfl
@[simp] theorem onChip_trace : (b.onChip c f).trace = b.trace := rfl
@[simp] theorem onChip_answers : (b.onChip c f).answers = b.answers := rfl
@[simp] theorem onChip_tick : (b.onChip c f).tick = b.tick := rfl
@[simp] theorem onChip_chips : (b.onChip c f).chips = b.chips.modify c f := rfl
@[simp] theorem onChip_hazard : (b.onChip c f).hazard = b.hazard := rfl

@[simp] theorem emit_cs : (b.emit e).cs = b.cs := rfl
@[simp] theorem emit_trace : (b.emit e).trace = b.trace ++ [e] := rfl
@[simp] theorem emit_answers : (b.emit e).answers = b.answers := rfl
@[simp] theorem emit_tick : (b.emit e).tick = b.tick + 1 := rfl
@[simp] theorem emit_chips : (b.emit e).chips = b.chips := rfl
@[simp] theorem emit_hazard : (b.emit e).hazard = b.hazard := rfl

@[simp] theorem sel_cs : (b.sel c).cs = some c := rfl
@[simp] theorem sel_trace : (b.sel c).trace = b.trace ++ [.sel c] := rfl
@[simp] theorem sel_answers : (b.sel c).answers = b.answers := rfl
@[simp] theorem sel_tick : (b.sel c).tick = b.tick + 1 := rfl
@[simp] theorem sel_chips : (b.sel c).chips = (settleFrom b.tick 0 b.chips).modify c Chip.select := rfl
@[simp] theorem sel_hazard : (b.sel c).hazard = b.hazard := rfl

@[simp] theorem desel_cs : (b.desel cfg c).cs = none := rfl
@[simp] theorem desel_trace : (b.desel cfg c).trace = b.trace ++ [.desel c] := rfl
@[simp] theorem desel_answers : (b.desel cfg c).answers = b.answers := rfl
@[simp] theorem desel_tick : (b.desel cfg c).tick = b.tick + 1 := rfl
@[simp] theorem desel_chips :
    (b.desel cfg c).chips = (settleFrom b.tick 0 b.chips).modify c (Chip.deselect cfg c) := rfl
@[simp] theorem desel_hazard : (b.desel cfg c).hazard = b.hazard := rfl

@[simp] theorem loseBuffers_cs : b.loseBuffers.cs = b.cs := rfl
@[simp] theorem loseBuffers_trace : b.loseBuffers.trace = b.trace := rfl
@[simp] theorem loseBuffers_answers : b.loseBuffers.answers = b.answers := rfl
@[simp] theorem loseBuffers_tick : b.loseBuffers.tick = b.tick := rfl
@[simp] theorem loseBuffers_chips : b.loseBuffers.chips = b.chips.map (Chip.loseBuffers b.tick) := rfl
@[simp] theorem loseBuffers_hazard : b.loseBuffers.hazard = b.hazard := rfl

variable (a : Answer)

@[simp] theorem deliver_cs : (b.deliver cfg o a).cs = b.cs := by
  unfold deliver; split <;> rfl
@[simp] theorem deliver_trace : (b.deliver cfg o a).trace = b.trace := by
  unfold deliver; split <;> rfl
@[simp] theorem deliver_answers : (b.deliver cfg o a).answers = b.answers := by
  unfold deliver; split <;> rfl
@[simp] theorem deliver_tick : (b.deliver cfg o a).tick = b.tick := by
  unfold deliver; split <;> rfl
@[simp] theorem deliver_hazard : (b.deliver cfg o a).hazard = b.hazard := by
  unfold deliver; split <;> rfl

@[simp] theorem exchange_cs : (b.exchange cfg o a).cs = b.cs := by simp [exchange]
@[simp] theorem exchange_trace : (b.exchange cfg o a).trace = b.trace ++ [.x o a] := by simp [exchange]
@[simp] theorem exchange_answers : (b.exchange cfg o a).answers = b.answers.tail := by simp [exchange]
@[simp] theorem exchange_tick : (b.exchange cfg o a).tick = b.tick + 1 := by simp [exchange]
@[simp] theorem exchange_hazard : (b.exchange cfg o a).hazard = b.hazard := by simp [exchange]

@[simp] theorem confirmSeen_cs : (b.confirmSeen c).cs = b.cs := by unfold confirmSeen; split <;> rfl
@[simp] theorem confirmSeen_trace : (b.confirmSeen c).trace = b.trace := by unfold confirmSeen; split <;> rfl
@[simp] theorem confirmSeen_answers : (b.confirmSeen c).answers = b.answers := by unfold confirmSeen; split <;> rfl
@[simp] theorem confirmSeen_tick : (b.confirmSeen c).tick = b.tick := by unfold confirmSeen; split <;> rfl
@[simp] theorem confirmSeen_hazard : (b.confirmSeen c).hazard = b.hazard := by unfold confirmSeen; split <;> rfl

@[simp] theorem resetSelects_cs : b.resetSelects.cs = none := rfl
@[simp] theorem resetSelects_trace : b.resetSelects.trace = b.trace := by
  unfold resetSelects; cases b.cs <;> rfl
@[simp] theorem resetSelects_answers : b.resetSelects.answers = b.answers := by
  unfold resetSelects; cases b.cs <;> rfl
@[simp] theorem resetSelects_tick : b.resetSelects.tick = b.tick := by
  unfold resetSelects; cases b.cs <;> rfl
@[simp] theorem resetSelects_hazard : b.resetSelects.hazard = b.hazard := by
  unfold resetSelects; cases b.cs <;> rfl

@[simp] theorem xfer_cs : (b.xfer cfg o).2.cs = b.cs := by simp [xfer]
@[simp] theorem xfer_trace : (b.xfer cfg o).2.trace = b.trace ++ [.x o (b.xfer cfg o).1] := by simp [xfer]
@[simp] theorem xfer_answers : (b.xfer cfg o).2.answers = b.answers.tail := by simp [xfer]
@[simp] theorem xfer_tick : (b.xfer cfg o).2.tick = b.tick + 1 := by simp [xfer]
@[simp] theorem xfer_hazard : (b.xfer cfg o).2.hazard = b.hazard := by simp [xfer]

@[simp] theorem noteReady_cs : (b.noteReady c).cs = b.cs := rfl
@[simp] theorem noteReady_trace : (b.noteReady c).trace = b.trace := rfl
@[simp] theorem noteReady_answers : (b.noteReady c).answers = b.answers := rfl
@[simp] theorem noteReady_tick : (b.noteReady c).tick = b.tick := rfl
@[simp] theorem noteReady_hazard : (b.noteReady c).hazard = b.hazard := rfl

@[simp] theorem noteBusyFrame_cs : (b.noteBusyFrame c).cs = b.cs := rfl
@[simp] theorem noteBusyFrame_trace : (b.noteBusyFrame c).trace = b.trace := rfl
@[simp] theorem noteBusyFrame_answers : (b.noteBusyFrame c).answers = b.answers := rfl
@[simp] theorem noteBusyFrame_tick : (b.noteBusyFrame c).tick = b.tick := rfl

variable (p : Nat)

@[simp] theorem noteCommit_chip (d : Nat) : (b.noteCommit cfg c p).chip d = b.chip d := rfl
@[simp] theorem noteCommit_cs : (b.noteCommit cfg c p).cs = b.cs := rfl
@[simp] theorem noteCommit_trace : (b.noteCommit cfg c p).trace = b.trace := rfl
@[simp] theorem noteCommit_answers : (b.noteCommit cfg c p).answers = b.answers := rfl
@[simp] theorem noteCommit_tick : (b.noteCommit cfg c p).tick = b.tick := rfl
@[simp] theorem noteCommit_chips : (b.noteCommit cfg c p).chips = b.chips := rfl

end Bus

/-! State updates. -/

namespace State

variable (s : State) (c : Nat) (f : Handle → Handle)

@[simp] theorem onHandle_cfg : (s.onHandle c f).cfg = s.cfg := rfl
@[simp] theorem onHandle_handles : (s.onHandle c f).handles = s.handles.modify c f := rfl
@[simp] theorem onHandle_curW : (s.onHandle c f).curW = s.curW := rfl
@[simp] theorem onHandle_curR : (s.onHandle c f).curR = s.curR := rfl
@[simp] theorem onHandle_soff : (s.onHandle c f).soff = s.soff := rfl
@[simp] theorem onHandle_bus : (s.onHandle c f).bus = s.bus := rfl
@[simp] theorem onHandle_pending : (s.onHandle c f).pending = s.pending := rfl
@[simp] theorem onHandle_responses : (s.onHandle c f).responses = s.responses := rfl
@[simp] theorem onHandle_stream : (s.onHandle c f).stream = s.stream := rfl
@[simp] theorem onHandle_resetIn : (s.onHandle c f).resetIn = s.resetIn := rfl
@[simp] theorem onHandle_past : (s.onHandle c f).past = s.past := rfl

variable (err : Option ErrorKind) (data : List Byte) (low : Byte)

@[simp] theorem respond_cfg : (s.respond err c data low).cfg = s.cfg := rfl
@[simp] theorem respond_handles : (s.respond err c data low).handles = s.handles := rfl
@[simp] theorem respond_curW : (s.respond err c data low).curW = s.curW := rfl
@[simp] theorem respond_curR : (s.respond err c data low).curR = s.curR := rfl
@[simp] theorem respond_soff : (s.respond err c data low).soff = s.soff := rfl
@[simp] theorem respond_bus : (s.respond err c data low).bus = s.bus := rfl
@[simp] theorem respond_pending : (s.respond err c data low).pending = s.pending := rfl
@[simp] theorem respond_responses :
    (s.respond err c data low).responses = s.responses ++ [⟨err, c, data, responseWord err c low⟩] := rfl
@[simp] theorem respond_stream : (s.respond err c data low).stream = s.stream := rfl
@[simp] theorem respond_resetIn : (s.respond err c data low).resetIn = s.resetIn := rfl
@[simp] theorem respond_past : (s.respond err c data low).past = s.past := rfl

@[simp] theorem blockReset_cfg : s.blockReset.cfg = s.cfg := rfl
@[simp] theorem blockReset_handles : s.blockReset.handles = List.replicate s.cfg.chips Handle.reset := rfl
@[simp] theorem blockReset_curW : s.blockReset.curW = 0 := rfl
@[simp] theorem blockReset_curR : s.blockReset.curR = 0 := rfl
@[simp] theorem blockReset_soff : s.blockReset.soff = 0 := rfl
@[simp] theorem blockReset_cs : s.blockReset.bus.cs = none := rfl
@[simp] theorem blockReset_trace : s.blockReset.bus.trace = [] := rfl
@[simp] theorem blockReset_chips : s.blockReset.bus.chips = s.bus.resetSelects.chips := rfl
@[simp] theorem blockReset_tick : s.blockReset.bus.tick = s.bus.tick := by simp [blockReset]
@[simp] theorem blockReset_answers : s.blockReset.bus.answers = s.bus.answers := by simp [blockReset]
@[simp] theorem blockReset_hazard : s.blockReset.bus.hazard = s.bus.hazard := by simp [blockReset]
@[simp] theorem blockReset_pending : s.blockReset.pending = s.pending := rfl
@[simp] theorem blockReset_responses : s.blockReset.responses = s.responses := rfl
@[simp] theorem blockReset_stream : s.blockReset.stream = s.stream := rfl
@[simp] theorem blockReset_resetIn : s.blockReset.resetIn = none := rfl
@[simp] theorem blockReset_past : s.blockReset.past = s.past ++ [s.bus.trace] := rfl

@[simp] theorem release_cs : s.release.cs = none := by
  unfold release; split <;> simp_all
@[simp] theorem release_hazard : s.release.hazard = s.bus.hazard := by
  unfold release; split <;> rfl
@[simp] theorem release_answers : s.release.answers = s.bus.answers := by
  unfold release; split <;> rfl

@[simp] theorem abort_cfg : s.abort.cfg = s.cfg := rfl
@[simp] theorem abort_handles :
    s.abort.handles = s.handles.map (fun h => { h with est := .idle, off := 0 }) := rfl
@[simp] theorem abort_curW : s.abort.curW = s.curW := rfl
@[simp] theorem abort_curR : s.abort.curR = s.curR := rfl
@[simp] theorem abort_soff : s.abort.soff = 0 := rfl
@[simp] theorem abort_pending : s.abort.pending = s.pending := rfl
@[simp] theorem abort_responses : s.abort.responses = s.responses := rfl
@[simp] theorem abort_stream : s.abort.stream = s.stream := rfl
@[simp] theorem abort_resetIn : s.abort.resetIn = s.resetIn := rfl
@[simp] theorem abort_past : s.abort.past = s.past := rfl
theorem abort_bus : s.abort.bus = if s.idle then s.release else s.release.loseBuffers := rfl
theorem abort_cs : s.abort.bus.cs = none := by
  rw [abort_bus]; split <;> simp
theorem abort_trace : s.abort.bus.trace = s.release.trace := by
  rw [abort_bus]; split <;> rfl
theorem abort_hazard : s.abort.bus.hazard = s.bus.hazard := by
  rw [abort_bus]; split <;> simp
theorem abort_answers : s.abort.bus.answers = s.bus.answers := by
  rw [abort_bus]; split <;> simp

end State

end Sys2Proof.Machine
end

