-- ==== Sys2Proof/Laws/Bus.lean ====
section
/-! SUPPORT. How procedures compose (`Res.Post`), what a bus event does to each chip, and what `transferBlock` can do. -/

namespace Sys2Proof.Machine

/-! Procedures. -/

namespace Res

variable {σ τ α β : Type}

/-- What holds where a procedure ends normally (`Q`) and where it raises (`E`). -/
def Post (r : Res σ α) (Q : α → σ → Prop) (E : ErrorKind → Nat → σ → Prop) : Prop :=
  match r with
  | .ok a s => Q a s
  | .raise e c s => E e c s

@[simp] theorem andThen_ok (a : α) (s : σ) (f : α → σ → Res σ β) : (Res.ok a s).andThen f = f a s := rfl

@[simp] theorem andThen_raise (e : ErrorKind) (c : Nat) (s : σ) (f : α → σ → Res σ β) :
    (Res.raise e c s : Res σ α).andThen f = .raise e c s := rfl

theorem andThen_assoc {γ : Type} (r : Res σ α) (f : α → σ → Res σ β) (g : β → σ → Res σ γ) :
    (r.andThen f).andThen g = r.andThen fun a s => (f a s).andThen g := by
  cases r <;> rfl

@[simp] theorem post_ok {a : α} {s : σ} {Q : α → σ → Prop} {E : ErrorKind → Nat → σ → Prop} :
    (Res.ok a s).Post Q E ↔ Q a s := Iff.rfl

@[simp] theorem post_raise {e : ErrorKind} {c : Nat} {s : σ} {Q : α → σ → Prop} {E : ErrorKind → Nat → σ → Prop} :
    (Res.raise e c s : Res σ α).Post Q E ↔ E e c s := Iff.rfl

theorem Post.andThen {r : Res σ α} {f : α → σ → Res σ β} {Q : α → σ → Prop} {Q' : β → σ → Prop}
    {E : ErrorKind → Nat → σ → Prop} (h : r.Post Q E) (hf : ∀ a s, Q a s → (f a s).Post Q' E) :
    (r.andThen f).Post Q' E := by
  cases r with
  | ok a s => exact hf a s h
  | raise e c s => exact h

theorem Post.mono {r : Res σ α} {Q Q' : α → σ → Prop} {E E' : ErrorKind → Nat → σ → Prop} (h : r.Post Q E)
    (hq : ∀ a s, Q a s → Q' a s) (he : ∀ e c s, E e c s → E' e c s) : r.Post Q' E' := by
  cases r with
  | ok a s => exact hq a s h
  | raise e c s => exact he e c s h

theorem Post.of_eq_ok {r : Res σ α} {Q : α → σ → Prop} {E : ErrorKind → Nat → σ → Prop} (h : r.Post Q E) {a : α} {s : σ}
    (hr : r = .ok a s) : Q a s := by subst hr; exact h

theorem Post.of_eq_raise {r : Res σ α} {Q : α → σ → Prop} {E : ErrorKind → Nat → σ → Prop} (h : r.Post Q E)
    {e : ErrorKind} {c : Nat} {s : σ} (hr : r = .raise e c s) : E e c s := by subst hr; exact h

/-- `P` holds of the state a procedure leaves, however it ends. -/
abbrev All (P : σ → Prop) (r : Res σ α) : Prop := r.Post (fun _ s => P s) (fun _ _ s => P s)

end Res

/-! What happens to each chip. -/

namespace Chip

@[simp] theorem settle_main (c n : Nat) (ch : Chip) : (ch.settle c n).main = ch.main := by
  unfold settle; split <;> [split; skip] <;> rfl
@[simp] theorem settle_buf1 (c n : Nat) (ch : Chip) : (ch.settle c n).buf1 = ch.buf1 := by
  unfold settle; split <;> [split; skip] <;> rfl
@[simp] theorem settle_buf2 (c n : Nat) (ch : Chip) : (ch.settle c n).buf2 = ch.buf2 := by
  unfold settle; split <;> [split; skip] <;> rfl
@[simp] theorem settle_received (c n : Nat) (ch : Chip) : (ch.settle c n).received = ch.received := by
  unfold settle; split <;> [split; skip] <;> rfl
@[simp] theorem settle_inUse (c n : Nat) (ch : Chip) : (ch.settle c n).inUse = ch.inUse := by
  unfold settle; split <;> [split; skip] <;> rfl
@[simp] theorem settle_knownReady (c n : Nat) (ch : Chip) : (ch.settle c n).knownReady = ch.knownReady := by
  unfold settle; split <;> [split; skip] <;> rfl

@[simp] theorem settle_doubts (c n : Nat) (ch : Chip) : (ch.settle c n).doubts = ch.doubts := by
  unfold settle; split <;> [split; skip] <;> rfl
@[simp] theorem settle_commits (c n : Nat) (ch : Chip) : (ch.settle c n).commits = ch.commits := by
  unfold settle; split <;> [split; skip] <;> rfl

/-- R80 makes no ready chip busy. -/
theorem settle_of_ready {ch : Chip} (h : ch.busy = false) (c n : Nat) : ch.settle c n = ch := by
  simp [settle, h]

@[simp] theorem settle_buf (c n : Nat) (ch : Chip) (q : Parity) : (ch.settle c n).buf q = ch.buf q := by
  cases q <;> simp [buf]

@[simp] theorem settle_bufByte (d c n : Nat) (ch : Chip) (q : Parity) (o : Nat) :
    (ch.settle c n).bufByte d q o = ch.bufByte d q o := by simp [bufByte]

@[simp] theorem settle_mainByte (d c n : Nat) (ch : Chip) (a : Nat) :
    (ch.settle c n).mainByte d a = ch.mainByte d a := by simp [mainByte]

/-- A transfer finds in a page what its array and its doubts say. -/
theorem arrayByte_congr {cfg : Config} {ch ch' : Chip} (h1 : ch'.main = ch.main) (h2 : ch'.doubts = ch.doubts) (d p o : Nat) :
    ch'.arrayByte cfg d p o = ch.arrayByte cfg d p o := by
  simp [arrayByte, doubt?, mainByte, h1, h2]

/-- R74: a page not in doubt reads as what has been confirmed. -/
theorem arrayByte_of_no_doubts {cfg : Config} {ch : Chip} (h : ch.doubts = []) (d p o : Nat) :
    ch.arrayByte cfg d p o = ch.mainByte d (mainAddr cfg p o) := by
  simp [arrayByte, doubt?, h]

@[simp] theorem settle_arrayByte (cfg : Config) (d c n : Nat) (ch : Chip) (p o : Nat) :
    (ch.settle c n).arrayByte cfg d p o = ch.arrayByte cfg d p o := arrayByte_congr (by simp) (by simp) d p o

/-! What a confirmation, an aborted session, a cut frame leave. -/

@[simp] theorem confirmed_main (ch : Chip) : ch.confirmed.main = ch.main := rfl
@[simp] theorem confirmed_buf (ch : Chip) (q : Parity) : ch.confirmed.buf q = ch.buf q := by cases q <;> rfl
@[simp] theorem confirmed_busy (ch : Chip) : ch.confirmed.busy = ch.busy := rfl
@[simp] theorem confirmed_inUse (ch : Chip) : ch.confirmed.inUse = ch.inUse := rfl
@[simp] theorem confirmed_received (ch : Chip) : ch.confirmed.received = ch.received := rfl
@[simp] theorem confirmed_finish (ch : Chip) : ch.confirmed.finish = ch.finish := rfl
@[simp] theorem confirmed_knownReady (ch : Chip) : ch.confirmed.knownReady = true := rfl
@[simp] theorem confirmed_doubts (ch : Chip) : ch.confirmed.doubts = [] := rfl

@[simp] theorem loseBuffers_main (ch : Chip) (n : Nat) : (ch.loseBuffers n).main = ch.main := rfl
@[simp] theorem loseBuffers_buf (ch : Chip) (n : Nat) (q : Parity) : (ch.loseBuffers n).buf q = .unspecified n := by
  cases q <;> rfl
@[simp] theorem loseBuffers_busy (ch : Chip) (n : Nat) : (ch.loseBuffers n).busy = ch.busy := rfl
@[simp] theorem loseBuffers_knownReady (ch : Chip) (n : Nat) : (ch.loseBuffers n).knownReady = ch.knownReady := rfl
@[simp] theorem loseBuffers_doubts (ch : Chip) (n : Nat) : (ch.loseBuffers n).doubts = ch.doubts := rfl

/-- U4: a lost buffer holds free values. -/
@[simp] theorem loseBuffers_bufByte (ch : Chip) (c n : Nat) (q : Parity) (o : Nat) :
    (ch.loseBuffers n).bufByte c q o = Config.unknownByte c (bufSpace q) n o := by simp [bufByte]

@[simp] theorem cutShort_main (ch : Chip) (n : Nat) : (ch.cutShort n).main = .unspecified n := rfl
@[simp] theorem cutShort_doubts (ch : Chip) (n : Nat) : (ch.cutShort n).doubts = [] := rfl

@[simp] theorem atReset_main (ch : Chip) (c n : Nat) : (ch.atReset c n).main = ch.main := rfl
@[simp] theorem atReset_buf (ch : Chip) (c n : Nat) (q : Parity) : (ch.atReset c n).buf q = .unspecified n := by
  cases q <;> rfl
@[simp] theorem atReset_busy (ch : Chip) (c n : Nat) : (ch.atReset c n).busy = Config.unknownBusy c n := rfl
@[simp] theorem atReset_knownReady (ch : Chip) (c n : Nat) : (ch.atReset c n).knownReady = false := rfl
@[simp] theorem atReset_doubts (ch : Chip) (c n : Nat) : (ch.atReset c n).doubts = ch.doubts := rfl

/-- R293, U2: a buffer holds free values at a reset. -/
@[simp] theorem atReset_bufByte (ch : Chip) (c n : Nat) (q : Parity) (o : Nat) :
    (ch.atReset c n).bufByte c q o = Config.unknownByte c (bufSpace q) n o := by simp [bufByte]

@[simp] theorem setBuf_main (ch : Chip) (q : Parity) (m : Memory) : (ch.setBuf q m).main = ch.main := by
  cases q <;> rfl
@[simp] theorem setBuf_busy (ch : Chip) (q : Parity) (m : Memory) : (ch.setBuf q m).busy = ch.busy := by
  cases q <;> rfl
@[simp] theorem setBuf_inUse (ch : Chip) (q : Parity) (m : Memory) : (ch.setBuf q m).inUse = ch.inUse := by
  cases q <;> rfl
@[simp] theorem setBuf_received (ch : Chip) (q : Parity) (m : Memory) : (ch.setBuf q m).received = ch.received := by
  cases q <;> rfl
@[simp] theorem setBuf_knownReady (ch : Chip) (q : Parity) (m : Memory) :
    (ch.setBuf q m).knownReady = ch.knownReady := by cases q <;> rfl
@[simp] theorem setBuf_doubts (ch : Chip) (q : Parity) (m : Memory) : (ch.setBuf q m).doubts = ch.doubts := by
  cases q <;> rfl
@[simp] theorem setBuf_commits (ch : Chip) (q : Parity) (m : Memory) : (ch.setBuf q m).commits = ch.commits := by
  cases q <;> rfl
@[simp] theorem setBuf_finish (ch : Chip) (q : Parity) (m : Memory) : (ch.setBuf q m).finish = ch.finish := by
  cases q <;> rfl

/-- A buffer reads as what was last put in it, the other as before. -/
theorem buf_setBuf (ch : Chip) (q r : Parity) (m : Memory) :
    (ch.setBuf q m).buf r = if r = q then m else ch.buf r := by
  cases q <;> cases r <;> simp [buf, setBuf]

@[simp] theorem receive_main (cfg : Config) (o : Byte) (ch : Chip) : (ch.receive cfg o).main = ch.main := by
  unfold receive; split <;> simp
@[simp] theorem receive_busy (cfg : Config) (o : Byte) (ch : Chip) : (ch.receive cfg o).busy = ch.busy := by
  unfold receive; split <;> simp
@[simp] theorem receive_inUse (cfg : Config) (o : Byte) (ch : Chip) : (ch.receive cfg o).inUse = ch.inUse := by
  unfold receive; split <;> simp
@[simp] theorem receive_received (cfg : Config) (o : Byte) (ch : Chip) :
    (ch.receive cfg o).received = ch.received ++ [o] := by
  unfold receive; split <;> simp
@[simp] theorem receive_knownReady (cfg : Config) (o : Byte) (ch : Chip) :
    (ch.receive cfg o).knownReady = ch.knownReady := by
  unfold receive; split <;> simp

@[simp] theorem receive_doubts (cfg : Config) (o : Byte) (ch : Chip) : (ch.receive cfg o).doubts = ch.doubts := by
  unfold receive; split <;> simp
@[simp] theorem receive_commits (cfg : Config) (o : Byte) (ch : Chip) : (ch.receive cfg o).commits = ch.commits := by
  unfold receive; split <;> simp

/-- R82: a buffer after a byte has arrived. -/
theorem receive_buf (cfg : Config) (o : Byte) (ch : Chip) (r : Parity) :
    (ch.receive cfg o).buf r =
      match ch.storesAt cfg with
      | some (q, a) => if r = q then (ch.buf q).store a [o] else ch.buf r
      | none => ch.buf r := by
  unfold receive
  cases ch.storesAt cfg with
  | some qa =>
    obtain ⟨q, a⟩ := qa
    simp only
    rw [show Chip.buf { ch.setBuf q ((ch.buf q).store a [o]) with received := ch.received ++ [o] } r =
      (ch.setBuf q ((ch.buf q).store a [o])).buf r by cases r <;> rfl, buf_setBuf]
  | none => cases r <;> rfl

@[simp] theorem select_main (ch : Chip) : ch.select.main = ch.main := rfl
@[simp] theorem select_buf (ch : Chip) (q : Parity) : ch.select.buf q = ch.buf q := by cases q <;> rfl
@[simp] theorem select_busy (ch : Chip) : ch.select.busy = ch.busy := rfl
@[simp] theorem select_inUse (ch : Chip) : ch.select.inUse = ch.inUse := rfl
@[simp] theorem select_received (ch : Chip) : ch.select.received = [] := rfl
@[simp] theorem select_knownReady (ch : Chip) : ch.select.knownReady = ch.knownReady := rfl
@[simp] theorem select_doubts (ch : Chip) : ch.select.doubts = ch.doubts := rfl
@[simp] theorem select_commits (ch : Chip) : ch.select.commits = ch.commits := rfl

theorem canonical_blank : Chip.blank.Canonical :=
  ⟨Memory.wf_unspecified _, Memory.wf_unspecified _, Memory.wf_unspecified _⟩

theorem canonical_reset (c : Nat) : (Chip.reset c).Canonical := canonical_blank

theorem Canonical.buf {ch : Chip} (h : ch.Canonical) (q : Parity) : (ch.buf q).wf := by
  cases q
  · exact h.2.1
  · exact h.2.2

theorem canonical_iff (ch : Chip) : ch.Canonical ↔ ch.main.wf ∧ ∀ q, (ch.buf q).wf :=
  ⟨fun h => ⟨h.1, h.buf⟩, fun h => ⟨h.1, h.2 .a, h.2 .b⟩⟩

theorem Canonical.settle {ch : Chip} (h : ch.Canonical) (c n : Nat) : (ch.settle c n).Canonical := by
  simpa [canonical_iff] using (canonical_iff ch).1 h

theorem Canonical.loseBuffers {ch : Chip} (h : ch.Canonical) (n : Nat) : (ch.loseBuffers n).Canonical :=
  ⟨h.1, Memory.wf_unspecified _, Memory.wf_unspecified _⟩

theorem Canonical.cutShort {ch : Chip} (h : ch.Canonical) (n : Nat) : (ch.cutShort n).Canonical :=
  ⟨Memory.wf_unspecified _, h.2.1, h.2.2⟩

theorem Canonical.atReset {ch : Chip} (h : ch.Canonical) (c n : Nat) : (ch.atReset c n).Canonical :=
  ⟨h.1, Memory.wf_unspecified _, Memory.wf_unspecified _⟩

theorem Canonical.select {ch : Chip} (h : ch.Canonical) : ch.select.Canonical := h

theorem Canonical.receive {ch : Chip} (h : ch.Canonical) (cfg : Config) (o : Byte) : (ch.receive cfg o).Canonical := by
  rw [canonical_iff]
  refine ⟨by simpa using h.1, fun r => ?_⟩
  rw [receive_buf]
  split
  · split
    · exact Memory.wf_store (h.buf _) _ _
    · exact h.buf r
  · exact h.buf r

theorem Canonical.deselect {ch : Chip} (h : ch.Canonical) (cfg : Config) (c : Nat) :
    (ch.deselect cfg c).Canonical := by
  unfold Chip.deselect
  split
  · exact h
  split
  · split
    · exact ⟨Memory.wf_eraseAll _, h.2⟩
    · unfold addressed
      split
      · exact ⟨Memory.wf_store h.1 _ _, h.2⟩
      split
      · rw [canonical_iff]
        refine ⟨by simpa [transfer] using h.1, fun r => ?_⟩
        simp only [transfer]
        rename_i q _ 
        rw [show Chip.buf { ch.setBuf q ((ch.buf q).store 0 (ch.mainPage cfg c _)) with busy := true, inUse := some q } r =
          (ch.setBuf q ((ch.buf q).store 0 (ch.mainPage cfg c _))).buf r by cases r <;> rfl, buf_setBuf]
        split
        · exact Memory.wf_store (h.buf _) _ _
        · exact h.buf r
      split
      · exact ⟨Memory.wf_store h.1 _ _, h.2⟩
      split
      · exact ⟨Memory.wf_store h.1 _ _, h.2⟩
      · exact h
  · exact h

end Chip

namespace Bus

@[simp] theorem settleFrom_length (n c : Nat) (l : List Chip) : (settleFrom n c l).length = l.length := by
  induction l generalizing c with
  | nil => rfl
  | cons ch chs ih => simp [settleFrom, ih]

theorem settleFrom_getElem? (n c : Nat) (l : List Chip) (i : Nat) :
    (settleFrom n c l)[i]? = (l[i]?).map (Chip.settle (c + i) n) := by
  induction l generalizing c i with
  | nil => simp [settleFrom]
  | cons ch chs ih =>
    cases i with
    | zero => simp [settleFrom]
    | succ i => simp [settleFrom, ih, Nat.add_assoc, Nat.add_comm 1 i]

theorem mem_settleFrom {n c : Nat} {l : List Chip} {ch : Chip} (h : ch ∈ settleFrom n c l) :
    ∃ d ch', ch' ∈ l ∧ ch = ch'.settle d n := by
  induction l generalizing c with
  | nil => simp [settleFrom] at h
  | cons x xs ih =>
    rcases List.mem_cons.1 h with rfl | h
    · exact ⟨c, x, by simp, rfl⟩
    · obtain ⟨d, ch', h1, h2⟩ := ih h
      exact ⟨d, ch', by simp [h1], h2⟩

theorem mem_modify {l : List Chip} {c : Nat} {f : Chip → Chip} {ch : Chip} (h : ch ∈ l.modify c f) :
    ∃ ch' ∈ l, ch = ch' ∨ ch = f ch' := by
  obtain ⟨i, hi, rfl⟩ := List.mem_iff_getElem.1 h
  rw [List.length_modify] at hi
  refine ⟨l[i], List.getElem_mem hi, ?_⟩
  rw [List.getElem_modify]
  split
  · exact .inr rfl
  · exact .inl rfl

/-- The chips after a change of one of them. -/
theorem onChip_getElem? (b : Bus) (c : Nat) (f : Chip → Chip) (d : Nat) :
    (b.onChip c f).chips[d]? = (b.chips[d]?).map (if c = d then f else id) := by
  simp only [onChip_chips, List.getElem?_modify]
  split <;> cases b.chips[d]? <;> simp

/-- R14, R79: `Sel(c)` to each chip. -/
theorem sel_getElem? (b : Bus) (c d : Nat) :
    (b.sel c).chips[d]? = (b.chips[d]?).map fun ch =>
      if c = d then (ch.settle d b.tick).select else ch.settle d b.tick := by
  simp only [sel_chips, List.getElem?_modify, settleFrom_getElem?, Nat.zero_add]
  cases b.chips[d]? <;> by_cases h : c = d <;> simp [h]

/-- R14, R79: `Desel(c)` to each chip. -/
theorem desel_getElem? (b : Bus) (cfg : Config) (c d : Nat) :
    (b.desel cfg c).chips[d]? = (b.chips[d]?).map fun ch =>
      if c = d then (ch.settle d b.tick).deselect cfg c else ch.settle d b.tick := by
  simp only [desel_chips, List.getElem?_modify, settleFrom_getElem?, Nat.zero_add]
  cases b.chips[d]? <;> by_cases h : c = d <;> simp [h]

theorem exchange_chips (b : Bus) (cfg : Config) (o : Byte) (a : Answer) :
    (b.exchange cfg o a).chips = (deliver cfg o a { b.settle with answers := b.settle.answers.tail }).chips := rfl

/-- R14, R79: an exchange to each chip: the selected one receives the byte. -/
theorem exchange_getElem?_byte (b : Bus) (cfg : Config) (o v : Byte) (d : Nat) :
    (b.exchange cfg o (.byte v)).chips[d]? = (b.chips[d]?).map fun ch =>
      if b.cs = some d then (ch.settle d b.tick).receive cfg o else ch.settle d b.tick := by
  rw [exchange_chips]
  cases hc : b.cs with
  | none =>
    simp only [deliver, settle_cs, hc, settle_chips, settleFrom_getElem?, Nat.zero_add]
    simp
  | some c =>
    simp only [deliver, settle_cs, hc]
    rw [onChip_getElem?]
    simp only [settle_chips, settleFrom_getElem?, Nat.zero_add]
    cases b.chips[d]? <;> by_cases h : c = d <;> simp [h]

/-- Log 8: an exchange that faulted reaches no chip. -/
theorem exchange_getElem?_fault (b : Bus) (cfg : Config) (o : Byte) (d : Nat) :
    (b.exchange cfg o .fault).chips[d]? = (b.chips[d]?).map (Chip.settle d b.tick) := by
  rw [exchange_chips]
  simp [deliver, settleFrom_getElem?]

/-- R14, R79: `Xfer(o)` to each chip: the selected one receives the byte. -/
theorem xfer_getElem?_byte {b : Bus} {cfg : Config} {o v : Byte} (h : (b.xfer cfg o).1 = .byte v) (d : Nat) :
    (b.xfer cfg o).2.chips[d]? = (b.chips[d]?).map fun ch =>
      if b.cs = some d then (ch.settle d b.tick).receive cfg o else ch.settle d b.tick := by
  rw [show (b.xfer cfg o).2 = b.exchange cfg o (b.xfer cfg o).1 from rfl, h, exchange_getElem?_byte]

/-- Log 8: an exchange that faulted reaches no chip. -/
theorem xfer_getElem?_fault {b : Bus} {cfg : Config} {o : Byte} (h : (b.xfer cfg o).1 = .fault) (d : Nat) :
    (b.xfer cfg o).2.chips[d]? = (b.chips[d]?).map (Chip.settle d b.tick) := by
  rw [show (b.xfer cfg o).2 = b.exchange cfg o (b.xfer cfg o).1 from rfl, h, exchange_getElem?_fault]

/-- R291, R293: a reset to each chip. -/
theorem resetSelects_getElem? (b : Bus) (d : Nat) :
    b.resetSelects.chips[d]? = (b.chips[d]?).map fun ch =>
      (if b.cs = some d then ch.cutShort b.tick else ch).atReset d b.tick := by
  unfold resetSelects
  cases hc : b.cs with
  | none => simp [List.getElem?_mapIdx]
  | some c =>
    simp only [List.getElem?_mapIdx]
    rw [onChip_getElem?]
    cases b.chips[d]? <;> by_cases h : c = d <;> simp [h]

@[simp] theorem sel_length (b : Bus) (c : Nat) : (b.sel c).chips.length = b.chips.length := by simp
@[simp] theorem desel_length (b : Bus) (cfg : Config) (c : Nat) : (b.desel cfg c).chips.length = b.chips.length := by
  simp
@[simp] theorem exchange_length (b : Bus) (cfg : Config) (o : Byte) (a : Answer) :
    (b.exchange cfg o a).chips.length = b.chips.length := by
  simp only [exchange, emit_chips, deliver]
  split <;> simp
@[simp] theorem xfer_length (b : Bus) (cfg : Config) (o : Byte) :
    (b.xfer cfg o).2.chips.length = b.chips.length := exchange_length b cfg o _
@[simp] theorem loseBuffers_length (b : Bus) : b.loseBuffers.chips.length = b.chips.length := by simp
@[simp] theorem resetSelects_length (b : Bus) : b.resetSelects.chips.length = b.chips.length := by
  unfold resetSelects; cases b.cs <;> simp
@[simp] theorem noteReady_length (b : Bus) (c : Nat) : (b.noteReady c).chips.length = b.chips.length := by
  simp [noteReady]
@[simp] theorem noteBusyFrame_length (b : Bus) (c : Nat) : (b.noteBusyFrame c).chips.length = b.chips.length := by
  simp [noteBusyFrame]

/-! The answer of an exchange. -/

/-- R308: an answer supplied from outside is the one received. -/
theorem xfer_byte {b : Bus} {cfg : Config} {o v : Byte} {rest : List Answer} (h : b.answers = .byte v :: rest) :
    (b.xfer cfg o).1 = .byte v := by
  simp [xfer, answer, h]

/-- R11: with `HAS_BUS_FAULT` true a fault supplied from outside is the answer. -/
theorem xfer_fault {b : Bus} {cfg : Config} {o : Byte} {rest : List Answer} (hf : cfg.hasBusFault = true)
    (h : b.answers = .fault :: rest) : (b.xfer cfg o).1 = .fault := by
  simp [xfer, answer, h, hf]

/-- R11: "When false, the primitive always answers a byte". -/
theorem xfer_ne_fault {b : Bus} {cfg : Config} {o : Byte} (hf : cfg.hasBusFault = false) :
    (b.xfer cfg o).1 ≠ .fault := by
  simp only [xfer, answer, settle_answers, hf]
  split <;> simp

end Bus

end Sys2Proof.Machine
end

