-- ==== Sys2Proof/Laws/Transport.lean ====
section
/-! SUPPORT. What the Command Transport can do: for each procedure one lemma that says everything its result can be, one
that says what it answers when the answers are supplied from outside, and what it does to the chips. -/

namespace Sys2Proof.Machine

/-! Dialogues. -/

@[simp] theorem exchanges_nil : exchanges [] [] = [] := rfl

@[simp] theorem exchanges_cons (o i : Byte) (os is : List Byte) :
    exchanges (o :: os) (i :: is) = .x o (.byte i) :: exchanges os is := rfl

theorem exchanges_append {os is os' is' : List Byte} (h : is.length = os.length) :
    exchanges (os ++ os') (is ++ is') = exchanges os is ++ exchanges os' is' := by
  simp [exchanges, List.zipWith_append h.symm]

@[simp] theorem answersOf_nil : answersOf [] = [] := rfl
@[simp] theorem answersOf_cons (i : Byte) (is : List Byte) : answersOf (i :: is) = .byte i :: answersOf is := rfl
@[simp] theorem answersOf_append (is js : List Byte) : answersOf (is ++ js) = answersOf is ++ answersOf js := by
  simp [answersOf]

@[simp] theorem dummies_zero : dummies 0 = [] := rfl
@[simp] theorem dummies_succ (n : Nat) : dummies (n + 1) = dummyOut :: dummies n := rfl
@[simp] theorem dummies_length (n : Nat) : (dummies n).length = n := by simp [dummies]

/-! What a block of exchanges does to a chip. -/

namespace Chip

/-- Chip `c`, selected, receives the bytes `os`, the first at bus event `n`. -/
def hear (cfg : Config) (c : Nat) : Nat → List Byte → Chip → Chip
  | _, [], ch => ch
  | n, o :: os, ch => hear cfg c (n + 1) os ((ch.settle c n).receive cfg o)

/-- Chip `c`, not selected, while `k` bus events happen, the first of number `n`. -/
def wait (c : Nat) : Nat → Nat → Chip → Chip
  | _, 0, ch => ch
  | n, k + 1, ch => wait c (n + 1) k (ch.settle c n)

@[simp] theorem wait_main (c n k : Nat) (ch : Chip) : (ch.wait c n k).main = ch.main := by
  induction k generalizing n ch with
  | zero => rfl
  | succ k ih => rw [wait, ih]; simp

@[simp] theorem wait_doubts (c n k : Nat) (ch : Chip) : (ch.wait c n k).doubts = ch.doubts := by
  induction k generalizing n ch with
  | zero => rfl
  | succ k ih => rw [wait, ih]; simp

@[simp] theorem wait_commits (c n k : Nat) (ch : Chip) : (ch.wait c n k).commits = ch.commits := by
  induction k generalizing n ch with
  | zero => rfl
  | succ k ih => rw [wait, ih]; simp

end Chip

/-! `transferBlock`. -/

section TransferBlock

variable {cfg : Config} {c : Nat}

theorem transferBlock_append (os os' : List Byte) (b : Bus) :
    transferBlock cfg c (os ++ os') b =
      (transferBlock cfg c os b).andThen fun is b' =>
        (transferBlock cfg c os' b').andThen fun is' b'' => .ok (is ++ is') b'' := by
  induction os generalizing b with
  | nil =>
    simp only [List.nil_append, transferBlock, Res.andThen_ok]
    cases transferBlock cfg c os' b <;> rfl
  | cons o os ih =>
    simp only [List.cons_append, transferBlock]
    split
    · rfl
    · rw [ih, Res.andThen_assoc, Res.andThen_assoc]
      congr 1
      funext is b'
      rw [Res.andThen_assoc]
      rfl

/-- Everything `transferBlock` can do (R160, R161). -/
theorem transferBlock_post (os : List Byte) (b : Bus) :
    (transferBlock cfg c os b).Post
      (fun is b' => is.length = os.length ∧ b'.trace = b.trace ++ exchanges os is ∧ b'.cs = b.cs ∧
        b'.tick = b.tick + os.length ∧ b'.hazard = b.hazard ∧ b'.chips.length = b.chips.length ∧
        b'.answers = b.answers.drop os.length)
      (fun e d b' => e = .busFault ∧ d = c ∧ cfg.hasBusFault = true ∧ b'.cs = b.cs ∧ b'.hazard = b.hazard ∧
        b'.chips.length = b.chips.length ∧ ∃ done o later is, os = done ++ o :: later ∧ is.length = done.length ∧
          b'.trace = b.trace ++ exchanges done is ++ [.x o .fault] ∧ b'.tick = b.tick + done.length + 1 ∧
          b'.answers = b.answers.drop (done.length + 1)) := by
  induction os generalizing b with
  | nil => simp [transferBlock]
  | cons o os ih =>
    have h1 := Bus.xfer_trace b cfg o
    have h2 := Bus.xfer_cs b cfg o
    have h3 := Bus.xfer_tick b cfg o
    have h4 := Bus.xfer_hazard b cfg o
    have h5 := Bus.xfer_length b cfg o
    have h6 := Bus.xfer_answers b cfg o
    simp only [transferBlock]
    split
    · next b' hx =>
      rw [hx] at h1 h2 h3 h4 h5 h6
      refine ⟨rfl, rfl, ?_, h2, h4, h5, [], o, os, [], rfl, rfl, by simpa using h1, by simpa using h3, by simpa using h6⟩
      by_contra hf
      exact Bus.xfer_ne_fault (b := b) (o := o) (by simpa using hf) (by rw [hx])
    · next v b' hx =>
      rw [hx] at h1 h2 h3 h4 h5 h6
      simp only at h1 h2 h3 h4 h5 h6
      have h := ih b'
      generalize transferBlock cfg c os b' = r at h
      cases r with
      | ok is b'' =>
        obtain ⟨g1, g2, g3, g4, g5, g6, g7⟩ := h
        refine ⟨by simp [g1], by simp [g2, h1], by rw [g3, h2], by rw [g4, h3]; simp; omega, by rw [g5, h4],
          by rw [g6, h5], by rw [g7, h6]; simp⟩
      | raise e d b'' =>
        obtain ⟨g1, g2, g3, g4, g5, g6, done, o', later, is, g7, g8, g9, g10, g11⟩ := h
        refine ⟨g1, g2, g3, by rw [g4, h2], by rw [g5, h4], by rw [g6, h5], o :: done, o', later, v :: is,
          by simp [g7], by simp [g8], by simp [g9, h1], by rw [g10, h3]; simp; omega, by rw [g11, h6]; simp⟩

/-- R308: with the answers supplied from outside, they are what comes in. -/
theorem transferBlock_script {os is : List Byte} {b : Bus} {rest : List Answer} (hl : is.length = os.length)
    (h : b.answers = answersOf is ++ rest) :
    ∃ b', transferBlock cfg c os b = .ok is b' ∧ b'.answers = rest := by
  induction os generalizing b is with
  | nil =>
    obtain rfl : is = [] := List.length_eq_zero_iff.1 hl
    exact ⟨b, rfl, by simpa using h⟩
  | cons o os ih =>
    cases is with
    | nil => simp at hl
    | cons i is =>
      have hx := Bus.xfer_byte (cfg := cfg) (o := o) (by simpa using h : b.answers = .byte i :: (answersOf is ++ rest))
      have ha : (b.xfer cfg o).2.answers = answersOf is ++ rest := by simp [h]
      obtain ⟨b', h1, h2⟩ := ih (b := (b.xfer cfg o).2) (by simpa using hl) ha
      refine ⟨b', ?_, h2⟩
      simp only [transferBlock]
      rw [show b.xfer cfg o = (.byte i, (b.xfer cfg o).2) from Prod.ext hx rfl]
      simp only [h1, Res.andThen_ok]

/-- R160: the first fault supplied from outside ends the block of exchanges. -/
theorem transferBlock_fault {os is : List Byte} {b : Bus} {rest : List Answer} (hf : cfg.hasBusFault = true)
    (hl : is.length < os.length) (h : b.answers = answersOf is ++ .fault :: rest) :
    ∃ b', transferBlock cfg c os b = .raise .busFault c b' ∧ b'.answers = rest ∧
      b'.trace = b.trace ++ exchanges (os.take is.length) is ++ [.x (os.getD is.length 0) .fault] := by
  induction os generalizing b is with
  | nil => simp at hl
  | cons o os ih =>
    cases is with
    | nil =>
      have hx := Bus.xfer_fault (o := o) hf (by simpa using h : b.answers = .fault :: rest)
      refine ⟨(b.xfer cfg o).2, ?_, by simp [h], by simp [hx]⟩
      simp only [transferBlock]
      rw [show b.xfer cfg o = (.fault, (b.xfer cfg o).2) from Prod.ext hx rfl]
    | cons i is =>
      have hx := Bus.xfer_byte (cfg := cfg) (o := o)
        (by simpa using h : b.answers = .byte i :: (answersOf is ++ .fault :: rest))
      have ha : (b.xfer cfg o).2.answers = answersOf is ++ .fault :: rest := by simp [h]
      obtain ⟨b', h1, h2, h3⟩ := ih (b := (b.xfer cfg o).2) (by simpa using hl) ha
      refine ⟨b', ?_, h2, by simp [h3, hx]⟩
      simp only [transferBlock]
      rw [show b.xfer cfg o = (.byte i, (b.xfer cfg o).2) from Prod.ext hx rfl]
      simp only [h1, Res.andThen_raise]

/-- R11: without `HAS_BUS_FAULT` a block of exchanges always ends. -/
theorem transferBlock_ok (hf : cfg.hasBusFault = false) (os : List Byte) (b : Bus) :
    ∃ is b', transferBlock cfg c os b = .ok is b' := by
  have h := transferBlock_post (cfg := cfg) (c := c) os b
  generalize transferBlock cfg c os b = r at h
  cases r with
  | ok is b' => exact ⟨is, b', rfl⟩
  | raise e d b' => simp [hf] at h

/-- R79: the chips after a whole block of exchanges: the selected one has received every byte. -/
theorem transferBlock_chips {os is : List Byte} {b b' : Bus} (h : transferBlock cfg c os b = .ok is b') (d : Nat) :
    b'.chips[d]? = (b.chips[d]?).map fun ch =>
      if b.cs = some d then ch.hear cfg d b.tick os else ch.wait d b.tick os.length := by
  induction os generalizing b is with
  | nil =>
    simp only [transferBlock, Res.ok.injEq] at h
    obtain ⟨-, rfl⟩ := h
    cases b.chips[d]? <;> simp [Chip.hear, Chip.wait]
  | cons o os ih =>
    simp only [transferBlock] at h
    split at h
    · simp at h
    · next v b1 hx =>
      cases hr : transferBlock cfg c os b1 with
      | raise e d' b2 => simp [hr] at h
      | ok is' b2 =>
        simp only [hr, Res.andThen_ok, Res.ok.injEq] at h
        obtain ⟨-, rfl⟩ := h
        have h2 := Bus.xfer_cs b cfg o
        have h3 := Bus.xfer_tick b cfg o
        have h4 := Bus.xfer_getElem?_byte (b := b) (cfg := cfg) (o := o) (v := v) (by rw [hx]) d
        rw [hx] at h2 h3 h4
        simp only at h2 h3 h4
        rw [ih hr, h4, h2, h3]
        cases b.chips[d]? <;> by_cases hc : b.cs = some d <;> simp [hc, Chip.hear, Chip.wait]

end TransferBlock

/-! `issue`. -/

section Issue

variable {cfg : Config} {c : Nat}

/-- R150: all the bytes a frame sends. -/
def frameOuts (hdr : List Byte) (nd nr : Nat) : List Byte := hdr ++ dummies nd ++ dummies nr

@[simp] theorem frameOuts_length (hdr : List Byte) (nd nr : Nat) :
    (frameOuts hdr nd nr).length = hdr.length + nd + nr := by simp [frameOuts, Nat.add_assoc]

/-- A frame is one block of exchanges between `Sel` and `Desel`. -/
theorem issue_eq (hdr : List Byte) (nd nr : Nat) (b : Bus) :
    issue cfg c hdr nd nr b =
      (transferBlock cfg c (frameOuts hdr nd nr) (b.sel c)).andThen fun is b' =>
        .ok (is.drop (hdr.length + nd)) (b'.desel cfg c) := by
  have key : ∀ (r : Res Bus (List Byte)) (n : Nat), (r.Post (fun is _ => is.length = n) (fun _ _ _ => True)) →
      ∀ (os : List Byte) (g : List Byte → Bus → Res Bus (List Byte)),
      r.andThen (fun _ b => (transferBlock cfg c os b).andThen g) =
      (r.andThen fun is b => (transferBlock cfg c os b).andThen fun is' b => .ok (is ++ is') b).andThen
        fun is b => g (is.drop n) b := by
    intro r n hn os g
    cases r with
    | raise e d b => rfl
    | ok is b =>
      simp only [Res.andThen_ok]
      cases transferBlock cfg c os b with
      | raise e d b => rfl
      | ok is' b => simp only [Res.andThen_ok]; rw [← show is.length = n from hn]; simp
  have p1 : ∀ os b, (transferBlock cfg c os b).Post (fun is _ => is.length = os.length) (fun _ _ _ => True) :=
    fun os b => (transferBlock_post os b).mono (fun _ _ h => h.1) (fun _ _ _ _ => trivial)
  have p2 := p1 (hdr ++ dummies nd) (b.sel c)
  simp only [List.length_append, dummies_length] at p2
  rw [frameOuts, transferBlock_append, ← key _ (hdr.length + nd) p2 (dummies nr) (fun resp b => .ok resp (b.desel cfg c)), transferBlock_append, Res.andThen_assoc]
  simp only [issue, Res.andThen_assoc, Res.andThen_ok]

/-- Everything `issue` can do (R150, R160). -/
theorem issue_post (hdr : List Byte) (nd nr : Nat) (b : Bus) :
    (issue cfg c hdr nd nr b).Post
      (fun resp b' => ∃ is, is.length = hdr.length + nd + nr ∧ resp = is.drop (hdr.length + nd) ∧
        b'.trace = b.trace ++ frameTrace c (frameOuts hdr nd nr) is ∧ b'.cs = none ∧
        b'.tick = b.tick + (hdr.length + nd + nr + 2) ∧ b'.hazard = b.hazard ∧
        b'.chips.length = b.chips.length ∧ b'.answers = b.answers.drop (hdr.length + nd + nr))
      (fun e d b' => e = .busFault ∧ d = c ∧ cfg.hasBusFault = true ∧ b'.cs = some c ∧ b'.hazard = b.hazard ∧
        b'.chips.length = b.chips.length ∧
        ∃ done o later is, frameOuts hdr nd nr = done ++ o :: later ∧ is.length = done.length ∧
          b'.trace = b.trace ++ .sel c :: exchanges done is ++ [.x o .fault] ∧
          b'.tick = b.tick + (done.length + 2)) := by
  rw [issue_eq]
  have h := transferBlock_post (cfg := cfg) (c := c) (frameOuts hdr nd nr) (b.sel c)
  generalize transferBlock cfg c (frameOuts hdr nd nr) (b.sel c) = r at h
  cases r with
  | ok is b' =>
    obtain ⟨g1, g2, g3, g4, g5, g6, g7⟩ := h
    rw [frameOuts_length] at g1 g4 g7
    exact ⟨is, g1, rfl, by simp [g2, frameTrace], rfl, by simp [g4]; omega, by simp [g5], by simp [g6], by simp [g7]⟩
  | raise e d b' =>
    obtain ⟨g1, g2, g3, g4, g5, g6, done, o, later, is, g7, g8, g9, g10, -⟩ := h
    exact ⟨g1, g2, g3, by simp [g4], by simp [g5], by simp [g6], done, o, later, is, g7, g8, by simp [g9],
      by simp [g10]; omega⟩

/-- R150, R308: a whole frame with the answers supplied from outside. -/
theorem issue_script {hdr is : List Byte} {nd nr : Nat} {b : Bus} {rest : List Answer}
    (hl : is.length = hdr.length + nd + nr) (h : b.answers = answersOf is ++ rest) :
    ∃ b', issue cfg c hdr nd nr b = .ok (is.drop (hdr.length + nd)) b' ∧ b'.answers = rest ∧
      b'.trace = b.trace ++ frameTrace c (frameOuts hdr nd nr) is ∧ b'.cs = none ∧ b'.hazard = b.hazard ∧
      b'.chips.length = b.chips.length := by
  obtain ⟨b1, h1, h2⟩ := transferBlock_script (cfg := cfg) (c := c) (os := frameOuts hdr nd nr) (is := is)
    (b := b.sel c) (rest := rest) (by simp [hl]) (by simpa using h)
  obtain ⟨-, g2, -, -, g5, g6, -⟩ := (transferBlock_post (cfg := cfg) (c := c) (frameOuts hdr nd nr) (b.sel c)).of_eq_ok h1
  refine ⟨b1.desel cfg c, by rw [issue_eq, h1]; rfl, by simpa using h2, by simp [g2, frameTrace], rfl, by simp [g5],
    by simp [g6]⟩

/-- R160: a frame cut short by a fault supplied from outside. -/
theorem issue_fault {hdr is : List Byte} {nd nr : Nat} {b : Bus} {rest : List Answer} (hf : cfg.hasBusFault = true)
    (hl : is.length < hdr.length + nd + nr) (h : b.answers = answersOf is ++ .fault :: rest) :
    ∃ b', issue cfg c hdr nd nr b = .raise .busFault c b' ∧ b'.answers = rest ∧ b'.cs = some c ∧
      b'.trace = b.trace ++ .sel c :: exchanges ((frameOuts hdr nd nr).take is.length) is ++
        [.x ((frameOuts hdr nd nr).getD is.length 0) .fault] := by
  obtain ⟨b1, h1, h2, h3⟩ := transferBlock_fault (cfg := cfg) (c := c) (os := frameOuts hdr nd nr) (is := is)
    (b := b.sel c) (rest := rest) hf (by simp [hl]) (by simpa using h)
  obtain ⟨-, -, -, g4, -⟩ := (transferBlock_post (cfg := cfg) (c := c) (frameOuts hdr nd nr) (b.sel c)).of_eq_raise h1
  exact ⟨b1, by rw [issue_eq, h1]; rfl, h2, by simp [g4], by simp [h3]⟩

/-- R79: the chips after a whole frame on chip `c`. -/
theorem issue_chips {hdr resp : List Byte} {nd nr : Nat} {b b' : Bus} (h : issue cfg c hdr nd nr b = .ok resp b')
    (d : Nat) :
    b'.chips[d]? = (b.chips[d]?).map fun ch =>
      if c = d then
        (((ch.settle d b.tick).select.hear cfg d (b.tick + 1) (frameOuts hdr nd nr)).settle d
          (b.tick + 1 + (hdr.length + nd + nr))).deselect cfg c
      else ch.wait d b.tick (hdr.length + nd + nr + 2) := by
  have wait_succ : ∀ (k n : Nat) (ch : Chip), (Chip.wait d n k ch).settle d (n + k) = Chip.wait d n (k + 1) ch := by
    intro k
    induction k with
    | zero => intro n ch; rfl
    | succ k ih => intro n ch; simp only [Chip.wait]; rw [show n + (k + 1) = (n + 1) + k by omega, ih]; rfl
  rw [issue_eq] at h
  cases hr : transferBlock cfg c (frameOuts hdr nd nr) (b.sel c) with
  | raise e d' b1 => simp [hr] at h
  | ok is b1 =>
    simp only [hr, Res.andThen_ok, Res.ok.injEq] at h
    obtain ⟨-, rfl⟩ := h
    obtain ⟨-, -, -, g4, -⟩ := (transferBlock_post (cfg := cfg) (c := c) (frameOuts hdr nd nr) (b.sel c)).of_eq_ok hr
    rw [frameOuts_length] at g4
    rw [Bus.desel_getElem?, transferBlock_chips hr, Bus.sel_getElem?, g4]
    cases b.chips[d]? with
    | none => rfl
    | some ch =>
      by_cases hc : c = d
      · simp [hc]
      · have hw := wait_succ (hdr.length + nd + nr) (b.tick + 1) (ch.settle d b.tick)
        simp only [Option.map_some, hc, if_false, Bus.sel_cs, Option.some.injEq, Bus.sel_tick, frameOuts_length]
        rw [hw]
        rfl

end Issue

/-! `statusRead`, `pollReady`. -/

section Poll

variable {cfg : Config} {c : Nat}

/-- Everything `statusRead` can do (R152). -/
theorem statusRead_post (b : Bus) :
    (statusRead cfg c b).Post
      (fun s b' => ∃ i, b'.trace = b.trace ++ statusTrace c (i, s) ∧ b'.cs = none ∧ b'.tick = b.tick + 4 ∧
        b'.hazard = b.hazard ∧ b'.chips.length = b.chips.length ∧ b'.answers = b.answers.drop 2)
      (fun e d b' => e = .busFault ∧ d = c ∧ cfg.hasBusFault = true ∧ b'.cs = some c ∧ b'.hazard = b.hazard ∧
        b'.chips.length = b.chips.length ∧ ∃ done o later is, [opcStatusRead, dummyOut] = done ++ o :: later ∧
          is.length = done.length ∧ b'.trace = b.trace ++ .sel c :: exchanges done is ++ [.x o .fault] ∧
          b'.tick = b.tick + (done.length + 2)) := by
  unfold statusRead
  refine (issue_post [opcStatusRead] 0 1 b).andThen ?_
  rintro resp b' ⟨is, h1, rfl, h3, h4, h5, h6, h7, h8⟩
  obtain ⟨i, s, rfl⟩ := List.length_eq_two.1 (by simpa using h1 : is.length = 2)
  have he : ∀ x : Bus, (if ready s then b'.noteReady c else b') = x → x.trace = b'.trace ∧ x.cs = b'.cs ∧
      x.tick = b'.tick ∧ x.hazard = b'.hazard ∧ x.chips.length = b'.chips.length ∧ x.answers = b'.answers := by
    rintro x rfl
    split <;> simp
  obtain ⟨e1, e2, e3, e4, e5, e6⟩ := he _ rfl
  refine ⟨i, ?_, ?_, ?_, ?_, ?_, ?_⟩
  · simpa [h3, statusTrace, frameOuts] using e1
  · simpa [h4] using e2
  · simpa [h5] using e3
  · simpa [h6] using e4
  · simpa [h7] using e5
  · simpa [h8] using e6

/-- R152, R308: a status frame with its answers supplied from outside. -/
theorem statusRead_script {b : Bus} {i s : Byte} {rest : List Answer} (h : b.answers = .byte i :: .byte s :: rest) :
    ∃ b', statusRead cfg c b = .ok s b' ∧ b'.answers = rest ∧ b'.trace = b.trace ++ statusTrace c (i, s) ∧
      b'.cs = none ∧ b'.hazard = b.hazard ∧ b'.chips.length = b.chips.length := by
  obtain ⟨b1, h1, h2, h3, h4, h5, h6⟩ := issue_script (cfg := cfg) (c := c) (hdr := [opcStatusRead]) (nd := 0) (nr := 1)
    (b := b) (is := [i, s]) (rest := rest) (by simp) (by simpa using h)
  have he : statusRead cfg c b = .ok s (if ready s then b1.noteReady c else b1) := by
    rw [statusRead, h1]; rfl
  have h3' : b1.trace = b.trace ++ statusTrace c (i, s) := by simpa [statusTrace, frameOuts] using h3
  refine ⟨_, he, ?_⟩
  split <;> simp [h2, h3', h4, h5, h6]

/-- Everything `pollLoop` can do (R153): at most `k` status reads, only the last with bit 7 set, or `k` of them with
none, or a fault in one of them. -/
theorem pollLoop_post (k : Nat) (b : Bus) :
    (pollLoop cfg c k b).Post
      (fun _ b' => ∃ ps, PollSucceeds k ps ∧ b'.trace = b.trace ++ pollTrace c ps ∧ b'.cs = none ∧
        b'.tick = b.tick + 4 * ps.length ∧ b'.hazard = b.hazard ∧ b'.chips.length = b.chips.length)
      (fun e d b' => d = c ∧ b'.hazard = b.hazard ∧ b'.chips.length = b.chips.length ∧
        ((e = .deviceTimeout ∧ (b'.cs = none ∨ k = 0 ∧ b' = b) ∧ ∃ ps, PollFails k ps ∧
            b'.trace = b.trace ++ pollTrace c ps ∧ b'.tick = b.tick + 4 * k) ∨
         (e = .busFault ∧ cfg.hasBusFault = true ∧ b'.cs = some c ∧ ∃ ps done o later is, ps.length < k ∧
            [opcStatusRead, dummyOut] = done ++ o :: later ∧ is.length = done.length ∧
            b'.trace = b.trace ++ pollTrace c ps ++ .sel c :: exchanges done is ++ [.x o .fault] ∧
            b'.tick = b.tick + 4 * ps.length + (done.length + 2)))) := by
  induction k generalizing b with
  | zero =>
    refine ⟨rfl, rfl, rfl, .inl ⟨rfl, .inr ⟨rfl, rfl⟩, [], ⟨rfl, by simp⟩, by simp [pollTrace], by simp⟩⟩
  | succ k ih =>
    unfold pollLoop
    have hs := statusRead_post (cfg := cfg) (c := c) b
    generalize statusRead cfg c b = r at hs
    cases r with
    | raise e d b' =>
      obtain ⟨h1, h2, h3, h4, h5, h6, done, o, later, is, h7, h8, h9, h10⟩ := hs
      exact ⟨h2, h5, h6, .inr ⟨h1, h3, h4, [], done, o, later, is, by simp, h7, h8, by simp [h9, pollTrace],
        by simp [h10]⟩⟩
    | ok s b' =>
      obtain ⟨i, h1, h2, h3, h4, h5, -⟩ := hs
      simp only [Res.andThen_ok]
      split
      · next hr =>
        exact ⟨[(i, s)], ⟨by simp, [], (i, s), by simp, by simp, hr⟩, by simp [h1, pollTrace], h2, by simp [h3], h4, h5⟩
      · next hr =>
        have hr : ready s = false := by simpa using hr
        refine (ih b').mono ?_ ?_
        · rintro - b'' ⟨ps, ⟨p1, busy, last, p2, p3, p4⟩, g1, g2, g3, g4, g5⟩
          refine ⟨(i, s) :: ps, ⟨by simp; omega, (i, s) :: busy, last, by simp [p2], ?_, p4⟩,
            by simp [g1, h1, pollTrace], g2, by rw [g3, h3]; simp; omega, by rw [g4, h4], by rw [g5, h5]⟩
          intro p hp
          rcases List.mem_cons.1 hp with rfl | hp
          · exact hr
          · exact p3 p hp
        · rintro e d b'' ⟨g1, g2, g3, g4⟩
          refine ⟨g1, by rw [g2, h4], by rw [g3, h5], ?_⟩
          rcases g4 with ⟨e1, e2, ps, ⟨p1, p2⟩, e3, e4⟩ | ⟨e1, e2, e3, ps, done, o, later, is, e4, e5, e6, e7, e8⟩
          · refine .inl ⟨e1, .inl ?_, (i, s) :: ps, ⟨by simp [p1], ?_⟩, by simp [e3, h1, pollTrace],
              by rw [e4, h3]; omega⟩
            · rcases e2 with e2 | ⟨-, rfl⟩
              · exact e2
              · exact h2
            · intro p hp
              rcases List.mem_cons.1 hp with rfl | hp
              · exact hr
              · exact p2 p hp
          · exact .inr ⟨e1, e2, e3, (i, s) :: ps, done, o, later, is, by simp; omega, e5, e6,
              by simp [e7, h1, pollTrace], by rw [e8, h3]; simp; omega⟩

@[simp] theorem pollBytes_nil : pollBytes [] = [] := rfl
@[simp] theorem pollBytes_cons (p : Byte × Byte) (ps : List (Byte × Byte)) :
    pollBytes (p :: ps) = p.1 :: p.2 :: pollBytes ps := rfl

/-- R153, R308: a poll that succeeds, its answers supplied from outside. -/
theorem pollLoop_script_ok {busy : List (Byte × Byte)} {last : Byte × Byte} {k : Nat} {b : Bus} {rest : List Answer}
    (hk : busy.length < k) (hb : ∀ p ∈ busy, ready p.2 = false) (hl : ready last.2 = true)
    (h : b.answers = answersOf (pollBytes (busy ++ [last])) ++ rest) :
    ∃ b', pollLoop cfg c k b = .ok () b' ∧ b'.answers = rest ∧
      b'.trace = b.trace ++ pollTrace c (busy ++ [last]) ∧ b'.cs = none ∧ b'.hazard = b.hazard ∧
      b'.chips.length = b.chips.length := by
  induction busy generalizing b k with
  | nil =>
    obtain ⟨k, rfl⟩ : ∃ j, k = j + 1 := ⟨k - 1, by simp at hk; omega⟩
    obtain ⟨b1, h1, h2, h3, h4, h5, h6⟩ := statusRead_script (cfg := cfg) (c := c) (b := b) (i := last.1) (s := last.2)
      (rest := rest) (by simpa using h)
    exact ⟨b1, by simp [pollLoop, h1, hl], h2, by simp [h3, pollTrace], h4, h5, h6⟩
  | cons p busy ih =>
    obtain ⟨k, rfl⟩ : ∃ j, k = j + 1 := ⟨k - 1, by simp at hk; omega⟩
    obtain ⟨b1, h1, h2, h3, h4, h5, h6⟩ := statusRead_script (cfg := cfg) (c := c) (b := b) (i := p.1) (s := p.2)
      (rest := answersOf (pollBytes (busy ++ [last])) ++ rest) (by simpa using h)
    have hp : ready p.2 = false := hb p (by simp)
    obtain ⟨b2, k1, k2, k3, k4, k5, k6⟩ := ih (b := b1) (k := k) (by simp at hk; omega)
      (fun q hq => hb q (by simp [hq])) h2
    exact ⟨b2, by simp [pollLoop, h1, hp, k1], k2, by simp [k3, h3, pollTrace], k4, by rw [k5, h5], by rw [k6, h6]⟩

/-- R153, R308: a successful `pollReady`, its answers supplied from outside. -/
theorem pollReady_script_ok {ps : List (Byte × Byte)} {b : Bus} {rest : List Answer}
    (hp : PollSucceeds cfg.pollLimit ps) (h : b.answers = answersOf (pollBytes ps) ++ rest) :
    ∃ b', pollReady cfg c b = .ok () b' ∧ b'.answers = rest ∧ b'.trace = b.trace ++ pollTrace c ps ∧ b'.cs = none ∧
      b'.hazard = b.hazard ∧ b'.chips.length = b.chips.length := by
  obtain ⟨hlen, busy, last, rfl, hb, hl⟩ := hp
  exact pollLoop_script_ok (by simp at hlen; omega) hb hl h

/-- R153, R252, R308: a poll that runs out, its answers supplied from outside. -/
theorem pollLoop_script_timeout {ps : List (Byte × Byte)} {b : Bus} {rest : List Answer} (hcs : b.cs = none)
    (hb : ∀ p ∈ ps, ready p.2 = false) (h : b.answers = answersOf (pollBytes ps) ++ rest) :
    ∃ b', pollLoop cfg c ps.length b = .raise .deviceTimeout c b' ∧ b'.answers = rest ∧
      b'.trace = b.trace ++ pollTrace c ps ∧ b'.cs = none ∧ b'.hazard = b.hazard ∧
      b'.chips.length = b.chips.length := by
  induction ps generalizing b with
  | nil => exact ⟨b, rfl, by simpa using h, by simp [pollTrace], hcs, rfl, rfl⟩
  | cons p ps ih =>
    obtain ⟨b1, h1, h2, h3, h4, h5, h6⟩ := statusRead_script (cfg := cfg) (c := c) (b := b) (i := p.1) (s := p.2)
      (rest := answersOf (pollBytes ps) ++ rest) (by simpa using h)
    have hp : ready p.2 = false := hb p (by simp)
    obtain ⟨b2, k1, k2, k3, k4, k5, k6⟩ := ih (b := b1) h4 (fun q hq => hb q (by simp [hq])) h2
    exact ⟨b2, by simp [pollLoop, h1, hp, k1], k2, by simp [k3, h3, pollTrace], k4, by rw [k5, h5], by rw [k6, h6]⟩

/-- R153, R252, R308: a `pollReady` that runs out, its answers supplied from outside. -/
theorem pollReady_script_timeout {ps : List (Byte × Byte)} {b : Bus} {rest : List Answer} (hcs : b.cs = none)
    (hp : PollFails cfg.pollLimit ps) (h : b.answers = answersOf (pollBytes ps) ++ rest) :
    ∃ b', pollReady cfg c b = .raise .deviceTimeout c b' ∧ b'.answers = rest ∧ b'.trace = b.trace ++ pollTrace c ps ∧
      b'.cs = none ∧ b'.hazard = b.hazard ∧ b'.chips.length = b.chips.length := by
  obtain ⟨hlen, hb⟩ := hp
  unfold pollReady
  rw [← hlen]
  exact pollLoop_script_timeout hcs hb h

end Poll

end Sys2Proof.Machine
end

