-- ==== Sys2Proof/Laws/Ops.lean ====
section
/-! SUPPORT. The operations over the block's registers: what a bank reads as, what the phase of a state in the invariant is,
how a host operation ends, and what taking an error leaves. -/

namespace Sys2Proof.Machine

/-! Reading a bank. -/

namespace State

theorem handle_of_getElem? {s : State} {c : Nat} {h : Handle} (hc : s.handles[c]? = some h) : s.handle c = h := by
  simp [handle, hc]

theorem getElem?_handle {s : State} {c : Nat} (hc : c < s.handles.length) : s.handles[c]? = some (s.handle c) := by
  simp [handle, hc]

theorem handle_mem {s : State} {c : Nat} (hc : c < s.handles.length) : s.handle c ∈ s.handles :=
  List.mem_of_getElem? (getElem?_handle hc)

/-- A change of bank `c` is a write of bank `c`. -/
theorem modify_eq_set {s : State} {c : Nat} (f : Handle → Handle) :
    s.handles.modify c f = s.handles.set c (f (s.handle c)) := by
  apply List.ext_getElem?
  intro i
  rw [List.getElem?_modify, List.getElem?_set]
  by_cases hi : c = i
  · subst hi
    by_cases hl : c < s.handles.length
    · simp [handle, hl]
    · simp [hl]
  · simp [hi]

@[simp] theorem forEachChip_cfg (f : Nat → State → State) (hf : ∀ c s, (f c s).cfg = s.cfg) (k : Nat) (s : State) :
    (s.forEachChip f k).cfg = s.cfg := by
  induction k with
  | zero => rfl
  | succ k ih => simp [forEachChip, hf, ih]

/-- R210, R213, R216: a change of every bank. -/
theorem forEachChip_onHandle (f : Nat → Handle → Handle) (k : Nat) (s : State) :
    s.forEachChip (fun c s => s.onHandle c (f c)) k =
      { s with handles := s.handles.mapIdx fun c h => if c < k then f c h else h } := by
  induction k with
  | zero =>
    have h : (s.handles.mapIdx fun c h => if c < 0 then f c h else h) = s.handles := by
      apply List.ext_getElem?
      intro i
      simp
    rw [h]
    rfl
  | succ k ih =>
    rw [forEachChip, ih]
    simp only [onHandle]
    congr 1
    apply List.ext_getElem?
    intro i
    rw [List.getElem?_modify, List.getElem?_mapIdx, List.getElem?_mapIdx]
    cases s.handles[i]? with
    | none => simp
    | some h =>
      rcases Nat.lt_trichotomy i k with h1 | h1 | h1
      · simp [h1, Nat.lt_succ_of_lt h1, Nat.ne_of_gt h1]
      · simp [h1]
      · have h2 : ¬ i < k := by omega
        have h3 : ¬ i < k + 1 := by omega
        simp [h2, h3, Nat.ne_of_lt h1]

theorem mapIdx_of_lt {f : Nat → Handle → Handle} {l : List Handle} {k : Nat} (hk : l.length ≤ k) :
    (l.mapIdx fun c h => if c < k then f c h else h) = l.mapIdx f := by
  apply List.ext_getElem?
  intro i
  rw [List.getElem?_mapIdx, List.getElem?_mapIdx]
  by_cases hi : i < l.length
  · simp [hi, show i < k by omega]
  · simp [hi]

/-! The phase of a state. -/

theorem idle_iff {s : State} : s.idle = true ↔ ∀ h ∈ s.handles, h.est = .idle := by simp [idle]

/-- A bank that is not Idle keeps the block from being Idle. -/
theorem not_idle {s : State} {l : List Handle} {x : Handle} (hm : x ∈ l) (hl : s.handles = l) (he : x.est ≠ .idle) :
    s.idle = false := by
  by_contra h
  exact he (idle_iff.1 (by simpa using h) x (hl ▸ hm))

theorem filling_iff {s : State} : s.filling = true ↔ ∀ h ∈ s.handles, h.est = .filling := by simp [filling]

theorem Inv.chips_pos {s : State} (h : s.Inv) : 0 < s.cfg.chips := Nat.zero_lt_of_lt h.curW_lt

theorem Inv.mem_handle {s : State} (h : s.Inv) {c : Nat} (hc : c < s.cfg.chips) : s.handle c ∈ s.handles :=
  handle_mem (by rw [h.banks]; exact hc)

theorem Inv.getElem?_handle {s : State} (h : s.Inv) {c : Nat} (hc : c < s.cfg.chips) :
    s.handles[c]? = some (s.handle c) := State.getElem?_handle (by rw [h.banks]; exact hc)

theorem Inv.exists_mem {s : State} (h : s.Inv) : ∃ x, x ∈ s.handles := ⟨_, h.mem_handle h.chips_pos⟩

theorem Inv.not_both {s : State} (h : s.Inv) (hi : s.idle = true) (hf : s.filling = true) : False := by
  obtain ⟨x, hx⟩ := h.exists_mem
  have := (idle_iff.1 hi x hx).symm.trans (filling_iff.1 hf x hx)
  cases this

theorem Inv.idle_of_resting {s : State} (hr : s.Resting) : s.idle = true := idle_iff.2 hr.1

theorem Inv.filling_of_streaming {s : State} (hr : s.Streaming) : s.filling = true := filling_iff.2 hr.1

theorem Inv.resting {s : State} (h : s.Inv) (hi : s.idle = true) : s.Resting := by
  rcases h.phase with hp | hp
  · exact hp
  · exact (h.not_both hi (Inv.filling_of_streaming hp)).elim

theorem Inv.streaming {s : State} (h : s.Inv) (hf : s.filling = true) : s.Streaming := by
  rcases h.phase with hp | hp
  · exact (h.not_both (Inv.idle_of_resting hp) hf).elim
  · exact hp

theorem Inv.filling_eq_false {s : State} (h : s.Inv) (hi : s.idle = true) : s.filling = false := by
  by_contra hf
  exact h.not_both hi (by simpa using hf)

theorem Inv.idle_eq_false {s : State} (h : s.Inv) (hf : s.filling = true) : s.idle = false := by
  by_contra hi
  exact h.not_both (by simpa using hi) hf

theorem Inv.idle_or_filling {s : State} (h : s.Inv) : s.idle = true ∨ s.filling = true := by
  rcases h.phase with hp | hp
  · exact .inl (Inv.idle_of_resting hp)
  · exact .inr (Inv.filling_of_streaming hp)

theorem Inv.off_of_ne {s : State} (h : s.Inv) {c : Nat} (hc : c ≠ s.curW) : (s.handle c).off = 0 := by
  by_cases hl : c < s.cfg.chips
  · exact h.parked c hl hc
  · have : s.handles[c]? = none := by rw [List.getElem?_eq_none_iff, h.banks]; omega
    simp [handle, this, Handle.reset]

theorem Inv.off_of_soff {s : State} (h : s.Inv) (hs : s.soff = 0) (c : Nat) : (s.handle c).off = 0 := by
  by_cases hc : c = s.curW
  · rw [hc, ← h.soff_eq, hs]
  · exact h.off_of_ne hc

theorem Inv.off_mem {s : State} (h : s.Inv) (hs : s.soff = 0) {x : Handle} (hx : x ∈ s.handles) : x.off = 0 := by
  obtain ⟨i, hi, rfl⟩ := List.mem_iff_getElem.1 hx
  have := h.off_of_soff hs i
  rwa [handle_of_getElem? (List.getElem?_eq_getElem hi)] at this

/-- R33: when the block is Idle, every bank is as an abort would leave it. -/
theorem Inv.aborted_eq {s : State} (h : s.Inv) (hi : s.idle = true) : s.handles.map Handle.aborted = s.handles := by
  have hs := h.rest_soff (h.resting hi)
  conv_rhs => rw [← List.map_id s.handles]
  apply List.map_congr_left
  intro x hx
  have h1 := h.off_mem hs hx
  have h2 := idle_iff.1 hi x hx
  cases x
  simp_all [Handle.aborted]

/-! How a bus procedure and a host operation end. -/

theorem onBus_ok {α : Type} {f : Bus → Res Bus α} {s : State} {a : α} {b : Bus} (h : f s.bus = .ok a b) :
    s.onBus f = .ok a { s with bus := b } := by simp [onBus, h]

theorem onBus_raise {α : Type} {f : Bus → Res Bus α} {s : State} {e : ErrorKind} {c : Nat} {b : Bus}
    (h : f s.bus = .raise e c b) : s.onBus f = .raise e c { s with bus := b } := by simp [onBus, h]

/-- R256: what taking an error leaves. -/
theorem takeError_eq (s : State) (e : ErrorKind) (c : Nat) :
    s.takeError e c =
      { s with
        handles := s.handles.map Handle.aborted
        soff := 0
        bus := s.abort.bus
        responses := s.responses ++ [errResponse e c] } := rfl

/-- R256 step 1 with no select asserted. -/
theorem release_none {s : State} (h : s.bus.cs = none) : s.release = s.bus := by simp [release, h]

/-- R256 step 1 with a select asserted: it is deasserted. -/
theorem release_some {s : State} {j : Nat} (h : s.bus.cs = some j) : s.release = s.bus.desel s.cfg j := by
  simp [release, h]

/-- The bus of an operation of the Idle block that has been aborted. -/
theorem abort_bus_idle {s : State} (h : s.idle = true) : s.abort.bus = s.release := by simp [abort_bus, h]

/-- R301, U4: the bus of an aborted write session. -/
theorem abort_bus_session {s : State} (h : s.idle = false) : s.abort.bus = s.release.loseBuffers := by
  simp [abort_bus, h]

/-- R256, U4: an error that ends a write session with every select deasserted. -/
theorem takeError_session_none {s : State} (hcs : s.bus.cs = none) (hi : s.idle = false) (e : ErrorKind) (c : Nat) :
    s.takeError e c = { s with
        handles := s.handles.map Handle.aborted
        soff := 0
        bus := s.bus.loseBuffers
        responses := s.responses ++ [errResponse e c] } := by
  rw [takeError_eq, abort_bus_session hi, release_none hcs]

/-- R256, U4: an error that ends a write session while chip `j` is selected. -/
theorem takeError_session_some {s : State} {j : Nat} (hcs : s.bus.cs = some j) (hi : s.idle = false) (e : ErrorKind) (c : Nat) :
    s.takeError e c = { s with
        handles := s.handles.map Handle.aborted
        soff := 0
        bus := (s.bus.desel s.cfg j).loseBuffers
        responses := s.responses ++ [errResponse e c] } := by
  rw [takeError_eq, abort_bus_session hi, release_some hcs]

theorem refuse_eq (s : State) (e : ErrorKind) :
    s.refuse e = { s with responses := s.responses ++ [errResponse e 0] } := rfl

theorem conclude_ok (s : State) (low : List Byte → Byte) (data : List Byte) :
    conclude low (.ok data s) = { s with responses := s.responses ++ [okResponse data (low data)] } := rfl

theorem conclude_raise (s : State) (low : List Byte → Byte) (e : ErrorKind) (c : Nat) :
    conclude low (.raise e c s) = s.takeError e c := rfl

end State

@[simp] theorem firstError_nil : firstError [] = none := rfl
@[simp] theorem firstError_true (e : ErrorKind) (l : List (Bool × ErrorKind)) :
    firstError ((true, e) :: l) = firstError l := rfl
@[simp] theorem firstError_false (e : ErrorKind) (l : List (Bool × ErrorKind)) :
    firstError ((false, e) :: l) = some e := rfl

theorem perform_refused {checks : List (Bool × ErrorKind)} {e : ErrorKind} (h : firstError checks = some e)
    (low : List Byte → Byte) (body : State → Res State (List Byte)) (s : State) :
    perform checks low body s = .next { s with responses := s.responses ++ [errResponse e 0] } := by
  simp [perform, operate, h, State.refuse_eq]

theorem perform_ok {checks : List (Bool × ErrorKind)} (h : firstError checks = none)
    {low : List Byte → Byte} {body : State → Res State (List Byte)} {s t : State} {data : List Byte}
    (hb : body s = .ok data t) :
    perform checks low body s = .next { t with responses := t.responses ++ [okResponse data (low data)] } := by
  simp [perform, operate, h, hb, State.conclude_ok]

theorem perform_raise {checks : List (Bool × ErrorKind)} (h : firstError checks = none)
    {low : List Byte → Byte} {body : State → Res State (List Byte)} {s t : State} {e : ErrorKind} {c : Nat}
    (hb : body s = .raise e c t) :
    perform checks low body s = .next (t.takeError e c) := by
  simp [perform, operate, h, hb, State.conclude_raise]

/-- The body of a bus procedure with no data, ending normally. -/
theorem busBody_ok {f : Bus → Res Bus Unit} {s : State} {b : Bus} (h : f s.bus = .ok () b) :
    busBody f s = .ok [] { s with bus := b } := by simp [busBody, State.onBus_ok h]

theorem busBody_raise {f : Bus → Res Bus Unit} {s : State} {e : ErrorKind} {c : Nat} {b : Bus}
    (h : f s.bus = .raise e c b) : busBody f s = .raise e c { s with bus := b } := by
  simp [busBody, State.onBus_raise h]

/-- R162, R256: an operation of the Idle block that ends in an error with no select asserted keeps every register. -/
theorem takeError_idle_none {s : State} (h : s.Inv) (hi : s.idle = true) {b : Bus} (hcs : b.cs = none)
    (e : ErrorKind) (c : Nat) :
    State.takeError e c { s with bus := b } = { s with bus := b, responses := s.responses ++ [errResponse e c] } := by
  rw [State.takeError_eq, State.abort_bus_idle (s := { s with bus := b }) hi, State.release_none hcs]
  simp [h.aborted_eq hi, h.rest_soff (h.resting hi)]

/-- R162, R256: the same with a select asserted, which is deasserted. -/
theorem takeError_idle_some {s : State} (h : s.Inv) (hi : s.idle = true) {b : Bus} {j : Nat} (hcs : b.cs = some j)
    (e : ErrorKind) (c : Nat) :
    State.takeError e c { s with bus := b } =
      { s with bus := b.desel s.cfg j, responses := s.responses ++ [errResponse e c] } := by
  rw [State.takeError_eq, State.abort_bus_idle (s := { s with bus := b }) hi, State.release_some hcs]
  simp [h.aborted_eq hi, h.rest_soff (h.resting hi)]

end Sys2Proof.Machine
end

