-- ==== Sys2Proof/Laws/Scripts.lean ====
section
/-! SUPPORT. What each bus procedure answers when the incoming bytes are supplied from outside (R308): one lemma for a
normal end, one for each way it can fail. -/

namespace Sys2Proof.Machine

/-! The checks that pass. -/

theorem transportChecks_none {s : State} {c : ChipField} (hi : s.idle = true) (hc : c.toNat < s.cfg.chips) :
    firstError (transportChecks c s) = none := by
  simp [transportChecks, hi, chipInRange, hc]

theorem pageChecks_none {s : State} {c : ChipField} {p : ArgField} (hi : s.idle = true) (hc : c.toNat < s.cfg.chips)
    (hp : p.toNat < s.cfg.numPages) : firstError (pageChecks c p s) = none := by
  simp [pageChecks, transportChecks, hi, chipInRange, hc, pageInRange, hp]

theorem frameChecks_none {s : State} {c : ChipField} {e : Bool} (he : e = true) (hi : s.idle = true)
    (hc : c.toNat < s.cfg.chips) : firstError (frameChecks e c s) = none := by
  simp [frameChecks, he, transportChecks_none hi hc]

theorem countChecks_none {s : State} {n : ArgField} (hi : s.idle = true) (hn : n.toNat ≤ s.cfg.chips * s.cfg.numPages) :
    firstError (countChecks n s) = none := by
  simp [countChecks, hi, countInRange, Config.totalPages, hn]

variable {cfg : Config} {c : Nat}

namespace Bus

theorem After.trans {b b1 b2 : Bus} {cs cs' : Option Nat} {es es' : List Event} {r r' : List Answer}
    (h : b.After b1 cs es r) (h' : b1.After b2 cs' es' r') : b.After b2 cs' (es ++ es') r' :=
  ⟨h'.1, by rw [h'.2.1, h.2.1, List.append_assoc], h'.2.2⟩

theorem After.desel {b b1 : Bus} {cs : Option Nat} {es : List Event} {r : List Answer} (h : b.After b1 cs es r)
    (cfg : Config) (c : Nat) : b.After (b1.desel cfg c) none (es ++ [.desel c]) r :=
  ⟨rfl, by rw [desel_trace, h.2.1, List.append_assoc], h.2.2⟩

/-- R160, R256: the abort ends a frame cut short. -/
theorem After.cut {b b1 : Bus} {cs : Option Nat} {es : List Event} {outs ins : List Byte} {r : List Answer}
    (h : b.After b1 cs (es ++ (.sel c :: exchanges (outs.take ins.length) ins ++ [.x (outs.getD ins.length 0) .fault])) r)
    (cfg : Config) : b.After (b1.desel cfg c) none (es ++ cutFrame c outs ins) r := by
  have := h.desel cfg c
  simpa [cutFrame] using this

/-- R301: losing the buffers is no bus event. -/
theorem After.loseBuffers {b b1 : Bus} {cs : Option Nat} {es : List Event} {r : List Answer} (h : b.After b1 cs es r) :
    b.After b1.loseBuffers cs es r := h

theorem After.of_eq {b b' : Bus} {cs : Option Nat} {es es' : List Event} {r : List Answer} (h : b.After b' cs es r)
    (he : es = es') : b.After b' cs es' r := he ▸ h

end Bus

theorem frame_script {hdr is : List Byte} {nd nr : Nat} {b : Bus} {rest : List Answer}
    (hl : is.length = hdr.length + nd + nr) (h : b.answers = answersOf is ++ rest) :
    ∃ b', issue cfg c hdr nd nr b = .ok (is.drop (hdr.length + nd)) b' ∧
      b.After b' none (frameTrace c (frameOuts hdr nd nr) is) rest := by
  obtain ⟨b', h1, h2, h3, h4, -⟩ := issue_script (cfg := cfg) (c := c) hl h
  exact ⟨b', h1, h4, h3, h2⟩

theorem frame_fault {hdr is : List Byte} {nd nr : Nat} {b : Bus} {rest : List Answer} (hf : cfg.hasBusFault = true)
    (hl : is.length < hdr.length + nd + nr) (h : b.answers = answersOf is ++ .fault :: rest) :
    ∃ b', issue cfg c hdr nd nr b = .raise .busFault c b' ∧
      b.After b' (some c) (.sel c :: exchanges ((frameOuts hdr nd nr).take is.length) is ++
        [.x ((frameOuts hdr nd nr).getD is.length 0) .fault]) rest := by
  obtain ⟨b', h1, h2, h3, h4⟩ := issue_fault (cfg := cfg) (c := c) hf hl h
  exact ⟨b', h1, h3, by rw [h4]; simp, h2⟩

theorem poll_script {ps : List (Byte × Byte)} {b : Bus} {rest : List Answer} (hp : PollSucceeds cfg.pollLimit ps)
    (h : b.answers = answersOf (pollBytes ps) ++ rest) :
    ∃ b', pollReady cfg c b = .ok () b' ∧ b.After b' none (pollTrace c ps) rest := by
  obtain ⟨b', h1, h2, h3, h4, -⟩ := pollReady_script_ok (cfg := cfg) (c := c) hp h
  exact ⟨b', h1, h4, h3, h2⟩

theorem poll_timeout {ps : List (Byte × Byte)} {b : Bus} {rest : List Answer} (hcs : b.cs = none)
    (hp : PollFails cfg.pollLimit ps) (h : b.answers = answersOf (pollBytes ps) ++ rest) :
    ∃ b', pollReady cfg c b = .raise .deviceTimeout c b' ∧ b.After b' none (pollTrace c ps) rest := by
  obtain ⟨b', h1, h2, h3, h4, -⟩ := pollReady_script_timeout (cfg := cfg) (c := c) hcs hp h
  exact ⟨b', h1, h4, h3, h2⟩

/-- R152, R160: a status frame with a bus fault. -/
theorem statusRead_fault {is : List Byte} {b : Bus} {rest : List Answer} (hf : cfg.hasBusFault = true) (hl : is.length < 2)
    (h : b.answers = answersOf is ++ .fault :: rest) :
    ∃ b', statusRead cfg c b = .raise .busFault c b' ∧
      b.After b' (some c) (.sel c :: exchanges ([opcStatusRead, dummyOut].take is.length) is ++
        [.x ([opcStatusRead, dummyOut].getD is.length 0) .fault]) rest := by
  obtain ⟨b', h1, h2⟩ := frame_fault (cfg := cfg) (c := c) (hdr := [opcStatusRead]) (nd := 0) (nr := 1) hf hl h
  exact ⟨b', by simp [statusRead, h1], h2⟩

/-- R153, R160: a poll that meets a bus fault. -/
theorem poll_fault {ps : List (Byte × Byte)} {is : List Byte} {b : Bus} {rest : List Answer} (hf : cfg.hasBusFault = true)
    (hp : PollFaults cfg.pollLimit ps is) (h : b.answers = pollFaultAnswers ps is ++ rest) :
    ∃ b', pollReady cfg c b = .raise .busFault c b' ∧
      b.After b' (some c) (pollTrace c ps ++ (.sel c :: exchanges ([opcStatusRead, dummyOut].take is.length) is ++
        [.x ([opcStatusRead, dummyOut].getD is.length 0) .fault])) rest := by
  obtain ⟨hk, hb, hl⟩ := hp
  unfold pollReady
  generalize cfg.pollLimit = k at hk
  induction ps generalizing b k with
  | nil =>
    obtain ⟨k, rfl⟩ : ∃ j, k = j + 1 := ⟨k - 1, by simp at hk; omega⟩
    obtain ⟨b1, h1, h2⟩ := statusRead_fault (cfg := cfg) (c := c) (rest := rest) hf hl (by simpa [pollFaultAnswers] using h)
    exact ⟨b1, by simp [pollLoop, h1], h2⟩
  | cons p ps ih =>
    obtain ⟨k, rfl⟩ : ∃ j, k = j + 1 := ⟨k - 1, by simp at hk; omega⟩
    obtain ⟨b1, h1, h2, h3, h4, -⟩ := statusRead_script (cfg := cfg) (c := c) (b := b) (i := p.1) (s := p.2)
      (rest := pollFaultAnswers ps is ++ rest) (by simpa [pollFaultAnswers] using h)
    have hr : ready p.2 = false := hb p (by simp)
    obtain ⟨b2, k1, k2⟩ := ih h2 (fun q hq => hb q (by simp [hq])) k (by simpa using hk)
    refine ⟨b2, by simp [pollLoop, h1, hr, k1], (Bus.After.trans ⟨h4, h3, h2⟩ k2).of_eq ?_⟩
    simp [pollTrace]

@[simp] theorem frameOuts_bare (hdr : List Byte) : frameOuts hdr 0 0 = hdr := by simp [frameOuts]

theorem frameOuts_eq (hdr : List Byte) (nd nr : Nat) : frameOuts hdr nd nr = hdr ++ List.replicate (nd + nr) 0x00 := by
  have h : List.replicate (nd + nr) (0x00 : Byte) = dummies nd ++ dummies nr := List.replicate_add _ _ _
  rw [h, frameOuts, List.append_assoc]

theorem statusRead_after {b : Bus} {i v : Byte} {rest : List Answer} (h : b.answers = .byte i :: .byte v :: rest) :
    ∃ b', statusRead cfg c b = .ok v b' ∧
      b.After b' none [.sel c, .x 0xD7 (.byte i), .x 0x00 (.byte v), .desel c] rest := by
  obtain ⟨b', h1, h2, h3, h4, -⟩ := statusRead_script (cfg := cfg) (c := c) h
  exact ⟨b', h1, h4, h3, h2⟩

theorem busyFrame_script {hdr is : List Byte} {b : Bus} {rest : List Answer} (hl : is.length = hdr.length)
    (h : b.answers = answersOf is ++ rest) :
    ∃ b', issueBusy cfg c hdr b = .ok () b' ∧ b.After b' none (frameTrace c hdr is) rest := by
  obtain ⟨b', h1, h2⟩ := frame_script (cfg := cfg) (c := c) (hdr := hdr) (nd := 0) (nr := 0) (b := b.noteBusyFrame c)
    (by simpa using hl) (by simpa using h)
  refine ⟨b', by simp [issueBusy, h1], ?_⟩
  simpa [Bus.After] using h2

theorem busyFrame_fault {hdr is : List Byte} {b : Bus} {rest : List Answer} (hf : cfg.hasBusFault = true)
    (hl : is.length < hdr.length) (h : b.answers = answersOf is ++ .fault :: rest) :
    ∃ b', issueBusy cfg c hdr b = .raise .busFault c b' ∧
      b.After b' (some c) (.sel c :: exchanges (hdr.take is.length) is ++ [.x (hdr.getD is.length 0) .fault]) rest := by
  obtain ⟨b', h1, h2⟩ := frame_fault (cfg := cfg) (c := c) (hdr := hdr) (nd := 0) (nr := 0) (b := b.noteBusyFrame c) hf
    (by simpa using hl) (by simpa using h)
  refine ⟨b', by simp [issueBusy, h1], ?_⟩
  simpa [Bus.After] using h2

theorem erase_script {hdr is : List Byte} {ps : List (Byte × Byte)} {b : Bus} {rest : List Answer}
    (hl : is.length = hdr.length) (hp : PollSucceeds cfg.pollLimit ps)
    (h : b.answers = answersOf (is ++ pollBytes ps) ++ rest) :
    ∃ b', eraseAndPoll cfg c hdr b = .ok () b' ∧ b.After b' none (frameTrace c hdr is ++ pollTrace c ps) rest := by
  obtain ⟨b1, h1, h2⟩ := busyFrame_script (cfg := cfg) (c := c) hl (rest := answersOf (pollBytes ps) ++ rest)
    (by simpa using h)
  obtain ⟨b2, h3, h4⟩ := poll_script (cfg := cfg) (c := c) hp h2.2.2
  exact ⟨b2, by simp [eraseAndPoll, h1, h3], h2.trans h4⟩

theorem erase_timeout {hdr is : List Byte} {ps : List (Byte × Byte)} {b : Bus} {rest : List Answer}
    (hl : is.length = hdr.length) (hp : PollFails cfg.pollLimit ps)
    (h : b.answers = answersOf (is ++ pollBytes ps) ++ rest) :
    ∃ b', eraseAndPoll cfg c hdr b = .raise .deviceTimeout c b' ∧
      b.After b' none (frameTrace c hdr is ++ pollTrace c ps) rest := by
  obtain ⟨b1, h1, h2⟩ := busyFrame_script (cfg := cfg) (c := c) hl (rest := answersOf (pollBytes ps) ++ rest)
    (by simpa using h)
  obtain ⟨b2, h3, h4⟩ := poll_timeout (cfg := cfg) (c := c) h2.1 hp h2.2.2
  exact ⟨b2, by simp [eraseAndPoll, h1, h3], h2.trans h4⟩

/-- R157, R160: a bus fault in the erase frame. -/
theorem erase_fault {hdr is : List Byte} {b : Bus} {rest : List Answer} (hf : cfg.hasBusFault = true)
    (hl : is.length < hdr.length) (h : b.answers = answersOf is ++ .fault :: rest) :
    ∃ b', eraseAndPoll cfg c hdr b = .raise .busFault c b' ∧
      b.After b' (some c) (.sel c :: exchanges (hdr.take is.length) is ++ [.x (hdr.getD is.length 0) .fault]) rest := by
  obtain ⟨b1, h1, h2⟩ := busyFrame_fault (cfg := cfg) (c := c) hf hl h
  exact ⟨b1, by simp [eraseAndPoll, h1], h2⟩

/-- R157, R160: a bus fault in the poll of an erase. -/
theorem erase_pollFault {hdr es is : List Byte} {ps : List (Byte × Byte)} {b : Bus} {rest : List Answer}
    (hf : cfg.hasBusFault = true) (hl : es.length = hdr.length) (hp : PollFaults cfg.pollLimit ps is)
    (h : b.answers = answersOf es ++ (pollFaultAnswers ps is ++ rest)) :
    ∃ b', eraseAndPoll cfg c hdr b = .raise .busFault c b' ∧
      b.After b' (some c) (frameTrace c hdr es ++ (pollTrace c ps ++
        (.sel c :: exchanges ([opcStatusRead, dummyOut].take is.length) is ++
          [.x ([opcStatusRead, dummyOut].getD is.length 0) .fault]))) rest := by
  obtain ⟨b1, h1, h2⟩ := busyFrame_script (cfg := cfg) (c := c) hl h
  obtain ⟨b2, h3, h4⟩ := poll_fault (cfg := cfg) (c := c) hf hp h2.2.2
  exact ⟨b2, by simp [eraseAndPoll, h1, h3], h2.trans h4⟩

theorem transferBlock_after {os is : List Byte} {b : Bus} {rest : List Answer} (hl : is.length = os.length)
    (h : b.answers = answersOf is ++ rest) :
    ∃ b', transferBlock cfg c os b = .ok is b' ∧ b.After b' b.cs (exchanges os is) rest := by
  obtain ⟨b', h1, h2⟩ := transferBlock_script (cfg := cfg) (c := c) hl h
  obtain ⟨-, g2, g3, -⟩ := (transferBlock_post (cfg := cfg) (c := c) os b).of_eq_ok h1
  exact ⟨b', h1, g3, g2, h2⟩

theorem transferBlock_after_fault {os is : List Byte} {b : Bus} {rest : List Answer} (hf : cfg.hasBusFault = true)
    (hl : is.length < os.length) (h : b.answers = answersOf is ++ .fault :: rest) :
    ∃ b', transferBlock cfg c os b = .raise .busFault c b' ∧
      b.After b' b.cs (exchanges (os.take is.length) is ++ [.x (os.getD is.length 0) .fault]) rest := by
  obtain ⟨b', h1, h2, h3⟩ := transferBlock_fault (cfg := cfg) (c := c) hf hl h
  obtain ⟨-, -, -, g4, -⟩ := (transferBlock_post (cfg := cfg) (c := c) os b).of_eq_raise h1
  exact ⟨b', h1, g4, by rw [h3]; simp, h2⟩

theorem range_succ_flatMap {α : Type} (f : Nat → List α) (n : Nat) :
    (List.range (n + 1)).flatMap f = f 0 ++ (List.range n).flatMap fun k => f (k + 1) := by
  rw [List.range_succ_eq_map]
  simp [List.flatMap_map]

theorem pollFrom_script {polls : Nat → List (Byte × Byte)} {k : Nat} {b : Bus} {rest : List Answer} (hcs : b.cs = none)
    (hp : ∀ d, d < k → PollSucceeds cfg.pollLimit (polls d))
    (h : b.answers = answersOf ((List.range k).flatMap fun d => pollBytes (polls d)) ++ rest) :
    ∃ b', pollFrom cfg k c b = .ok () b' ∧
      b.After b' none ((List.range k).flatMap fun d => pollTrace (c + d) (polls d)) rest := by
  induction k generalizing b c polls with
  | zero => exact ⟨b, rfl, hcs, by simp, by simpa using h⟩
  | succ k ih =>
    rw [range_succ_flatMap] at h
    obtain ⟨b1, h1, h2⟩ := poll_script (cfg := cfg) (c := c) (hp 0 (by omega))
      (rest := answersOf ((List.range k).flatMap fun d => pollBytes (polls (d + 1))) ++ rest) (by simpa using h)
    obtain ⟨b2, h3, h4⟩ := ih (c := c + 1) (polls := fun d => polls (d + 1)) h2.1 (fun d hd => hp (d + 1) (by omega))
      h2.2.2
    refine ⟨b2, by simp [pollFrom, h1, h3], (h2.trans h4).of_eq ?_⟩
    rw [range_succ_flatMap]
    simp [Nat.add_assoc, Nat.add_comm 1]

/-- R213: polls of which the one of chip `c + k` is the first to end in an error. -/
theorem pollFrom_raise {polls : Nat → List (Byte × Byte)} {k n : Nat} {b : Bus} {tail rest : List Answer} {e : ErrorKind}
    {cs : Option Nat} {es : List Event} (hcs : b.cs = none) (hk : k < n)
    (hp : ∀ d, d < k → PollSucceeds cfg.pollLimit (polls d))
    (h : b.answers = answersOf ((List.range k).flatMap fun d => pollBytes (polls d)) ++ tail)
    (hf : ∀ b1 : Bus, b1.cs = none → b1.answers = tail →
      ∃ b', pollReady cfg (c + k) b1 = .raise e (c + k) b' ∧ b1.After b' cs es rest) :
    ∃ b', pollFrom cfg n c b = .raise e (c + k) b' ∧
      b.After b' cs (((List.range k).flatMap fun d => pollTrace (c + d) (polls d)) ++ es) rest := by
  induction k generalizing b c polls n with
  | zero =>
    obtain ⟨n, rfl⟩ : ∃ j, n = j + 1 := ⟨n - 1, by omega⟩
    obtain ⟨b1, h1, h2⟩ := hf b hcs (by simpa using h)
    exact ⟨b1, by rw [Nat.add_zero] at h1; simp [pollFrom, h1], h2.of_eq (by simp)⟩
  | succ k ih =>
    obtain ⟨n, rfl⟩ : ∃ j, n = j + 1 := ⟨n - 1, by omega⟩
    rw [range_succ_flatMap] at h
    obtain ⟨b1, h1, h2⟩ := poll_script (cfg := cfg) (c := c) (hp 0 (by omega))
      (rest := answersOf ((List.range k).flatMap fun d => pollBytes (polls (d + 1))) ++ tail) (by simpa using h)
    have hadd : c + 1 + k = c + (k + 1) := by omega
    obtain ⟨b2, h3, h4⟩ := ih (c := c + 1) (n := n) (polls := fun d => polls (d + 1)) h2.1 (by omega)
      (fun d hd => hp (d + 1) (by omega)) h2.2.2 (by rw [hadd]; exact hf)
    rw [hadd] at h3
    refine ⟨b2, by simp [pollFrom, h1, h3], (h2.trans h4).of_eq ?_⟩
    rw [range_succ_flatMap]
    simp [Nat.add_assoc, Nat.add_comm 1]

theorem pageEraseFrame_length (p : Nat) : (pageEraseFrame cfg p).length = 4 := rfl

theorem eraseFrom_script {es : Nat → List Byte} {polls : Nat → List (Byte × Byte)} {k l : Nat} {b : Bus}
    {rest : List Answer} (hcs : b.cs = none)
    (hp : ∀ d, d < k → (es d).length = 4 ∧ PollSucceeds cfg.pollLimit (polls d))
    (h : b.answers = answersOf ((List.range k).flatMap fun d => es d ++ pollBytes (polls d)) ++ rest) :
    ∃ b', eraseFrom cfg k l b = .ok () b' ∧
      b.After b' none ((List.range k).flatMap fun d =>
        frameTrace (pageChip cfg (l + d)) (pageEraseFrame cfg (pageIndex cfg (l + d))) (es d) ++
          pollTrace (pageChip cfg (l + d)) (polls d)) rest := by
  induction k generalizing b l polls es with
  | zero => exact ⟨b, rfl, hcs, by simp, by simpa using h⟩
  | succ k ih =>
    rw [range_succ_flatMap] at h
    obtain ⟨b1, h1, h2⟩ := erase_script (cfg := cfg) (c := pageChip cfg l) (hdr := pageEraseFrame cfg (pageIndex cfg l))
      (hp 0 (by omega)).1 (hp 0 (by omega)).2
      (rest := answersOf ((List.range k).flatMap fun d => es (d + 1) ++ pollBytes (polls (d + 1))) ++ rest)
      (by simpa using h)
    obtain ⟨b2, h3, h4⟩ := ih (l := l + 1) (polls := fun d => polls (d + 1)) (es := fun d => es (d + 1)) h2.1
      (fun d hd => hp (d + 1) (by omega)) h2.2.2
    refine ⟨b2, by simp [eraseFrom, h1, h3], (h2.trans h4).of_eq ?_⟩
    rw [range_succ_flatMap]
    simp [Nat.add_assoc, Nat.add_comm 1]

/-- R215: erases of which the one of logical page `l + k` is the first to end in an error. -/
theorem eraseFrom_raise {es : Nat → List Byte} {polls : Nat → List (Byte × Byte)} {k n l : Nat} {b : Bus}
    {tail rest : List Answer} {e : ErrorKind} {cs : Option Nat} {evs : List Event} (hcs : b.cs = none) (hk : k < n)
    (hp : ∀ d, d < k → (es d).length = 4 ∧ PollSucceeds cfg.pollLimit (polls d))
    (h : b.answers = answersOf ((List.range k).flatMap fun d => es d ++ pollBytes (polls d)) ++ tail)
    (hf : ∀ b1 : Bus, b1.cs = none → b1.answers = tail →
      ∃ b', eraseAndPoll cfg (pageChip cfg (l + k)) (pageEraseFrame cfg (pageIndex cfg (l + k))) b1 =
          .raise e (pageChip cfg (l + k)) b' ∧ b1.After b' cs evs rest) :
    ∃ b', eraseFrom cfg n l b = .raise e (pageChip cfg (l + k)) b' ∧
      b.After b' cs (((List.range k).flatMap fun d =>
        frameTrace (pageChip cfg (l + d)) (pageEraseFrame cfg (pageIndex cfg (l + d))) (es d) ++
          pollTrace (pageChip cfg (l + d)) (polls d)) ++ evs) rest := by
  induction k generalizing b l polls es n with
  | zero =>
    obtain ⟨n, rfl⟩ : ∃ j, n = j + 1 := ⟨n - 1, by omega⟩
    obtain ⟨b1, h1, h2⟩ := hf b hcs (by simpa using h)
    rw [Nat.add_zero] at h1
    exact ⟨b1, by simp [eraseFrom, h1], h2.of_eq (by simp)⟩
  | succ k ih =>
    obtain ⟨n, rfl⟩ : ∃ j, n = j + 1 := ⟨n - 1, by omega⟩
    rw [range_succ_flatMap] at h
    obtain ⟨b1, h1, h2⟩ := erase_script (cfg := cfg) (c := pageChip cfg l) (hdr := pageEraseFrame cfg (pageIndex cfg l))
      (hp 0 (by omega)).1 (hp 0 (by omega)).2
      (rest := answersOf ((List.range k).flatMap fun d => es (d + 1) ++ pollBytes (polls (d + 1))) ++ tail)
      (by simpa using h)
    have hadd : l + 1 + k = l + (k + 1) := by omega
    obtain ⟨b2, h3, h4⟩ := ih (l := l + 1) (n := n) (polls := fun d => polls (d + 1)) (es := fun d => es (d + 1))
      h2.1 (by omega) (fun d hd => hp (d + 1) (by omega)) h2.2.2 (by rw [hadd]; exact hf)
    rw [hadd] at h3
    refine ⟨b2, by simp [eraseFrom, h1, h3], (h2.trans h4).of_eq ?_⟩
    rw [range_succ_flatMap]
    simp [Nat.add_assoc, Nat.add_comm 1]

end Sys2Proof.Machine
end

