-- ==== Sys2Proof/Laws/Session.lean ====
section
/-! SUPPORT. What the engine's procedures answer when the incoming bytes are supplied from outside (R308). -/

namespace Sys2Proof.Machine

variable {c : Nat}

namespace State

@[simp] theorem onBus_cfg_ok {α : Type} (f : Bus → Res Bus α) (s : State) (b : Bus) :
    ({ s with bus := b } : State).onBus f = match f b with
      | .ok a b' => .ok a { s with bus := b' }
      | .raise e c b' => .raise e c { s with bus := b' } := rfl

theorem handle_bus (s : State) (b : Bus) (c : Nat) : ({ s with bus := b } : State).handle c = s.handle c := rfl

/-- Two changes of one bank are one. -/
theorem modify_modify (l : List Handle) (c : Nat) (f g : Handle → Handle) :
    (l.modify c f).modify c g = l.modify c (fun h => g (f h)) := by
  apply List.ext_getElem?
  intro i
  simp only [List.getElem?_modify]
  by_cases h : c = i
  · cases l[i]? <;> simp [h]
  · cases l[i]? <;> simp [h]

theorem handle_onHandle {s : State} (hc : c < s.handles.length) (f : Handle → Handle) :
    (s.onHandle c f).handle c = f (s.handle c) := by
  simp [handle, hc]

theorem handle_onHandle_ne {s : State} {d : Nat} (hc : c ≠ d) (f : Handle → Handle) :
    (s.onHandle c f).handle d = s.handle d := by
  simp [handle, hc]

end State

theorem openFrame_eq (q : Parity) : openFrame q = [opcBufWrite q, 0x00, 0x00, 0x00] := by cases q <;> rfl

theorem engOpen_script {s : State} {is : List Byte} {rest : List Answer} (hl : is.length = 4)
    (h : s.bus.answers = answersOf is ++ rest) :
    ∃ b, engOpen c s = .ok () { s with bus := b } ∧
      s.bus.After b (some c) (.sel c :: exchanges [opcBufWrite (s.handle c).par, 0x00, 0x00, 0x00] is) rest := by
  obtain ⟨b, h1, h2⟩ := transferBlock_after (cfg := s.cfg) (c := c) (os := openFrame (s.handle c).par) (is := is)
    (b := s.bus.sel c) (rest := rest) (by simp [openFrame_eq, hl]) (by simpa using h)
  refine ⟨b, ?_, h2.1, ?_, h2.2.2⟩
  · rw [engOpen, State.onBus_ok (f := fun b => transferBlock s.cfg c (openFrame (s.handle c).par) (b.sel c)) h1]
    rfl
  · rw [h2.2.1, openFrame_eq]
    simp

theorem engOpen_fault {s : State} {is : List Byte} {rest : List Answer} (hf : s.cfg.hasBusFault = true)
    (hl : is.length < 4) (h : s.bus.answers = answersOf is ++ .fault :: rest) :
    ∃ b, engOpen c s = .raise .busFault c { s with bus := b } ∧
      s.bus.After b (some c)
        (.sel c :: exchanges ([opcBufWrite (s.handle c).par, 0x00, 0x00, 0x00].take is.length) is ++
          [.x ([opcBufWrite (s.handle c).par, 0x00, 0x00, 0x00].getD is.length 0) .fault]) rest := by
  obtain ⟨b, h1, h2⟩ := transferBlock_after_fault (cfg := s.cfg) (c := c) (os := openFrame (s.handle c).par) (is := is)
    (b := s.bus.sel c) (rest := rest) hf (by simp [openFrame_eq, hl]) (by simpa using h)
  refine ⟨b, ?_, h2.1, ?_, h2.2.2⟩
  · rw [engOpen, State.onBus_raise (f := fun b => transferBlock s.cfg c (openFrame (s.handle c).par) (b.sel c)) h1]
    rfl
  · rw [h2.2.1, openFrame_eq]
    simp

theorem engSend_script {s : State} {v i : Byte} {rest : List Answer} (h : s.bus.answers = .byte i :: rest) :
    ∃ b, engSend c v s = .ok () { s with bus := b } ∧ s.bus.After b s.bus.cs [.x v (.byte i)] rest := by
  obtain ⟨b, h1, h2⟩ := transferBlock_after (cfg := s.cfg) (c := c) (os := [v]) (is := [i]) (b := s.bus) (rest := rest) rfl h
  exact ⟨b, by rw [engSend, State.onBus_ok h1]; rfl, h2⟩

theorem engSend_fault {s : State} {v : Byte} {rest : List Answer} (hf : s.cfg.hasBusFault = true)
    (h : s.bus.answers = .fault :: rest) :
    ∃ b, engSend c v s = .raise .busFault c { s with bus := b } ∧ s.bus.After b s.bus.cs [.x v .fault] rest := by
  obtain ⟨b, h1, h2⟩ := transferBlock_after_fault (cfg := s.cfg) (c := c) (os := [v]) (is := []) (b := s.bus) (rest := rest)
    hf (by simp) h
  exact ⟨b, by rw [engSend, State.onBus_raise h1]; rfl, by simpa using h2⟩

/-- R184 steps 1 and 2 to bank `c`, and the state around it. -/
theorem engCloseFull_eq (s : State) :
    engCloseFull c s =
      { s with
        bus := s.bus.desel s.cfg c
        handles := s.handles.modify c fun h => { h with est := .committing } } := rfl

theorem engCloseFull_handle {s : State} (hc : c < s.handles.length) :
    (engCloseFull c s).handle c = { s.handle c with est := .committing } := by
  simp [engCloseFull_eq, State.handle, hc]

/-- R184 as two bus procedures: the poll, and the commit frame. -/
theorem engCommit_eq {s : State} (hc : c < s.handles.length) :
    engCommit c s =
      match pollReady s.cfg c (s.bus.desel s.cfg c) with
      | .raise e d b => .raise e d { engCloseFull c s with bus := b }
      | .ok _ b =>
        match issueBusy s.cfg c (commitFrame s.cfg (s.handle c).par (s.handle c).wpage)
            (b.noteCommit s.cfg c (s.handle c).wpage) with
        | .raise e d b => .raise e d { engCloseFull c s with bus := b }
        | .ok _ b => .ok () { s with bus := b, handles := s.handles.set c (s.handle c).committed } := by
  have hcfg : (engCloseFull c s).cfg = s.cfg := rfl
  have hbus : (engCloseFull c s).bus = s.bus.desel s.cfg c := rfl
  rw [engCommit, State.onBus, hcfg, hbus]
  cases hp : pollReady s.cfg c (s.bus.desel s.cfg c) with
  | raise e d b => rfl
  | ok a b =>
    simp only [Res.andThen_ok, State.onBus]
    have hh : State.handle { engCloseFull c s with bus := b } c = { s.handle c with est := .committing } :=
      engCloseFull_handle hc
    simp only [hcfg] at hh ⊢
    rw [hh]
    simp only
    cases hi : issueBusy s.cfg c (commitFrame s.cfg (s.handle c).par (s.handle c).wpage)
        (b.noteCommit s.cfg c (s.handle c).wpage) with
    | raise e d b => rfl
    | ok a b =>
      simp only [Res.andThen_ok, State.onHandle, engCloseFull_eq, State.modify_modify]
      rw [State.modify_eq_set]
      rfl

/-- R184: `engCommit` whose poll succeeds and whose commit frame is sent. -/
theorem engCommit_script {s : State} {ps : List (Byte × Byte)} {ks : List Byte} {rest : List Answer}
    (hc : c < s.handles.length) (hp : PollSucceeds s.cfg.pollLimit ps) (hk : ks.length = 4)
    (h : s.bus.answers = answersOf (pollBytes ps ++ ks) ++ rest) :
    ∃ b, engCommit c s = .ok () { s with bus := b, handles := s.handles.set c (s.handle c).committed } ∧
      s.bus.After b none
        (.desel c :: pollTrace c ps ++
          frameTrace c (opcCommit s.cfg (s.handle c).par :: addrBytes (encodePage s.cfg (s.handle c).wpage)) ks) rest := by
  obtain ⟨b1, h1, h2⟩ := poll_script (cfg := s.cfg) (c := c) (b := s.bus.desel s.cfg c) (ps := ps)
    (rest := answersOf ks ++ rest) hp (by simpa using h)
  obtain ⟨b2, h3, h4⟩ := busyFrame_script (cfg := s.cfg) (c := c)
    (hdr := commitFrame s.cfg (s.handle c).par (s.handle c).wpage) (is := ks)
    (b := b1.noteCommit s.cfg c (s.handle c).wpage) (rest := rest) (by rw [hk]; rfl) (by simpa using h2.2.2)
  refine ⟨b2, ?_, h4.1, ?_, h4.2.2⟩
  · rw [engCommit_eq hc, h1]
    simp only [h3]
  · rw [h4.2.1, Bus.noteCommit_trace, h2.2.1]
    simp [commitFrame]

/-- R184: `engCommit` whose poll runs out. -/
theorem engCommit_timeout {s : State} {ps : List (Byte × Byte)} {rest : List Answer} (hp : PollFails s.cfg.pollLimit ps)
    (h : s.bus.answers = answersOf (pollBytes ps) ++ rest) :
    ∃ b, engCommit c s = .raise .deviceTimeout c { engCloseFull c s with bus := b } ∧
      s.bus.After b none (.desel c :: pollTrace c ps) rest := by
  obtain ⟨b1, h1, h2⟩ := poll_timeout (cfg := s.cfg) (c := c) (b := s.bus.desel s.cfg c) (ps := ps) rfl hp h
  refine ⟨b1, ?_, h2.1, by rw [h2.2.1]; simp, h2.2.2⟩
  rw [engCommit, State.onBus_raise (s := engCloseFull c s) (f := pollReady s.cfg c) h1]
  rfl

/-- R160, R184: `engCommit` with a bus fault in its poll. -/
theorem engCommit_pollFault {s : State} {ps : List (Byte × Byte)} {is : List Byte} {rest : List Answer}
    (hf : s.cfg.hasBusFault = true) (hp : PollFaults s.cfg.pollLimit ps is)
    (h : s.bus.answers = pollFaultAnswers ps is ++ rest) :
    ∃ b, engCommit c s = .raise .busFault c { engCloseFull c s with bus := b } ∧
      s.bus.After b (some c) (.desel c :: pollTrace c ps ++
        (.sel c :: exchanges ([opcStatusRead, dummyOut].take is.length) is ++
          [.x ([opcStatusRead, dummyOut].getD is.length 0) .fault])) rest := by
  obtain ⟨b1, h1, h2⟩ := poll_fault (cfg := s.cfg) (c := c) (b := s.bus.desel s.cfg c) hf hp h
  refine ⟨b1, ?_, h2.1, by rw [h2.2.1]; simp, h2.2.2⟩
  rw [engCommit, State.onBus_raise (s := engCloseFull c s) (f := pollReady s.cfg c) h1]
  rfl

/-- R160, R184: `engCommit` with a bus fault in its commit frame. -/
theorem engCommit_fault {s : State} {ps : List (Byte × Byte)} {ks : List Byte} {rest : List Answer}
    (hf : s.cfg.hasBusFault = true) (hc : c < s.handles.length) (hp : PollSucceeds s.cfg.pollLimit ps)
    (hk : ks.length < 4) (h : s.bus.answers = answersOf (pollBytes ps ++ ks) ++ .fault :: rest) :
    ∃ b, engCommit c s = .raise .busFault c { engCloseFull c s with bus := b } ∧
      s.bus.After b (some c)
        (.desel c :: pollTrace c ps ++ .sel c ::
          exchanges ((opcCommit s.cfg (s.handle c).par :: addrBytes (encodePage s.cfg (s.handle c).wpage)).take ks.length)
            ks ++
          [.x ((opcCommit s.cfg (s.handle c).par :: addrBytes (encodePage s.cfg (s.handle c).wpage)).getD ks.length 0)
            .fault]) rest := by
  obtain ⟨b1, h1, h2⟩ := poll_script (cfg := s.cfg) (c := c) (b := s.bus.desel s.cfg c) (ps := ps)
    (rest := answersOf ks ++ .fault :: rest) hp (by simpa using h)
  obtain ⟨b2, h3, h4⟩ := busyFrame_fault (cfg := s.cfg) (c := c)
    (hdr := commitFrame s.cfg (s.handle c).par (s.handle c).wpage) (is := ks)
    (b := b1.noteCommit s.cfg c (s.handle c).wpage) (rest := rest) hf (by simpa [commitFrame] using hk)
    (by simpa using h2.2.2)
  refine ⟨b2, ?_, h4.1, ?_, h4.2.2⟩
  · rw [engCommit_eq hc, h1]
    simp only [h3]
  · rw [h4.2.1, Bus.noteCommit_trace, h2.2.1]
    simp [commitFrame]

theorem forEachChip_engStart (s : State) (h : s.handles.length = s.cfg.chips) :
    s.forEachChip engStart s.cfg.chips = { s with handles := s.handles.map Handle.start } := by
  have e : engStart = fun c s => State.onHandle c Handle.start s := rfl
  rw [e, State.forEachChip_onHandle (fun _ => Handle.start), State.mapIdx_of_lt (f := fun _ => Handle.start) (le_of_eq h)]
  congr 1
  exact List.ext_getElem? fun i => by simp

theorem forEachChip_engEnd (s : State) (h : s.handles.length = s.cfg.chips) :
    s.forEachChip engEnd s.cfg.chips = { s with handles := s.handles.map Handle.finished } := by
  have e : engEnd = fun c s => State.onHandle c Handle.finished s := rfl
  rw [e, State.forEachChip_onHandle (fun _ => Handle.finished),
    State.mapIdx_of_lt (f := fun _ => Handle.finished) (le_of_eq h)]
  congr 1
  exact List.ext_getElem? fun i => by simp

theorem forEachChip_seekW (s : State) (l : Nat) (h : s.handles.length = s.cfg.chips) :
    s.forEachChip (seekChipW l) s.cfg.chips =
      { s with handles := s.handles.mapIdx fun c h => { h with wpage := cursorAt s.cfg l c } } := by
  have key : ∀ k, s.forEachChip (seekChipW l) k =
      s.forEachChip (fun c s' => s'.onHandle c fun h => { h with wpage := cursorAt s.cfg l c }) k ∧
      (s.forEachChip (seekChipW l) k).cfg = s.cfg := by
    intro k
    induction k with
    | zero => exact ⟨rfl, rfl⟩
    | succ k ih =>
      constructor
      · simp only [State.forEachChip, seekChipW, ih.1]
        rw [← ih.1, ih.2]
      · simp [State.forEachChip, seekChipW, ih.2]
  rw [(key _).1, State.forEachChip_onHandle fun c h => { h with wpage := cursorAt s.cfg l c }]
  rw [State.mapIdx_of_lt (f := fun c h => { h with wpage := cursorAt s.cfg l c }) (le_of_eq h)]

theorem forEachChip_seekR (s : State) (l : Nat) (h : s.handles.length = s.cfg.chips) :
    s.forEachChip (seekChipR l) s.cfg.chips =
      { s with handles := s.handles.mapIdx fun c h => { h with rpage := cursorAt s.cfg l c } } := by
  have key : ∀ k, s.forEachChip (seekChipR l) k =
      s.forEachChip (fun c s' => s'.onHandle c fun h => { h with rpage := cursorAt s.cfg l c }) k ∧
      (s.forEachChip (seekChipR l) k).cfg = s.cfg := by
    intro k
    induction k with
    | zero => exact ⟨rfl, rfl⟩
    | succ k ih =>
      constructor
      · simp only [State.forEachChip, seekChipR, ih.1]
        rw [← ih.1, ih.2]
      · simp [State.forEachChip, seekChipR, ih.2]
  rw [(key _).1, State.forEachChip_onHandle fun c h => { h with rpage := cursorAt s.cfg l c }]
  rw [State.mapIdx_of_lt (f := fun c h => { h with rpage := cursorAt s.cfg l c }) (le_of_eq h)]

end Sys2Proof.Machine
end

