-- ==== Sys2Proof/Laws/Closed.lean ====
section
/-! SUPPORT. A property of the bus that every bus event on chip `c` keeps is kept by every procedure on chip `c`, and one
that every bus event keeps is kept by every instruction, however it ends. -/

namespace Sys2Proof.Machine

/-- Every bus event on chip `c`, and every note the model takes, keeps `P`. -/
structure Closed (cfg : Config) (c : Nat) (P : Bus → Prop) : Prop where
  sel : ∀ b, P b → P (b.sel c)
  desel : ∀ b, P b → P (b.desel cfg c)
  xfer : ∀ b o, P b → P (b.xfer cfg o).2
  noteReady : ∀ b, P b → P (b.noteReady c)
  noteBusyFrame : ∀ b, P b → P (b.noteBusyFrame c)
  noteCommit : ∀ b p, P b → P (b.noteCommit cfg c p)
  loseBuffers : ∀ b, P b → P b.loseBuffers

namespace Closed

variable {cfg : Config} {c : Nat} {P : Bus → Prop}

theorem andThen {α β : Type} {r : Res Bus α} {f : α → Bus → Res Bus β} (h : r.All P)
    (hf : ∀ a b, P b → (f a b).All P) : (r.andThen f).All P := Res.Post.andThen h hf

theorem transferBlock (h : ∀ b o, P b → P (b.xfer cfg o).2) (os : List Byte) {b : Bus} (hb : P b) :
    (transferBlock cfg c os b).All P := by
  induction os generalizing b with
  | nil => exact hb
  | cons o os ih =>
    have hx := h b o hb
    simp only [Machine.transferBlock]
    split
    · next b' e => rw [e] at hx; exact hx
    · next v b' e => rw [e] at hx; exact andThen (ih hx) fun _ _ hb' => hb'

theorem issue (h : Closed cfg c P) (hdr : List Byte) (nd nr : Nat) {b : Bus} (hb : P b) :
    (issue cfg c hdr nd nr b).All P := by
  rw [issue_eq]
  exact andThen (transferBlock h.xfer _ (h.sel _ hb)) fun _ _ hb' => h.desel _ hb'

theorem statusRead (h : Closed cfg c P) {b : Bus} (hb : P b) : (statusRead cfg c b).All P := by
  refine andThen (h.issue _ _ _ hb) fun _ b' hb' => ?_
  show P (if _ then _ else _)
  split
  · exact h.noteReady _ hb'
  · exact hb'

theorem pollLoop (h : Closed cfg c P) (k : Nat) {b : Bus} (hb : P b) : (pollLoop cfg c k b).All P := by
  induction k generalizing b with
  | zero => exact hb
  | succ k ih =>
    refine andThen (h.statusRead hb) fun s b' hb' => ?_
    show Res.All P (if _ then _ else _)
    split
    · exact hb'
    · exact ih hb'

theorem pollReady (h : Closed cfg c P) {b : Bus} (hb : P b) : (pollReady cfg c b).All P := h.pollLoop _ hb

theorem issueBusy (h : Closed cfg c P) (hdr : List Byte) {b : Bus} (hb : P b) : (issueBusy cfg c hdr b).All P :=
  andThen (h.issue _ _ _ (h.noteBusyFrame _ hb)) fun _ _ hb' => hb'

theorem eraseAndPoll (h : Closed cfg c P) (hdr : List Byte) {b : Bus} (hb : P b) :
    (eraseAndPoll cfg c hdr b).All P := andThen (h.issueBusy _ hb) fun _ _ hb' => h.pollReady hb'

theorem pollFrom (k : Nat) (h : ∀ d, c ≤ d → d < c + k → Closed cfg d P) {b : Bus} (hb : P b) :
    (pollFrom cfg k c b).All P := by
  induction k generalizing b c with
  | zero => exact hb
  | succ k ih =>
    exact andThen ((h c (le_refl _) (by omega)).pollReady hb) fun _ _ hb' =>
      ih (fun d h1 h2 => h d (by omega) (by omega)) hb'

theorem eraseFrom (k l : Nat) (h : ∀ d, l ≤ d → d < l + k → Closed cfg (pageChip cfg d) P) {b : Bus} (hb : P b) :
    (eraseFrom cfg k l b).All P := by
  induction k generalizing b l with
  | zero => exact hb
  | succ k ih =>
    exact andThen ((h l (le_refl _) (by omega)).eraseAndPoll _ hb) fun _ _ hb' =>
      ih (l + 1) (fun d h1 h2 => h d (by omega) (by omega)) hb'

end Closed

/-! Host operations. -/

theorem State.onBus_all {α : Type} {f : Bus → Res Bus α} {s : State} {P : Bus → Prop} (h : (f s.bus).All P) :
    (s.onBus f).All fun t => P t.bus := by
  unfold State.onBus
  cases hf : f s.bus with
  | ok a b => rw [hf] at h; exact h
  | raise e c b => rw [hf] at h; exact h

/-- The bus procedure of an operation leaves everything of the state but the bus. -/
theorem State.onBus_post {α : Type} {f : Bus → Res Bus α} {s : State} {Q : α → Bus → Prop}
    {E : ErrorKind → Nat → Bus → Prop} (h : (f s.bus).Post Q E) :
    (s.onBus f).Post (fun a t => t = { s with bus := t.bus } ∧ Q a t.bus)
      (fun e c t => t = { s with bus := t.bus } ∧ E e c t.bus) := by
  unfold State.onBus
  cases hf : f s.bus with
  | ok a b => rw [hf] at h; exact ⟨rfl, h⟩
  | raise e c b => rw [hf] at h; exact ⟨rfl, h⟩

/-- What `perform` can do. -/
theorem perform_cases {checks : List (Bool × ErrorKind)} {low : List Byte → Byte} {body : State → Res State (List Byte)}
    {s t : State} (h : perform checks low body s = .next t) :
    (∃ e, firstError checks = some e ∧ t = { s with responses := s.responses ++ [errResponse e 0] }) ∨
    firstError checks = none ∧
      ((∃ data s', body s = .ok data s' ∧ t = { s' with responses := s'.responses ++ [okResponse data (low data)] }) ∨
        ∃ e c s', body s = .raise e c s' ∧ t = s'.takeError e c) := by
  cases hc : firstError checks with
  | some e =>
    rw [perform_refused hc] at h
    exact .inl ⟨e, rfl, (Host.Outcome.next.inj h).symm⟩
  | none =>
    refine .inr ⟨rfl, ?_⟩
    cases hb : body s with
    | ok data s' =>
      rw [perform_ok hc hb] at h
      exact .inl ⟨data, s', rfl, (Host.Outcome.next.inj h).symm⟩
    | raise e c s' =>
      rw [perform_raise hc hb] at h
      exact .inr ⟨e, c, s', rfl, (Host.Outcome.next.inj h).symm⟩

theorem release_all {s : State} {P : Bus → Prop} (hP : ∀ b c, P b → P (b.desel s.cfg c)) (h : P s.bus) : P s.release := by
  unfold State.release
  split
  · exact hP _ _ h
  · exact h

/-- What an abort leaves of the bus (R256, U4). -/
theorem abort_all {s : State} {P : Bus → Prop} (hP : ∀ b c, P b → P (b.desel s.cfg c)) (hL : ∀ b, P b → P b.loseBuffers)
    (h : P s.bus) : P s.abort.bus := by
  rw [State.abort_bus]
  split
  · exact release_all hP h
  · exact hL _ (release_all hP h)

theorem perform_closed {checks : List (Bool × ErrorKind)} {low : List Byte → Byte}
    {body : State → Res State (List Byte)} {s t : State} {P : Bus → Prop} (hP : ∀ b c, P b → P (b.desel s.cfg c))
    (hL : ∀ b, P b → P b.loseBuffers) (hs : P s.bus) (hb : (body s).All fun u => P u.bus ∧ u.cfg = s.cfg) (h : perform checks low body s = .next t) :
    P t.bus ∧ t.cfg = s.cfg := by
  rcases perform_cases h with ⟨e, -, rfl⟩ | ⟨-, ⟨data, s', hr, rfl⟩ | ⟨e, c, s', hr, rfl⟩⟩
  · exact ⟨hs, rfl⟩
  · rw [hr] at hb; exact hb
  · rw [hr] at hb
    obtain ⟨h1, h2⟩ := hb
    exact ⟨abort_all (by rw [h2]; exact hP) hL h1, h2⟩

section Exec

variable {s : State} {P : Bus → Prop}

theorem busBody_all {f : Bus → Res Bus Unit} (h : (f s.bus).All P) :
    (busBody f s).All fun u => P u.bus ∧ u.cfg = s.cfg := by
  unfold busBody State.onBus
  cases hf : f s.bus with
  | ok a b => rw [hf] at h; exact ⟨h, rfl⟩
  | raise e c b => rw [hf] at h; exact ⟨h, rfl⟩

theorem onBus_all_cfg {α : Type} {f : Bus → Res Bus α} (h : (f s.bus).All P) :
    (s.onBus f).All fun u => P u.bus ∧ u.cfg = s.cfg := by
  unfold State.onBus
  cases hf : f s.bus with
  | ok a b => rw [hf] at h; exact ⟨h, rfl⟩
  | raise e c b => rw [hf] at h; exact ⟨h, rfl⟩

theorem engOpen_all {c : Nat} (h : Closed s.cfg c P) (hs : P s.bus) :
    (engOpen c s).All fun u => P u.bus ∧ u.cfg = s.cfg :=
  Res.Post.andThen (onBus_all_cfg (f := fun b => transferBlock s.cfg c (openFrame (s.handle c).par) (b.sel c))
    (Closed.transferBlock h.xfer _ (h.sel _ hs))) fun _ _ hu => hu

theorem engSend_all {c : Nat} (h : Closed s.cfg c P) (v : Byte) (hs : P s.bus) :
    (engSend c v s).All fun u => P u.bus ∧ u.cfg = s.cfg :=
  Res.Post.andThen (onBus_all_cfg (Closed.transferBlock h.xfer _ hs)) fun _ _ hu => hu

theorem engCommit_all {c : Nat} (h : Closed s.cfg c P) (hs : P s.bus) :
    (engCommit c s).All fun u => P u.bus ∧ u.cfg = s.cfg := by
  refine Res.Post.andThen (onBus_all_cfg (s := engCloseFull c s) (P := P) (h.pollReady (h.desel _ hs))) ?_
  rintro - u ⟨h1, h2⟩
  have h2 : u.cfg = s.cfg := h2
  refine Res.Post.andThen (Q := fun _ v => P v.bus ∧ v.cfg = s.cfg) ?_ fun _ v hv => ⟨hv.1, hv.2⟩
  have := onBus_all_cfg (s := u) (P := P)
    (f := fun b => issueBusy u.cfg c (commitFrame u.cfg (u.handle c).par (u.handle c).wpage)
      (b.noteCommit u.cfg c (u.handle c).wpage))
    (by simp only [h2]; exact h.issueBusy _ (h.noteCommit _ _ h1))
  rw [h2] at this
  simp only [h2]
  exact this

theorem engReadPage_all {c : Nat} (h : Closed s.cfg c P) (hs : P s.bus) :
    (engReadPage c s).All fun u => P u.bus ∧ u.cfg = s.cfg := by
  refine Res.Post.andThen (onBus_all_cfg (P := P) (h.issueBusy _ hs)) ?_
  rintro - u ⟨h1, h2⟩
  refine Res.Post.andThen (Q := fun _ v => P v.bus ∧ v.cfg = s.cfg) ?_ ?_
  · have := onBus_all_cfg (s := u) (P := P) (f := pollReady u.cfg c) (by rw [h2]; exact h.pollReady h1)
    rw [h2] at this
    rw [h2]; exact this
  rintro - v ⟨h3, h4⟩
  refine Res.Post.andThen (Q := fun _ v => P v.bus ∧ v.cfg = s.cfg) ?_ fun _ w hw => ⟨hw.1, hw.2⟩
  have := onBus_all_cfg (s := v) (P := P)
    (f := issue v.cfg c (readFrame (s.handle c).rpage) v.cfg.bufReadDummy v.cfg.pageSize)
    (by rw [h4]; exact h.issue _ _ _ h3)
  rw [h4] at this
  simp only [h4]; exact this

theorem forEachChip_bus (f : Nat → State → State) (hf : ∀ c u, (f c u).bus = u.bus ∧ (f c u).cfg = u.cfg) (k : Nat)
    (u : State) : (u.forEachChip f k).bus = u.bus ∧ (u.forEachChip f k).cfg = u.cfg := by
  induction k with
  | zero => exact ⟨rfl, rfl⟩
  | succ k ih => exact ⟨(hf _ _).1.trans ih.1, (hf _ _).2.trans ih.2⟩

variable {t : State} (hP : ∀ c, Closed s.cfg c P) (hs : P s.bus)
include hP hs

theorem perform_all {checks : List (Bool × ErrorKind)} {low : List Byte → Byte} {body : State → Res State (List Byte)}
    (hb : (body s).All fun u => P u.bus ∧ u.cfg = s.cfg) (h : perform checks low body s = .next t) :
    P t.bus ∧ t.cfg = s.cfg := perform_closed (fun b c => (hP c).desel b) (hP 0).loseBuffers hs hb h

omit hP in
theorem answerMalformed_closed (h : answerMalformed s = .next t) : P t.bus ∧ t.cfg = s.cfg := by
  obtain rfl := Host.Outcome.next.inj h
  exact ⟨hs, rfl⟩

theorem busyFrame_closed {e : Bool} {c : ChipField} {hdr : List Byte} (h : busyFrame e c hdr s = .next t) :
    P t.bus ∧ t.cfg = s.cfg := perform_all hP hs (busBody_all ((hP _).issueBusy _ hs)) h

theorem commitOp_closed {v : Bool} {c : ChipField} {op : Byte} {a : AddrField} (h : commitOp v c op a s = .next t) :
    P t.bus ∧ t.cfg = s.cfg :=
  perform_all hP hs (busBody_all
    (f := fun b => issueBusy s.cfg c.toNat (op :: addrBytes a) (b.noteCommit s.cfg c.toNat (decodePage s.cfg a)))
    ((hP _).issueBusy _ ((hP _).noteCommit _ _ hs))) h

theorem writeFrameOp_closed {c : ChipField} {op : Byte} {a : AddrField} {data : List Byte}
    (h : writeFrameOp c op a data s = .next t) : P t.bus ∧ t.cfg = s.cfg :=
  perform_all hP hs (busBody_all
    (f := fun b => (issue s.cfg c.toNat (op :: addrBytes a ++ data) 0 0 b).andThen fun _ b => .ok () b)
    (Closed.andThen ((hP _).issue _ _ _ hs) fun _ _ hb => hb)) h

theorem readFrameOp_closed {c : ChipField} {op : Byte} {a : AddrField} (h : readFrameOp c op a s = .next t) :
    P t.bus ∧ t.cfg = s.cfg := perform_all hP hs (onBus_all_cfg ((hP _).issue _ _ _ hs)) h

theorem statusBody_all (c : Nat) :
    ((s.onBus (statusRead s.cfg c)).andThen fun v s => Res.ok [v] s).All fun u => P u.bus ∧ u.cfg = s.cfg :=
  Res.Post.andThen (onBus_all_cfg (P := P) ((hP _).statusRead hs)) fun _ _ hu => ⟨hu.1, hu.2⟩

theorem execStartW_closed (h : execStartW s = .next t) : P t.bus ∧ t.cfg = s.cfg := by
  refine perform_all hP hs ?_ h
  obtain ⟨h1, h2⟩ := forEachChip_bus engStart (fun _ _ => ⟨rfl, rfl⟩) s.cfg.chips s
  refine Res.Post.andThen (Q := fun _ u => P u.bus ∧ u.cfg = s.cfg) ?_ fun _ _ hu => ⟨hu.1, hu.2⟩
  have := engOpen_all (s := s.forEachChip engStart s.cfg.chips) (c := s.curW) (P := P) (by rw [h2]; exact hP _)
    (by rw [h1]; exact hs)
  rwa [h2] at this

theorem execWriteByte_closed {v : Byte} (h : execWriteByte v s = .next t) : P t.bus ∧ t.cfg = s.cfg := by
  refine perform_all hP hs ?_ h
  refine Res.Post.andThen (engSend_all (hP _) v hs) ?_
  rintro - u ⟨h1, h2⟩
  show Res.All _ (if _ then _ else _)
  split
  · exact ⟨h1, h2⟩
  refine Res.Post.andThen (Q := fun _ u => P u.bus ∧ u.cfg = s.cfg) ?_ ?_
  · have := engCommit_all (s := u) (c := s.curW) (P := P) (by rw [h2]; exact hP _) h1
    rwa [h2] at this
  rintro - w ⟨h3, h4⟩
  refine Res.Post.andThen (Q := fun _ u => P u.bus ∧ u.cfg = s.cfg) ?_ fun _ _ hu => ⟨hu.1, hu.2⟩
  have := engOpen_all (s := { w with soff := 0, curW := nextChip w.cfg w.curW }) (c := nextChip w.cfg w.curW) (P := P)
    (by rw [h4]; exact hP _) h3
  rw [← h4]
  exact this

theorem execEndW_closed (h : execEndW s = .next t) : P t.bus ∧ t.cfg = s.cfg := by
  refine perform_all hP hs ?_ h
  refine Res.Post.andThen (onBus_all_cfg (s := { s with bus := s.bus.desel s.cfg s.curW }) (P := P)
    (Closed.pollFrom _ (fun d _ _ => hP d) ((hP _).desel _ hs))) ?_
  rintro - u ⟨h1, h2⟩
  obtain ⟨h3, h4⟩ := forEachChip_bus engEnd (fun _ _ => ⟨rfl, rfl⟩) u.cfg.chips u
  refine ⟨?_, ?_⟩
  · rw [h3]; exact h1
  · rw [h4]; exact h2

theorem execReadPage_closed (h : execReadPage s = .next t) : P t.bus ∧ t.cfg = s.cfg := by
  refine perform_all hP hs ?_ h
  exact Res.Post.andThen (engReadPage_all (hP _) hs) fun _ _ hu => ⟨hu.1, hu.2⟩

theorem execSeekW_closed {l : ArgField} (h : execSeekW l s = .next t) : P t.bus ∧ t.cfg = s.cfg := by
  refine perform_all hP hs ?_ h
  obtain ⟨h3, h4⟩ := forEachChip_bus (seekChipW l.toNat) (fun _ _ => ⟨rfl, rfl⟩) s.cfg.chips s
  refine ⟨?_, h4⟩
  show P (State.forEachChip _ _ _).bus
  rw [h3]; exact hs

theorem execSeekR_closed {l : ArgField} (h : execSeekR l s = .next t) : P t.bus ∧ t.cfg = s.cfg := by
  refine perform_all hP hs ?_ h
  obtain ⟨h3, h4⟩ := forEachChip_bus (seekChipR l.toNat) (fun _ _ => ⟨rfl, rfl⟩) s.cfg.chips s
  refine ⟨?_, h4⟩
  show P (State.forEachChip _ _ _).bus
  rw [h3]; exact hs

/-- A property of the bus that every bus event keeps is kept by every instruction, and so are the parameters (R12). -/
theorem exec_closed {i : Instr} (h : exec i s = .next t) : P t.bus ∧ t.cfg = s.cfg := by
  cases i with
  | startW => exact execStartW_closed hP hs h
  | writeByte v => exact execWriteByte_closed hP hs h
  | endW => exact execEndW_closed hP hs h
  | readPage => exact execReadPage_closed hP hs h
  | eraseRange n => exact perform_all hP hs (busBody_all (Closed.eraseFrom _ _ (fun d _ _ => hP _) hs)) h
  | seekW l => exact execSeekW_closed hP hs h
  | seekR l => exact execSeekR_closed hP hs h
  | readStatus c => exact perform_all hP hs (statusBody_all hP hs _) h
  | waitReady c => exact perform_all hP hs (busBody_all ((hP _).pollReady hs)) h
  | pageErase c p => exact perform_all hP hs (busBody_all ((hP _).eraseAndPoll _ hs)) h
  | sectorErase c p => exact perform_all hP hs (busBody_all ((hP _).eraseAndPoll _ hs)) h
  | chipErase c => exact perform_all hP hs (busBody_all ((hP _).eraseAndPoll _ hs)) h
  | reservedOp0 rest => exact answerMalformed_closed hs h
  | reservedOpD rest => exact answerMalformed_closed hs h
  | reservedOpE rest => exact answerMalformed_closed hs h
  | reservedOpF rest => exact answerMalformed_closed hs h
  | spiStatusRead c => exact perform_all hP hs (statusBody_all hP hs _) h
  | spiPageToBuf1 c a => exact busyFrame_closed hP hs h
  | spiPageToBuf2 c a => exact busyFrame_closed hP hs h
  | spiBuf1Read c a => exact readFrameOp_closed hP hs h
  | spiBuf2Read c a => exact readFrameOp_closed hP hs h
  | spiBuf1Write c a data => exact writeFrameOp_closed hP hs h
  | spiBuf2Write c a data => exact writeFrameOp_closed hP hs h
  | spiBuf1Commit c a => exact commitOp_closed hP hs h
  | spiBuf1CommitAlt c a => exact commitOp_closed hP hs h
  | spiBuf2Commit c a => exact commitOp_closed hP hs h
  | spiBuf2CommitAlt c a => exact commitOp_closed hP hs h
  | spiPageErase c a => exact busyFrame_closed hP hs h
  | spiSectorErase c a => exact busyFrame_closed hP hs h
  | spiChipErase c => exact busyFrame_closed hP hs h
  | spiIdRead c rest => cases h
  | spiSecurityRead c rest => cases h

end Exec

end Sys2Proof.Machine
end

