-- ==== Sys2Proof/Laws/Monitor.lean ====
section
/-! SUPPORT. The bus monitor over the traces the procedures leave: whole frames, frames cut short by a fault, polls. -/

namespace Sys2Proof.Machine

namespace Monitor

variable {cfg : Config} {c : Nat}

theorem run_append (m : Monitor) (es es' : List Event) :
    run cfg m (es ++ es') = (run cfg m es).bind fun m' => run cfg m' es' := by
  induction es generalizing m with
  | nil => rfl
  | cons e es ih =>
    simp only [List.cons_append, run]
    cases m.next cfg e with
    | none => rfl
    | some m' => exact ih m'

theorem run_trans {m m1 m2 : Monitor} {es es' : List Event} (h : run cfg m es = some m1) (h' : run cfg m1 es' = some m2) :
    run cfg m (es ++ es') = some m2 := by rw [run_append, h]; exact h'

/-- The address bytes are judged when they are all there. -/
theorem addressOk_of_append {l l' : List Byte} (h : addressOk cfg (l ++ l') = true) : addressOk cfg l = true :=
  match l, h with
  | [], _ | [_], _ | [_, _], _ | [_, _, _], _ => rfl
  | _ :: _ :: _ :: _ :: _, h => h

/-- A block of exchanges in an open frame. -/
theorem run_exchanges {sent os is : List Byte} {op : Byte} (hop : emittedOpcode cfg op = true)
    (hl : is.length = os.length) (hh : ∀ x ∈ (sent ++ os).head?, x = op) (ha : addressOk cfg (sent ++ os) = true) :
    run cfg (.inFrame c sent false) (exchanges os is) = some (.inFrame c (sent ++ os) false) := by
  induction os generalizing sent is with
  | nil =>
    obtain rfl : is = [] := List.length_eq_zero_iff.1 hl
    simp [run]
  | cons o os ih =>
    cases is with
    | nil => simp at hl
    | cons i is =>
      have hs : sent.headD o = op := by
        cases sent with
        | nil => simpa using hh
        | cons x xs => simpa using hh
      have := ih (sent := sent ++ [o]) (is := is) (by simpa using hl) (by simpa using hh) (by simpa using ha)
      have ho : addressOk cfg (sent ++ [o]) = true := addressOk_of_append (l' := os) (by simpa using ha)
      simp only [exchanges_cons, run, next, hs, hop, ho, Bool.and_self, if_true, Option.bind_some]
      simpa using this

/-- An exchange that faulted ends an open frame's exchanges. -/
theorem run_fault {sent done is : List Byte} {o op : Byte} (hop : emittedOpcode cfg op = true)
    (hl : is.length = done.length) (hh : ∀ x ∈ (sent ++ done ++ [o]).head?, x = op)
    (ha : addressOk cfg (sent ++ done ++ [o]) = true) :
    run cfg (.inFrame c sent false) (exchanges done is ++ [.x o .fault]) =
      some (.inFrame c (sent ++ done ++ [o]) true) := by
  have hh' : ∀ x ∈ (sent ++ done).head?, x = op := by
    intro x hx
    apply hh
    cases h : sent ++ done with
    | nil => rw [h] at hx; simp at hx
    | cons y ys => rw [h] at hx; simpa using hx
  rw [run_append, run_exchanges hop hl hh' (addressOk_of_append ha), Option.bind_some]
  have hs : (sent ++ done).headD o = op := by
    cases h : sent ++ done with
    | nil => rw [h] at hh; simpa using hh
    | cons y ys => rw [h] at hh; simpa using hh
  simp only [run, next, hs, hop, ha, Bool.and_self, if_true, Option.bind_some, decide_true]

theorem run_desel {sent : List Byte} {faulted : Bool}
    (h : faulted = true ∨ frameLengthOk cfg (sent.headD 0) sent.length = true) :
    run cfg (.inFrame c sent faulted) [.desel c] = some .free := by
  simp only [run, next, true_and, if_pos h, Option.bind_some]

/-- A whole frame of the table. -/
theorem run_frame {op : Byte} {os is : List Byte} (hop : emittedOpcode cfg op = true)
    (hf : frameLengthOk cfg op (os.length + 1) = true) (ha : addressOk cfg (op :: os) = true) (hl : is.length = os.length + 1) :
    run cfg .free (frameTrace c (op :: os) is) = some .free := by
  have h1 : run cfg .free [.sel c] = some (.inFrame c [] false) := rfl
  have h2 := run_exchanges (c := c) (sent := []) (os := op :: os) (is := is) hop (by simpa using hl) (by simp) (by simpa using ha)
  have h3 := run_desel (cfg := cfg) (c := c) (sent := op :: os) (faulted := false) (.inr (by simpa using hf))
  have := run_trans (run_trans h1 h2) h3
  simpa [frameTrace] using this

/-- A frame cut short by a fault, the select still asserted. -/
theorem run_cut {op : Byte} {os done later is : List Byte} {o : Byte} (hop : emittedOpcode cfg op = true)
    (he : op :: os = done ++ o :: later) (ha : addressOk cfg (op :: os) = true) (hl : is.length = done.length) :
    run cfg .free (.sel c :: exchanges done is ++ [.x o .fault]) = some (.inFrame c (done ++ [o]) true) := by
  have h1 : run cfg .free [.sel c] = some (.inFrame c [] false) := rfl
  have h2 := run_fault (c := c) (sent := []) (done := done) (is := is) (o := o) hop hl (by
    intro x hx
    cases done with
    | nil => simp at he hx; rw [← hx, he.1]
    | cons y ys => simp at he hx; rw [← hx, he.1]) (addressOk_of_append (l' := later) (by simpa [he] using ha))
  have := run_trans h1 h2
  simpa using this

theorem emitted_status : emittedOpcode cfg opcStatusRead = true := by simp [emittedOpcode]

theorem run_poll (ps : List (Byte × Byte)) : run cfg .free (pollTrace c ps) = some .free := by
  induction ps with
  | nil => rfl
  | cons p ps ih =>
    exact run_trans (run_frame (is := [p.1, p.2]) emitted_status (by simp [frameLengthOk]) rfl rfl) ih

end Monitor

end Sys2Proof.Machine
end

