-- ==== Sys2Proof/Laws/Outcome.lean ====
section
/-! SUPPORT. Everything an instruction can do to the registers: how many bus events it takes, which errors it can end in,
and the state it leaves, said once. -/

namespace Sys2Proof.Machine

/-! Bus procedures: how they end, and what they leave on the bus. -/

/-- A frame of the table (R107 to R110). -/
def LegalFrame (cfg : Config) (hdr : List Byte) (nd nr : Nat) : Prop :=
  ∃ op os, hdr = op :: os ∧ emittedOpcode cfg op = true ∧ frameLengthOk cfg op (hdr.length + nd + nr) = true ∧
    addressOk cfg (frameOuts hdr nd nr) = true

/-- `b'` is `b` after at most `n` events, over which the monitor goes from `m` to `m'`. -/
def Traced (cfg : Config) (n : Nat) (m m' : Monitor) (b b' : Bus) : Prop :=
  ∃ es, b'.trace = b.trace ++ es ∧ es.length ≤ n ∧ Monitor.run cfg m es = some m'

namespace Traced

variable {cfg : Config} {n k : Nat} {m m' m'' : Monitor} {b b' b'' : Bus}

theorem refl (h : b'.trace = b.trace) : Traced cfg 0 m m b b' := ⟨[], by simpa using h, le_refl _, rfl⟩

theorem trans (h : Traced cfg n m m' b b') (h' : Traced cfg k m' m'' b' b'') : Traced cfg (n + k) m m'' b b'' := by
  obtain ⟨es, h1, h2, h3⟩ := h
  obtain ⟨es', h4, h5, h6⟩ := h'
  exact ⟨es ++ es', by rw [h4, h1, List.append_assoc], by simp; omega, Monitor.run_trans h3 h6⟩

theorem mono (h : Traced cfg n m m' b b') (hn : n ≤ k) : Traced cfg k m m' b b' := by
  obtain ⟨es, h1, h2, h3⟩ := h
  exact ⟨es, h1, by omega, h3⟩

theorem of_trace (h : Traced cfg n m m' b b') (hb : b''.trace = b.trace) : Traced cfg n m m' b'' b' := by
  obtain ⟨es, h1, h2, h3⟩ := h
  exact ⟨es, by rw [h1, hb], h2, h3⟩

theorem congr (h : Traced cfg n m m' b b') (hb : b''.trace = b'.trace) : Traced cfg n m m' b b'' := by
  obtain ⟨es, h1, h2, h3⟩ := h
  exact ⟨es, hb.trans h1, h2, h3⟩

/-- The `Desel` that ends a frame, or that an abort adds. -/
theorem desel {c : Nat} {sent : List Byte} {f : Bool} (h : Traced cfg n m (.inFrame c sent f) b b')
    (hf : f = true ∨ frameLengthOk cfg (sent.headD 0) sent.length = true) :
    Traced cfg (n + 1) m .free b (b'.desel cfg c) :=
  h.trans ⟨[.desel c], rfl, le_refl _, Monitor.run_desel hf⟩

end Traced

/-- A procedure on chips of the set `C` that starts with `b` and no select asserted: at most `n` bus events; a normal end
with no select asserted; a bus fault with the select of its chip asserted; if `wait`, a timeout with none. -/
def Ends {α : Type} (cfg : Config) (C : Nat → Prop) (n : Nat) (wait : Bool) (b : Bus) (r : Res Bus α) : Prop :=
  r.Post (fun _ b' => b'.cs = none ∧ Traced cfg n .free .free b b')
    (fun e d b' => C d ∧
      (e = .busFault ∧ cfg.hasBusFault = true ∧ b'.cs = some d ∧
          (∃ sent, Traced cfg n .free (.inFrame d sent true) b b') ∨
        wait = true ∧ e = .deviceTimeout ∧ b'.cs = none ∧ Traced cfg n .free .free b b'))

namespace Ends

variable {cfg : Config} {c n m : Nat} {C D : Nat → Prop} {w v : Bool} {α β : Type} {b : Bus}

theorem mono {r : Res Bus α} (h : Ends cfg C n w b r) (hn : n ≤ m) (hw : w = true → v = true)
    (hC : ∀ d, C d → D d) : Ends cfg D m v b r := by
  refine Res.Post.mono h (fun _ b' h => ⟨h.1, h.2.mono hn⟩) ?_
  rintro e d b' ⟨h1, ⟨h2, h3, h4, sent, h5⟩ | ⟨h2, h3, h4, h5⟩⟩
  · exact ⟨hC d h1, .inl ⟨h2, h3, h4, sent, h5.mono hn⟩⟩
  · exact ⟨hC d h1, .inr ⟨hw h2, h3, h4, h5.mono hn⟩⟩

theorem andThen {r : Res Bus α} {f : α → Bus → Res Bus β} (h : Ends cfg C n w b r)
    (hf : ∀ a b', r = .ok a b' → b'.cs = none → Ends cfg C m w b' (f a b')) :
    Ends cfg C (n + m) w b (r.andThen f) := by
  cases r with
  | raise e d b' => exact Ends.mono (r := (.raise e d b' : Res Bus β)) h (by omega) (fun h => h) fun _ h => h
  | ok a b' =>
    obtain ⟨h1, h2⟩ := h
    refine Res.Post.mono (hf a b' rfl h1) (fun _ b'' h => ⟨h.1, h2.trans h.2⟩) ?_
    rintro e d b'' ⟨g1, ⟨g2, g3, g4, sent, g5⟩ | ⟨g2, g3, g4, g5⟩⟩
    · exact ⟨g1, .inl ⟨g2, g3, g4, sent, h2.trans g5⟩⟩
    · exact ⟨g1, .inr ⟨g2, g3, g4, h2.trans g5⟩⟩

theorem ok {a : α} (h : b.cs = none) : Ends cfg C 0 w b (.ok a b) := ⟨h, .refl rfl⟩

theorem of_trace {r : Res Bus α} {b' : Bus} (h : Ends cfg C n w b r) (ht : b'.trace = b.trace) :
    Ends cfg C n w b' r := by
  refine Res.Post.mono h (fun _ b'' h => ⟨h.1, h.2.of_trace ht⟩) ?_
  rintro e d b'' ⟨g1, ⟨g2, g3, g4, sent, g5⟩ | ⟨g2, g3, g4, g5⟩⟩
  · exact ⟨g1, .inl ⟨g2, g3, g4, sent, g5.of_trace ht⟩⟩
  · exact ⟨g1, .inr ⟨g2, g3, g4, g5.of_trace ht⟩⟩

theorem issue (c : Nat) {hdr : List Byte} {nd nr : Nat} (hl : LegalFrame cfg hdr nd nr) (b : Bus) :
    Ends cfg (· = c) (hdr.length + nd + nr + 2) false b (issue cfg c hdr nd nr b) := by
  obtain ⟨op, os, rfl, hop, hlen, ha⟩ := hl
  have hfo : frameOuts (op :: os) nd nr = op :: (os ++ dummies nd ++ dummies nr) := by simp [frameOuts]
  rw [hfo] at ha
  refine (issue_post (cfg := cfg) (c := c) (op :: os) nd nr b).mono ?_ ?_
  · rintro resp b' ⟨is, h1, -, h3, h4, -⟩
    rw [hfo] at h3
    refine ⟨h4, _, h3, ?_, Monitor.run_frame hop ?_ ha ?_⟩
    · simp [frameTrace, exchanges, h1]
    · simpa [Nat.add_assoc, Nat.add_comm, Nat.add_left_comm] using hlen
    · simp only [h1, List.length_append, List.length_cons, dummies_length]; omega
  · rintro e d b' ⟨rfl, rfl, h3, h4, -, -, done, o, later, is, h7, h8, h9, -⟩
    have hl := congrArg List.length h7
    simp only [frameOuts_length, List.length_append, List.length_cons] at hl
    rw [hfo] at h7
    refine ⟨rfl, .inl ⟨rfl, h3, h4, _, _, by rw [h9, List.append_assoc], ?_, Monitor.run_cut hop h7 ha h8⟩⟩
    simp only [exchanges, h8, List.length_append, List.length_cons, List.length_zipWith, List.length_nil]
    omega

theorem issue_length {hdr resp : List Byte} {nd nr : Nat} {b' : Bus} (h : Machine.issue cfg c hdr nd nr b = .ok resp b') :
    resp.length = nr := by
  obtain ⟨is, h1, h2, -⟩ := (issue_post (cfg := cfg) (c := c) hdr nd nr b).of_eq_ok h
  simp [h2, h1]

theorem statusRead (cfg : Config) (c : Nat) (b : Bus) : Ends cfg (· = c) 4 false b (statusRead cfg c b) := by
  have hl : LegalFrame cfg [opcStatusRead] 0 1 := ⟨_, _, rfl, Monitor.emitted_status, by simp [frameLengthOk], rfl⟩
  refine (Ends.issue c hl b).andThen (m := 0) ?_
  intro resp b' _ hb'
  show Ends _ _ _ _ _ (Res.ok _ _)
  split
  · exact ⟨hb', .refl rfl⟩
  · exact ⟨hb', .refl rfl⟩

theorem pollReady (c : Nat) (hl : 1 ≤ cfg.pollLimit) (b : Bus) :
    Ends cfg (· = c) (pollEvents cfg) true b (pollReady cfg c b) := by
  have hlen : ∀ ps : List (Byte × Byte), (pollTrace c ps).length = 4 * ps.length := by
    intro ps
    induction ps with
    | nil => rfl
    | cons p ps ih =>
      show (statusTrace c p ++ pollTrace c ps).length = _
      rw [List.length_append, ih]
      simp [statusTrace, frameTrace]
      omega
  refine (pollLoop_post (cfg := cfg) (c := c) cfg.pollLimit b).mono ?_ ?_
  · rintro - b' ⟨ps, h1, h2, h3, -⟩
    refine ⟨h3, _, h2, ?_, Monitor.run_poll ps⟩
    rw [hlen, pollEvents]
    have := h1.1
    omega
  · rintro e d b' ⟨rfl, -, -, ⟨rfl, h2, ps, h3, h4, -⟩ | ⟨rfl, h2, h3, ps, done, o, later, is, h4, h5, h6, h7, -⟩⟩
    · refine ⟨rfl, .inr ⟨rfl, rfl, ?_, _, h4, ?_, Monitor.run_poll ps⟩⟩
      · rcases h2 with h2 | ⟨h2, -⟩
        · exact h2
        · omega
      · rw [hlen, pollEvents, h3.1]
    · refine ⟨rfl, .inl ⟨rfl, h2, h3, _, pollTrace d ps ++ (.sel d :: exchanges done is ++ [.x o .fault]), ?_, ?_,
        Monitor.run_trans (Monitor.run_poll ps) (Monitor.run_cut Monitor.emitted_status h5 rfl h6)⟩⟩
      · rw [h7]; simp
      · have hl := congrArg List.length h5
        simp only [List.length_append, List.length_cons, List.length_nil] at hl
        simp [hlen, exchanges, h6, pollEvents]
        omega

theorem issueBusy (c : Nat) {hdr : List Byte} (hl : LegalFrame cfg hdr 0 0) (b : Bus) :
    Ends cfg (· = c) (hdr.length + 2) false b (issueBusy cfg c hdr b) :=
  ((Ends.issue c hl (b.noteBusyFrame c)).of_trace rfl).andThen (m := 0) fun _ _ _ h => .ok h

theorem eraseAndPoll (hp : 1 ≤ cfg.pollLimit) (c : Nat) {hdr : List Byte} (hl : LegalFrame cfg hdr 0 0) (b : Bus) :
    Ends cfg (· = c) (hdr.length + 2 + pollEvents cfg) true b (eraseAndPoll cfg c hdr b) :=
  ((Ends.issueBusy c hl b).mono (le_refl _) (fun _ => rfl) fun _ h => h).andThen fun _ b' _ _ =>
    Ends.pollReady c hp b'

theorem pollFrom (hl : 1 ≤ cfg.pollLimit) (k c : Nat) {b : Bus} (hb : b.cs = none) :
    Ends cfg (fun d => c ≤ d ∧ d < c + k) (k * pollEvents cfg) true b (pollFrom cfg k c b) := by
  induction k generalizing c b with
  | zero => exact (Ends.ok hb).mono (by omega) (fun h => h) fun _ h => h
  | succ k ih =>
    refine Ends.mono (Ends.andThen (m := k * pollEvents cfg) ((Ends.pollReady c hl b).mono (le_refl _) (fun h => h)
      (D := fun d => c ≤ d ∧ d < c + (k + 1)) fun d hd => by omega) ?_) (by rw [Nat.succ_mul]; omega) (fun h => h)
      fun _ h => h
    intro a b' _ hb'
    exact (ih (c + 1) hb').mono (le_refl _) (fun h => h) fun d hd => by omega

/-- A frame of format `SA`, `SW` or `SR` whose opcode the table lists. -/
theorem legal_addressed {op b0 b1 b2 : Byte} {data : List Byte} {nd nr : Nat} (hop : emittedOpcode cfg op = true)
    (hlen : frameLengthOk cfg op (4 + data.length + nd + nr) = true) (ha : addressOk cfg [op, b0, b1, b2] = true) :
    LegalFrame cfg (op :: b0 :: b1 :: b2 :: data) nd nr :=
  ⟨op, _, rfl, hop, by
    rwa [show (op :: b0 :: b1 :: b2 :: data).length = 4 + data.length by simp only [List.length_cons]; omega], ha⟩

/-- R108: the address of a frame of format `SA`. -/
theorem addressOk_page {op : Byte} {a : AddrField} (ha : isPageField cfg a = true)
    (h : op ∉ [0xC7, opcBuf1Write, opcBuf2Write, opcBuf1Read, opcBuf2Read]) : addressOk cfg (op :: addrBytes a) = true := by
  rw [List.mem_cons, not_or] at h
  simp only [addrBytes, addressOk, if_neg h.1, if_neg h.2, addrOf_bytes, ha]

/-- R109: the address of a frame of format `SW` or `SR`. -/
theorem addressOk_buffer {op : Byte} {a : AddrField} (ha : isBufferField a = true)
    (h : op ∈ [opcBuf1Write, opcBuf2Write, opcBuf1Read, opcBuf2Read]) : addressOk cfg (op :: addrBytes a) = true := by
  have h0 : op ≠ 0xC7 := by rintro rfl; revert h; decide
  simp only [addrBytes, addressOk, if_neg h0, if_pos h, addrOf_bytes, ha]

theorem frameLengthOk_four {op : Byte}
    (h : op ∉ [opcStatusRead, opcBuf1Write, opcBuf2Write, opcBuf1Read, opcBuf2Read]) :
    frameLengthOk cfg op 4 = true := by
  simp only [List.mem_cons, List.not_mem_nil, or_false, not_or] at h
  simp [frameLengthOk, h]

theorem legal_pageErase (hv : cfg.valid = true) {p : Nat} (hp : p < cfg.numPages) : LegalFrame cfg (pageEraseFrame cfg p) 0 0 :=
  legal_addressed (by simp [emittedOpcode]) (frameLengthOk_four (by decide))
    (addressOk_page (isPageField_encode hv hp) (by decide))

theorem legal_sectorErase (hv : cfg.valid = true) {p : Nat} (hp : p < cfg.numPages) :
    LegalFrame cfg (sectorEraseFrame cfg p) 0 0 :=
  legal_addressed (by simp [emittedOpcode]) (frameLengthOk_four (by decide))
    (addressOk_page (isPageField_encode hv hp) (by decide))

theorem legal_chipErase : LegalFrame cfg chipEraseFrame 0 0 :=
  legal_addressed (by simp [emittedOpcode]) (frameLengthOk_four (by decide)) rfl

theorem eraseFrom (hv : cfg.valid = true) (hl : 1 ≤ cfg.pollLimit) (hc : 0 < cfg.chips) (k l : Nat)
    (hk : l + k ≤ cfg.totalPages) {b : Bus} (hb : b.cs = none) :
    Ends cfg (· < cfg.chips) (k * (6 + pollEvents cfg)) true b (eraseFrom cfg k l b) := by
  induction k generalizing l b with
  | zero => exact (Ends.ok hb).mono (by omega) (fun h => h) fun _ h => h
  | succ k ih =>
    refine Ends.mono (Ends.andThen (m := k * (6 + pollEvents cfg)) ((Ends.eraseAndPoll hl (pageChip cfg l)
      (legal_pageErase hv (p := pageIndex cfg l) (Nat.div_lt_of_lt_mul (by unfold Config.totalPages at hk; omega))) b).mono (le_refl _) (fun h => h) (D := (· < cfg.chips)) ?_) ?_)
      (by rw [Nat.succ_mul, pageEraseFrame_length]; omega) (fun h => h) fun _ h => h
    · rintro d rfl
      exact Nat.mod_lt _ hc
    · intro a b' _ hb'
      exact ih (l + 1) (by omega) hb'

end Ends

/-! The operations that are bus procedures: their body as one procedure on the bus. -/

/-- A bus procedure that returns no data. -/
def noData (f : Bus → Res Bus Unit) (b : Bus) : Res Bus (List Byte) := (f b).andThen fun _ b => .ok [] b

theorem busBody_eq (f : Bus → Res Bus Unit) (s : State) : busBody f s = s.onBus (noData f) := by
  unfold busBody State.onBus noData
  cases f s.bus <;> rfl

/-- `statusRead` returning its byte as data. -/
def statusData (cfg : Config) (c : Nat) (b : Bus) : Res Bus (List Byte) :=
  (statusRead cfg c b).andThen fun v b => .ok [v] b

theorem statusBody_eq (c : Nat) (s : State) :
    ((s.onBus (statusRead s.cfg c)).andThen fun v s => Res.ok [v] s) = s.onBus (statusData s.cfg c) := by
  unfold State.onBus statusData
  cases statusRead s.cfg c s.bus <;> rfl

theorem perform_congr {checks : List (Bool × ErrorKind)} {low : List Byte → Byte} {body body' : State → Res State (List Byte)}
    {s : State} (h : body s = body' s) : perform checks low body s = perform checks low body' s := by
  simp only [perform, operate, h]

/-- The bus procedure of a transport call, an `ERASE_RANGE` or a single frame. -/
def transportProc (s : State) : Instr → Bus → Res Bus (List Byte)
  | .eraseRange n => noData (eraseFrom s.cfg n.toNat 0)
  | .readStatus c => statusData s.cfg c.toNat
  | .waitReady c => noData (pollReady s.cfg c.toNat)
  | .pageErase c p => noData (eraseAndPoll s.cfg c.toNat (pageEraseFrame s.cfg p.toNat))
  | .sectorErase c p => noData (eraseAndPoll s.cfg c.toNat (sectorEraseFrame s.cfg p.toNat))
  | .chipErase c => noData (eraseAndPoll s.cfg c.toNat chipEraseFrame)
  | .spiStatusRead c => statusData s.cfg c.toNat
  | .spiPageToBuf1 c a => noData (issueBusy s.cfg c.toNat (opcPageToBuf1 :: addrBytes a))
  | .spiPageToBuf2 c a => noData (issueBusy s.cfg c.toNat (opcPageToBuf2 :: addrBytes a))
  | .spiBuf1Read c a => issue s.cfg c.toNat (opcBuf1Read :: addrBytes a) s.cfg.bufReadDummy s.cfg.pageSize
  | .spiBuf2Read c a => issue s.cfg c.toNat (opcBuf2Read :: addrBytes a) s.cfg.bufReadDummy s.cfg.pageSize
  | .spiBuf1Write c a data =>
    noData fun b => (issue s.cfg c.toNat (opcBuf1Write :: addrBytes a ++ data) 0 0 b).andThen fun _ b => .ok () b
  | .spiBuf2Write c a data =>
    noData fun b => (issue s.cfg c.toNat (opcBuf2Write :: addrBytes a ++ data) 0 0 b).andThen fun _ b => .ok () b
  | .spiBuf1Commit c a => noData fun b =>
    issueBusy s.cfg c.toNat (opcBuf1Commit :: addrBytes a) (b.noteCommit s.cfg c.toNat (decodePage s.cfg a))
  | .spiBuf1CommitAlt c a => noData fun b =>
    issueBusy s.cfg c.toNat (opcBuf1CommitAlt :: addrBytes a) (b.noteCommit s.cfg c.toNat (decodePage s.cfg a))
  | .spiBuf2Commit c a => noData fun b =>
    issueBusy s.cfg c.toNat (opcBuf2Commit :: addrBytes a) (b.noteCommit s.cfg c.toNat (decodePage s.cfg a))
  | .spiBuf2CommitAlt c a => noData fun b =>
    issueBusy s.cfg c.toNat (opcBuf2CommitAlt :: addrBytes a) (b.noteCommit s.cfg c.toNat (decodePage s.cfg a))
  | .spiPageErase c a => noData (issueBusy s.cfg c.toNat (opcPageErase :: addrBytes a))
  | .spiSectorErase c a => noData (issueBusy s.cfg c.toNat (opcSectorErase :: addrBytes a))
  | .spiChipErase c => noData (issueBusy s.cfg c.toNat chipEraseFrame)
  | _ => fun b => .ok [] b

/-- The checks of those operations. -/
def transportGuard (s : State) : Instr → List (Bool × ErrorKind)
  | .eraseRange n => countChecks n s
  | .readStatus c => transportChecks c s
  | .waitReady c => transportChecks c s
  | .pageErase c p => pageChecks c p s
  | .sectorErase c p => pageChecks c p s
  | .chipErase c => transportChecks c s
  | .spiStatusRead c => frameChecks true c s
  | .spiPageToBuf1 c a => frameChecks (isPageField s.cfg a) c s
  | .spiPageToBuf2 c a => frameChecks (isPageField s.cfg a) c s
  | .spiBuf1Read c a => frameChecks (isBufferField a) c s
  | .spiBuf2Read c a => frameChecks (isBufferField a) c s
  | .spiBuf1Write c a data => frameChecks (decide (data.length ≤ s.cfg.pageSize) && isBufferField a) c s
  | .spiBuf2Write c a data => frameChecks (decide (data.length ≤ s.cfg.pageSize) && isBufferField a) c s
  | .spiBuf1Commit c a => frameChecks (s.cfg.commitVariant == false && isPageField s.cfg a) c s
  | .spiBuf1CommitAlt c a => frameChecks (s.cfg.commitVariant == true && isPageField s.cfg a) c s
  | .spiBuf2Commit c a => frameChecks (s.cfg.commitVariant == false && isPageField s.cfg a) c s
  | .spiBuf2CommitAlt c a => frameChecks (s.cfg.commitVariant == true && isPageField s.cfg a) c s
  | .spiPageErase c a => frameChecks (isPageField s.cfg a) c s
  | .spiSectorErase c a => frameChecks (isPageField s.cfg a) c s
  | .spiChipErase c => frameChecks true c s
  | _ => [(false, .sequenceMisuse)]

/-- The low byte of the word of those operations. -/
def transportLow : Instr → List Byte → Byte
  | .readStatus _ => lowStatus
  | _ => lowZero

/-- A transport call, an `ERASE_RANGE`, a single frame or a reserved code is its checks and one bus procedure. -/
theorem exec_transport {i : Instr} {s : State} (hk : keepsRegisters i = true)
    (hne : ∀ c rest, i ≠ .spiIdRead c rest ∧ i ≠ .spiSecurityRead c rest) :
    exec i s = perform (transportGuard s i) (transportLow i) (State.onBus (transportProc s i)) s := by
  cases i with
  | startW => cases hk
  | writeByte v => cases hk
  | endW => cases hk
  | readPage => cases hk
  | seekW l => cases hk
  | seekR l => cases hk
  | eraseRange n => exact perform_congr (busBody_eq _ _)
  | readStatus c => exact perform_congr (statusBody_eq _ _)
  | waitReady c => exact perform_congr (busBody_eq _ _)
  | pageErase c p => exact perform_congr (busBody_eq _ _)
  | sectorErase c p => exact perform_congr (busBody_eq _ _)
  | chipErase c => exact perform_congr (busBody_eq _ _)
  | reservedOp0 rest => rfl
  | reservedOpD rest => rfl
  | reservedOpE rest => rfl
  | reservedOpF rest => rfl
  | spiStatusRead c => exact perform_congr (statusBody_eq _ _)
  | spiPageToBuf1 c a => exact perform_congr (busBody_eq _ _)
  | spiPageToBuf2 c a => exact perform_congr (busBody_eq _ _)
  | spiBuf1Read c a => rfl
  | spiBuf2Read c a => rfl
  | spiBuf1Write c a data => exact perform_congr (busBody_eq _ _)
  | spiBuf2Write c a data => exact perform_congr (busBody_eq _ _)
  | spiBuf1Commit c a => exact perform_congr (busBody_eq _ _)
  | spiBuf1CommitAlt c a => exact perform_congr (busBody_eq _ _)
  | spiBuf2Commit c a => exact perform_congr (busBody_eq _ _)
  | spiBuf2CommitAlt c a => exact perform_congr (busBody_eq _ _)
  | spiPageErase c a => exact perform_congr (busBody_eq _ _)
  | spiSectorErase c a => exact perform_congr (busBody_eq _ _)
  | spiChipErase c => exact perform_congr (busBody_eq _ _)
  | spiIdRead c rest => exact absurd rfl (hne c rest).1
  | spiSecurityRead c rest => exact absurd rfl (hne c rest).2

end Sys2Proof.Machine
end

