-- ==== Sys2Proof/Laws/Alike.lean ====
section
/-! SUPPORT. Two runs whose incoming bytes agree in bit 7 (R37, U3): what each procedure does to both, in step. -/

namespace Sys2Proof.Machine

/-- Two procedures that end in the same way, with related values in related states. -/
def Res.Rel {σ α : Type} (A : α → α → Prop) (R : σ → σ → Prop) : Res σ α → Res σ α → Prop
  | .ok a s, .ok a' s' => A a a' ∧ R s s'
  | .raise e c s, .raise e' c' s' => e' = e ∧ c' = c ∧ R s s'
  | _, _ => False

theorem Res.Rel.andThen {σ α β : Type} {A : α → α → Prop} {B : β → β → Prop} {R : σ → σ → Prop} {r r' : Res σ α}
    {f f' : α → σ → Res σ β} (h : Res.Rel A R r r') (hf : ∀ a a' s s', A a a' → R s s' → Res.Rel B R (f a s) (f' a' s')) :
    Res.Rel B R (r.andThen f) (r'.andThen f') := by
  cases r <;> cases r' <;> first | exact h.elim | exact hf _ _ _ _ h.1 h.2 | exact h

/-- Two bytes with the same bit 7. -/
def SameReady (v v' : Byte) : Prop := ready v' = ready v

/-- Byte lists of one length, byte for byte with the same bit 7. -/
abbrev SameReadys : List Byte → List Byte → Prop := List.Forall₂ SameReady

/-- Any two values of the one-element type. -/
abbrev AnyUnit (_ _ : Unit) : Prop := True

theorem AnswersAlike.fault_iff {a a' : Answer} (h : AnswersAlike a a') :
    (a = .fault ∧ a' = .fault) ∨ ∃ v v', a = .byte v ∧ a' = .byte v' ∧ SameReady v v' := by
  cases a with
  | byte v =>
    cases a' with
    | byte v' => exact .inr ⟨v, v', rfl, rfl, Eq.symm h⟩
    | fault => exact h.elim
  | fault =>
    cases a' with
    | byte v' => exact h.elim
    | fault => exact .inl ⟨rfl, rfl⟩

namespace Bus.Alike

variable {cfg : Config} {c : Nat} {b b' : Bus}

theorem sel (h : b.Alike b') (c : Nat) : (b.sel c).Alike (b'.sel c) where
  cs := rfl
  tick := by simp [h.tick]
  chips := by simp [h.tick, h.chips]
  hazard := h.hazard
  answers := h.answers
  trace := by simp [h.trace]

theorem desel (h : b.Alike b') (cfg : Config) (c : Nat) : (b.desel cfg c).Alike (b'.desel cfg c) where
  cs := rfl
  tick := by simp [h.tick]
  chips := by simp [h.tick, h.chips]
  hazard := h.hazard
  answers := h.answers
  trace := by simp [h.trace]

theorem noteReady (h : b.Alike b') (c : Nat) : (b.noteReady c).Alike (b'.noteReady c) where
  cs := h.cs
  tick := h.tick
  chips := by simp [Bus.noteReady, h.chips]
  hazard := h.hazard
  answers := h.answers
  trace := h.trace

theorem noteBusyFrame (h : b.Alike b') (c : Nat) : (b.noteBusyFrame c).Alike (b'.noteBusyFrame c) where
  cs := h.cs
  tick := h.tick
  chips := by simp [Bus.noteBusyFrame, h.chips]
  hazard := by simp [Bus.noteBusyFrame, h.hazard, Bus.chip, h.chips]
  answers := h.answers
  trace := h.trace

theorem noteCommit (h : b.Alike b') (cfg : Config) (c p : Nat) : (b.noteCommit cfg c p).Alike (b'.noteCommit cfg c p) where
  cs := h.cs
  tick := h.tick
  chips := h.chips
  hazard := by simp [Bus.noteCommit, h.hazard, Bus.chip, h.chips]
  answers := h.answers
  trace := h.trace

theorem settle (h : b.Alike b') : b.settle.Alike b'.settle where
  cs := h.cs
  tick := h.tick
  chips := by simp [h.tick, h.chips]
  hazard := h.hazard
  answers := h.answers
  trace := h.trace

theorem chipAnswer (h : b.Alike b') : b'.chipAnswer cfg = b.chipAnswer cfg := by
  simp only [Bus.chipAnswer, h.cs, h.tick, h.chips]

theorem answer (h : b.Alike b') : AnswersAlike (b.answer cfg) (b'.answer cfg) := by
  have ha := h.answers
  have refl : ∀ x, AnswersAlike x x := fun x => by
    cases x
    · exact rfl
    · exact trivial
  simp only [Bus.answer, h.chipAnswer, h.tick]
  generalize b.answers = as at ha
  generalize b'.answers = as' at ha
  cases as with
  | nil =>
    cases as' with
    | nil => exact refl _
    | cons y ys => exact ha.elim
  | cons x xs =>
    cases as' with
    | nil => exact ha.elim
    | cons y ys =>
      rcases AnswersAlike.fault_iff ha.1 with ⟨rfl, rfl⟩ | ⟨v, v', rfl, rfl, hr⟩
      · exact refl _
      · exact hr.symm

theorem tail (h : b.Alike b') : AllAlike b.answers.tail b'.answers.tail := by
  have := h.answers
  generalize b.answers = as at this
  generalize b'.answers = as' at this
  cases as with
  | nil =>
    cases as' with
    | nil => exact trivial
    | cons y ys => exact this.elim
  | cons x xs =>
    cases as' with
    | nil => exact this.elim
    | cons y ys => exact this.2

/-- R14, R37: one exchange in both runs, the answers given. -/
theorem exchange (h : b.Alike b') (cfg : Config) (o : Byte) {a a' : Answer} (ha : AnswersAlike a a') :
    (b.exchange cfg o a).Alike (b'.exchange cfg o a') := by
  refine ⟨by simp [h.cs], by simp [h.tick], ?_, by simp [h.hazard], by simpa using h.tail, ?_⟩
  · rcases AnswersAlike.fault_iff ha with ⟨rfl, rfl⟩ | ⟨v, v', rfl, rfl, -⟩ <;>
      simp only [Bus.exchange, emit_chips, deliver, settle_cs, h.cs]
    · simp [h.tick, h.chips]
    · cases b.cs <;> simp [h.tick, h.chips]
  · simp only [Bus.exchange_trace, List.map_append, h.trace, List.map_cons, List.map_nil]
    rcases AnswersAlike.fault_iff ha with ⟨rfl, rfl⟩ | ⟨v, v', rfl, rfl, hr⟩
    · rfl
    · simp only [observed, show ready v' = ready v from hr]

/-- R14, R37: one exchange in both runs. -/
theorem xfer (h : b.Alike b') (cfg : Config) (o : Byte) :
    AnswersAlike (b.xfer cfg o).1 (b'.xfer cfg o).1 ∧ (b.xfer cfg o).2.Alike (b'.xfer cfg o).2 := by
  have ha : AnswersAlike (b.xfer cfg o).1 (b'.xfer cfg o).1 := h.settle.answer
  exact ⟨ha, h.exchange cfg o ha⟩

theorem loseBuffers (h : b.Alike b') : b.loseBuffers.Alike b'.loseBuffers where
  cs := h.cs
  tick := h.tick
  chips := by simp [h.tick, h.chips]
  hazard := h.hazard
  answers := h.answers
  trace := h.trace

/-- R73: whether a trace ends with a ready status does not depend on bits 6 to 0. -/
theorem showsReady_observed (l : List Event) : showsReady (l.map observed) = showsReady l := by
  have h1 : ∀ e, (observed e).bringsReady = e.bringsReady
    | .sel _ | .desel _ | .x _ .fault => rfl
    | .x _ (.byte v) => by
      simp only [observed, Event.bringsReady]
      cases h : ready v <;> rfl
  have h2 : ∀ o e, (observed e).sends o = e.sends o
    | _, .sel _ | _, .desel _ | _, .x _ .fault | _, .x _ (.byte _) => rfl
  have h3 : ∀ e, (observed e).isSel = e.isSel
    | .sel _ | .desel _ | .x _ .fault | .x _ (.byte _) => rfl
  match l with
  | [] | [_] | [_, _] | [_, _, _] => rfl
  | _ :: _ :: _ :: _ :: _ => simp only [List.map_cons, showsReady, h1, h2, h3]

/-- R73, R74: what a frame has confirmed, in both runs. -/
theorem confirmSeen (h : b.Alike b') (c : Nat) : (b.confirmSeen c).Alike (b'.confirmSeen c) := by
  have he : showsReady b'.trace.reverse = showsReady b.trace.reverse := by
    rw [← showsReady_observed, ← showsReady_observed b.trace.reverse, List.map_reverse, h.trace, List.map_reverse]
  simp only [Bus.confirmSeen, he]
  split
  · exact h.noteReady c
  · exact h

/-- R15: one event in both runs. -/
theorem react (h : b.Alike b') {e e' : Event} (he : observed e' = observed e) : (b.react cfg e).Alike (b'.react cfg e') := by
  cases e with
  | sel c =>
    cases e' with
    | sel d => obtain rfl := Event.sel.inj he; exact h.sel _
    | desel d => cases he
    | x o a => cases a <;> cases he
  | desel c =>
    cases e' with
    | sel d => cases he
    | desel d => obtain rfl := Event.desel.inj he; exact (h.desel _ _).confirmSeen _
    | x o a => cases a <;> cases he
  | x o a =>
    cases e' with
    | sel d => cases a <;> cases he
    | desel d => cases a <;> cases he
    | x o' a' =>
      have key : o' = o ∧ ((∃ v v', a = .byte v ∧ a' = .byte v') ∨ a = .fault ∧ a' = .fault) := by
        cases a <;> cases a' <;> simp [observed] at he ⊢ <;> first | exact he.1 | exact he
      obtain ⟨rfl, ⟨v, v', rfl, rfl⟩ | ⟨rfl, rfl⟩⟩ := key
      · refine ⟨by simp [Bus.react, h.cs], by simp [Bus.react, h.tick], ?_, by simp [Bus.react, h.hazard],
          by simpa [Bus.react] using h.tail, by simpa [Bus.react, h.trace] using he⟩
        simp only [Bus.react, Bus.exchange, emit_chips, deliver, settle_cs, h.cs]
        cases b.cs <;> simp [h.tick, h.chips]
      · exact h.exchange _ _ trivial

/-- R15: the same events in both runs. -/
theorem replay (h : b.Alike b') {es es' : List Event} (he : es'.map observed = es.map observed) :
    (b.replay cfg es).Alike (b'.replay cfg es') := by
  induction es generalizing b b' es' with
  | nil =>
    obtain rfl : es' = [] := by simpa using he
    exact h
  | cons e es ih =>
    cases es' with
    | nil => simp at he
    | cons e' es' =>
      simp only [List.map_cons, List.cons.injEq] at he
      exact ih (h.react he.1) he.2

theorem resetSelects (h : b.Alike b') : b.resetSelects.Alike b'.resetSelects := by
  refine ⟨rfl, by simp [h.tick], ?_, by simp [h.hazard], by simpa using h.answers, by simp [h.trace]⟩
  simp only [Bus.resetSelects, h.cs, h.tick]
  cases b.cs <;> simp [h.chips]

theorem transferBlock (h : b.Alike b') (os : List Byte) :
    Res.Rel SameReadys Bus.Alike (transferBlock cfg c os b) (transferBlock cfg c os b') := by
  induction os generalizing b b' with
  | nil => exact ⟨.nil, h⟩
  | cons o os ih =>
    obtain ⟨h1, h2⟩ := h.xfer cfg o
    simp only [Machine.transferBlock]
    rcases hx : b.xfer cfg o with ⟨a, b1⟩
    rcases hx' : b'.xfer cfg o with ⟨a', b1'⟩
    rw [hx, hx'] at h1 h2
    rcases AnswersAlike.fault_iff h1 with ⟨h3, h4⟩ | ⟨v, v', h3, h4, hr⟩
    · simp only at h3 h4
      subst h3 h4
      exact ⟨rfl, rfl, h2⟩
    · simp only at h3 h4
      subst h3 h4
      exact (ih h2).andThen fun _ _ _ _ h5 h6 => ⟨.cons hr h5, h6⟩

theorem issue (h : b.Alike b') (hdr : List Byte) (nd nr : Nat) :
    Res.Rel SameReadys Bus.Alike (issue cfg c hdr nd nr b) (issue cfg c hdr nd nr b') :=
  ((h.sel c).transferBlock hdr).andThen fun _ _ _ _ _ h1 => (h1.transferBlock (dummies nd)).andThen fun _ _ _ _ _ h2 =>
    (h2.transferBlock (dummies nr)).andThen fun _ _ _ _ h3 h4 => ⟨h3, h4.desel cfg c⟩

theorem statusRead (h : b.Alike b') : Res.Rel SameReady Bus.Alike (statusRead cfg c b) (statusRead cfg c b') := by
  refine (h.issue [opcStatusRead] 0 1).andThen fun is is' b1 b1' h1 h2 => ?_
  have hr : SameReady (is.headD 0) (is'.headD 0) := by
    cases h1 with
    | nil => rfl
    | cons h _ => exact h
  refine ⟨hr, ?_⟩
  show Bus.Alike (if ready (is.headD 0) then _ else _) (if ready (is'.headD 0) then _ else _)
  rw [show ready (is'.headD 0) = ready (is.headD 0) from hr]
  split
  · exact h2.noteReady c
  · exact h2

theorem pollLoop (h : b.Alike b') (k : Nat) : Res.Rel AnyUnit Bus.Alike (pollLoop cfg c k b) (pollLoop cfg c k b') := by
  induction k generalizing b b' with
  | zero => exact ⟨rfl, rfl, h⟩
  | succ k ih =>
    refine h.statusRead.andThen fun v v' b1 b1' h1 h2 => ?_
    show Res.Rel _ _ (if ready v then _ else _) (if ready v' then _ else _)
    rw [show ready v' = ready v from h1]
    split
    · exact ⟨trivial, h2⟩
    · exact ih h2

theorem pollReady (h : b.Alike b') : Res.Rel AnyUnit Bus.Alike (pollReady cfg c b) (pollReady cfg c b') := h.pollLoop _

theorem issueBusy (h : b.Alike b') (hdr : List Byte) :
    Res.Rel AnyUnit Bus.Alike (issueBusy cfg c hdr b) (issueBusy cfg c hdr b') :=
  ((h.noteBusyFrame c).issue hdr 0 0).andThen fun _ _ _ _ _ h1 => ⟨trivial, h1⟩

theorem eraseAndPoll (h : b.Alike b') (hdr : List Byte) :
    Res.Rel AnyUnit Bus.Alike (eraseAndPoll cfg c hdr b) (eraseAndPoll cfg c hdr b') :=
  (h.issueBusy hdr).andThen fun _ _ _ _ _ h1 => h1.pollReady

theorem eraseFrom (h : b.Alike b') (k l : Nat) :
    Res.Rel AnyUnit Bus.Alike (eraseFrom cfg k l b) (eraseFrom cfg k l b') := by
  induction k generalizing l b b' with
  | zero => exact ⟨trivial, h⟩
  | succ k ih => exact (h.eraseAndPoll _).andThen fun _ _ _ _ _ h1 => ih h1 (l + 1)

theorem pollFrom (h : b.Alike b') (k c : Nat) :
    Res.Rel AnyUnit Bus.Alike (pollFrom cfg k c b) (pollFrom cfg k c b') := by
  induction k generalizing c b b' with
  | zero => exact ⟨trivial, h⟩
  | succ k ih => exact h.pollReady.andThen fun _ _ _ _ _ h1 => ih h1 (c + 1)

end Bus.Alike

namespace State.Alike

variable {s s' : State} {c : Nat}

theorem onBus {α : Type} {A : α → α → Prop} (h : s.Alike s') {f f' : Bus → Res Bus α}
    (hf : Res.Rel A Bus.Alike (f s.bus) (f' s'.bus)) : Res.Rel A State.Alike (s.onBus f) (s'.onBus f') := by
  unfold State.onBus
  cases hr : f s.bus <;> cases hr' : f' s'.bus <;> rw [hr, hr'] at hf <;> first | exact hf.elim | skip
  · exact ⟨hf.1, { h with bus := hf.2 }⟩
  · exact ⟨hf.1, hf.2.1, { h with bus := hf.2.2 }⟩

theorem onHandle (h : s.Alike s') (c : Nat) (f : Handle → Handle) : (s.onHandle c f).Alike (s'.onHandle c f) :=
  { h with handles := by simp [h.handles] }

theorem handle (h : s.Alike s') (c : Nat) : s'.handle c = s.handle c := by simp [State.handle, h.handles]

theorem idle (h : s.Alike s') : s'.idle = s.idle := by simp [State.idle, h.handles]

theorem filling (h : s.Alike s') : s'.filling = s.filling := by simp [State.filling, h.handles]

theorem forEachChip (h : s.Alike s') {f : Nat → State → State} (hf : ∀ c u u', u.Alike u' → (f c u).Alike (f c u'))
    (k : Nat) : (s.forEachChip f k).Alike (s'.forEachChip f k) := by
  induction k with
  | zero => exact h
  | succ k ih => exact hf k _ _ ih

theorem respond (h : s.Alike s') (e : Option ErrorKind) (c : Nat) {data data' : List Byte} (hl : data'.length = data.length)
    (low low' : Byte) : (s.respond e c data low).Alike (s'.respond e c data' low') :=
  { h with responses := by simp [h.responses, Response.shape, hl] }

theorem abort (h : s.Alike s') : s.abort.Alike s'.abort where
  cfg := h.cfg
  handles := by simp [h.handles]
  curW := h.curW
  curR := h.curR
  soff := rfl
  pending := h.pending
  resetIn := h.resetIn
  bus := by
    have hr : s.release.Alike s'.release := by
      simp only [State.release, h.bus.cs, h.cfg]
      split
      · exact h.bus.desel _ _
      · exact h.bus
    rw [State.abort_bus, State.abort_bus, h.idle]
    split
    · exact hr
    · exact hr.loseBuffers
  responses := h.responses
  stream := h.stream
  past := h.past

/-- R291: a reset in both runs. -/
theorem blockReset (h : s.Alike s') : s.blockReset.Alike s'.blockReset where
  cfg := h.cfg
  handles := by simp [h.cfg]
  curW := rfl
  curR := rfl
  soff := rfl
  pending := h.pending
  resetIn := rfl
  bus := { h.bus.resetSelects with trace := rfl }
  responses := h.responses
  stream := h.stream
  past := by simp [h.past, h.bus.trace]

theorem perform (h : s.Alike s') {checks checks' : List (Bool × ErrorKind)} (hc : checks' = checks)
    {low : List Byte → Byte} {body body' : State → Res State (List Byte)}
    (hb : Res.Rel SameReadys State.Alike (body s) (body' s')) :
    ∃ t t', perform checks low body s = .next t ∧ perform checks' low body' s' = .next t' ∧ t.Alike t' := by
  subst hc
  refine ⟨_, _, rfl, rfl, ?_⟩
  unfold operate
  cases firstError checks' with
  | some e => exact h.respond (some e) 0 rfl 0 0
  | none =>
    simp only
    cases hr : body s <;> cases hr' : body' s' <;> rw [hr, hr'] at hb <;> first | exact hb.elim | skip
    · exact hb.2.respond none 0 hb.1.length_eq.symm _ _
    · obtain ⟨rfl, rfl, h3⟩ := hb
      exact h3.abort.respond _ _ rfl 0 0

theorem engOpen (h : s.Alike s') (c : Nat) : Res.Rel AnyUnit State.Alike (engOpen c s) (engOpen c s') := by
  refine Res.Rel.andThen (A := SameReadys) ?_ fun _ _ _ _ _ h1 => ⟨trivial, h1⟩
  refine h.onBus ?_
  simp only [h.cfg, h.handle]
  exact (h.bus.sel c).transferBlock _

theorem engSend (h : s.Alike s') (c : Nat) (v : Byte) : Res.Rel AnyUnit State.Alike (engSend c v s) (engSend c v s') := by
  refine Res.Rel.andThen (A := SameReadys) ?_ fun _ _ _ _ _ h1 => ⟨trivial, h1⟩
  refine h.onBus ?_
  simp only [h.cfg]
  exact h.bus.transferBlock _

theorem engCommit (h : s.Alike s') (c : Nat) : Res.Rel AnyUnit State.Alike (engCommit c s) (engCommit c s') := by
  have h0 : (engCloseFull c s).Alike (engCloseFull c s') := by
    have h1 : State.Alike { s with bus := s.bus.desel s.cfg c } { s' with bus := s'.bus.desel s'.cfg c } :=
      { h with bus := by simp only [h.cfg]; exact h.bus.desel _ _ }
    exact h1.onHandle c _
  refine Res.Rel.andThen (A := AnyUnit) (h0.onBus ?_) fun _ _ u u' _ h1 => ?_
  · rw [h.cfg]; exact h0.bus.pollReady
  refine Res.Rel.andThen (A := AnyUnit) (h1.onBus ?_) fun _ _ _ _ _ h2 => ⟨trivial, h2.onHandle c _⟩
  simp only [h1.cfg, h1.handle]
  exact (h1.bus.noteCommit _ _ _).issueBusy _

theorem engReadPage (h : s.Alike s') (c : Nat) : Res.Rel SameReadys State.Alike (engReadPage c s) (engReadPage c s') := by
  simp only [Machine.engReadPage, h.cfg, h.handle]
  refine Res.Rel.andThen (A := AnyUnit) (h.onBus (h.bus.issueBusy _)) fun _ _ u u' _ h1 => ?_
  refine Res.Rel.andThen (A := AnyUnit) (h1.onBus ?_) fun _ _ w w' _ h2 => ?_
  · rw [h1.cfg]; exact h1.bus.pollReady
  refine Res.Rel.andThen (A := SameReadys) (h2.onBus ?_) fun _ _ _ _ h3 h4 => ⟨h3, h4.onHandle c _⟩
  simp only [h2.cfg]
  exact h2.bus.issue _ _ _

end State.Alike

end Sys2Proof.Machine
end

