-- ==== Sys2Proof/Laws/Effects.lean ====
section
/-! SUPPORT. What the engine's procedures leave of the registers and on the bus, however they end: one lemma for each. -/

namespace Sys2Proof.Machine

variable {c : Nat}

@[simp] theorem openFrame_length (q : Parity) : (openFrame q).length = 4 := by cases q <;> rfl

theorem openFrame_emitted (cfg : Config) (q : Parity) : emittedOpcode cfg (opcBufWrite q) = true := by
  cases q <;> simp [emittedOpcode, opcBufWrite]

theorem openFrame_head (q : Parity) (d : List Byte) : ∀ x ∈ (openFrame q ++ d).head?, x = opcBufWrite q := by
  cases q <;> simp [openFrame]

theorem openFrame_closes {cfg : Config} (q : Parity) {d : List Byte} (hd : d.length ≤ cfg.pageSize) :
    frameLengthOk cfg ((openFrame q ++ d).headD 0) (openFrame q ++ d).length = true := by
  have h1 : (openFrame q ++ d).headD 0 = opcBufWrite q := by cases q <;> rfl
  rw [h1]
  cases q <;> rw [frameLengthOk, if_neg (by decide), if_pos (by decide)] <;> simp [hd]

theorem openFrame_address (cfg : Config) (q : Parity) (d : List Byte) : addressOk cfg (openFrame q ++ d) = true := by
  cases q <;> rfl

/-- What a chip has received, by select line. -/
theorem Bus.chip_of_getElem? {b : Bus} {ch : Chip} (h : b.chips[c]? = some ch) : b.chip c = ch := by
  simp [Bus.chip, h]

theorem Bus.getElem?_chip {b : Bus} (h : c < b.chips.length) : b.chips[c]? = some (b.chip c) := by
  simp [Bus.chip, h]

theorem Chip.hear_received (cfg : Config) (c n : Nat) (os : List Byte) (ch : Chip) :
    (ch.hear cfg c n os).received = ch.received ++ os := by
  induction os generalizing n ch with
  | nil => simp [hear]
  | cons o os ih => simp [hear, ih]

/-- R182: everything `engOpen` can do. -/
theorem engOpen_effect (c : Nat) (s : State) :
    (engOpen c s).Post
      (fun _ u => u = { s with bus := u.bus } ∧ u.bus.cs = some c ∧ u.bus.chips.length = s.bus.chips.length ∧
        Traced s.cfg 5 .free (.inFrame c (openFrame (s.handle c).par) false) s.bus u.bus ∧
        (c < s.bus.chips.length → (u.bus.chip c).received = openFrame (s.handle c).par))
      (fun e d u => e = .busFault ∧ d = c ∧ s.cfg.hasBusFault = true ∧ u = { s with bus := u.bus } ∧
        u.bus.cs = some c ∧ ∃ sent, Traced s.cfg 5 .free (.inFrame c sent true) s.bus u.bus) := by
  have h := transferBlock_post (cfg := s.cfg) (c := c) (openFrame (s.handle c).par) (s.bus.sel c)
  have hc := @transferBlock_chips s.cfg c (openFrame (s.handle c).par)
  rw [engOpen]
  cases hr : transferBlock s.cfg c (openFrame (s.handle c).par) (s.bus.sel c) with
  | ok is b' =>
    rw [hr] at h
    rw [State.onBus_ok (f := fun b => transferBlock s.cfg c (openFrame (s.handle c).par) (b.sel c)) hr]
    obtain ⟨h1, h2, h3, -, -, h6, -⟩ := h
    refine ⟨rfl, h3, by simpa using h6, ⟨.sel c :: exchanges (openFrame (s.handle c).par) is, by simpa using h2, ?_, ?_⟩,
      fun hl => ?_⟩
    · simp [exchanges, h1]
    · exact Monitor.run_exchanges (sent := []) (openFrame_emitted _ _) h1
        (by simpa using openFrame_head (s.handle c).par []) (by simpa using openFrame_address s.cfg (s.handle c).par [])
    · have := hc hr c
      rw [Bus.sel_getElem?, Bus.getElem?_chip hl] at this
      rw [Bus.chip_of_getElem? this]
      simp [Chip.hear_received]
  | raise e d b' =>
    rw [hr] at h
    rw [State.onBus_raise (f := fun b => transferBlock s.cfg c (openFrame (s.handle c).par) (b.sel c)) hr]
    obtain ⟨h1, h2, h3, h4, -, h6, done, o, later, is, h7, h8, h9, -, -⟩ := h
    have hl := congrArg List.length h7
    simp only [openFrame_length, List.length_append, List.length_cons] at hl
    refine ⟨h1, h2, h3, rfl, by simpa using h4, done ++ [o], .sel c :: exchanges done is ++ [.x o .fault],
      by simp [h9], ?_, ?_⟩
    · simp [exchanges, h8]; omega
    · exact Monitor.run_cut (openFrame_emitted _ (s.handle c).par) (by rw [← h7]; rfl)
        (by have := openFrame_address s.cfg (s.handle c).par []; rwa [List.append_nil] at this) h8

/-- R183 step 1: everything a fed byte's exchange can do. -/
theorem engSend_effect {s : State} (hcs : s.bus.cs = some c) (v : Byte) :
    (engSend c v s).Post
      (fun _ u => u = { s with bus := u.bus } ∧ u.bus.cs = some c ∧ u.bus.chips.length = s.bus.chips.length ∧
        (∀ q d, Traced s.cfg 1 (.inFrame c (openFrame q ++ d) false) (.inFrame c (openFrame q ++ (d ++ [v])) false)
          s.bus u.bus) ∧
        (c < s.bus.chips.length → (u.bus.chip c).received = (s.bus.chip c).received ++ [v]))
      (fun e d u => e = .busFault ∧ d = c ∧ s.cfg.hasBusFault = true ∧ u = { s with bus := u.bus } ∧
        u.bus.cs = some c ∧
        ∀ q d, ∃ sent, Traced s.cfg 1 (.inFrame c (openFrame q ++ d) false) (.inFrame c sent true) s.bus u.bus) := by
  have h := transferBlock_post (cfg := s.cfg) (c := c) [v] s.bus
  have hc := @transferBlock_chips s.cfg c [v]
  rw [engSend]
  cases hr : transferBlock s.cfg c [v] s.bus with
  | ok is b' =>
    rw [hr] at h
    rw [State.onBus_ok hr]
    obtain ⟨h1, h2, h3, -, -, h6, -⟩ := h
    refine ⟨rfl, h3.trans hcs, h6, fun q d => ⟨_, h2, by simp [exchanges], ?_⟩, fun hl => ?_⟩
    · rw [← List.append_assoc]
      exact Monitor.run_exchanges (openFrame_emitted _ q) h1 (by simpa using openFrame_head q (d ++ [v]))
        (by rw [List.append_assoc]; exact openFrame_address s.cfg q (d ++ [v]))
    · have := hc hr c
      rw [Bus.getElem?_chip hl] at this
      rw [Bus.chip_of_getElem? this]
      simp [hcs, Chip.hear_received]
  | raise e d b' =>
    rw [hr] at h
    rw [State.onBus_raise hr]
    obtain ⟨h1, h2, h3, h4, -, h6, done, o, later, is, h7, h8, h9, -, -⟩ := h
    have hl := congrArg List.length h7
    simp only [List.length_append, List.length_cons, List.length_nil] at hl
    obtain rfl : done = [] := List.length_eq_zero_iff.1 (by omega)
    obtain rfl : is = [] := List.length_eq_zero_iff.1 (by simpa using h8)
    simp only [List.nil_append, List.cons.injEq] at h7
    refine ⟨h1, h2, h3, rfl, h4.trans hcs, fun q d => ⟨_, [.x v .fault], by simp [h9, h7.1], by simp,
      Monitor.run_fault (done := []) (is := []) (openFrame_emitted _ q) rfl
        (by simpa using openFrame_head q (d ++ [v])) (by simpa using openFrame_address s.cfg q (d ++ [v]))⟩⟩

theorem legal_commit {cfg : Config} (hv : cfg.valid = true) (q : Parity) {p : Nat} (hp : p < cfg.numPages) :
    LegalFrame cfg (commitFrame cfg q p) 0 0 := by
  refine Ends.legal_addressed ?_ (Ends.frameLengthOk_four ?_) (Ends.addressOk_page (isPageField_encode hv hp) ?_)
  · cases q <;> simp [emittedOpcode]
  · cases q <;> simp only [opcCommit] <;> split <;> decide
  · cases q <;> simp only [opcCommit] <;> split <;> decide

/-- R184: everything `engCommit` can do to an open frame that holds a whole page. -/
theorem engCommit_effect {s : State} (hv : s.cfg.valid = true) (hc : c < s.handles.length) (hl : 1 ≤ s.cfg.pollLimit)
    (hw : (s.handle c).wpage < s.cfg.numPages) :
    (engCommit c s).Post
      (fun _ u => u = { s with bus := u.bus, handles := s.handles.set c (s.handle c).committed } ∧ u.bus.cs = none ∧
        ∀ q d, d.length = s.cfg.pageSize →
          Traced s.cfg (1 + pollEvents s.cfg + 6) (.inFrame c (openFrame q ++ d) false) .free s.bus u.bus)
      (fun e d u => d = c ∧ u = { engCloseFull c s with bus := u.bus } ∧
        (e = .busFault ∧ s.cfg.hasBusFault = true ∧ u.bus.cs = some c ∧
            (∀ q d, d.length = s.cfg.pageSize → ∃ sent,
              Traced s.cfg (1 + pollEvents s.cfg + 6) (.inFrame c (openFrame q ++ d) false) (.inFrame c sent true)
                s.bus u.bus) ∨
          e = .deviceTimeout ∧ u.bus.cs = none ∧
            ∀ q d, d.length = s.cfg.pageSize →
              Traced s.cfg (1 + pollEvents s.cfg + 6) (.inFrame c (openFrame q ++ d) false) .free s.bus u.bus)) := by
  have hd : ∀ q d, d.length = s.cfg.pageSize →
      Traced s.cfg 1 (.inFrame c (openFrame q ++ d) false) .free s.bus (s.bus.desel s.cfg c) := fun q d hd =>
    ⟨[.desel c], rfl, le_refl _, Monitor.run_desel (.inr (openFrame_closes q (by omega)))⟩
  have hp := Ends.pollReady (cfg := s.cfg) c hl (s.bus.desel s.cfg c)
  rw [engCommit_eq hc]
  cases hr : pollReady s.cfg c (s.bus.desel s.cfg c) with
  | raise e d b =>
    rw [hr] at hp
    obtain ⟨rfl, ⟨h1, h2, h3, sent, h4⟩ | ⟨-, h2, h3, h4⟩⟩ := hp
    · exact ⟨rfl, rfl, .inl ⟨h1, h2, h3, fun q d hq => ⟨sent, ((hd q d hq).trans h4).mono (by omega)⟩⟩⟩
    · exact ⟨rfl, rfl, .inr ⟨h2, h3, fun q d hq => ((hd q d hq).trans h4).mono (by omega)⟩⟩
  | ok a b =>
    rw [hr] at hp
    obtain ⟨h1, h2⟩ := hp
    have hi := (Ends.issueBusy c (legal_commit hv (s.handle c).par hw)
      (b.noteCommit s.cfg c (s.handle c).wpage)).of_trace (b' := b) rfl
    simp only
    cases hb : issueBusy s.cfg c (commitFrame s.cfg (s.handle c).par (s.handle c).wpage)
        (b.noteCommit s.cfg c (s.handle c).wpage) with
    | raise e d b' =>
      rw [hb] at hi
      obtain ⟨rfl, ⟨g1, g2, g3, sent, g4⟩ | ⟨g1, -⟩⟩ := hi
      · exact ⟨rfl, rfl, .inl ⟨g1, g2, g3, fun q d hq => ⟨sent, ((hd q d hq).trans (h2.trans g4)).mono
          (by simp only [commitFrame, addrBytes_length, List.length_cons]; omega)⟩⟩⟩
      · cases g1
    | ok a' b' =>
      rw [hb] at hi
      obtain ⟨g1, g2⟩ := hi
      exact ⟨rfl, g1, fun q d hq => ((hd q d hq).trans (h2.trans g2)).mono
        (by simp only [commitFrame, addrBytes_length, List.length_cons]; omega)⟩

/-- R186 as one bus procedure. -/
def readProc (cfg : Config) (c p : Nat) (b : Bus) : Res Bus (List Byte) :=
  (issueBusy cfg c (transferFrame cfg p) b).andThen fun _ b =>
  (pollReady cfg c b).andThen fun _ b =>
  issue cfg c (readFrame p) cfg.bufReadDummy cfg.pageSize b

theorem engReadPage_eq (s : State) :
    engReadPage c s = (s.onBus (readProc s.cfg c (s.handle c).rpage)).andThen fun data s =>
      .ok data (s.onHandle c Handle.wasRead) := by
  simp only [engReadPage, readProc, State.onBus]
  cases issueBusy s.cfg c (transferFrame s.cfg (s.handle c).rpage) s.bus with
  | raise e d b => rfl
  | ok a b =>
    simp only [Res.andThen_ok]
    cases pollReady s.cfg c b with
    | raise e d b => rfl
    | ok a b =>
      cases issue s.cfg c (readFrame (s.handle c).rpage) s.cfg.bufReadDummy s.cfg.pageSize b <;> rfl

theorem legal_transfer {cfg : Config} (hv : cfg.valid = true) {p : Nat} (hp : p < cfg.numPages) :
    LegalFrame cfg (transferFrame cfg p) 0 0 := by
  refine Ends.legal_addressed ?_ (Ends.frameLengthOk_four ?_) (Ends.addressOk_page (isPageField_encode hv hp) ?_)
  · unfold Parity.ofPage; split <;> simp [emittedOpcode, opcPageToBuf]
  · unfold Parity.ofPage; split <;> decide
  · unfold Parity.ofPage; split <;> decide

theorem legal_read (cfg : Config) {op : Byte} {a : AddrField} (h : op = opcBuf1Read ∨ op = opcBuf2Read)
    (ha : isBufferField a = true) : LegalFrame cfg (op :: addrBytes a) cfg.bufReadDummy cfg.pageSize := by
  rcases h with rfl | rfl
  · exact Ends.legal_addressed (by simp [emittedOpcode]) (by
      rw [frameLengthOk, if_neg (by decide), if_neg (by decide), if_pos (by decide)]; simp) (Ends.addressOk_buffer ha (by decide))
  · exact Ends.legal_addressed (by simp [emittedOpcode]) (by
      rw [frameLengthOk, if_neg (by decide), if_neg (by decide), if_pos (by decide)]; simp) (Ends.addressOk_buffer ha (by decide))

theorem readProc_ends {cfg : Config} (hv : cfg.valid = true) (c : Nat) {p : Nat} (hp : p < cfg.numPages)
    (hl : 1 ≤ cfg.pollLimit) (b : Bus) :
    Ends cfg (· = c) (6 + pollEvents cfg + 6 + cfg.bufReadDummy + cfg.pageSize) true b (readProc cfg c p b) := by
  have hr : LegalFrame cfg (readFrame p) cfg.bufReadDummy cfg.pageSize :=
    legal_read cfg (by unfold Parity.ofPage; split <;> simp [opcBufRead]) rfl
  refine Ends.mono (((Ends.issueBusy c (legal_transfer hv hp) b).mono (le_refl _) (fun _ => rfl) fun _ h => h).andThen
    fun _ b1 _ _ => (Ends.pollReady c hl b1).andThen fun _ b2 _ _ =>
      (Ends.issue c hr b2).mono (le_refl _) (fun _ => rfl) fun _ h => h) ?_ (fun h => h) fun _ h => h
  simp only [transferFrame, readFrame, addrBytes_length, List.length_cons]
  omega

theorem readProc_length {cfg : Config} {p : Nat} {b b' : Bus} {data : List Byte}
    (h : readProc cfg c p b = .ok data b') : data.length = cfg.pageSize := by
  unfold readProc at h
  cases h1 : issueBusy cfg c (transferFrame cfg p) b with
  | raise e d b1 => simp [h1] at h
  | ok a b1 =>
    simp only [h1, Res.andThen_ok] at h
    cases h2 : pollReady cfg c b1 with
    | raise e d b2 => simp [h2] at h
    | ok a b2 =>
      simp only [h2, Res.andThen_ok] at h
      exact Ends.issue_length h

end Sys2Proof.Machine
end

