-- ==== Sys2Proof/Laws/Exec.lean ====
section
/-! SUPPORT. Everything an instruction can do to the block, said once: the registers it leaves when it answers `OK` and when it
answers an error, how many bus events it takes, and that the bus monitor follows. -/

namespace Sys2Proof.Machine

/-- What the monitor knows when the block is in state `s`. -/
def State.MonitorAt (s : State) (m : Monitor) : Prop :=
  match s.bus.cs with
  | none => m = .free
  | some c => ∃ data, data.length = s.soff ∧ m = .inFrame c (openFrame (s.handle c).par ++ data) false

theorem State.busOrderly_iff {s : State} :
    s.BusOrderly ↔ ∃ m, s.MonitorAt m ∧ Monitor.run s.cfg .free s.bus.trace = some m := by
  unfold State.BusOrderly State.MonitorAt
  cases s.bus.cs with
  | none => simp
  | some c =>
    constructor
    · rintro ⟨data, h1, h2⟩
      exact ⟨_, ⟨data, h1, rfl⟩, h2⟩
    · rintro ⟨m, ⟨data, h1, rfl⟩, h2⟩
      exact ⟨data, h1, h2⟩

/-- R104: the chip whose select is asserted has received the header and `soff` data bytes. -/
def State.Heard (s : State) : Prop :=
  ∀ c, s.bus.cs = some c → ∃ data, (s.bus.chip c).received = openFrame (s.handle c).par ++ data ∧ data.length = s.soff

/-- The checks an operation has passed, for the stream operations. -/
def Ready (s : State) : Instr → Prop
  | .startW => s.idle = true
  | .writeByte _ => s.filling = true ∧ (s.handle s.curW).wpage < s.cfg.numPages
  | .endW => s.filling = true ∧ s.soff = 0
  | .readPage => s.idle = true ∧ (s.handle s.curR).rpage < s.cfg.numPages
  | .seekW l => s.idle = true ∧ l.toNat ≤ s.cfg.totalPages
  | .seekR l => s.idle = true ∧ l.toNat ≤ s.cfg.totalPages
  | _ => s.idle = true

/-- The registers and the select after an operation answers `OK` with `data`. -/
def OkRegs (s : State) (data : List Byte) (i : Instr) (w : State) : Prop :=
  match i with
  | .startW => w = { s with bus := w.bus, handles := s.handles.map Handle.start } ∧ w.bus.cs = some s.curW
  | .writeByte _ =>
    s.soff + 1 < s.cfg.pageSize ∧
        w = { s with bus := w.bus, handles := s.handles.set s.curW (s.handle s.curW).fed, soff := s.soff + 1 } ∧
        w.bus.cs = some s.curW ∨
      s.soff + 1 = s.cfg.pageSize ∧
        w = { s with
          bus := w.bus
          handles := s.handles.set s.curW (s.handle s.curW).committed
          curW := nextChip s.cfg s.curW
          soff := 0 } ∧
        w.bus.cs = some (nextChip s.cfg s.curW)
  | .endW => w = { s with bus := w.bus, handles := s.handles.map Handle.finished } ∧ w.bus.cs = none
  | .readPage =>
    w = { s with
        bus := w.bus
        handles := s.handles.set s.curR (s.handle s.curR).wasRead
        curR := nextChip s.cfg s.curR
        stream := s.stream ++ data } ∧ w.bus.cs = none
  | .seekW l =>
    w = { s with
        handles := s.handles.mapIdx fun c h => { h with wpage := cursorAt s.cfg l.toNat c }
        curW := pageChip s.cfg l.toNat } ∧ w.bus.cs = none
  | .seekR l =>
    w = { s with
        handles := s.handles.mapIdx fun c h => { h with rpage := cursorAt s.cfg l.toNat c }
        curR := pageChip s.cfg l.toNat } ∧ w.bus.cs = none
  | _ => w = { s with bus := w.bus } ∧ w.bus.cs = none

/-- The registers before the abort when an operation ends in `DeviceTimeout` or `BusFault`. -/
def ErrBase (s : State) (i : Instr) (w : State) : Prop :=
  match i with
  | .startW => w = { s with handles := s.handles.map Handle.start }
  | .writeByte _ =>
    w = s ∨
      s.soff + 1 = s.cfg.pageSize ∧
        w = { s with
          handles := s.handles.set s.curW (s.handle s.curW).committed
          curW := nextChip s.cfg s.curW }
  | _ => w = s

/-- The registers after the abort (R256), the bus left out. -/
def State.aborted (s : State) (b : Bus) : State :=
  { s with bus := b, handles := s.handles.map Handle.aborted, soff := 0 }

/-- What the body of operation `i` leaves, its checks passed. -/
def BodyEffect (s : State) (i : Instr) (r : Res State (List Byte)) : Prop :=
  r.Post
    (fun data w => OkRegs s data i w ∧ data.length = responseLength s.cfg i ∧ w.Heard ∧
      ∀ m, s.MonitorAt m → ∃ m', w.MonitorAt m' ∧ Traced s.cfg (eventBound s i) m m' s.bus w.bus)
    (fun e c w => c < s.cfg.chips ∧ mayAnswer i e = true ∧
      (∃ base, ErrBase s i base ∧ ∀ b, w.aborted b = base.aborted b) ∧ (inSession i = true → w.idle = false) ∧
      (e = .busFault ∧ s.cfg.hasBusFault = true ∧ w.bus.cs = some c ∧
          (∀ m, s.MonitorAt m → ∃ sent, Traced s.cfg (eventBound s i) m (.inFrame c sent true) s.bus w.bus) ∨
        e = .deviceTimeout ∧ w.bus.cs = none ∧
          ∀ m, s.MonitorAt m → Traced s.cfg (eventBound s i) m .free s.bus w.bus))

theorem State.monitorAt_none {s : State} (h : s.bus.cs = none) {m : Monitor} : s.MonitorAt m ↔ m = .free := by
  simp [State.MonitorAt, h]

theorem State.monitorAt_some {s : State} {c : Nat} (h : s.bus.cs = some c) {m : Monitor} :
    s.MonitorAt m ↔ ∃ data, data.length = s.soff ∧ m = .inFrame c (openFrame (s.handle c).par ++ data) false := by
  simp [State.MonitorAt, h]

theorem State.heard_none {s : State} (h : s.bus.cs = none) : s.Heard := by
  intro c hc; rw [h] at hc; cases hc

theorem State.Inv.heard {s : State} (h : s.Inv) : s.Heard := by
  rcases h.phase with hp | hp
  · exact State.heard_none hp.2
  · intro c hc
    obtain ⟨-, h1, h2⟩ := hp
    rw [h1] at hc
    obtain rfl := Option.some.inj hc
    exact h2

theorem Inv.pollLimit_pos {s : State} (h : s.Inv) : 1 ≤ s.cfg.pollLimit := by
  have := h.valid
  simp only [Config.valid, Bool.and_eq_true, decide_eq_true_eq] at this
  omega

/-- A bus procedure of the Idle block that writes no register. -/
theorem onBus_effect {s : State} {i : Instr} {f : Bus → Res Bus (List Byte)} (hcs : s.bus.cs = none)
    (ho : ∀ data w, (w = { s with bus := w.bus } ∧ w.bus.cs = none) → OkRegs s data i w) (he : ErrBase s i s)
    (hb : mayAnswer i .busFault = true)
    (h : Ends s.cfg (· < s.cfg.chips) (eventBound s i) (mayAnswer i .deviceTimeout) s.bus (f s.bus))
    (hl : ∀ data b, f s.bus = .ok data b → data.length = responseLength s.cfg i) (hn : inSession i = false := by rfl) :
    BodyEffect s i (s.onBus f) := by
  unfold BodyEffect State.onBus
  cases hr : f s.bus with
  | ok data b =>
    rw [hr] at h
    refine ⟨ho _ _ ⟨rfl, h.1⟩, hl _ _ hr, State.heard_none h.1, fun m hm => ⟨.free, (State.monitorAt_none h.1).2 rfl, ?_⟩⟩
    rw [(State.monitorAt_none hcs).1 hm]
    exact h.2
  | raise e c b =>
    rw [hr] at h
    obtain ⟨h1, ⟨rfl, h3, h4, sent, h5⟩ | ⟨h2, rfl, h4, h5⟩⟩ := h
    · refine ⟨h1, hb, ⟨s, he, fun _ => rfl⟩, by simp [hn], .inl ⟨rfl, h3, h4, fun m hm => ⟨sent, ?_⟩⟩⟩
      rw [(State.monitorAt_none hcs).1 hm]
      exact h5
    · refine ⟨h1, h2, ⟨s, he, fun _ => rfl⟩, by simp [hn], .inr ⟨rfl, h4, fun m hm => ?_⟩⟩
      rw [(State.monitorAt_none hcs).1 hm]
      exact h5

theorem noData_ends {cfg : Config} {C : Nat → Prop} {n : Nat} {w : Bool} {b : Bus} {f : Bus → Res Bus Unit}
    (h : Ends cfg C n w b (f b)) : Ends cfg C n w b (noData f b) :=
  h.andThen (m := 0) fun _ _ _ hb => .ok hb

theorem noData_length {f : Bus → Res Bus Unit} {b b' : Bus} {data : List Byte} (h : noData f b = .ok data b') :
    data.length = 0 := by
  unfold noData at h
  cases hf : f b with
  | ok a b1 => simp only [hf, Res.andThen_ok, Res.ok.injEq] at h; simp [← h.1]
  | raise e c b1 => simp [hf] at h

theorem statusData_ends (cfg : Config) (c : Nat) (b : Bus) : Ends cfg (· = c) 4 false b (statusData cfg c b) :=
  (Ends.statusRead cfg c b).andThen (m := 0) fun _ _ _ hb => .ok hb

theorem statusData_length {cfg : Config} {c : Nat} {b b' : Bus} {data : List Byte}
    (h : statusData cfg c b = .ok data b') : data.length = 1 := by
  unfold statusData at h
  cases hf : statusRead cfg c b with
  | ok a b1 => simp only [hf, Res.andThen_ok, Res.ok.injEq] at h; simp [← h.1]
  | raise e c b1 => simp [hf] at h

theorem legal_write (cfg : Config) {op : Byte} {a : AddrField} {data : List Byte} (h : op = opcBuf1Write ∨ op = opcBuf2Write)
    (ha : isBufferField a = true) (hl : data.length ≤ cfg.pageSize) : LegalFrame cfg (op :: addrBytes a ++ data) 0 0 := by
  rcases h with rfl | rfl
  · exact Ends.legal_addressed (by simp [emittedOpcode]) (by
      rw [frameLengthOk, if_neg (by decide), if_pos (by decide)]; simp [hl]) (Ends.addressOk_buffer ha (by decide))
  · exact Ends.legal_addressed (by simp [emittedOpcode]) (by
      rw [frameLengthOk, if_neg (by decide), if_pos (by decide)]; simp [hl]) (Ends.addressOk_buffer ha (by decide))

theorem firstError_cons_none {b : Bool} {e : ErrorKind} {l : List (Bool × ErrorKind)}
    (h : firstError ((b, e) :: l) = none) : b = true ∧ firstError l = none := by
  cases b
  · simp at h
  · exact ⟨rfl, h⟩

theorem transportChecks_passed {s : State} {c : ChipField} (h : firstError (transportChecks c s) = none) :
    s.idle = true ∧ c.toNat < s.cfg.chips := by
  obtain ⟨h1, h2⟩ := firstError_cons_none h
  exact ⟨h1, by simpa [chipInRange] using (firstError_cons_none h2).1⟩

theorem pageChecks_passed {s : State} {c : ChipField} {p : ArgField} (h : firstError (pageChecks c p s) = none) :
    s.idle = true ∧ c.toNat < s.cfg.chips ∧ p.toNat < s.cfg.numPages := by
  obtain ⟨h1, h2⟩ := firstError_cons_none (l := [_, _]) h
  obtain ⟨h3, h4⟩ := firstError_cons_none h2
  exact ⟨h1, by simpa [chipInRange] using h3, by simpa [pageInRange] using (firstError_cons_none h4).1⟩

theorem frameChecks_passed {s : State} {c : ChipField} {e : Bool} (h : firstError (frameChecks e c s) = none) :
    e = true ∧ s.idle = true ∧ c.toNat < s.cfg.chips := by
  obtain ⟨h1, h2⟩ := firstError_cons_none h
  exact ⟨h1, transportChecks_passed h2⟩

theorem countChecks_passed {s : State} {n : ArgField} (h : firstError (countChecks n s) = none) :
    s.idle = true ∧ n.toNat ≤ s.cfg.totalPages := by
  obtain ⟨h1, h2⟩ := firstError_cons_none h
  exact ⟨h1, by simpa [countInRange] using (firstError_cons_none h2).1⟩

theorem legal_four {cfg : Config} {op : Byte} {a : AddrField} (ha : isPageField cfg a = true) (hop : emittedOpcode cfg op = true)
    (h : op ∉ [opcStatusRead, opcBuf1Write, opcBuf2Write, opcBuf1Read, opcBuf2Read] ∧ op ≠ 0xC7) :
    LegalFrame cfg (op :: addrBytes a) 0 0 :=
  Ends.legal_addressed hop (Ends.frameLengthOk_four h.1) (Ends.addressOk_page ha (by
    have := h.1
    simp only [List.mem_cons, not_or] at this ⊢
    exact ⟨h.2, this.2⟩))

/-- The transport calls, `ERASE_RANGE`, the single frames and the reserved codes. -/
theorem transport_effect {s : State} {i : Instr} (hI : s.Inv) (hk : keepsRegisters i = true)
    (hne : ∀ c rest, i ≠ .spiIdRead c rest ∧ i ≠ .spiSecurityRead c rest)
    (hc : firstError (transportGuard s i) = none) : s.idle = true ∧ BodyEffect s i (s.onBus (transportProc s i)) := by
  have hpl := Inv.pollLimit_pos hI
  have one : ∀ {α : Type} {n : Nat} {w v : Bool} {c : Nat} {b : Bus} {r : Res Bus α}, c < s.cfg.chips →
      Ends s.cfg (· = c) n w b r → (w = true → v = true) → Ends s.cfg (· < s.cfg.chips) n v b r :=
    fun hc h hw => h.mono (le_refl _) hw (by rintro d rfl; exact hc)
  have four : ∀ {c : ChipField} {hdr : List Byte}, c.toNat < s.cfg.chips → hdr.length = 4 →
      LegalFrame s.cfg hdr 0 0 → Ends s.cfg (· < s.cfg.chips) 6 false s.bus (noData (issueBusy s.cfg c.toNat hdr) s.bus) :=
    fun hc hl hf => one hc ((noData_ends (Ends.issueBusy _ hf s.bus)).mono (by omega) (fun h => h) fun _ h => h) (fun h => h)
  have commit : ∀ {c : ChipField} {hdr : List Byte} {p : Nat}, c.toNat < s.cfg.chips → hdr.length = 4 →
      LegalFrame s.cfg hdr 0 0 → Ends s.cfg (· < s.cfg.chips) 6 false s.bus
        (noData (fun b => issueBusy s.cfg c.toNat hdr (b.noteCommit s.cfg c.toNat p)) s.bus) :=
    fun hc hl hf => one hc ((noData_ends ((Ends.issueBusy _ hf (s.bus.noteCommit s.cfg _ _)).of_trace rfl)).mono
      (by omega) (fun h => h) fun _ h => h) (fun h => h)
  have write : ∀ {c : ChipField} {op : Byte} {a : AddrField} {data : List Byte}, c.toNat < s.cfg.chips →
      (op = opcBuf1Write ∨ op = opcBuf2Write) → isBufferField a = true → data.length ≤ s.cfg.pageSize →
      Ends s.cfg (· < s.cfg.chips) (6 + data.length) false s.bus
        (noData (fun b => (issue s.cfg c.toNat (op :: addrBytes a ++ data) 0 0 b).andThen fun _ b => .ok () b) s.bus) := by
    intro c op a data hc ho ha hl
    refine one hc ((noData_ends (f := fun b => (issue s.cfg c.toNat (op :: addrBytes a ++ data) 0 0 b).andThen
      fun _ b => .ok () b) ((Ends.issue c.toNat (legal_write s.cfg ho ha hl) s.bus).andThen (m := 0)
        fun _ _ _ h => .ok h)).mono ?_ (fun h => h) fun _ h => h) (fun h => h)
    simp
    omega
  have read : ∀ {c : ChipField} {op : Byte} {a : AddrField}, c.toNat < s.cfg.chips →
      (op = opcBuf1Read ∨ op = opcBuf2Read) → isBufferField a = true →
      Ends s.cfg (· < s.cfg.chips) (6 + s.cfg.bufReadDummy + s.cfg.pageSize) false s.bus
        (issue s.cfg c.toNat (op :: addrBytes a) s.cfg.bufReadDummy s.cfg.pageSize s.bus) := by
    intro c op a hc ho ha
    refine one hc ((Ends.issue c.toNat (legal_read s.cfg ho ha) s.bus).mono ?_ (fun h => h) fun _ h => h) (fun h => h)
    simp
    omega
  cases i with
  | startW => cases hk
  | writeByte v => cases hk
  | endW => cases hk
  | readPage => cases hk
  | seekW l => cases hk
  | seekR l => cases hk
  | eraseRange n =>
    obtain ⟨h1, h2⟩ := countChecks_passed hc
    exact ⟨h1, onBus_effect (hI.resting h1).2 (fun _ _ h => h) rfl rfl
      (noData_ends (Ends.eraseFrom hI.valid hpl hI.chips_pos _ _ (by omega) (hI.resting h1).2)) fun _ _ => noData_length⟩
  | readStatus c =>
    obtain ⟨h1, h2⟩ := transportChecks_passed hc
    exact ⟨h1, onBus_effect (hI.resting h1).2 (fun _ _ h => h) rfl rfl
      (one h2 (statusData_ends _ _ _) (fun h => h)) fun _ _ => statusData_length⟩
  | waitReady c =>
    obtain ⟨h1, h2⟩ := transportChecks_passed hc
    exact ⟨h1, onBus_effect (hI.resting h1).2 (fun _ _ h => h) rfl rfl
      (one h2 (noData_ends (Ends.pollReady _ hpl _)) (fun h => h)) fun _ _ => noData_length⟩
  | pageErase c p =>
    obtain ⟨h1, h2, h3⟩ := pageChecks_passed hc
    exact ⟨h1, onBus_effect (hI.resting h1).2 (fun _ _ h => h) rfl rfl
      (one h2 (noData_ends (Ends.eraseAndPoll hpl _ (Ends.legal_pageErase hI.valid h3) _)) (fun h => h)) fun _ _ => noData_length⟩
  | sectorErase c p =>
    obtain ⟨h1, h2, h3⟩ := pageChecks_passed hc
    exact ⟨h1, onBus_effect (hI.resting h1).2 (fun _ _ h => h) rfl rfl
      (one h2 (noData_ends (Ends.eraseAndPoll hpl _ (Ends.legal_sectorErase hI.valid h3) _)) (fun h => h)) fun _ _ => noData_length⟩
  | chipErase c =>
    obtain ⟨h1, h2⟩ := transportChecks_passed hc
    exact ⟨h1, onBus_effect (hI.resting h1).2 (fun _ _ h => h) rfl rfl
      (one h2 (noData_ends (Ends.eraseAndPoll hpl _ Ends.legal_chipErase _)) (fun h => h)) fun _ _ => noData_length⟩
  | reservedOp0 rest => cases hc
  | reservedOpD rest => cases hc
  | reservedOpE rest => cases hc
  | reservedOpF rest => cases hc
  | spiStatusRead c =>
    obtain ⟨-, h1, h2⟩ := frameChecks_passed hc
    exact ⟨h1, onBus_effect (hI.resting h1).2 (fun _ _ h => h) rfl rfl
      (one h2 (statusData_ends _ _ _) (fun h => h)) fun _ _ => statusData_length⟩
  | spiPageToBuf1 c a =>
    obtain ⟨h0, h1, h2⟩ := frameChecks_passed hc
    exact ⟨h1, onBus_effect (hI.resting h1).2 (fun _ _ h => h) rfl rfl
      (four h2 rfl (legal_four h0 (by simp [emittedOpcode]) (by decide))) fun _ _ => noData_length⟩
  | spiPageToBuf2 c a =>
    obtain ⟨h0, h1, h2⟩ := frameChecks_passed hc
    exact ⟨h1, onBus_effect (hI.resting h1).2 (fun _ _ h => h) rfl rfl
      (four h2 rfl (legal_four h0 (by simp [emittedOpcode]) (by decide))) fun _ _ => noData_length⟩
  | spiBuf1Read c a =>
    obtain ⟨h0, h1, h2⟩ := frameChecks_passed hc
    exact ⟨h1, onBus_effect (hI.resting h1).2 (fun _ _ h => h) rfl rfl (read h2 (.inl rfl) h0) fun _ _ => Ends.issue_length⟩
  | spiBuf2Read c a =>
    obtain ⟨h0, h1, h2⟩ := frameChecks_passed hc
    exact ⟨h1, onBus_effect (hI.resting h1).2 (fun _ _ h => h) rfl rfl (read h2 (.inr rfl) h0) fun _ _ => Ends.issue_length⟩
  | spiBuf1Write c a data =>
    obtain ⟨h0, h1, h2⟩ := frameChecks_passed hc
    exact ⟨h1, onBus_effect (hI.resting h1).2 (fun _ _ h => h) rfl rfl
      (write h2 (.inl rfl) (Bool.and_eq_true_iff.1 h0).2 (by simpa using (Bool.and_eq_true_iff.1 h0).1)) fun _ _ => noData_length
        (f := fun b => (issue s.cfg c.toNat (opcBuf1Write :: addrBytes a ++ data) 0 0 b).andThen fun _ b => .ok () b)⟩
  | spiBuf2Write c a data =>
    obtain ⟨h0, h1, h2⟩ := frameChecks_passed hc
    exact ⟨h1, onBus_effect (hI.resting h1).2 (fun _ _ h => h) rfl rfl
      (write h2 (.inr rfl) (Bool.and_eq_true_iff.1 h0).2 (by simpa using (Bool.and_eq_true_iff.1 h0).1)) fun _ _ => noData_length
        (f := fun b => (issue s.cfg c.toNat (opcBuf2Write :: addrBytes a ++ data) 0 0 b).andThen fun _ b => .ok () b)⟩
  | spiBuf1Commit c a =>
    obtain ⟨h0, h1, h2⟩ := frameChecks_passed hc
    obtain ⟨h0, h3⟩ : s.cfg.commitVariant = false ∧ isPageField s.cfg a = true := by simpa using h0
    exact ⟨h1, onBus_effect (hI.resting h1).2 (fun _ _ h => h) rfl rfl
      (commit h2 rfl (legal_four h3 (by simp [emittedOpcode, opcCommit, h0]) (by decide))) fun _ _ => noData_length⟩
  | spiBuf1CommitAlt c a =>
    obtain ⟨h0, h1, h2⟩ := frameChecks_passed hc
    obtain ⟨h0, h3⟩ : s.cfg.commitVariant = true ∧ isPageField s.cfg a = true := by simpa using h0
    exact ⟨h1, onBus_effect (hI.resting h1).2 (fun _ _ h => h) rfl rfl
      (commit h2 rfl (legal_four h3 (by simp [emittedOpcode, opcCommit, h0]) (by decide))) fun _ _ => noData_length⟩
  | spiBuf2Commit c a =>
    obtain ⟨h0, h1, h2⟩ := frameChecks_passed hc
    obtain ⟨h0, h3⟩ : s.cfg.commitVariant = false ∧ isPageField s.cfg a = true := by simpa using h0
    exact ⟨h1, onBus_effect (hI.resting h1).2 (fun _ _ h => h) rfl rfl
      (commit h2 rfl (legal_four h3 (by simp [emittedOpcode, opcCommit, h0]) (by decide))) fun _ _ => noData_length⟩
  | spiBuf2CommitAlt c a =>
    obtain ⟨h0, h1, h2⟩ := frameChecks_passed hc
    obtain ⟨h0, h3⟩ : s.cfg.commitVariant = true ∧ isPageField s.cfg a = true := by simpa using h0
    exact ⟨h1, onBus_effect (hI.resting h1).2 (fun _ _ h => h) rfl rfl
      (commit h2 rfl (legal_four h3 (by simp [emittedOpcode, opcCommit, h0]) (by decide))) fun _ _ => noData_length⟩
  | spiPageErase c a =>
    obtain ⟨h0, h1, h2⟩ := frameChecks_passed hc
    exact ⟨h1, onBus_effect (hI.resting h1).2 (fun _ _ h => h) rfl rfl
      (four h2 rfl (legal_four h0 (by simp [emittedOpcode]) (by decide))) fun _ _ => noData_length⟩
  | spiSectorErase c a =>
    obtain ⟨h0, h1, h2⟩ := frameChecks_passed hc
    exact ⟨h1, onBus_effect (hI.resting h1).2 (fun _ _ h => h) rfl rfl
      (four h2 rfl (legal_four h0 (by simp [emittedOpcode]) (by decide))) fun _ _ => noData_length⟩
  | spiChipErase c =>
    obtain ⟨-, h1, h2⟩ := frameChecks_passed hc
    exact ⟨h1, onBus_effect (hI.resting h1).2 (fun _ _ h => h) rfl rfl
      (four h2 rfl Ends.legal_chipErase) fun _ _ => noData_length⟩
  | spiIdRead c rest => exact absurd rfl (hne c rest).1
  | spiSecurityRead c rest => exact absurd rfl (hne c rest).2

/-! The stream operations. -/

theorem startBody_effect {s : State} (hI : s.Inv) (hi : s.idle = true) : BodyEffect s .startW (startBody s) := by
  have hr := hI.resting hi
  have he := engOpen_effect s.curW { s with handles := s.handles.map Handle.start }
  have hcur : s.curW < s.bus.chips.length := by rw [hI.devices]; exact hI.curW_lt
  rw [startBody, forEachChip_engStart s hI.banks]
  cases hx : engOpen s.curW { s with handles := s.handles.map Handle.start } with
  | ok a u =>
    rw [hx] at he
    obtain ⟨h1, h2, -, h3, h4⟩ := he
    have hs : u.soff = 0 := by rw [h1]; exact hI.rest_soff hr
    have hh : u.handle s.curW = State.handle { s with handles := s.handles.map Handle.start } s.curW := by rw [h1]; rfl
    refine ⟨⟨h1, h2⟩, rfl, ?_, fun m hm => ?_⟩
    · intro c hc
      rw [h2] at hc
      obtain rfl := Option.some.inj hc
      exact ⟨[], by rw [h4 hcur, hh]; simp, by simp [hs]⟩
    · refine ⟨_, (State.monitorAt_some h2).2 ⟨[], by simp [hs], rfl⟩, ?_⟩
      rw [(State.monitorAt_none hr.2).1 hm, hh, List.append_nil]
      exact h3
  | raise e d u =>
    rw [hx] at he
    obtain ⟨rfl, rfl, h3, h4, h5, sent, h6⟩ := he
    refine ⟨hI.curW_lt, rfl, ⟨_, rfl, fun b => ?_⟩, fun _ => ?_, .inl ⟨rfl, h3, h5, fun m hm => ⟨sent, ?_⟩⟩⟩
    · rw [h4]; rfl
    · exact State.not_idle (List.mem_map_of_mem (hI.mem_handle hI.curW_lt)) (by rw [h4]) (by simp [Handle.start])
    · rw [(State.monitorAt_none hr.2).1 hm]; exact h6

theorem modify_committing_aborted (l : List Handle) (c : Nat) :
    (l.modify c fun h => { h with est := .committing }).map Handle.aborted = l.map Handle.aborted := by
  apply List.ext_getElem?
  intro i
  simp only [List.getElem?_map, List.getElem?_modify]
  by_cases h : c = i <;> cases l[i]? <;> simp [h, Handle.aborted]

theorem writeBody_effect {s : State} (hI : s.Inv) (hf : s.filling = true)
    (hw : (s.handle s.curW).wpage < s.cfg.numPages) (v : Byte) :
    BodyEffect s (.writeByte v) (writeBody v s) := by
  obtain ⟨-, hcs, data, hrec, hdata⟩ := hI.streaming hf
  have hcur : s.curW < s.bus.chips.length := by rw [hI.devices]; exact hI.curW_lt
  have hbank : s.curW < s.handles.length := by rw [hI.banks]; exact hI.curW_lt
  have hsend := engSend_effect hcs v
  rw [writeBody]
  cases hx : engSend s.curW v s with
  | raise e d u =>
    rw [hx] at hsend
    obtain ⟨rfl, rfl, h3, h4, h5, h6⟩ := hsend
    refine ⟨hI.curW_lt, rfl, ⟨s, .inl rfl, fun b => by rw [h4]; rfl⟩, fun _ => by rw [h4]; exact hI.idle_eq_false hf, .inl ⟨rfl, h3, h5, fun m hm => ?_⟩⟩
    obtain ⟨d, hd, rfl⟩ := (State.monitorAt_some hcs).1 hm
    obtain ⟨sent, hs⟩ := h6 (s.handle s.curW).par d
    exact ⟨sent, hs.mono (by simp only [eventBound]; split <;> omega)⟩
  | ok a u =>
    rw [hx] at hsend
    obtain ⟨h1, h2, h3, h4, h5⟩ := hsend
    have hucfg : u.cfg = s.cfg := by rw [h1]
    have husoff : u.soff = s.soff := by rw [h1]
    simp only [Res.andThen_ok, hucfg, husoff]
    split
    · next hlt =>
      have hw : { u.onHandle s.curW Handle.fed with soff := s.soff + 1 } =
          { s with
            bus := u.bus
            handles := s.handles.set s.curW (s.handle s.curW).fed
            soff := s.soff + 1 } := by
        rw [h1, ← State.modify_eq_set]; rfl
      have hpar : (State.handle { u.onHandle s.curW Handle.fed with soff := s.soff + 1 } s.curW).par =
          (s.handle s.curW).par := by
        rw [hw]; simp [State.handle, hbank, Handle.fed]
      refine ⟨.inl ⟨hlt, hw, h2⟩, rfl, ?_, fun m hm => ?_⟩
      · intro c hc
        obtain rfl := Option.some.inj (h2.symm.trans hc)
        refine ⟨data ++ [v], ?_, by simp [hdata]⟩
        rw [hpar]
        exact (h5 hcur).trans (by rw [hrec, List.append_assoc])
      · obtain ⟨d, hd, rfl⟩ := (State.monitorAt_some hcs).1 hm
        refine ⟨_, (State.monitorAt_some (by exact h2)).2 ⟨d ++ [v], by simp [hd], rfl⟩, ?_⟩
        rw [hpar]
        exact (h4 _ d).mono (by simp [eventBound, hlt])
    · next hge =>
      have hP : s.soff + 1 = s.cfg.pageSize := by have := hI.soff_lt; omega
      have hbound : eventBound s (.writeByte v) = 1 + 1 + pollEvents s.cfg + 6 + 5 := by simp [eventBound, hge]
      have hub : u.handles = s.handles := by rw [h1]
      have huh : ∀ c, u.handle c = s.handle c := fun c => by rw [h1]; rfl
      have hcom := engCommit_effect (s := u) (c := s.curW) (by rw [hucfg]; exact hI.valid) (by rw [hub]; exact hbank)
        (by rw [hucfg]; exact Inv.pollLimit_pos hI) (by rw [huh, hucfg]; exact hw)
      rw [pageAdvance]
      cases hy : engCommit s.curW u with
      | raise e d w =>
        rw [hy] at hcom
        obtain ⟨rfl, g1, g2⟩ := hcom
        rw [hucfg] at g2
        have hbase : ∀ b, w.aborted b = s.aborted b := fun b => by
          rw [g1, h1]
          simp [State.aborted, engCloseFull_eq, modify_committing_aborted]
        have hbusy : w.idle = false := by
          rw [g1, h1]
          refine State.not_idle (x := { s.handle s.curW with est := .committing }) ?_ rfl (by simp)
          simp only [engCloseFull_eq]
          exact List.mem_of_getElem? (i := s.curW) (by simp [List.getElem?_modify, hI.getElem?_handle hI.curW_lt])
        rcases g2 with ⟨rfl, g3, g4, g5⟩ | ⟨rfl, g4, g5⟩
        · refine ⟨hI.curW_lt, rfl, ⟨s, .inl rfl, hbase⟩, fun _ => hbusy, .inl ⟨rfl, g3, g4, fun m hm => ?_⟩⟩
          obtain ⟨d, hd, rfl⟩ := (State.monitorAt_some hcs).1 hm
          obtain ⟨sent, hs⟩ := g5 (s.handle s.curW).par (d ++ [v]) (by simp [hd, hP])
          exact ⟨sent, ((h4 _ d).trans hs).mono (by omega)⟩
        · refine ⟨hI.curW_lt, rfl, ⟨s, .inl rfl, hbase⟩, fun _ => hbusy, .inr ⟨rfl, g4, fun m hm => ?_⟩⟩
          obtain ⟨d, hd, rfl⟩ := (State.monitorAt_some hcs).1 hm
          exact ((h4 _ d).trans (g5 (s.handle s.curW).par (d ++ [v]) (by simp [hd, hP]))).mono (by omega)
      | ok a' w =>
        rw [hy] at hcom
        obtain ⟨g1, g2, g3⟩ := hcom
        rw [huh, hub, h1] at g1
        rw [hucfg] at g3
        have hwcfg : w.cfg = s.cfg := by rw [g1]
        have hwcur : w.curW = s.curW := by rw [g1]
        have hnext : nextChip w.cfg w.curW = nextChip s.cfg s.curW := by rw [hwcfg, hwcur]
        have hnlt : nextChip s.cfg s.curW < s.cfg.chips := Nat.mod_lt _ hI.chips_pos
        simp only [Res.andThen_ok, hnext]
        have hopen := engOpen_effect (nextChip s.cfg s.curW) { w with soff := 0, curW := nextChip s.cfg s.curW }
        have hwlen : w.bus.chips.length = s.bus.chips.length := by
          have hcl : ∀ c, Closed s.cfg c (fun b => b.chips.length = s.bus.chips.length) := fun c =>
            ⟨fun b h => by simpa using h, fun b h => by simpa using h, fun b o h => by simpa using h,
              fun b h => by simpa using h, fun b h => by simpa using h, fun b p h => by simpa using h, fun b h => by simpa using h⟩
          have := engCommit_all (s := u) (c := s.curW) (P := fun b => b.chips.length = s.bus.chips.length)
            (by rw [hucfg]; exact hcl _) h3
          rw [hy] at this
          exact this.1
        cases hz : engOpen (nextChip s.cfg s.curW) { w with soff := 0, curW := nextChip s.cfg s.curW } with
        | raise e d x =>
          rw [hz] at hopen
          obtain ⟨rfl, rfl, k3, k4, k5, sent, k6⟩ := hopen
          refine ⟨hnlt, rfl, ⟨_, .inr ⟨hP, rfl⟩, fun b => by rw [k4, g1]; rfl⟩, fun _ => ?_,
            .inl ⟨rfl, by rw [← hwcfg]; exact k3, k5, fun m hm => ⟨sent, ?_⟩⟩⟩
          · rw [k4, g1]
            refine State.not_idle (x := (s.handle s.curW).committed) ?_ rfl (by simp [Handle.committed])
            exact List.mem_of_getElem? (i := s.curW) (by simp [List.getElem?_set, hbank])
          obtain ⟨d, hd, rfl⟩ := (State.monitorAt_some hcs).1 hm
          simp only [hwcfg] at k6
          exact (((h4 _ d).trans (g3 (s.handle s.curW).par (d ++ [v]) (by simp [hd, hP]))).trans k6).mono (by omega)
        | ok a'' x =>
          rw [hz] at hopen
          obtain ⟨k1, k2, -, k4, k5⟩ := hopen
          simp only [hwcfg] at k4
          have hx1 : x = { s with
              bus := x.bus
              handles := s.handles.set s.curW (s.handle s.curW).committed
              curW := nextChip s.cfg s.curW
              soff := 0 } := by rw [k1, g1]
          have hxh : x.handle (nextChip s.cfg s.curW) =
              State.handle { w with soff := 0, curW := nextChip s.cfg s.curW } (nextChip s.cfg s.curW) := by
            rw [k1]; rfl
          have hxs : x.soff = 0 := by rw [hx1]
          refine ⟨.inr ⟨hP, hx1, k2⟩, rfl, ?_, fun m hm => ?_⟩
          · intro c hc
            obtain rfl := Option.some.inj (k2.symm.trans hc)
            refine ⟨[], ?_, by simp [hxs]⟩
            rw [hxh, List.append_nil]
            exact k5 (by show _ < w.bus.chips.length; rw [hwlen, hI.devices]; exact hnlt)
          · obtain ⟨d, hd, rfl⟩ := (State.monitorAt_some hcs).1 hm
            refine ⟨_, (State.monitorAt_some k2).2 ⟨[], by simp [hxs], rfl⟩, ?_⟩
            rw [hxh, List.append_nil]
            exact (((h4 _ d).trans (g3 (s.handle s.curW).par (d ++ [v]) (by simp [hd, hP]))).trans k4).mono (by omega)

theorem endBody_effect {s : State} (hI : s.Inv) (hf : s.filling = true) (hs : s.soff = 0) :
    BodyEffect s .endW (endBody s) := by
  obtain ⟨-, hcs, -⟩ := hI.streaming hf
  have he := Ends.pollFrom (Inv.pollLimit_pos hI) s.cfg.chips 0 (b := s.bus.desel s.cfg s.curW) rfl
  have hd : ∀ m, s.MonitorAt m → Traced s.cfg 1 m .free s.bus (s.bus.desel s.cfg s.curW) := by
    intro m hm
    obtain ⟨d, hd, rfl⟩ := (State.monitorAt_some hcs).1 hm
    exact ⟨[.desel s.curW], rfl, le_refl _, Monitor.run_desel (.inr (openFrame_closes _ (by omega)))⟩
  rw [endBody, State.onBus_cfg_ok]
  cases hx : pollFrom s.cfg s.cfg.chips 0 (s.bus.desel s.cfg s.curW) with
  | ok a b =>
    rw [hx] at he
    simp only [Res.andThen_ok]
    have hend := forEachChip_engEnd { s with bus := b } hI.banks
    refine ⟨⟨?_, ?_⟩, rfl, ?_, fun m hm => ⟨.free, ?_, ?_⟩⟩
    · exact hend.trans (by rw [show State.forEachChip engEnd s.cfg.chips _ = _ from hend])
    · rw [show State.forEachChip engEnd s.cfg.chips _ = _ from hend]; exact he.1
    · rw [show State.forEachChip engEnd s.cfg.chips _ = _ from hend]; exact State.heard_none he.1
    · rw [show State.forEachChip engEnd s.cfg.chips _ = _ from hend]; exact (State.monitorAt_none he.1).2 rfl
    · rw [show State.forEachChip engEnd s.cfg.chips _ = _ from hend]; exact (hd m hm).trans he.2
  | raise e c b =>
    rw [hx] at he
    obtain ⟨⟨-, h1⟩, ⟨rfl, h3, h4, sent, h5⟩ | ⟨-, rfl, h4, h5⟩⟩ := he
    · exact ⟨by omega, rfl, ⟨s, rfl, fun _ => rfl⟩, fun _ => hI.idle_eq_false hf, .inl ⟨rfl, h3, h4, fun m hm => ⟨sent, (hd m hm).trans h5⟩⟩⟩
    · exact ⟨by omega, rfl, ⟨s, rfl, fun _ => rfl⟩, fun _ => hI.idle_eq_false hf, .inr ⟨rfl, h4, fun m hm => (hd m hm).trans h5⟩⟩

theorem readBody_effect {s : State} (hI : s.Inv) (hi : s.idle = true)
    (hp : (s.handle s.curR).rpage < s.cfg.numPages) : BodyEffect s .readPage (readBody s) := by
  have hr := hI.resting hi
  have he := readProc_ends (cfg := s.cfg) hI.valid s.curR hp (Inv.pollLimit_pos hI) s.bus
  rw [readBody, engReadPage_eq]
  unfold State.onBus
  cases hx : readProc s.cfg s.curR (s.handle s.curR).rpage s.bus with
  | ok data b =>
    rw [hx] at he
    refine ⟨⟨?_, he.1⟩, readProc_length hx, State.heard_none he.1, fun m hm =>
      ⟨.free, (State.monitorAt_none he.1).2 rfl, ?_⟩⟩
    · simp only [State.onHandle]; rw [State.modify_eq_set]
    · rw [(State.monitorAt_none hr.2).1 hm]; exact he.2
  | raise e c b =>
    rw [hx] at he
    obtain ⟨rfl, ⟨rfl, h3, h4, sent, h5⟩ | ⟨-, rfl, h4, h5⟩⟩ := he
    · refine ⟨hI.curR_lt, rfl, ⟨s, rfl, fun _ => rfl⟩, by simp [inSession], .inl ⟨rfl, h3, h4, fun m hm => ⟨sent, ?_⟩⟩⟩
      rw [(State.monitorAt_none hr.2).1 hm]; exact h5
    · refine ⟨hI.curR_lt, rfl, ⟨s, rfl, fun _ => rfl⟩, by simp [inSession], .inr ⟨rfl, h4, fun m hm => ?_⟩⟩
      rw [(State.monitorAt_none hr.2).1 hm]; exact h5

theorem seekBodyW_effect {s : State} (hI : s.Inv) (hi : s.idle = true) (l : ArgField) :
    BodyEffect s (.seekW l) (seekBodyW l.toNat s) := by
  have hr := hI.resting hi
  rw [seekBodyW, forEachChip_seekW s _ hI.banks]
  refine ⟨⟨rfl, hr.2⟩, rfl, State.heard_none hr.2, fun m hm => ⟨.free, (State.monitorAt_none (by exact hr.2)).2 rfl, ?_⟩⟩
  rw [(State.monitorAt_none hr.2).1 hm]; exact .refl rfl

theorem seekBodyR_effect {s : State} (hI : s.Inv) (hi : s.idle = true) (l : ArgField) :
    BodyEffect s (.seekR l) (seekBodyR l.toNat s) := by
  have hr := hI.resting hi
  rw [seekBodyR, forEachChip_seekR s _ hI.banks]
  refine ⟨⟨rfl, hr.2⟩, rfl, State.heard_none hr.2, fun m hm => ⟨.free, (State.monitorAt_none (by exact hr.2)).2 rfl, ?_⟩⟩
  rw [(State.monitorAt_none hr.2).1 hm]; exact .refl rfl

/-! Every instruction. -/

/-- R114: the low byte of the OK word. -/
theorem transportLow_eq (i : Instr) (r : Response) : transportLow i r.data = responseLow i r := by cases i <;> rfl

theorem firstError_mem {l : List (Bool × ErrorKind)} {e : ErrorKind} (h : firstError l = some e) : ∃ b, (b, e) ∈ l := by
  induction l with
  | nil => cases h
  | cons x l ih =>
    obtain ⟨b, e'⟩ := x
    cases b
    · obtain rfl := Option.some.inj h
      exact ⟨false, by simp⟩
    · obtain ⟨b, hb⟩ := ih h
      exact ⟨b, by simp [hb]⟩

/-- What `perform` leaves of a body whose effect is known. -/
inductive Outcome (s : State) (i : Instr) (t : State) : Prop where
  /-- R256: an error found by a check. -/
  | refused (e : ErrorKind) (he : mayAnswer i e = true) (hk : e = .sequenceMisuse ∨ e = .invalidAddress)
      (ht : t = { s with responses := s.responses ++ [errResponse e 0] })
  /-- R18: `OK(data)`. -/
  | answered (data : List Byte) (w : State) (ready : Ready s i) (regs : OkRegs s data i w)
      (length : data.length = responseLength s.cfg i) (heard : w.Heard)
      (moved : ∀ m, s.MonitorAt m → ∃ m', w.MonitorAt m' ∧ Traced s.cfg (eventBound s i) m m' s.bus w.bus)
      (ht : t = { w with responses := s.responses ++ [okResponse data (transportLow i data)] })
  /-- R256: the abort. -/
  | failed (e : ErrorKind) (c : Nat) (base : State) (ready : Ready s i) (hc : c < s.cfg.chips)
      (he : mayAnswer i e = true) (hk : e = .deviceTimeout ∨ e = .busFault) (hf : e = .busFault → s.cfg.hasBusFault = true)
      (regs : ErrBase s i base) (cs : t.bus.cs = none)
      (moved : ∀ m, s.MonitorAt m →
        Traced s.cfg (eventBound s i + if e = .busFault then 1 else 0) m .free s.bus t.bus)
      (ht : t = { base.aborted t.bus with responses := s.responses ++ [errResponse e c] })
      (lost : inSession i = true → ∃ b : Bus, t.bus = b.loseBuffers)

theorem outcome_of_body {s t : State} {i : Instr} {checks : List (Bool × ErrorKind)} {low : List Byte → Byte}
    {body : State → Res State (List Byte)} (hresp : ∀ data w, OkRegs s data i w → w.responses = s.responses)
    (hbase : ∀ w, ErrBase s i w → w.responses = s.responses ∧ w.cfg = s.cfg)
    (hlow : ∀ data, low data = transportLow i data)
    (hcheck : ∀ e, firstError checks = some e → mayAnswer i e = true ∧ (e = .sequenceMisuse ∨ e = .invalidAddress))
    (hbody : firstError checks = none → Ready s i ∧ BodyEffect s i (body s))
    (h : perform checks low body s = .next t) : Outcome s i t := by
  rcases perform_cases h with ⟨e, he, rfl⟩ | ⟨hn, ⟨data, w, hr, rfl⟩ | ⟨e, c, w, hr, rfl⟩⟩
  · exact .refused e (hcheck e he).1 (hcheck e he).2 rfl
  · obtain ⟨h1, h2⟩ := hbody hn
    rw [hr] at h2
    obtain ⟨h3, h4, h5, h6⟩ := h2
    exact .answered data w h1 h3 h4 h5 h6 (by rw [hresp _ _ h3, hlow])
  · obtain ⟨h1, h2⟩ := hbody hn
    rw [hr] at h2
    obtain ⟨h3, h4, ⟨base, h5, h6⟩, h11, h7⟩ := h2
    obtain ⟨hb1, hb2⟩ := hbase _ h5
    have hwr : w.responses = s.responses := (congrArg State.responses (h6 w.bus)).trans hb1
    have hwc : w.cfg = s.cfg := (congrArg State.cfg (h6 w.bus)).trans hb2
    have ht : w.takeError e c = { base.aborted w.abort.bus with responses := s.responses ++ [errResponse e c] } := by
      rw [State.takeError_eq, ← h6 w.abort.bus, hwr]; rfl
    have hlost : inSession i = true → ∃ b : Bus, (w.takeError e c).bus = b.loseBuffers := fun hi =>
      ⟨_, State.abort_bus_session (h11 hi)⟩
    have htr : (w.takeError e c).bus.trace = w.release.trace := State.abort_trace w
    have hcs : (w.takeError e c).bus.cs = none := State.abort_cs w
    rcases h7 with ⟨rfl, h8, h9, h10⟩ | ⟨rfl, h9, h10⟩
    · refine .failed .busFault c base h1 h3 h4 (.inr rfl) (fun _ => h8) h5 hcs (fun m hm => ?_) ht hlost
      obtain ⟨sent, hs⟩ := h10 m hm
      exact Traced.congr (b' := w.bus.desel s.cfg c) (hs.desel (.inl rfl)) (by rw [htr, State.release_some h9, hwc])
    · refine .failed .deviceTimeout c base h1 h3 h4 (.inl rfl) (by simp) h5 hcs (fun m hm => ?_) ht hlost
      exact Traced.congr (b' := w.bus) ((h10 m hm).mono (by omega)) (by rw [htr, State.release_none h9])

theorem okRegs_responses {s : State} {data : List Byte} {i : Instr} {w : State} (h : OkRegs s data i w) :
    w.responses = s.responses := by
  cases i with
  | writeByte v => rcases h with ⟨-, h, -⟩ | ⟨-, h, -⟩ <;> rw [h]
  | _ => rw [h.1]

theorem errBase_same {s : State} {i : Instr} {w : State} (h : ErrBase s i w) :
    w.responses = s.responses ∧ w.cfg = s.cfg := by
  cases i with
  | startW => rw [show w = _ from h]; exact ⟨rfl, rfl⟩
  | writeByte v => rcases h with rfl | ⟨-, rfl⟩ <;> exact ⟨rfl, rfl⟩
  | _ => rw [show w = s from h]; exact ⟨rfl, rfl⟩

theorem checks_errors {i : Instr} {l : List (Bool × ErrorKind)} {e : ErrorKind} (h : firstError l = some e)
    (hl : (l.map Prod.snd).all (fun e => mayAnswer i e && (e == .sequenceMisuse || e == .invalidAddress)) = true) :
    mayAnswer i e = true ∧ (e = .sequenceMisuse ∨ e = .invalidAddress) := by
  obtain ⟨b, hb⟩ := firstError_mem h
  have := List.all_eq_true.1 hl e (List.mem_map.2 ⟨_, hb, rfl⟩)
  simpa using this

theorem guard_errors {s : State} {i : Instr} {e : ErrorKind} (h : firstError (transportGuard s i) = some e) :
    mayAnswer i e = true ∧ (e = .sequenceMisuse ∨ e = .invalidAddress) := by
  refine checks_errors h ?_
  cases i <;> rfl

/-- Everything an instruction can do. -/
theorem exec_outcome {s t : State} {i : Instr} (hI : s.Inv) (h : exec i s = .next t) : Outcome s i t := by
  by_cases hk : keepsRegisters i = true
  · have hne : ∀ c rest, i ≠ .spiIdRead c rest ∧ i ≠ .spiSecurityRead c rest := by
      intro c rest
      constructor <;> rintro rfl <;> cases h
    rw [exec_transport hk hne] at h
    refine outcome_of_body (fun _ _ => okRegs_responses) (fun _ => errBase_same) (fun _ => rfl)
      (fun e he => guard_errors he) (fun hc => ?_) h
    obtain ⟨h1, h2⟩ := transport_effect hI hk hne hc
    refine ⟨?_, h2⟩
    cases i with
    | startW => cases hk
    | writeByte v => cases hk
    | endW => cases hk
    | readPage => cases hk
    | seekW l => cases hk
    | seekR l => cases hk
    | _ => exact h1
  · cases i with
    | startW =>
      refine outcome_of_body (i := .startW) (fun _ _ => okRegs_responses) (fun _ => errBase_same) (fun _ => rfl)
        (fun e he => checks_errors he rfl) (fun hc => ?_) (h : execStartW s = .next t)
      have h1 := (firstError_cons_none hc).1
      exact ⟨h1, startBody_effect hI h1⟩
    | writeByte v =>
      refine outcome_of_body (i := .writeByte v) (fun _ _ => okRegs_responses) (fun _ => errBase_same) (fun _ => rfl)
        (fun e he => checks_errors he rfl) (fun hc => ?_) (h : execWriteByte v s = .next t)
      obtain ⟨h1, h2⟩ := firstError_cons_none hc
      have h3 : (s.handle s.curW).wpage < s.cfg.numPages := by simpa using (firstError_cons_none h2).1
      exact ⟨⟨h1, h3⟩, writeBody_effect hI h1 h3 v⟩
    | endW =>
      refine outcome_of_body (i := .endW) (fun _ _ => okRegs_responses) (fun _ => errBase_same) (fun _ => rfl)
        (fun e he => checks_errors he rfl) (fun hc => ?_) (h : execEndW s = .next t)
      obtain ⟨h1, h2⟩ := firstError_cons_none hc
      have h3 : s.soff = 0 := by simpa using (firstError_cons_none h2).1
      exact ⟨⟨h1, h3⟩, endBody_effect hI h1 h3⟩
    | readPage =>
      refine outcome_of_body (i := .readPage) (fun _ _ => okRegs_responses) (fun _ => errBase_same) (fun _ => rfl)
        (fun e he => checks_errors he rfl) (fun hc => ?_) (h : execReadPage s = .next t)
      obtain ⟨h1, h2⟩ := firstError_cons_none hc
      have h3 : (s.handle s.curR).rpage < s.cfg.numPages := by simpa using (firstError_cons_none h2).1
      exact ⟨⟨h1, h3⟩, readBody_effect hI h1 h3⟩
    | seekW l =>
      refine outcome_of_body (i := .seekW l) (fun _ _ => okRegs_responses) (fun _ => errBase_same) (fun _ => rfl)
        (fun e he => checks_errors he rfl) (fun hc => ?_) (h : execSeekW l s = .next t)
      obtain ⟨h1, h2⟩ := countChecks_passed hc
      exact ⟨⟨h1, h2⟩, seekBodyW_effect hI h1 l⟩
    | seekR l =>
      refine outcome_of_body (i := .seekR l) (fun _ _ => okRegs_responses) (fun _ => errBase_same) (fun _ => rfl)
        (fun e he => checks_errors he rfl) (fun hc => ?_) (h : execSeekR l s = .next t)
      obtain ⟨h1, h2⟩ := countChecks_passed hc
      exact ⟨⟨h1, h2⟩, seekBodyR_effect hI h1 l⟩
    | _ => exact absurd rfl hk

end Sys2Proof.Machine
end

