-- ==== Sys2Proof/Laws/Keeps.lean ====
section
/-! SUPPORT. What frames do to one chip: a property of the chip that every frame of a kind keeps is kept by every procedure that
sends that chip only such frames, and by every procedure on another chip (R90). -/

namespace Sys2Proof.Machine

/-- Every byte that makes the received frame one of `Q`, and the end of such a frame, keeps `P` of chip `d`. -/
structure Kept (cfg : Config) (d : Nat) (Q : List Byte → Prop) (P : Chip → Prop) : Prop where
  settle : ∀ n ch, P ch → P (ch.settle d n)
  select : ∀ ch, P ch → P ch.select
  receive : ∀ o ch, P ch → Q (ch.received ++ [o]) → P (ch.receive cfg o)
  deselect : ∀ ch, P ch → Q ch.received → P (ch.deselect cfg d)
  nil : Q []
  cut : ∀ r r', Q (r ++ r') → Q r

/-- Chip `d` has `P`. -/
def Bus.Has (d : Nat) (P : Chip → Prop) (b : Bus) : Prop := ∀ ch, b.chips[d]? = some ch → P ch

/-- Chip `d` has `P` after a procedure, and after the abort that an error starts. -/
def Keeps {α : Type} (cfg : Config) (d : Nat) (P : Chip → Prop) (r : Res Bus α) : Prop :=
  r.Post (fun _ b => b.Has d P) (fun _ _ b => b.Has d P ∧ ∀ j, b.cs = some j → (b.desel cfg j).Has d P)

namespace Keeps

variable {cfg : Config} {c d : Nat} {P P' : Chip → Prop} {α β : Type}

theorem andThen {r : Res Bus α} {f : α → Bus → Res Bus β} (h : Keeps cfg d P r)
    (hf : ∀ a b, r = .ok a b → b.Has d P → Keeps cfg d P (f a b)) : Keeps cfg d P (r.andThen f) := by
  cases r with
  | ok a b => exact hf a b rfl h
  | raise e c b => exact h

theorem mono {r : Res Bus α} (h : Keeps cfg d P r) (hP : ∀ ch, P ch → P' ch) : Keeps cfg d P' r :=
  Res.Post.mono h (fun _ _ h ch hc => hP ch (h ch hc)) fun _ _ _ h =>
    ⟨fun ch hc => hP ch (h.1 ch hc), fun j hj ch hc => hP ch (h.2 j hj ch hc)⟩

end Keeps

namespace Kept

variable {cfg : Config} {c d : Nat} {Q : List Byte → Prop} {P : Chip → Prop}

theorem sel (h : Kept cfg d Q P) (c : Nat) {b : Bus} (hb : b.Has d P) : (b.sel c).Has d P := by
  intro ch hc
  rw [Bus.sel_getElem?, Option.map_eq_some_iff] at hc
  obtain ⟨ch', h1, rfl⟩ := hc
  have := h.settle b.tick ch' (hb ch' h1)
  split
  · exact h.select _ this
  · exact this

theorem desel (h : Kept cfg d Q P) {b : Bus} (hb : b.Has d P)
    (hq : c = d → ∀ ch, b.chips[d]? = some ch → Q ch.received) : (b.desel cfg c).Has d P := by
  intro ch hc
  rw [Bus.desel_getElem?, Option.map_eq_some_iff] at hc
  obtain ⟨ch', h1, rfl⟩ := hc
  have := h.settle b.tick ch' (hb ch' h1)
  split
  · next hcd =>
    subst hcd
    exact h.deselect _ this (by simpa using hq rfl ch' h1)
  · exact this

/-- What a block of exchanges leaves of chip `d`, and what that chip has received then. -/
theorem transferBlock (h : Kept cfg d Q P) (c : Nat) (os : List Byte) {b : Bus} (hb : b.Has d P)
    (hq : b.cs = some d → ∀ ch, b.chips[d]? = some ch → Q (ch.received ++ os)) :
    (transferBlock cfg c os b).All fun b' => b'.cs = b.cs ∧ b'.Has d P ∧
      (b.cs = some d → ∀ ch, b'.chips[d]? = some ch → Q ch.received) := by
  induction os generalizing b with
  | nil => exact ⟨rfl, hb, fun hs ch hc => by simpa using hq hs ch hc⟩
  | cons o os ih =>
    have hcs := Bus.xfer_cs b cfg o
    simp only [Machine.transferBlock]
    split
    · next b' hx =>
      have h4 := Bus.xfer_getElem?_fault (b := b) (cfg := cfg) (o := o) (by rw [hx]) d
      rw [hx] at h4 hcs
      refine ⟨hcs, fun ch hc => ?_, fun hs ch hc => ?_⟩
      · rw [h4, Option.map_eq_some_iff] at hc
        obtain ⟨ch', h1, rfl⟩ := hc
        exact h.settle _ _ (hb ch' h1)
      · rw [h4, Option.map_eq_some_iff] at hc
        obtain ⟨ch', h1, rfl⟩ := hc
        exact h.cut _ (o :: os) (by simpa using hq hs ch' h1)
    · next v b' hx =>
      have h4 := Bus.xfer_getElem?_byte (b := b) (cfg := cfg) (o := o) (v := v) (by rw [hx]) d
      rw [hx] at h4 hcs
      simp only at h4 hcs
      have hb' : b'.Has d P := by
        intro ch hc
        rw [h4, Option.map_eq_some_iff] at hc
        obtain ⟨ch', h1, rfl⟩ := hc
        have := h.settle b.tick ch' (hb ch' h1)
        split
        · next hs => exact h.receive _ _ this (h.cut _ os (by simpa using hq hs ch' h1))
        · exact this
      have hq' : b'.cs = some d → ∀ ch, b'.chips[d]? = some ch → Q (ch.received ++ os) := by
        intro hs ch hc
        rw [hcs] at hs
        rw [h4, Option.map_eq_some_iff] at hc
        obtain ⟨ch', h1, rfl⟩ := hc
        rw [if_pos hs]
        simpa using hq hs ch' h1
      have := ih hb' hq'
      rw [hcs] at this
      exact Res.Post.andThen this fun _ _ hu => hu

theorem issue (h : Kept cfg d Q P) (hdr : List Byte) (nd nr : Nat) {b : Bus} (hb : b.Has d P)
    (hq : c = d → Q (frameOuts hdr nd nr)) : Keeps cfg d P (issue cfg c hdr nd nr b) := by
  have ht := h.transferBlock c (frameOuts hdr nd nr) (h.sel c hb) (by
    intro hs ch hc
    obtain rfl := Option.some.inj hs
    rw [Bus.sel_getElem?, Option.map_eq_some_iff] at hc
    obtain ⟨ch', h1, rfl⟩ := hc
    simpa using hq rfl)
  rw [issue_eq]
  cases hr : Machine.transferBlock cfg c (frameOuts hdr nd nr) (b.sel c) with
  | ok is b' =>
    rw [hr] at ht
    obtain ⟨h1, h2, h3⟩ := ht
    exact h.desel h2 (by rintro rfl; exact h3 rfl)
  | raise e x b' =>
    rw [hr] at ht
    obtain ⟨h1, h2, h3⟩ := ht
    refine ⟨h2, fun j hj => h.desel h2 ?_⟩
    rintro rfl
    obtain rfl := Option.some.inj (h1.symm.trans hj)
    exact h3 rfl

/-- What the model notes of a chip's readiness (R297), and the confirmation of its commits (R74), keep `P`. -/
structure Blind (P : Chip → Prop) : Prop where
  unknown : ∀ ch, P ch → P { ch with knownReady := false }
  confirmed : ∀ ch, P ch → P ch.confirmed

theorem onChip_keeps {f : Chip → Chip} (hf : ∀ ch, P ch → P (f ch)) {b : Bus} (hb : b.Has d P) : (b.onChip c f).Has d P := by
  intro ch hc
  rw [Bus.onChip_getElem?, Option.map_eq_some_iff] at hc
  obtain ⟨ch', h1, rfl⟩ := hc
  split
  · exact hf _ (hb ch' h1)
  · exact hb ch' h1

theorem statusRead (h : Kept cfg d Q P) (hn : Blind P) {b : Bus} (hb : b.Has d P)
    (hq : c = d → Q [opcStatusRead, dummyOut]) : Keeps cfg d P (statusRead cfg c b) := by
  refine (h.issue [opcStatusRead] 0 1 hb hq).andThen fun resp b' _ hb' => ?_
  show Keeps cfg d P (Res.ok _ _)
  split
  · exact onChip_keeps hn.confirmed hb'
  · exact hb'

theorem pollLoop (h : Kept cfg d Q P) (hn : Blind P) (k : Nat) {b : Bus} (hb : b.Has d P)
    (hd : ∀ j, b.cs = some j → (b.desel cfg j).Has d P)
    (hq : c = d → Q [opcStatusRead, dummyOut]) : Keeps cfg d P (pollLoop cfg c k b) := by
  induction k generalizing b with
  | zero => exact ⟨hb, hd⟩
  | succ k ih =>
    refine (h.statusRead hn hb hq).andThen fun s b' hr hb' => ?_
    have hcs : b'.cs = none := by
      obtain ⟨i, -, h2, -⟩ := (statusRead_post (cfg := cfg) (c := c) b).of_eq_ok hr
      exact h2
    show Keeps cfg d P (if _ then _ else _)
    split
    · exact hb'
    · exact ih hb' (by rw [hcs]; intro j hj; cases hj)

theorem pollReady (h : Kept cfg d Q P) (hn : Blind P) {b : Bus} (hb : b.Has d P) (hcs : b.cs = none)
    (hq : c = d → Q [opcStatusRead, dummyOut]) : Keeps cfg d P (pollReady cfg c b) :=
  h.pollLoop hn _ hb (by rw [hcs]; intro j hj; cases hj) hq

theorem issueBusy (h : Kept cfg d Q P) (hn : Blind P) (hdr : List Byte) {b : Bus} (hb : b.Has d P)
    (hq : c = d → Q hdr) : Keeps cfg d P (issueBusy cfg c hdr b) :=
  (h.issue hdr 0 0 (b := b.noteBusyFrame c) (onChip_keeps hn.unknown (b := { b with hazard := _ }) hb)
    (by simpa [frameOuts] using hq)).andThen fun _ _ _ hb' => hb'

theorem eraseAndPoll (h : Kept cfg d Q P) (hn : Blind P) (hdr : List Byte) {b : Bus} (hb : b.Has d P)
    (hq : c ≠ d) : Keeps cfg d P (eraseAndPoll cfg c hdr b) := by
  refine (h.issueBusy hn hdr hb fun h => absurd h hq).andThen fun _ b' hr hb' => ?_
  have hcs : b'.cs = none := by
    unfold Machine.issueBusy at hr
    cases hi : Machine.issue cfg c hdr 0 0 (b.noteBusyFrame c) with
    | raise e x b1 => simp [hi] at hr
    | ok a b1 =>
      simp only [hi, Res.andThen_ok, Res.ok.injEq] at hr
      obtain ⟨is, -, -, -, h4, -⟩ := (issue_post (cfg := cfg) (c := c) hdr 0 0 _).of_eq_ok hi
      rw [← hr.2]; exact h4
  exact h.pollReady hn hb' hcs fun h => absurd h hq

end Kept

/-! Frames that store nothing. -/

/-- A frame, whole or not, that stores nothing in the chip it is sent to: a status read, a buffer read, or the header of a
buffer write (R81, R82, R85). -/
def StoresNothing (r : List Byte) : Prop :=
  r = [] ∨ ∃ op rest, r = op :: rest ∧
    (op = opcStatusRead ∨ op = opcBuf1Read ∨ op = opcBuf2Read ∨ (op = opcBuf1Write ∨ op = opcBuf2Write) ∧ r.length ≤ 4)

/-- Every byte of chip `d`'s main array reads as in `ch0`, and no page is newly in doubt. -/
def Chip.SameArray (d : Nat) (ch0 ch : Chip) : Prop :=
  (∀ a, ch.mainByte d a = ch0.mainByte d a) ∧ ∀ x ∈ ch.doubts, x ∈ ch0.doubts

/-- Every byte of every memory of chip `d` reads as in `ch0`, and no page is newly in doubt. -/
def Chip.SameBytes (d : Nat) (ch0 ch : Chip) : Prop :=
  Chip.SameArray d ch0 ch ∧ ∀ q o, ch.bufByte d q o = ch0.bufByte d q o

theorem Chip.sameArray_refl (d : Nat) (ch : Chip) : Chip.SameArray d ch ch := ⟨fun _ => rfl, fun _ h => h⟩

theorem Chip.sameBytes_refl (d : Nat) (ch : Chip) : Chip.SameBytes d ch ch := ⟨Chip.sameArray_refl d ch, fun _ _ => rfl⟩

theorem Chip.sameArray_of_eq {d : Nat} {ch0 ch ch' : Chip} (h : Chip.SameArray d ch0 ch) (h1 : ch'.main = ch.main)
    (h3 : ∀ x ∈ ch'.doubts, x ∈ ch.doubts) : Chip.SameArray d ch0 ch' := by
  refine ⟨fun a => ?_, fun x hx => h.2 x (h3 x hx)⟩
  rw [← h.1 a, mainByte, h1]; rfl

/-- The bytes read from chip state are the memories' bytes alone. -/
theorem Chip.sameBytes_of_eq {d : Nat} {ch0 ch ch' : Chip} (h : Chip.SameBytes d ch0 ch) (h1 : ch'.main = ch.main)
    (h2 : ∀ q, ch'.buf q = ch.buf q) (h3 : ∀ x ∈ ch'.doubts, x ∈ ch.doubts) : Chip.SameBytes d ch0 ch' := by
  refine ⟨Chip.sameArray_of_eq h.1 h1 h3, fun q o => ?_⟩
  rw [← h.2 q o, bufByte, h2]; rfl

theorem Chip.buf_congr {ch ch' : Chip} (h1 : ch'.buf1 = ch.buf1) (h2 : ch'.buf2 = ch.buf2) (q : Parity) :
    ch'.buf q = ch.buf q := by cases q <;> assumption

theorem StoresNothing.cut {r r' : List Byte} (h : StoresNothing (r ++ r')) : StoresNothing r := by
  cases r with
  | nil => exact .inl rfl
  | cons x xs =>
    rcases h with h | ⟨op, rest, h1, h2⟩
    · simp at h
    · simp only [List.cons_append, List.cons.injEq] at h1
      refine .inr ⟨x, xs, rfl, ?_⟩
      rw [h1.1]
      rcases h2 with h2 | h2 | h2 | ⟨h2, h3⟩
      · exact .inl h2
      · exact .inr (.inl h2)
      · exact .inr (.inr (.inl h2))
      · exact .inr (.inr (.inr ⟨h2, by simp at h3 ⊢; omega⟩))

/-- R82: a byte that is no data byte of a buffer write is stored nowhere. -/
theorem StoresNothing.storesAt {cfg : Config} {ch : Chip} {o : Byte} (h : StoresNothing (ch.received ++ [o])) :
    ch.storesAt cfg = none := by
  have : ch.storeTarget cfg = none := by
    unfold Chip.storeTarget
    split
    · next op b0 b1 b2 data heq =>
      rw [heq] at h
      rcases h with h | ⟨op', rest, h1, h2⟩
      · simp at h
      · simp only [List.cons_append, List.cons.injEq] at h1
        obtain ⟨rfl, -⟩ := h1
        rcases h2 with rfl | rfl | rfl | ⟨-, h3⟩
        · rfl
        · rfl
        · rfl
        · simp at h3; omega
    · rfl
  simp [Chip.storesAt, this]

/-- R89: such a frame changes nothing when it ends. -/
theorem StoresNothing.deselect {cfg : Config} {d : Nat} {ch : Chip} (h : StoresNothing ch.received) :
    ch.deselect cfg d = ch := by
  unfold Chip.deselect
  split
  · rfl
  split
  · next op b0 b1 b2 heq =>
    rw [heq] at h
    have hop : op = opcStatusRead ∨ op = opcBuf1Read ∨ op = opcBuf2Read ∨ op = opcBuf1Write ∨ op = opcBuf2Write := by
      rcases h with h | ⟨op', rest, h1, h2⟩
      · simp at h
      · simp only [List.cons.injEq] at h1
        obtain ⟨rfl, -⟩ := h1
        rcases h2 with h2 | h2 | h2 | ⟨h2 | h2, -⟩ <;> simp [h2]
    have h1 : op ≠ 0xC7 := by rcases hop with rfl | rfl | rfl | rfl | rfl <;> decide
    have h2 : Chip.commitBuffer? cfg op = none := by
      unfold Chip.commitBuffer? opcCommit
      rcases hop with rfl | rfl | rfl | rfl | rfl <;> cases cfg.commitVariant <;> decide
    have h3 : Chip.transferBuffer? op = none := by rcases hop with rfl | rfl | rfl | rfl | rfl <;> decide
    have h4 : op ≠ opcPageErase := by rcases hop with rfl | rfl | rfl | rfl | rfl <;> decide
    have h5 : op ≠ opcSectorErase := by rcases hop with rfl | rfl | rfl | rfl | rfl <;> decide
    have h6 : [op, b0, b1, b2] ≠ chipEraseFrame := fun h => h1 (List.cons.inj h).1
    rw [if_neg h6]
    simp [Chip.addressed, h2, h3, h4, h5]
  · rfl

theorem kept_sameBytes (cfg : Config) (d : Nat) (ch0 : Chip) : Kept cfg d StoresNothing (Chip.SameBytes d ch0) where
  settle n ch h := Chip.sameBytes_of_eq h (by simp) (by simp) (by simp)
  select ch h := Chip.sameBytes_of_eq h (by simp) (by simp) (by simp)
  receive o ch h hq := Chip.sameBytes_of_eq h (by simp) (fun q => by rw [Chip.receive_buf, hq.storesAt]) (by simp)
  deselect ch h hq := by rw [hq.deselect]; exact h
  nil := .inl rfl
  cut _ _ h := h.cut

theorem sameBytes_blind (d : Nat) (ch0 : Chip) : Kept.Blind (Chip.SameBytes d ch0) where
  unknown ch h := Chip.sameBytes_of_eq (ch := ch) h rfl (fun q => by cases q <;> rfl) fun _ h => h
  confirmed ch h := Chip.sameBytes_of_eq (ch := ch) h rfl (by simp) (by simp)

theorem storesNothing_status (rest : List Byte) : StoresNothing (opcStatusRead :: rest) :=
  .inr ⟨_, _, rfl, .inl rfl⟩

theorem storesNothing_open (q : Parity) : StoresNothing (openFrame q) := by
  refine .inr ⟨_, _, rfl, .inr (.inr (.inr ⟨?_, le_refl 4⟩))⟩
  cases q <;> simp [opcBufWrite]

/-! The same of the procedures over the block's state. -/

/-- `Keeps` for a procedure over the state. -/
def KeepsS {α : Type} (cfg : Config) (d : Nat) (P : Chip → Prop) (r : Res State α) : Prop :=
  r.Post (fun _ w => w.bus.Has d P ∧ w.cfg = cfg) (fun _ _ w => w.bus.Has d P ∧ (∀ j, w.bus.cs = some j → (w.bus.desel cfg j).Has d P) ∧ w.cfg = cfg)

theorem KeepsS.onBus {α : Type} {s : State} {d : Nat} {P : Chip → Prop} {f : Bus → Res Bus α} (h : Keeps s.cfg d P (f s.bus)) :
    KeepsS s.cfg d P (s.onBus f) := by
  unfold State.onBus
  cases hr : f s.bus with
  | ok a b => rw [hr] at h; exact ⟨h, rfl⟩
  | raise e c b => rw [hr] at h; exact ⟨h.1, h.2, rfl⟩

theorem KeepsS.andThen {α β : Type} {cfg : Config} {d : Nat} {P : Chip → Prop} {r : Res State α} {f : α → State → Res State β}
    (h : KeepsS cfg d P r) (hf : ∀ a w, r = .ok a w → w.bus.Has d P → w.cfg = cfg → KeepsS cfg d P (f a w)) : KeepsS cfg d P (r.andThen f) := by
  cases r with
  | ok a w => exact hf a w rfl h.1 h.2
  | raise e c w => exact h

theorem Bus.Has.loseBuffers {d : Nat} {P : Chip → Prop} {b : Bus} (hl : ∀ n ch, P ch → P (ch.loseBuffers n)) (h : b.Has d P) :
    b.loseBuffers.Has d P := by
  intro ch hc
  rw [Bus.loseBuffers_chips, List.getElem?_map, Option.map_eq_some_iff] at hc
  obtain ⟨ch', h1, rfl⟩ := hc
  exact hl _ _ (h ch' h1)

/-- An operation whose body keeps `P` of chip `d` keeps it, if it is one of the Idle block or losing the buffers keeps it. -/
theorem KeepsS.perform {checks low body} {s t : State} {d : Nat} {P : Chip → Prop} (hs : s.bus.Has d P)
    (hl : (∀ n ch, P ch → P (ch.loseBuffers n)) ∨ ∀ e c w, body s = .raise e c w → w.idle = true)
    (hb : firstError checks = none → KeepsS s.cfg d P (body s)) (h : perform checks low body s = .next t) : t.bus.Has d P := by
  rcases perform_cases h with ⟨e, -, rfl⟩ | ⟨hn, ⟨data, w, hr, rfl⟩ | ⟨e, c, w, hr, rfl⟩⟩
  · exact hs
  · have := hb hn; rw [hr] at this; exact this.1
  · have := hb hn; rw [hr] at this
    obtain ⟨h1, h2, h3⟩ := this
    have hrel : w.release.Has d P := by
      unfold State.release
      split
      · next j hj => rw [h3]; exact h2 j hj
      · exact h1
    show w.abort.bus.Has d P
    rcases hl with hl | hl
    · rw [State.abort_bus]
      split
      · exact hrel
      · exact hrel.loseBuffers hl
    · rw [State.abort_bus_idle (hl _ _ _ hr)]; exact hrel

/-- The body of a transport call leaves the phase of the block. -/
theorem onBus_raise_idle {α : Type} {f : Bus → Res Bus α} {s w : State} {e : ErrorKind} {c : Nat} (h : s.onBus f = .raise e c w) :
    w.idle = s.idle := by
  unfold State.onBus at h
  cases hf : f s.bus with
  | ok a b => rw [hf] at h; cases h
  | raise e' c' b => rw [hf] at h; cases h; rfl

variable {s : State} {d : Nat} {Q : List Byte → Prop} {P : Chip → Prop}

theorem engOpen_keeps (hk : Kept s.cfg d Q P) {c : Nat} (hs : s.bus.Has d P) (hq : c = d → Q (openFrame (s.handle c).par)) :
    KeepsS s.cfg d P (engOpen c s) := by
  refine KeepsS.andThen (KeepsS.onBus (f := fun b => transferBlock s.cfg c (openFrame (s.handle c).par) (b.sel c)) ?_) fun _ w _ hw hc => ⟨hw, hc⟩
  have := hk.transferBlock c (openFrame (s.handle c).par) (hk.sel c hs) (by
    intro hd ch hc
    obtain rfl := Option.some.inj hd
    rw [Bus.sel_getElem?, Option.map_eq_some_iff] at hc
    obtain ⟨ch', h1, rfl⟩ := hc
    simpa using hq rfl)
  refine Res.Post.mono this (fun _ _ h => h.2.1) fun _ _ b h => ⟨h.2.1, fun j hj => hk.desel h.2.1 ?_⟩
  rintro rfl
  rw [h.1] at hj
  exact h.2.2 hj

theorem engCommit_keeps (hk : Kept s.cfg d Q P) (hn : Kept.Blind P) {c : Nat} (hs : s.bus.Has d P) (hq : c ≠ d) :
    KeepsS s.cfg d P (engCommit c s) := by
  refine KeepsS.andThen (KeepsS.onBus (s := engCloseFull c s) (f := pollReady s.cfg c) (hk.pollReady hn (hk.desel hs fun h => absurd h hq) rfl fun h => absurd h hq)) ?_
  intro _ w hr hw hc
  refine KeepsS.andThen (r := w.onBus fun b => issueBusy w.cfg c (commitFrame w.cfg (w.handle c).par (w.handle c).wpage) (b.noteCommit w.cfg c (w.handle c).wpage)) ?_ fun _ u _ h1 h2 => ⟨h1, h2⟩
  have := KeepsS.onBus (s := w) (d := d) (P := P) (f := fun b => issueBusy w.cfg c (commitFrame w.cfg (w.handle c).par (w.handle c).wpage) (b.noteCommit w.cfg c (w.handle c).wpage))
    (by rw [hc]; exact hk.issueBusy hn _ (b := w.bus.noteCommit s.cfg c _) hw fun h => absurd h hq)
  rw [hc] at this
  rw [hc]; exact this

theorem noData_keeps {cfg : Config} {f : Bus → Res Bus Unit} {b : Bus} (h : Keeps cfg d P (f b)) : Keeps cfg d P (noData f b) :=
  h.andThen fun _ _ _ hb => hb

theorem eraseFrom_keeps {cfg : Config} (hk : Kept cfg d Q P) (hn : Kept.Blind P) (k l : Nat) {b : Bus} (hb : b.Has d P)
    (hq : ∀ x, l ≤ x → x < l + k → pageChip cfg x ≠ d) : Keeps cfg d P (eraseFrom cfg k l b) := by
  induction k generalizing l b with
  | zero => exact hb
  | succ k ih =>
    refine (hk.eraseAndPoll hn _ hb (hq l (le_refl _) (by omega))).andThen fun _ _ _ hb' => ?_
    exact ih (l + 1) hb' (fun x h1 h2 => hq x (by omega) (by omega))

theorem pollReady_cs {cfg : Config} {c : Nat} {a : Unit} {b b' : Bus} (h : pollReady cfg c b = .ok a b') : b'.cs = none := by
  obtain ⟨ps, -, -, h3, -⟩ := (pollLoop_post (cfg := cfg) (c := c) cfg.pollLimit b).of_eq_ok h
  exact h3

theorem pollFrom_keeps {cfg : Config} (hk : Kept cfg d Q P) (hn : Kept.Blind P) (hQ : Q [opcStatusRead, dummyOut]) (k c : Nat) {b : Bus} (hb : b.Has d P)
    (hcs : b.cs = none) : Keeps cfg d P (pollFrom cfg k c b) := by
  induction k generalizing c b with
  | zero => exact hb
  | succ k ih => exact (hk.pollReady hn hb hcs fun _ => hQ).andThen fun _ _ hr hb' => ih (c + 1) hb' (pollReady_cs hr)

theorem readProc_keeps {cfg : Config} (hk : Kept cfg d Q P) (hn : Kept.Blind P) {c : Nat} (hc : c ≠ d) (p : Nat) {b : Bus} (hb : b.Has d P) :
    Keeps cfg d P (readProc cfg c p b) := by
  refine (hk.issueBusy hn _ hb fun h => absurd h hc).andThen fun _ b1 hr h1 => ?_
  have hcs : b1.cs = none := by
    unfold Machine.issueBusy at hr
    cases hi : Machine.issue cfg c (transferFrame cfg p) 0 0 (b.noteBusyFrame c) with
    | raise e x b1 => simp [hi] at hr
    | ok a b1 =>
      simp only [hi, Res.andThen_ok, Res.ok.injEq] at hr
      obtain ⟨is, -, -, -, h4, -⟩ := (issue_post (cfg := cfg) (c := c) _ 0 0 _).of_eq_ok hi
      rw [← hr.2]; exact h4
  exact (hk.pollReady hn h1 hcs fun h => absurd h hc).andThen fun _ b2 _ h2 => hk.issue _ _ _ h2 fun h => absurd h hc


end Sys2Proof.Machine
end

