-- ==== Sys2Proof/Laws/Reference.lean ====
section
/-! SUPPORT. The reference chips (R79 to R90): what a chip holds after it has received bytes, after a whole frame, and what it
answers when nothing outside does. -/

namespace Sys2Proof.Machine

namespace Chip

variable {cfg : Config} {c n : Nat} {ch : Chip}

theorem settle_busy (h : ch.busy = false) : (ch.settle c n).busy = false := by rw [settle_of_ready h, h]

@[simp] theorem hear_main (os : List Byte) : (ch.hear cfg c n os).main = ch.main := by
  induction os generalizing n ch with
  | nil => rfl
  | cons o os ih => simp [hear, ih]

@[simp] theorem hear_inUse (os : List Byte) : (ch.hear cfg c n os).inUse = ch.inUse := by
  induction os generalizing n ch with
  | nil => rfl
  | cons o os ih => simp [hear, ih]

@[simp] theorem hear_knownReady (os : List Byte) : (ch.hear cfg c n os).knownReady = ch.knownReady := by
  induction os generalizing n ch with
  | nil => rfl
  | cons o os ih => simp [hear, ih]

@[simp] theorem hear_doubts (os : List Byte) : (ch.hear cfg c n os).doubts = ch.doubts := by
  induction os generalizing n ch with
  | nil => rfl
  | cons o os ih => simp [hear, ih]

@[simp] theorem hear_commits (os : List Byte) : (ch.hear cfg c n os).commits = ch.commits := by
  induction os generalizing n ch with
  | nil => rfl
  | cons o os ih => simp [hear, ih]

theorem hear_busy (h : ch.busy = false) (os : List Byte) : (ch.hear cfg c n os).busy = false := by
  induction os generalizing n ch with
  | nil => exact h
  | cons o os ih => exact ih (by simp [settle_busy h])

/-- A frame that stores nothing leaves the buffers while it is heard. -/
theorem hear_buf_of_quiet {os : List Byte} (h : StoresNothing (ch.received ++ os)) (q : Parity) :
    (ch.hear cfg c n os).buf q = ch.buf q := by
  induction os generalizing n ch with
  | nil => rfl
  | cons o os ih =>
    have h1 : StoresNothing (ch.received ++ [o]) := (show StoresNothing ((ch.received ++ [o]) ++ os) by simpa using h).cut
    have h2 : (ch.settle c n).storesAt cfg = none := StoresNothing.storesAt (o := o) (by simpa using h1)
    rw [hear, ih (by simpa using h), receive_buf, h2, settle_buf]

/-- Fewer than four bytes received: the next byte is stored nowhere (R82). -/
theorem storesAt_short (h : ch.received.length < 4) : ch.storesAt cfg = none := by
  have : ch.storeTarget cfg = none := by
    unfold storeTarget
    split
    · next heq => rw [heq] at h; simp at h; omega
    · rfl
  simp [storesAt, this]

theorem hear_buf_of_short {os : List Byte} (h : ch.received.length + os.length ≤ 4) (q : Parity) :
    (ch.hear cfg c n os).buf q = ch.buf q := by
  induction os generalizing n ch with
  | nil => rfl
  | cons o os ih =>
    simp only [List.length_cons] at h
    rw [hear, ih (by simp; omega), receive_buf, storesAt_short (by simp; omega), settle_buf]

/-- A whole frame of four bytes on a chip that is not busy, before it ends. -/
theorem hear_four (h : ch.busy = false) {hdr : List Byte} (hl : hdr.length = 4) (m : Nat) :
    let ch1 := ((ch.settle c n).select.hear cfg c (n + 1) hdr).settle c m
    ch1.busy = false ∧ ch1.received = hdr ∧ ch1.main = ch.main ∧ (∀ q, ch1.buf q = ch.buf q) ∧
      ch1.doubts = ch.doubts ∧ ch1.commits = ch.commits := by
  have hb : ((ch.settle c n).select.hear cfg c (n + 1) hdr).busy = false := hear_busy (by simpa using settle_busy h) _
  refine ⟨settle_busy hb, by simp [hear_received], by simp, fun q => ?_, by simp, by simp⟩
  rw [settle_buf, hear_buf_of_short (by simp [hl])]
  simp

/-- What a commit programs (R83). -/
theorem commit_mainByte (q : Parity) (p x : Nat) :
    (ch.commit cfg c q p).mainByte c x =
      if p * cfg.pageSize ≤ x ∧ x < (p + 1) * cfg.pageSize then ch.bufByte c q (x - p * cfg.pageSize)
      else ch.mainByte c x := by
  have hm : (p + 1) * cfg.pageSize = p * cfg.pageSize + cfg.pageSize := Nat.succ_mul _ _
  simp only [commit, mainByte, Memory.byteAt_store, bufPage, mainAddr, List.length_map, List.length_range,
    Nat.add_zero, hm]
  split
  · next h => simp [List.getElem?_range (show x - p * cfg.pageSize < cfg.pageSize by omega)]
  · rfl

theorem commit_bufByte (q r : Parity) (p o : Nat) : (ch.commit cfg c q p).bufByte c r o = ch.bufByte c r o := by
  cases r <;> rfl

/-- U4: the page just committed is in doubt. -/
theorem commit_arrayByte (q : Parity) (p o : Nat) :
    (ch.commit cfg c q p).arrayByte cfg c p o = Config.doubtByte c ch.commits (p * cfg.pageSize + o) := by
  simp [arrayByte, doubt?, commit, mainAddr]

/-- U4: no other page comes into doubt. -/
theorem commit_arrayByte_ne (q : Parity) {p x o : Nat} (hx : x ≠ p) (ho : o < cfg.pageSize) :
    (ch.commit cfg c q p).arrayByte cfg c x o = ch.arrayByte cfg c x o := by
  have hd : (ch.commit cfg c q p).doubt? x = ch.doubt? x := by
    have hp : (p == x) = false := by simpa using Ne.symm hx
    rw [doubt?, doubt?, commit, List.find?_cons_of_neg (by simp [hp]), settled, List.find?_filter]
    congr 1
    funext d
    by_cases h : d.page = x
    · have : d.page < p ∨ p + 1 ≤ d.page := by omega
      simp [h] at this ⊢
      omega
    · simp [h]
  have hm : (ch.commit cfg c q p).mainByte c (mainAddr cfg x o) = ch.mainByte c (mainAddr cfg x o) := by
    rw [commit_mainByte, if_neg]
    rintro ⟨h1, h2⟩
    unfold mainAddr at h1 h2
    rcases Nat.lt_or_gt_of_ne hx with h | h
    · have := Nat.mul_le_mul_right cfg.pageSize (show x + 1 ≤ p by omega)
      rw [Nat.succ_mul] at this; omega
    · have := Nat.mul_le_mul_right cfg.pageSize (show p + 1 ≤ x by omega)
      omega
  rw [arrayByte, arrayByte, hd, hm]

/-- A page is in doubt exactly if it was and has not settled. -/
theorem mem_settled {p k : Nat} {l : List Doubt} {d : Doubt} : d ∈ settled p k l ↔ d ∈ l ∧ (d.page < p ∨ p + k ≤ d.page) := by
  simp [settled]

/-- R86, R87: an erased page is in no doubt. -/
theorem find_settled {p k x : Nat} {l : List Doubt} (h1 : p ≤ x) (h2 : x < p + k) :
    (settled p k l).find? (fun d => d.page == x) = none := by
  rw [List.find?_eq_none]
  intro d hd
  have := (mem_settled.1 hd).2
  simp; omega

/-- U4: a page in no doubt stays so where no doubt is new. -/
theorem arrayByte_of_no_doubt {ch' : Chip} {x o : Nat} (h : ∀ d ∈ ch'.doubts, d ∈ ch.doubts) (hn : ch.doubt? x = none) :
    ch'.arrayByte cfg c x o = ch'.mainByte c (mainAddr cfg x o) := by
  have : ch'.doubt? x = none := by
    rw [doubt?, List.find?_eq_none] at hn ⊢
    exact fun d hd => hn d (h d hd)
  rw [arrayByte, this]

/-- What a transfer loads (R84). -/
theorem transfer_bufByte (q r : Parity) (p o : Nat) :
    (ch.transfer cfg c q p).bufByte c r o =
      if r = q ∧ o < cfg.pageSize then ch.arrayByte cfg c p o else ch.bufByte c r o := by
  have hb : (ch.transfer cfg c q p).buf r = (ch.setBuf q ((ch.buf q).store 0 (ch.mainPage cfg c p))).buf r := by
    cases r <;> rfl
  rw [bufByte, hb, buf_setBuf]
  by_cases hr : r = q
  · subst hr
    simp only [if_true, true_and, Memory.byteAt_store, mainPage, List.length_map, List.length_range, Nat.zero_le,
      Nat.zero_add, Nat.sub_zero]
    split
    · next h => simp [List.getElem?_range h]
    · rfl
  · simp [hr, bufByte]

theorem transfer_mainByte (q : Parity) (p x : Nat) : (ch.transfer cfg c q p).mainByte c x = ch.mainByte c x := by
  cases q <;> rfl

/-- What an erase of `k` pages leaves (R86, R87). -/
theorem erasePages_mainByte (p k x : Nat) :
    (ch.erasePages cfg p k).mainByte c x =
      if p * cfg.pageSize ≤ x ∧ x < p * cfg.pageSize + k * cfg.pageSize then 0xFF else ch.mainByte c x := by
  simp only [erasePages, mainByte, Memory.byteAt_store, mainAddr, List.length_replicate, Nat.add_zero]
  split
  · next h => rw [List.getElem?_replicate, if_pos (by omega)]; rfl
  · rfl

theorem erasePages_bufByte (p k : Nat) (r : Parity) (o : Nat) :
    (ch.erasePages cfg p k).bufByte c r o = ch.bufByte c r o := by cases r <;> rfl

theorem eraseChip_mainByte (x : Nat) : ch.eraseChip.mainByte c x = 0xFF := rfl

theorem eraseChip_bufByte (r : Parity) (o : Nat) : ch.eraseChip.bufByte c r o = ch.bufByte c r o := by cases r <;> rfl

theorem bufByte_congr {ch' : Chip} (h : ∀ q, ch'.buf q = ch.buf q) (q : Parity) (o : Nat) :
    ch'.bufByte c q o = ch.bufByte c q o := by simp [bufByte, h]

theorem mainByte_congr {ch' : Chip} (h : ch'.main = ch.main) (x : Nat) : ch'.mainByte c x = ch.mainByte c x := by
  simp [mainByte, h]

/-- The end of a four-byte frame on a chip that is not busy. -/
theorem deselect_four {op b0 b1 b2 : Byte} (hb : ch.busy = false) (hr : ch.received = [op, b0, b1, b2]) :
    ch.deselect cfg c =
      if [op, b0, b1, b2] = chipEraseFrame then ch.eraseChip
      else ch.addressed cfg c op (decodePage cfg (addrOf b0 b1 b2)) := by
  simp [deselect, hb, hr]

theorem commitBuffer?_opcCommit (cfg : Config) (q : Parity) : commitBuffer? cfg (opcCommit cfg q) = some q := by
  unfold commitBuffer? opcCommit
  cases q <;> cases cfg.commitVariant <;> decide

theorem deselect_commit {q : Parity} {b0 b1 b2 : Byte} (hb : ch.busy = false)
    (hr : ch.received = [opcCommit cfg q, b0, b1, b2]) :
    ch.deselect cfg c = ch.commit cfg c q (decodePage cfg (addrOf b0 b1 b2)) := by
  rw [deselect_four hb hr, if_neg, addressed, commitBuffer?_opcCommit]
  intro h
  have := (List.cons.inj h).1
  revert this
  unfold opcCommit
  cases q <;> cases cfg.commitVariant <;> decide

theorem commitBuffer?_none {op : Byte} (h : op ∉ [0x83, 0x86, 0x88, 0x89]) : commitBuffer? cfg op = none := by
  simp only [List.mem_cons, List.not_mem_nil, or_false, not_or] at h
  unfold commitBuffer? opcCommit
  cases cfg.commitVariant
  · exact (if_neg h.1).trans (if_neg h.2.1)
  · exact (if_neg h.2.2.1).trans (if_neg h.2.2.2)

theorem deselect_transfer {q : Parity} {b0 b1 b2 : Byte} (hb : ch.busy = false)
    (hr : ch.received = [opcPageToBuf q, b0, b1, b2]) :
    ch.deselect cfg c = ch.transfer cfg c q (decodePage cfg (addrOf b0 b1 b2)) := by
  rw [deselect_four hb hr, if_neg, addressed, commitBuffer?_none]
  · cases q <;> rfl
  · cases q <;> decide
  · intro h
    have := (List.cons.inj h).1
    revert this
    cases q <;> decide

theorem deselect_pageErase {b0 b1 b2 : Byte} (hb : ch.busy = false) (hr : ch.received = [opcPageErase, b0, b1, b2]) :
    ch.deselect cfg c = ch.erasePages cfg (decodePage cfg (addrOf b0 b1 b2)) 1 := by
  rw [deselect_four hb hr, if_neg, addressed, commitBuffer?_none (by decide)]
  · rfl
  · intro h; exact absurd (List.cons.inj h).1 (by decide)

theorem deselect_sectorErase {b0 b1 b2 : Byte} (hb : ch.busy = false)
    (hr : ch.received = [opcSectorErase, b0, b1, b2]) :
    ch.deselect cfg c =
      ch.erasePages cfg (sectorStart cfg (decodePage cfg (addrOf b0 b1 b2)))
        (sectorLength cfg (decodePage cfg (addrOf b0 b1 b2))) := by
  rw [deselect_four hb hr, if_neg, addressed, commitBuffer?_none (by decide)]
  · rfl
  · intro h; exact absurd (List.cons.inj h).1 (by decide)

theorem deselect_chipErase (hb : ch.busy = false) (hr : ch.received = chipEraseFrame) :
    ch.deselect cfg c = ch.eraseChip := by
  rw [deselect_four (op := 0xC7) (b0 := 0x94) (b1 := 0x80) (b2 := 0x9A) hb hr]
  exact if_pos rfl

end Chip

/-! Frames on the bus. -/

variable {cfg : Config} {c : Nat}

theorem issue_ok (hf : cfg.hasBusFault = false) (hdr : List Byte) (nd nr : Nat) (b : Bus) :
    ∃ resp b', issue cfg c hdr nd nr b = .ok resp b' := by
  rw [issue_eq]
  obtain ⟨is, b', h⟩ := transferBlock_ok (c := c) hf (frameOuts hdr nd nr) (b.sel c)
  exact ⟨_, _, by rw [h]; rfl⟩

/-- A transfer, commit or erase frame on a chip that is not busy: the chip takes it whole, then reacts. -/
theorem issueBusy_ready (hf : cfg.hasBusFault = false) {hdr : List Byte} (hl : hdr.length = 4) {b : Bus}
    (hc : c < b.chips.length) (hb : (b.chip c).busy = false) :
    ∃ (b' : Bus) (ch1 : Chip), issueBusy cfg c hdr b = .ok () b' ∧ b'.cs = none ∧ b'.chips.length = b.chips.length ∧
      b'.answers = b.answers.drop 4 ∧ b'.chip c = ch1.deselect cfg c ∧
      ch1.busy = false ∧ ch1.received = hdr ∧ ch1.main = (b.chip c).main ∧ (∀ q, ch1.buf q = (b.chip c).buf q) ∧
      ch1.doubts = (b.chip c).doubts ∧ ch1.commits = (b.chip c).commits := by
  obtain ⟨resp, b', h⟩ := issue_ok (c := c) hf hdr 0 0 (b.noteBusyFrame c)
  have hch := issue_chips h c
  obtain ⟨is, -, -, -, h4, -, -, h7, h8⟩ := (issue_post (cfg := cfg) (c := c) hdr 0 0 _).of_eq_ok h
  have hn : (b.noteBusyFrame c).chips[c]? = some { b.chip c with knownReady := false } := by
    rw [Bus.noteBusyFrame, Bus.onChip_getElem?]
    simp [Bus.getElem?_chip hc]
  rw [hn, Option.map_some, if_pos rfl] at hch
  have hf4 := Chip.hear_four (cfg := cfg) (c := c) (n := (b.noteBusyFrame c).tick)
    (ch := { b.chip c with knownReady := false }) hb hl ((b.noteBusyFrame c).tick + 1 + (hdr.length + 0 + 0))
  rw [frameOuts, dummies_zero, List.append_nil, List.append_nil] at hch
  refine ⟨b', _, by simp [issueBusy, h], h4, by simpa using h7, by simpa [hl] using h8, Bus.chip_of_getElem? hch,
    hf4.1, hf4.2.1, hf4.2.2.1, fun q => (hf4.2.2.2.1 q).trans (by cases q <;> rfl), hf4.2.2.2.2.1,
    hf4.2.2.2.2.2⟩

end Sys2Proof.Machine
end

