-- ==== Sys2Proof/Laws/Codec.lean ====
section
/-! SUPPORT. The pages of a sector (R87), and how requests decode. -/

namespace Sys2Proof.Machine

/-- R87: the pages of a sector. -/
theorem sectorStart_mem {cfg : Config} (hs : 1 ≤ cfg.sectorPages) {p x : Nat} (hp : p < cfg.numPages) (hx : x < cfg.numPages) :
    (Chip.sectorStart cfg p ≤ x ∧ x < Chip.sectorStart cfg p + Chip.sectorLength cfg p) ↔ x / cfg.sectorPages = p / cfg.sectorPages := by
  unfold Chip.sectorLength Chip.sectorStart
  have h1 : p / cfg.sectorPages * cfg.sectorPages ≤ p := Nat.div_mul_le_self _ _
  constructor
  · rintro ⟨h2, h3⟩
    refine Nat.div_eq_of_lt_le h2 ?_
    rw [Nat.succ_mul]
    omega
  · intro h
    have h2 : x / cfg.sectorPages * cfg.sectorPages ≤ x := Nat.div_mul_le_self _ _
    have h3 : x < x / cfg.sectorPages * cfg.sectorPages + cfg.sectorPages := Nat.lt_div_mul_add hs
    rw [h] at h2 h3
    omega

/-- R60: the addresses of `k` pages. -/
theorem page_mem {P p k x o : Nat} (ho : o < P) :
    (p * P ≤ x * P + o ∧ x * P + o < p * P + k * P) ↔ p ≤ x ∧ x < p + k := by
  rw [← Nat.add_mul]
  constructor
  · rintro ⟨h1, h2⟩
    constructor
    · by_contra h
      have : (x + 1) * P ≤ p * P := Nat.mul_le_mul_right _ (by omega)
      rw [Nat.succ_mul] at this; omega
    · by_contra h
      have : (p + k) * P ≤ x * P := Nat.mul_le_mul_right _ (by omega)
      omega
  · rintro ⟨h1, h2⟩
    have h3 : p * P ≤ x * P := Nat.mul_le_mul_right _ h1
    have h4 : (x + 1) * P ≤ (p + k) * P := Nat.mul_le_mul_right _ h2
    rw [Nat.succ_mul] at h4; omega

/-! Requests. -/

/-- The sixteen values of field `op`. -/
theorem bv4_cases (x : BitVec 4) : x = 0 ∨ x = 1 ∨ x = 2 ∨ x = 3 ∨ x = 4 ∨ x = 5 ∨ x = 6 ∨ x = 7 ∨ x = 8 ∨ x = 9 ∨ x = 10 ∨ x = 11 ∨ x = 12 ∨ x = 13 ∨ x = 14 ∨ x = 15 := by
  revert x; decide

/-- R113: a field that must be 0 is 0 where a word decodes. -/
theorem ifUnused_ok {z : Bool} {i j : Instr} (h : ifUnusedZero z i = .ok j) : z = true ∧ i = j := by
  unfold ifUnusedZero at h
  split at h
  · next hz => exact ⟨hz, by simpa using h⟩
  · cases h

/-- R111: a word from its fields. -/
theorem word_eq {w : HostWord} {op : BitVec 4} {c : ChipField} {a : ArgField} (h1 : (opField w).toNat = op.toNat) (h2 : chipField w = c) (h3 : argField w = a) :
    Request.word (hostWord op c a) = .word w := by
  rw [← h2, ← h3, ← BitVec.eq_of_toNat_eq h1, hostWord_fields]

/-- R113: a reserved word from its fields. -/
theorem reservedWord_eq {w : HostWord} {op : BitVec 4} (h1 : (opField w).toNat = op.toNat) :
    Request.word (op ++ w.extractLsb' 0 28) = .word w := by
  rw [← BitVec.eq_of_toNat_eq h1, reserved_fields]

/-- R103: a frame that decodes has three address bytes. -/
theorem withAddress_ok {rest : List Byte} {f : AddrField → Instr} {i : Instr} (h : withAddress rest f = .ok i) :
    ∃ a, rest = addrBytes a ∧ i = f a := by
  unfold withAddress at h
  split at h
  · next b0 b1 b2 => exact ⟨addrOf b0 b1 b2, by simp, by simpa using h.symm⟩
  · cases h

/-- R104: a buffer write that decodes has three address bytes and a payload. -/
theorem withPayload_ok {rest : List Byte} {f : AddrField → List Byte → Instr} {i : Instr} (h : withPayload rest f = .ok i) :
    ∃ a data, data.length ≤ maxPayload ∧ rest = addrBytes a ++ data ∧ i = f a data := by
  unfold withPayload at h
  split at h
  · next b0 b1 b2 data =>
    split at h
    · next hl => exact ⟨addrOf b0 b1 b2, data, hl, by simp, by simpa using h.symm⟩
    · cases h
  · cases h

end Sys2Proof.Machine
end

