-- ==== Sys2Proof/Laws/Stored.lean ====
section
/-! SUPPORT. The reference chips (R79 to R90), continued: the data bytes of a buffer write, what a chip answers to a status read
and to a buffer read, and a chip that stays busy. -/

namespace Sys2Proof.Machine

namespace Chip

variable {cfg : Config} {c n : Nat} {ch : Chip}

/-! Buffer writes (R82). -/

/-- R82: the chip takes the data bytes for buffer `q`. -/
def Takes (q : Parity) (ch : Chip) : Prop := ch.busy = false ∨ ch.inUse ≠ some q

theorem Takes.accepts {q : Parity} (h : ch.Takes q) : ch.accepts q = true := by
  rcases h with h | h <;> simp [Chip.accepts, h]

theorem Takes.settle {q : Parity} (h : ch.Takes q) : (ch.settle c n).Takes q := by
  rcases h with h | h
  · exact .inl (settle_busy h)
  · exact .inr (by simpa using h)

theorem Takes.receive {q : Parity} {o : Byte} (h : ch.Takes q) : (ch.receive cfg o).Takes q := by
  simpa [Takes] using h

theorem takes_hear {q : Parity} (h : ch.Takes q) (os : List Byte) : (ch.hear cfg c n os).Takes q := by
  induction os generalizing n ch with
  | nil => exact h
  | cons o os ih => exact ih h.settle.receive

theorem writeBuffer?_opcBufWrite (q : Parity) : writeBuffer? (opcBufWrite q) = some q := by cases q <;> rfl

/-- R82: one data byte of a buffer write. -/
theorem receive_data {q r : Parity} {b0 b1 b2 v : Byte} {sent : List Byte} (h : ch.Takes q)
    (hr : ch.received = opcBufWrite q :: b0 :: b1 :: b2 :: sent) (o : Nat) :
    (ch.receive cfg v).bufByte c r o =
      if r = q ∧ o = (bufferOffset cfg (addrOf b0 b1 b2) + sent.length) % cfg.pageSize then v else ch.bufByte c r o := by
  have hs : ch.storesAt cfg = some (q, (bufferOffset cfg (addrOf b0 b1 b2) + sent.length) % cfg.pageSize) := by
    simp only [storesAt, storeTarget, hr, writeBuffer?_opcBufWrite, Option.map_some, h.accepts, if_true]
  rw [bufByte, receive_buf, hs]
  by_cases hq : r = q
  · subst hq
    simp only [if_true, Memory.byteAt_store, List.length_singleton, true_and]
    by_cases ho : o = (bufferOffset cfg (addrOf b0 b1 b2) + sent.length) % cfg.pageSize
    · subst ho; simp
    · rw [if_neg (by omega), if_neg ho]; rfl
  · simp [hq, bufByte]

/-- R82: the data bytes of a buffer write, at most `P` of them. -/
theorem hear_data {q : Parity} {b0 b1 b2 : Byte} {sent data : List Byte} (h : ch.Takes q)
    (hr : ch.received = opcBufWrite q :: b0 :: b1 :: b2 :: sent) (hl : data.length ≤ cfg.pageSize) :
    (∀ j v, data[j]? = some v → (ch.hear cfg c n data).bufByte c q
      ((bufferOffset cfg (addrOf b0 b1 b2) + sent.length + j) % cfg.pageSize) = v) ∧
    ∀ r o, ¬ (r = q ∧ ∃ j, j < data.length ∧
        o = (bufferOffset cfg (addrOf b0 b1 b2) + sent.length + j) % cfg.pageSize) →
      (ch.hear cfg c n data).bufByte c r o = ch.bufByte c r o := by
  induction data generalizing n ch sent with
  | nil => exact ⟨by simp, fun _ _ _ => rfl⟩
  | cons v data ih =>
    simp only [List.length_cons] at hl
    have hr1 : ((ch.settle c n).receive cfg v).received = opcBufWrite q :: b0 :: b1 :: b2 :: (sent ++ [v]) := by
      simp [hr]
    obtain ⟨h1, h2⟩ := ih (n := n + 1) (h.settle.receive (cfg := cfg) (o := v)) hr1 (by omega)
    have h0 : ∀ r o, ((ch.settle c n).receive cfg v).bufByte c r o =
        if r = q ∧ o = (bufferOffset cfg (addrOf b0 b1 b2) + sent.length) % cfg.pageSize then v
        else ch.bufByte c r o := fun r o => by
      rw [receive_data h.settle (by simpa using hr), settle_bufByte]
    simp only [List.length_append, List.length_singleton] at h1 h2
    refine ⟨fun j w hj => ?_, fun r o ho => ?_⟩
    · cases j with
      | zero =>
        obtain rfl : v = w := by simpa using hj
        rw [hear, h2, h0, Nat.add_zero, if_pos ⟨rfl, rfl⟩]
        rintro ⟨-, j, hj, heq⟩
        have hm : (bufferOffset cfg (addrOf b0 b1 b2) + sent.length + 0) % cfg.pageSize =
            (bufferOffset cfg (addrOf b0 b1 b2) + sent.length + (1 + j)) % cfg.pageSize := by
          rw [heq]; congr 1; omega
        have := Nat.ModEq.add_left_cancel' _ hm
        rw [Nat.ModEq, Nat.mod_eq_of_lt (by omega), Nat.mod_eq_of_lt (by omega)] at this
        omega
      | succ j =>
        have := h1 j w (by simpa using hj)
        rw [hear, ← this]
        congr 2; omega
    · rw [hear, h2, h0, if_neg]
      · rintro ⟨hq, h⟩
        exact ho ⟨hq, 0, by simp, by simpa using h⟩
      · rintro ⟨hq, j, hj, h⟩
        exact ho ⟨hq, j + 1, by simpa using hj, by rw [h]; congr 1; omega⟩

/-- R89: the end of a buffer write starts nothing. -/
theorem deselect_write {q : Parity} {rest : List Byte} (hr : ch.received = opcBufWrite q :: rest) :
    ch.deselect cfg c = ch := by
  by_cases hb : ch.busy = true
  · simp [deselect, hb]
  rcases rest with _ | ⟨b0, _ | ⟨b1, _ | ⟨b2, _ | ⟨x, rest⟩⟩⟩⟩
  · simp [deselect, hb, hr]
  · simp [deselect, hb, hr]
  · simp [deselect, hb, hr]
  · exact StoresNothing.deselect
      (hr ▸ .inr ⟨_, _, rfl, .inr (.inr (.inr ⟨by cases q <;> simp [opcBufWrite], le_refl 4⟩))⟩)
  · simp [deselect, hb, hr]

theorem hear_append (xs ys : List Byte) :
    ch.hear cfg c n (xs ++ ys) = (ch.hear cfg c n xs).hear cfg c (n + xs.length) ys := by
  induction xs generalizing n ch with
  | nil => rfl
  | cons x xs ih =>
    rw [List.cons_append, hear, hear, ih, List.length_cons, Nat.add_assoc, Nat.add_comm 1]

/-! A chip that stays busy (R80). -/

theorem settle_still {later : List Bool} (hb : ch.busy = true) (hf : ch.finish = false :: later) :
    (ch.settle c n).busy = true ∧ (ch.settle c n).finish = later := by
  simp [settle, hb, hf]

@[simp] theorem receive_finish (o : Byte) : (ch.receive cfg o).finish = ch.finish := by
  unfold receive; split <;> simp

theorem hear_still {later : List Bool} (os : List Byte) (hb : ch.busy = true)
    (hf : ch.finish = List.replicate os.length false ++ later) :
    (ch.hear cfg c n os).busy = true ∧ (ch.hear cfg c n os).finish = later := by
  induction os generalizing n ch with
  | nil => exact ⟨hb, by simpa [hear] using hf⟩
  | cons o os ih =>
    obtain ⟨h1, h2⟩ := settle_still (c := c) (n := n) hb (later := List.replicate os.length false ++ later)
      (by simpa [List.replicate_succ] using hf)
    exact ih (by simpa using h1) (by simpa using h2)

end Chip

variable {cfg : Config} {c : Nat}

/-! What a chip answers when nothing outside does. -/

/-- R308, R81, R85: a byte that nothing outside supplies is the selected chip's answer. -/
theorem Bus.xfer_answered {b : Bus} {o v : Byte} (h : (b.xfer cfg o).1 = .byte v) (ha : b.answers = [])
    (hs : b.cs = some c) {ch : Chip} (hc : b.chips[c]? = some ch) :
    v = (ch.settle c b.tick).answer cfg c b.tick := by
  simp only [xfer, answer, settle_answers, ha] at h
  split at h
  · cases h
  · simpa [chipAnswer, hs, settleFrom_getElem?, hc] using h.symm

/-- R11, R308, R81, R85: the answer of an exchange with a selected chip. -/
theorem Bus.xfer_answer (hf : cfg.hasBusFault = false) {b : Bus} (ha : b.answers = []) (hs : b.cs = some c) {ch : Chip}
    (hc : b.chips[c]? = some ch) (o : Byte) :
    (b.xfer cfg o).1 = .byte ((ch.settle c b.tick).answer cfg c b.tick) := by
  simp [xfer, answer, ha, hf, chipAnswer, hs, settleFrom_getElem?, hc]

theorem Chip.answer_status {ch : Chip} (n : Nat) (hr : ch.received = [opcStatusRead]) :
    ready (ch.answer cfg c n) = !ch.busy := by
  have h : ∀ (b : Bool) (l : Byte), ready (statusByte b l) = b := by
    intro b l
    unfold ready statusByte
    cases b <;> simp
  simp [answer, hr, h]

/-- R85: the answer in response position `j` of a buffer read. -/
theorem Chip.answer_read {ch : Chip} (n : Nat) {q : Parity} {b0 b1 b2 : Byte} {sent : List Byte} {j : Nat}
    (hr : ch.received = opcBufRead q :: b0 :: b1 :: b2 :: sent) (hj : sent.length = cfg.bufReadDummy + j) :
    ch.answer cfg c n = ch.bufByte c q ((bufferOffset cfg (addrOf b0 b1 b2) + j) % cfg.pageSize) := by
  have h1 : opcBufRead q ≠ opcStatusRead := by cases q <;> decide
  have h2 : readBuffer? (opcBufRead q) = some q := by cases q <;> rfl
  simp only [answer, hr, h1, if_false, h2]
  rw [if_neg (by omega), hj, Nat.add_sub_cancel_left]

/-- A chip on which a status frame has run (R81, R152): it did nothing but turn ready, perhaps. -/
theorem statusRead_answered {b b' : Bus} {v : Byte} (h : statusRead cfg c b = .ok v b') (ha : b.answers = [])
    (hc : c < b.chips.length) :
    (ready v = true → (b'.chip c).busy = false) ∧ ((b.chip c).busy = false → ready v = true) ∧
      (b'.chip c).main = (b.chip c).main ∧ (∀ q, (b'.chip c).buf q = (b.chip c).buf q) ∧
      (b'.chip c).doubts = (if ready v = true then [] else (b.chip c).doubts) ∧ (b'.chip c).commits = (b.chip c).commits := by
  rw [statusRead, issue_eq] at h
  cases ht : transferBlock cfg c (frameOuts [opcStatusRead] 0 1) (b.sel c) with
  | raise e d b1 => simp [ht] at h
  | ok is b2 =>
    simp only [ht, Res.andThen_ok, Res.ok.injEq] at h
    obtain ⟨hv, rfl⟩ := h
    have hb2 := transferBlock_chips ht c
    rw [Bus.sel_getElem?, Bus.getElem?_chip hc] at hb2
    simp only [Option.map_some, if_true, Bus.sel_cs, Bus.sel_tick] at hb2
    simp only [frameOuts, dummies_zero, dummies_succ, List.append_nil, List.cons_append, List.nil_append, transferBlock]
      at ht
    cases hx1 : (b.sel c).xfer cfg opcStatusRead with
    | mk a1 b1 =>
      cases a1 with
      | fault => simp [hx1] at ht
      | byte i =>
        have hc1 := Bus.xfer_getElem?_byte (b := b.sel c) (cfg := cfg) (o := opcStatusRead) (v := i) (by rw [hx1]) c
        have hcs1 := Bus.xfer_cs (b.sel c) cfg opcStatusRead
        have ha1 := Bus.xfer_answers (b.sel c) cfg opcStatusRead
        have hn1 := Bus.xfer_tick (b.sel c) cfg opcStatusRead
        rw [hx1] at hc1 hcs1 ha1 hn1
        simp only [Bus.sel_cs, Bus.sel_answers, ha, List.tail_nil, Bus.sel_tick] at hcs1 ha1 hn1
        rw [Bus.sel_getElem?, Bus.getElem?_chip hc] at hc1
        simp only [Option.map_some, if_true, Bus.sel_cs, Bus.sel_tick] at hc1
        simp only [hx1] at ht
        cases hx2 : b1.xfer cfg dummyOut with
        | mk a2 b3 =>
          cases a2 with
          | fault => simp [hx2] at ht
          | byte w =>
            simp only [hx2, Res.andThen_ok, Res.ok.injEq] at ht
            obtain ⟨rfl, rfl⟩ := ht
            obtain rfl : w = v := by simpa using hv
            have hw := Bus.xfer_answered (b := b1) (cfg := cfg) (o := dummyOut) (v := w) (by rw [hx2]) ha1 hcs1 hc1
            generalize hch1 : ((((b.chip c).settle c b.tick).select.settle c (b.tick + 1)).receive cfg opcStatusRead) = ch1
              at hc1 hw
            have hready : ready w = !(ch1.settle c b1.tick).busy := by
              rw [hw]; exact Chip.answer_status _ (by rw [← hch1]; simp)
            rw [show frameOuts [opcStatusRead] 0 1 = [opcStatusRead, dummyOut] from rfl, Chip.hear, hch1, Chip.hear,
              Chip.hear] at hb2
            have hq : StoresNothing ((ch1.settle c (b.tick + 1 + 1)).receive cfg dummyOut).received := by
              rw [← hch1]; simpa using storesNothing_status _
            have hd : (b3.desel cfg c).chips[c]? =
                some (((ch1.settle c (b.tick + 1 + 1)).receive cfg dummyOut).settle c b3.tick) := by
              rw [Bus.desel_getElem?, hb2]
              simp only [Option.map_some, if_true]
              rw [StoresNothing.deselect (by simpa using hq)]
            have hk : ((if ready w then (b3.desel cfg c).noteReady c else b3.desel cfg c).chip c) =
                (if ready w then Chip.confirmed else id)
                  (((ch1.settle c (b.tick + 1 + 1)).receive cfg dummyOut).settle c b3.tick) := by
              split
              · refine Bus.chip_of_getElem? ?_
                rw [Bus.noteReady, Bus.onChip_getElem?, hd]; simp
              · exact Bus.chip_of_getElem? hd
            have hsb : ∀ q, ((ch1.settle c (b.tick + 1 + 1)).receive cfg dummyOut).buf q = (b.chip c).buf q := fun q => by
              rw [Chip.receive_buf, Chip.storesAt_short (by rw [← hch1]; simp), ← hch1, Chip.settle_buf, Chip.receive_buf,
                Chip.storesAt_short (by simp)]
              simp
            show (_ → ((if ready w then (b3.desel cfg c).noteReady c else b3.desel cfg c).chip c).busy = false) ∧ _ ∧
              ((if ready w then (b3.desel cfg c).noteReady c else b3.desel cfg c).chip c).main = _ ∧
              (∀ q, ((if ready w then (b3.desel cfg c).noteReady c else b3.desel cfg c).chip c).buf q = _) ∧
              ((if ready w then (b3.desel cfg c).noteReady c else b3.desel cfg c).chip c).doubts = _ ∧
              ((if ready w then (b3.desel cfg c).noteReady c else b3.desel cfg c).chip c).commits = _
            rw [hk]
            refine ⟨fun hr => ?_, fun hr => ?_, ?_, fun q => ?_, ?_, ?_⟩
            · rw [if_pos hr, Chip.confirmed_busy]
              rw [hr, hn1] at hready
              exact Chip.settle_busy (by simpa using hready)
            · have : (ch1.settle c b1.tick).busy = false := by
                refine Chip.settle_busy ?_
                rw [← hch1, Chip.receive_busy]
                exact Chip.settle_busy (by simpa using Chip.settle_busy hr)
              rw [hready, this]; rfl
            · have : ((if ready w then Chip.confirmed else id) (((ch1.settle c (b.tick + 1 + 1)).receive cfg dummyOut).settle c
                  b3.tick)).main = (((ch1.settle c (b.tick + 1 + 1)).receive cfg dummyOut).settle c b3.tick).main := by
                split <;> rfl
              rw [this, ← hch1]; simp
            · have : ((if ready w then Chip.confirmed else id) (((ch1.settle c (b.tick + 1 + 1)).receive cfg dummyOut).settle c
                  b3.tick)).buf q = (((ch1.settle c (b.tick + 1 + 1)).receive cfg dummyOut).settle c b3.tick).buf q := by
                split <;> simp
              rw [this, Chip.settle_buf, hsb]
            · by_cases hr : ready w = true
              · rw [if_pos hr, if_pos hr]; rfl
              · rw [if_neg hr, if_neg hr, ← hch1]; simp
            · by_cases hr : ready w = true
              · rw [if_pos hr, ← hch1]; simp [Chip.confirmed]
              · rw [if_neg hr, ← hch1]; simp

/-- The same where no exchange can fault (R11). -/
theorem statusRead_answer (hf : cfg.hasBusFault = false) {b : Bus} (ha : b.answers = []) (hc : c < b.chips.length) :
    ∃ (v : Byte) (b' : Bus), statusRead cfg c b = .ok v b' ∧ b'.answers = [] ∧ b'.chips.length = b.chips.length ∧
      (ready v = true → (b'.chip c).busy = false) ∧ ((b.chip c).busy = false → ready v = true) ∧
      (b'.chip c).main = (b.chip c).main ∧ (∀ q, (b'.chip c).buf q = (b.chip c).buf q) ∧
      (b'.chip c).doubts = (if ready v = true then [] else (b.chip c).doubts) ∧ (b'.chip c).commits = (b.chip c).commits := by
  obtain ⟨v, b', h⟩ : ∃ v b', statusRead cfg c b = .ok v b' := by
    obtain ⟨resp, b', h⟩ := issue_ok (c := c) hf [opcStatusRead] 0 1 b
    exact ⟨_, _, by rw [statusRead, h]; rfl⟩
  obtain ⟨i, -, -, -, -, h5, h6⟩ := (statusRead_post (cfg := cfg) (c := c) b).of_eq_ok h
  exact ⟨v, b', h, by rw [h6, ha]; rfl, h5, statusRead_answered h ha hc⟩

/-- R153 with the reference chips: a poll leaves the memories; one that ends well leaves a ready chip and no page in doubt,
one that runs out leaves the doubts (U4). -/
theorem pollLoop_answer (hf : cfg.hasBusFault = false) (k : Nat) {b : Bus} (ha : b.answers = []) (hc : c < b.chips.length) :
    (pollLoop cfg c k b).Post
      (fun _ b' => b'.answers = [] ∧ b'.chips.length = b.chips.length ∧ (b'.chip c).busy = false ∧
        (b'.chip c).main = (b.chip c).main ∧ (∀ q, (b'.chip c).buf q = (b.chip c).buf q) ∧ (b'.chip c).doubts = [] ∧
        (b'.chip c).commits = (b.chip c).commits)
      (fun _ _ b' => b'.chips.length = b.chips.length ∧ (b'.chip c).main = (b.chip c).main ∧
        (b'.chip c).doubts = (b.chip c).doubts) := by
  induction k generalizing b with
  | zero => exact ⟨rfl, rfl, rfl⟩
  | succ k ih =>
    obtain ⟨v, b1, h1, h2, h3, h4, -, h6, h7, h8, h9⟩ := statusRead_answer hf ha hc
    rw [pollLoop, h1, Res.andThen_ok]
    by_cases hr : ready v = true
    · rw [if_pos hr]
      exact ⟨h2, h3, h4 hr, h6, h7, by rw [h8, if_pos hr], h9⟩
    · rw [if_neg hr]
      rw [if_neg hr] at h8
      have := ih h2 (by rw [h3]; exact hc)
      cases hp : pollLoop cfg c k b1 with
      | ok a b' =>
        rw [hp] at this
        obtain ⟨g1, g2, g3, g4, g5, g6, g7⟩ := this
        exact ⟨g1, g2.trans h3, g3, g4.trans h6, fun q => (g5 q).trans (h7 q), g6, g7.trans h9⟩
      | raise e d b' =>
        rw [hp] at this
        exact ⟨this.1.trans h3, this.2.1.trans h6, this.2.2.trans h8⟩

/-- R85: the response bytes of a buffer read. -/
theorem transferBlock_read (hf : cfg.hasBusFault = false) {q : Parity} {b0 b1 b2 : Byte} {f : Nat → Byte} (k : Nat)
    {sent : List Byte} {j : Nat} {b : Bus} {ch : Chip} (ha : b.answers = []) (hs : b.cs = some c)
    (hc : b.chips[c]? = some ch) (hr : ch.received = opcBufRead q :: b0 :: b1 :: b2 :: sent)
    (hj : sent.length = cfg.bufReadDummy + j) (hb : ∀ o, ch.bufByte c q o = f o) :
    ∃ b', transferBlock cfg c (dummies k) b = .ok ((List.range k).map fun i =>
      f ((bufferOffset cfg (addrOf b0 b1 b2) + (j + i)) % cfg.pageSize)) b' := by
  induction k generalizing b ch j sent with
  | zero => exact ⟨b, rfl⟩
  | succ k ih =>
    have hx := Bus.xfer_answer hf ha hs hc dummyOut
    rw [Chip.answer_read _ (by simpa using hr) hj, Chip.settle_bufByte, hb] at hx
    generalize hb1 : (b.xfer cfg dummyOut).2 = b1
    have hc1 := Bus.xfer_getElem?_byte hx c
    rw [hb1, hc] at hc1
    simp only [Option.map_some, hs, if_true] at hc1
    have hq : StoresNothing ((ch.settle c b.tick).received ++ [dummyOut]) :=
      .inr ⟨_, _, by rw [Chip.settle_received, hr]; rfl, by cases q <;> simp [opcBufRead]⟩
    obtain ⟨b2, h2⟩ := ih (b := b1) (sent := sent ++ [dummyOut]) (j := j + 1) (by rw [← hb1]; simp [ha])
      (by rw [← hb1]; simpa using hs) hc1 (by simp [hr]) (by simp; omega) (fun o => by
        rw [← hb, Chip.bufByte, Chip.receive_buf, hq.storesAt]; simp [Chip.bufByte])
    refine ⟨b2, ?_⟩
    rw [dummies_succ, transferBlock, show b.xfer cfg dummyOut = (_, b1) from Prod.ext hx hb1]
    simp only [h2, Res.andThen_ok, Res.ok.injEq, and_true]
    rw [List.range_succ_eq_map]
    simp [List.map_map, Function.comp_def, Nat.add_assoc, Nat.add_comm 1]

/-- R85, R150: a whole buffer-read frame with the reference chips. -/
theorem issue_read (hf : cfg.hasBusFault = false) {q : Parity} {a : AddrField} {b : Bus} (ha : b.answers = [])
    (hc : c < b.chips.length) (k : Nat) :
    ∃ b', issue cfg c (opcBufRead q :: addrBytes a) cfg.bufReadDummy k b =
        .ok ((List.range k).map fun i => (b.chip c).bufByte c q ((a.toNat + i) % cfg.pageSize)) b' := by
  have hq : ∀ xs, StoresNothing (opcBufRead q :: xs) := fun xs =>
    .inr ⟨_, _, rfl, by cases q <;> simp [opcBufRead]⟩
  obtain ⟨is1, b1, h1⟩ := transferBlock_ok (c := c) hf (opcBufRead q :: addrBytes a) (b.sel c)
  have hc1 := transferBlock_chips h1 c
  rw [Bus.sel_getElem?, Bus.getElem?_chip hc] at hc1
  simp only [Option.map_some, Bus.sel_cs, if_true, Bus.sel_tick] at hc1
  obtain ⟨-, -, g3, -, -, -, g7⟩ := (transferBlock_post (cfg := cfg) (c := c) _ _).of_eq_ok h1
  obtain ⟨is2, b2, h2⟩ := transferBlock_ok (c := c) hf (dummies cfg.bufReadDummy) b1
  have hc2 := transferBlock_chips h2 c
  rw [hc1] at hc2
  simp only [Option.map_some, g3, Bus.sel_cs, if_true] at hc2
  obtain ⟨-, -, g3', -, -, -, g7'⟩ := (transferBlock_post (cfg := cfg) (c := c) _ _).of_eq_ok h2
  obtain ⟨b3, h3⟩ := transferBlock_read hf (q := q) (b0 := a.extractLsb' 16 8) (b1 := a.extractLsb' 8 8)
    (b2 := a.extractLsb' 0 8) (f := fun o => (b.chip c).bufByte c q o) k (sent := dummies cfg.bufReadDummy) (j := 0) (b := b2)
    (by rw [g7', g7]; simp [ha]) (by rw [g3', g3]; rfl) hc2
    (by simp [Chip.hear_received, addrBytes]) (by simp) (fun o => by
      refine Chip.bufByte_congr (fun q' => ?_) q o
      rw [Chip.hear_buf_of_quiet (by simpa [Chip.hear_received] using hq _),
        Chip.hear_buf_of_quiet (by simpa using hq _)]
      simp)
  refine ⟨b3.desel cfg c, ?_⟩
  rw [issue, h1, Res.andThen_ok, h2, Res.andThen_ok, h3, Res.andThen_ok]
  congr 1
  refine List.map_congr_left fun i _ => ?_
  rw [addrOf_bytes, bufferOffset, Nat.zero_add, Nat.mod_add_mod]

end Sys2Proof.Machine
end

