-- ==== Sys2Proof/Laws/Frames.lean ====
section
/-! SUPPORT. Frames on the reference chips as instructions: what a frame of a kind leaves, the byte of a stream write, a poll after
an erase frame, and a range of erases. -/

namespace Sys2Proof.Machine

/-- A single frame that ends well. -/
theorem exec_frame {s : State} {i : Instr} (hk : keepsRegisters i = true)
    (hne : ∀ c rest, i ≠ .spiIdRead c rest ∧ i ≠ .spiSecurityRead c rest)
    (hg : firstError (transportGuard s i) = none) {data : List Byte} {b : Bus} (h : transportProc s i s.bus = .ok data b) :
    ∃ t, exec i s = .next t ∧ t.bus = b := by
  rw [exec_transport hk hne, perform_ok hg (State.onBus_ok h)]
  exact ⟨_, rfl, rfl⟩

/-- A frame that makes a ready chip busy, sent alone. -/
theorem busy_frame {s : State} (hI : s.Inv) {c : ChipField} (hc : c.toNat < s.cfg.chips) (hf : s.cfg.hasBusFault = false)
    (hb : (s.bus.chip c.toNat).busy = false) {hdr : List Byte} (hl : hdr.length = 4) {i : Instr} (hk : keepsRegisters i = true)
    (hne : ∀ c rest, i ≠ .spiIdRead c rest ∧ i ≠ .spiSecurityRead c rest)
    (hg : firstError (transportGuard s i) = none)
    (hp : transportProc s i s.bus = noData (issueBusy s.cfg c.toNat hdr) s.bus ∨
      ∃ p, transportProc s i s.bus = noData (fun b => issueBusy s.cfg c.toNat hdr (b.noteCommit s.cfg c.toNat p)) s.bus) :
    ∃ (t : State) (ch1 : Chip), exec i s = .next t ∧ t.bus.chip c.toNat = ch1.deselect s.cfg c.toNat ∧
      ch1.busy = false ∧ ch1.received = hdr ∧ ch1.main = (s.bus.chip c.toNat).main ∧ (∀ q, ch1.buf q = (s.bus.chip c.toNat).buf q) ∧
      ch1.doubts = (s.bus.chip c.toNat).doubts ∧ ch1.commits = (s.bus.chip c.toNat).commits := by
  have hc' : c.toNat < s.bus.chips.length := by rw [hI.devices]; exact hc
  rcases hp with hp | ⟨p, hp⟩
  · obtain ⟨b', ch1, h1, -, -, -, h5, h6⟩ := issueBusy_ready hf hl hc' hb
    obtain ⟨t, ht, rfl⟩ := exec_frame hk hne hg (data := []) (b := b') (by rw [hp, noData, h1]; rfl)
    exact ⟨t, ch1, ht, h5, h6⟩
  · obtain ⟨b', ch1, h1, -, -, -, h5, h6⟩ := issueBusy_ready hf hl (b := s.bus.noteCommit s.cfg c.toNat p) hc' hb
    obtain ⟨t, ht, rfl⟩ := exec_frame hk hne hg (data := []) (b := b') (by rw [hp, noData, h1]; rfl)
    exact ⟨t, ch1, ht, h5, h6⟩

/-- An erase frame and its poll on a ready chip. -/
theorem erase_poll {s : State} (hI : s.Inv) (hi : s.idle = true) {c : ChipField} (hc : c.toNat < s.cfg.chips) (hf : s.cfg.hasBusFault = false)
    (hb : (s.bus.chip c.toNat).busy = false) {hdr : List Byte} (hl : hdr.length = 4) {i : Instr} (hk : keepsRegisters i = true)
    (hne : ∀ c rest, i ≠ .spiIdRead c rest ∧ i ≠ .spiSecurityRead c rest)
    (hg : firstError (transportGuard s i) = none)
    (hp : transportProc s i = noData (eraseAndPoll s.cfg c.toNat hdr)) :
    ∃ (t : State) (ch1 : Chip), exec i s = .next t ∧ Chip.SameBytes c.toNat (ch1.deselect s.cfg c.toNat) (t.bus.chip c.toNat) ∧
      ch1.busy = false ∧ ch1.received = hdr ∧ ch1.main = (s.bus.chip c.toNat).main ∧ (∀ q, ch1.buf q = (s.bus.chip c.toNat).buf q) ∧
      ch1.doubts = (s.bus.chip c.toNat).doubts ∧ ch1.commits = (s.bus.chip c.toNat).commits := by
  have hc' : c.toNat < s.bus.chips.length := by rw [hI.devices]; exact hc
  obtain ⟨b', ch1, h1, h2, h3, -, h5, h6⟩ := issueBusy_ready hf hl hc' hb
  have hk1 := kept_sameBytes s.cfg c.toNat (ch1.deselect s.cfg c.toNat)
  have hs1 : b'.Has c.toNat (Chip.SameBytes c.toNat (ch1.deselect s.cfg c.toNat)) := by
    intro ch hch
    rw [← h5, Bus.chip_of_getElem? hch]
    exact Chip.sameBytes_refl _ _
  have hkeep := noData_keeps (f := fun b => pollReady s.cfg c.toNat b) (hk1.pollReady (sameBytes_blind _ _) hs1 h2 fun _ => storesNothing_status _)
  have hlen : (pollReady s.cfg c.toNat b').All fun b => b.chips.length = s.bus.chips.length := by
    have hcl : Closed s.cfg c.toNat (fun b => b.chips.length = s.bus.chips.length) :=
      ⟨fun b h => by simpa using h, fun b h => by simpa using h, fun b o h => by simpa using h,
        fun b h => by simpa using h, fun b h => by simpa using h, fun b p h => by simpa using h, fun b h => by simpa using h⟩
    exact hcl.pollReady h3
  have hproc : transportProc s i s.bus = noData (fun b => pollReady s.cfg c.toNat b) b' := by
    rw [hp, noData, eraseAndPoll, h1]; rfl
  rw [exec_transport hk hne]
  cases hr : pollReady s.cfg c.toNat b' with
  | ok a b2 =>
    rw [hr] at hlen
    rw [noData, hr] at hkeep
    have hx : transportProc s i s.bus = .ok [] b2 := by rw [hproc, noData, hr]; rfl
    exact ⟨_, ch1, perform_ok hg (State.onBus_ok hx), hkeep _ (Bus.getElem?_chip (by rw [show b2.chips.length = _ from hlen]; exact hc')), h6⟩
  | raise e d b2 =>
    rw [hr] at hlen
    rw [noData, hr] at hkeep
    have hx : transportProc s i s.bus = .raise e d b2 := by rw [hproc, noData, hr]; rfl
    refine ⟨_, ch1, perform_raise hg (State.onBus_raise hx), ?_, h6⟩
    show Chip.SameBytes _ _ ((State.abort { s with bus := b2 }).bus.chip _)
    rw [State.abort_bus_idle (s := { s with bus := b2 }) hi, State.release]
    have hl2 : c.toNat < b2.chips.length := by rw [show b2.chips.length = _ from hlen]; exact hc'
    simp only
    split
    · next j hj => exact hkeep.2 j hj _ (Bus.getElem?_chip (by rw [Bus.desel_length]; exact hl2))
    · exact hkeep.1 _ (Bus.getElem?_chip hl2)

/-- R9, R83: the commit frame of buffer `q` that `COMMIT_VARIANT` selects, sent alone. -/
theorem commit_exec {s : State} (hi : s.idle = true) {c : ChipField} (hc : c.toNat < s.cfg.chips) (q : Parity) {a : AddrField}
    (ha : isPageField s.cfg a = true) {b : Bus}
    (h : issueBusy s.cfg c.toNat (opcCommit s.cfg q :: addrBytes a) (s.bus.noteCommit s.cfg c.toNat (decodePage s.cfg a)) = .ok () b) :
    ∃ t, exec (commitInstr s.cfg q c a) s = .next t ∧ t.bus = b := by
  cases q <;> cases hv : s.cfg.commitVariant
  · rw [show opcCommit s.cfg .a = opcBuf1Commit by simp [opcCommit, hv]] at h
    rw [show commitInstr s.cfg .a c a = .spiBuf1Commit c a by simp [commitInstr, hv]]
    exact exec_frame (i := .spiBuf1Commit c a) (data := []) rfl (by simp) (frameChecks_none (by simp [hv, ha]) hi hc) (by simp only [transportProc, noData]; rw [h]; rfl)
  · rw [show opcCommit s.cfg .a = opcBuf1CommitAlt by simp [opcCommit, hv]] at h
    rw [show commitInstr s.cfg .a c a = .spiBuf1CommitAlt c a by simp [commitInstr, hv]]
    exact exec_frame (i := .spiBuf1CommitAlt c a) (data := []) rfl (by simp) (frameChecks_none (by simp [hv, ha]) hi hc) (by simp only [transportProc, noData]; rw [h]; rfl)
  · rw [show opcCommit s.cfg .b = opcBuf2Commit by simp [opcCommit, hv]] at h
    rw [show commitInstr s.cfg .b c a = .spiBuf2Commit c a by simp [commitInstr, hv]]
    exact exec_frame (i := .spiBuf2Commit c a) (data := []) rfl (by simp) (frameChecks_none (by simp [hv, ha]) hi hc) (by simp only [transportProc, noData]; rw [h]; rfl)
  · rw [show opcCommit s.cfg .b = opcBuf2CommitAlt by simp [opcCommit, hv]] at h
    rw [show commitInstr s.cfg .b c a = .spiBuf2CommitAlt c a by simp [commitInstr, hv]]
    exact exec_frame (i := .spiBuf2CommitAlt c a) (data := []) rfl (by simp) (frameChecks_none (by simp [hv, ha]) hi hc) (by simp only [transportProc, noData]; rw [h]; rfl)

/-- The byte of `WRITE_BYTE` on the bus and in the chip. -/
theorem send_chip {s : State} (hI : s.Inv) (hf : s.filling = true) (hb : s.cfg.hasBusFault = false)
    (ht : (s.bus.chip s.curW).Takes (s.handle s.curW).par) (v : Byte) :
    ∃ b, engSend s.curW v s = .ok () { s with bus := b } ∧ b.answers = s.bus.answers.drop 1 ∧ b.cs = some s.curW ∧
      b.chips.length = s.bus.chips.length ∧ (∃ rest, (b.chip s.curW).received = opcBufWrite (s.handle s.curW).par :: rest) ∧
      (b.chip s.curW).main = (s.bus.chip s.curW).main ∧ (b.chip s.curW).doubts = (s.bus.chip s.curW).doubts ∧
      (b.chip s.curW).commits = (s.bus.chip s.curW).commits ∧
      ∀ q o, (b.chip s.curW).bufByte s.curW q o =
        if q = (s.handle s.curW).par ∧ o = s.soff then v else (s.bus.chip s.curW).bufByte s.curW q o := by
  obtain ⟨-, hcs, data, hr1, hr2⟩ := hI.streaming hf
  have hc : s.curW < s.bus.chips.length := by rw [hI.devices]; exact hI.curW_lt
  obtain ⟨is, b, h⟩ := transferBlock_ok (c := s.curW) hb [v] s.bus
  obtain ⟨-, -, h3, -, -, h6, h7⟩ := (transferBlock_post (cfg := s.cfg) (c := s.curW) _ _).of_eq_ok h
  have hch := transferBlock_chips h s.curW
  rw [Bus.getElem?_chip hc, Option.map_some, if_pos hcs] at hch
  have hro : (s.bus.chip s.curW).received = opcBufWrite (s.handle s.curW).par :: 0 :: 0 :: 0 :: data := by
    rw [hr1, openFrame_eq]; rfl
  refine ⟨b, ?_, by simpa using h7, by rw [h3, hcs], h6, ?_, ?_, ?_, ?_, ?_⟩
  · rw [engSend, State.onBus_ok h]; rfl
  · rw [Bus.chip_of_getElem? hch]
    exact ⟨_, by simp only [Chip.hear, Chip.receive_received, Chip.settle_received, hro]; rfl⟩
  · rw [Bus.chip_of_getElem? hch]; simp
  · rw [Bus.chip_of_getElem? hch]; simp
  · rw [Bus.chip_of_getElem? hch]; simp
  · intro q o
    rw [Bus.chip_of_getElem? hch, Chip.hear, Chip.hear, Chip.receive_data ht.settle (by simpa using hro), Chip.settle_bufByte]
    have h0 : addrOf 0 0 0 = 0 := by decide
    have : (bufferOffset s.cfg (addrOf 0 0 0) + data.length) % s.cfg.pageSize = s.soff := by
      rw [h0, hr2, bufferOffset]
      simpa using Nat.mod_eq_of_lt hI.soff_lt
    rw [h0] at this
    rw [show addrOf 0#8 0#8 0#8 = 0 from h0, this]

/-- A chip reads as itself. -/
theorem has_same (c : Nat) (b : Bus) : b.Has c (Chip.SameBytes c (b.chip c)) := by
  intro ch hc
  rw [Bus.chip_of_getElem? hc]; exact Chip.sameBytes_refl _ _

/-- R89: a frame that stores nothing leaves a ready chip ready. -/
theorem kept_ready (cfg : Config) (d : Nat) : Kept cfg d StoresNothing (fun ch => ch.busy = false) where
  settle n ch h := Chip.settle_busy h
  select ch h := h
  receive o ch h _ := by simpa using h
  deselect ch h hq := by rw [hq.deselect]; exact h
  nil := .inl rfl
  cut _ _ h := h.cut

/-- Every chip is ready and nothing outside answers. -/
structure AllReady (cfg : Config) (b : Bus) : Prop where
  answers : b.answers = []
  length : b.chips.length = cfg.chips
  ready : ∀ c, c < cfg.chips → (b.chip c).busy = false

/-- No bus event changes the number of chips. -/
theorem closed_length (cfg : Config) (n c : Nat) : Closed cfg c (fun b => b.chips.length = n) :=
  ⟨fun b h => by simpa using h, fun b h => by simpa using h, fun b o h => by simpa using h,
    fun b h => by simpa using h, fun b h => by simpa using h, fun b p h => by simpa using h, fun b h => by simpa using h⟩

/-- R157, R86: one page erase whose poll ends well, among ready chips. -/
theorem erase_one {cfg : Config} (hf : cfg.hasBusFault = false) {b b' : Bus} {c p : Nat} (h0 : AllReady cfg b) (hc : c < cfg.chips)
    (hdec : decodePage cfg (encodePage cfg p) = p) (h : eraseAndPoll cfg c (pageEraseFrame cfg p) b = .ok () b') :
    AllReady cfg b' ∧ ∀ d, d < cfg.chips →
      (∀ x, (b'.chip d).mainByte d x = if d = c ∧ p * cfg.pageSize ≤ x ∧ x < p * cfg.pageSize + cfg.pageSize then 0xFF else (b.chip d).mainByte d x) ∧
      (∀ q o, (b'.chip d).bufByte d q o = (b.chip d).bufByte d q o) ∧
      (∀ x ∈ (b'.chip d).doubts, x ∈ (b.chip d).doubts) ∧ (d = c → (b'.chip d).doubts = []) := by
  have hc' : c < b.chips.length := by rw [h0.length]; exact hc
  have hlen : b'.chips.length = cfg.chips := by
    have := (closed_length cfg cfg.chips c).eraseAndPoll (pageEraseFrame cfg p) h0.length
    rw [h] at this; exact this
  obtain ⟨b1, ch1, k1, k2, k3, k4, k5, k6, k7, k8, k9, -⟩ := issueBusy_ready hf (hdr := pageEraseFrame cfg p) rfl hc' (h0.ready c hc)
  have hp : pollReady cfg c b1 = .ok () b' := by rw [eraseAndPoll, k1] at h; exact h
  obtain ⟨g1, g2, g3, g4, g5, g6, -⟩ := (pollLoop_answer hf _ (by rw [k4, h0.answers]; rfl) (by rw [k3]; exact hc')).of_eq_ok hp
  rw [Chip.deselect_pageErase k6 k7, addrOf_bytes, hdec] at k5
  refine ⟨⟨g1, hlen, fun d hd => ?_⟩, fun d hd => ?_⟩
  · by_cases hdc : c = d
    · subst hdc; exact g3
    · have := (kept_ready cfg d).eraseAndPoll ⟨fun _ h => h, fun _ h => h⟩ (pageEraseFrame cfg p) (b := b) (c := c) (by
        intro ch hch; rw [← Bus.chip_of_getElem? hch]; exact h0.ready d hd) hdc
      rw [h] at this
      exact this _ (Bus.getElem?_chip (by rw [hlen]; exact hd))
  · by_cases hdc : c = d
    · subst hdc
      refine ⟨fun x => ?_, fun q o => ?_, by simp [g6], fun _ => g6⟩
      · rw [Chip.mainByte_congr g4, k5, Chip.erasePages_mainByte, Chip.mainByte_congr k8]
        simp
      · rw [Chip.bufByte_congr (fun q => g5 q), k5, Chip.erasePages_bufByte, Chip.bufByte_congr k9]
    · have := (kept_sameBytes cfg d (b.chip d)).eraseAndPoll (sameBytes_blind _ _) (pageEraseFrame cfg p) (b := b) (c := c) (has_same _ _) hdc
      rw [h] at this
      have := this _ (Bus.getElem?_chip (by rw [hlen]; exact hd))
      refine ⟨fun x => ?_, this.2, this.1.2, fun h => absurd h.symm hdc⟩
      rw [this.1.1, if_neg (by rintro ⟨rfl, -⟩; exact hdc rfl)]

/-- R215: the page erases of a range of logical pages. -/
theorem eraseFrom_memory {cfg : Config} (hf : cfg.hasBusFault = false) (hN : 0 < cfg.chips) (k l : Nat) {b b' : Bus} (h0 : AllReady cfg b)
    (hdec : ∀ j, j < l + k → decodePage cfg (encodePage cfg (pageIndex cfg j)) = pageIndex cfg j) (h : eraseFrom cfg k l b = .ok () b') :
    ∀ d, d < cfg.chips →
      (∀ p o, o < cfg.pageSize → (b'.chip d).mainByte d (p * cfg.pageSize + o) =
        if l ≤ p * cfg.chips + d ∧ p * cfg.chips + d < l + k then 0xFF else (b.chip d).mainByte d (p * cfg.pageSize + o)) ∧
      (∀ q o, (b'.chip d).bufByte d q o = (b.chip d).bufByte d q o) ∧
      (∀ x ∈ (b'.chip d).doubts, x ∈ (b.chip d).doubts) ∧
      ((∃ j, l ≤ j ∧ j < l + k ∧ d = pageChip cfg j) → (b'.chip d).doubts = []) := by
  induction k generalizing l b with
  | zero =>
    obtain rfl : b = b' := by simpa [eraseFrom] using h
    intro d hd
    exact ⟨fun p o ho => by rw [if_neg (by omega)], fun _ _ => rfl, fun _ h => h, by rintro ⟨j, h1, h2, -⟩; omega⟩
  | succ k ih =>
    rw [eraseFrom] at h
    cases he : eraseAndPoll cfg (pageChip cfg l) (pageEraseFrame cfg (pageIndex cfg l)) b with
    | raise e c b1 => simp [he] at h
    | ok a b1 =>
      rw [he, Res.andThen_ok] at h
      obtain ⟨h1, h2⟩ := erase_one hf h0 (Nat.mod_lt _ hN) (hdec l (by omega)) he
      intro d hd
      obtain ⟨h3, h4, h7, h8⟩ := ih (l + 1) h1 (fun j hj => hdec j (by omega)) h d hd
      obtain ⟨h5, h6, h9, h10⟩ := h2 d hd
      refine ⟨fun p o ho => ?_, fun q o => (h4 q o).trans (h6 q o), fun x hx => h9 x (h7 x hx), ?_⟩
      · rw [h3 p o ho, h5]
        show (if _ then _ else if d = pageChip cfg l ∧ _ then _ else _) = _
        have hpg := page_mem (P := cfg.pageSize) (p := pageIndex cfg l) (k := 1) (x := p) ho
        rw [one_mul] at hpg
        simp only [hpg]
        have hdm : l = p * cfg.chips + d ↔ d = pageChip cfg l ∧ pageIndex cfg l ≤ p ∧ p < pageIndex cfg l + 1 := by
          unfold pageChip pageIndex
          constructor
          · rintro rfl
            rw [Nat.add_comm, Nat.add_mul_mod_self_right, Nat.mod_eq_of_lt hd, Nat.add_mul_div_right _ _ hN, Nat.div_eq_of_lt hd]
            omega
          · rintro ⟨h7, h8, h9⟩
            have : p = l / cfg.chips := by omega
            rw [this, h7, Nat.mul_comm]
            exact (Nat.div_add_mod l cfg.chips).symm
        by_cases hl : l = p * cfg.chips + d
        · rw [if_neg (by omega), if_pos (hdm.1 hl), if_pos (by omega)]
        · rw [if_neg (fun h => hl (hdm.2 h))]
          refine if_congr (by omega) rfl rfl
      · rintro ⟨j, hj1, hj2, hj3⟩
        by_cases hj : j = l
        · have hnil := h10 (hj ▸ hj3)
          exact List.eq_nil_iff_forall_not_mem.2 fun x hx => by have := h7 x hx; rw [hnil] at this; cases this
        · exact h8 ⟨j, by omega, by omega, hj3⟩

end Sys2Proof.Machine
end

