-- ==== Sys2Proof/Laws/Honest.lean ====
section
/-! SUPPORT. What the model knows of readiness (R297) agrees with the reference chips while nothing outside answers for them:
one lemma per procedure. -/

namespace Sys2Proof.Machine

/-- A chip known to be ready is not busy. -/
def Chip.Honest (ch : Chip) : Prop := ch.knownReady = true → ch.busy = false

/-- Nothing outside answers, and chip `d` is honest. -/
def Bus.HonestAt (d : Nat) (b : Bus) : Prop := b.answers = [] ∧ b.Has d Chip.Honest

/-- A frame, whole or not, whose end starts nothing: a status read, a buffer read or a buffer write (R89). -/
def Harmless (r : List Byte) : Prop :=
  r = [] ∨ ∃ op rest, r = op :: rest ∧
    (op = opcStatusRead ∨ op = opcBuf1Read ∨ op = opcBuf2Read ∨ op = opcBuf1Write ∨ op = opcBuf2Write)

theorem Harmless.cut {r r' : List Byte} (h : Harmless (r ++ r')) : Harmless r := by
  cases r with
  | nil => exact .inl rfl
  | cons x xs =>
    rcases h with h | ⟨op, rest, h1, h2⟩
    · simp at h
    · simp only [List.cons_append, List.cons.injEq] at h1
      exact .inr ⟨x, xs, rfl, h1.1 ▸ h2⟩

theorem harmless_open (q : Parity) (rest : List Byte) : Harmless (openFrame q ++ rest) := by
  rw [openFrame_eq]
  refine .inr ⟨_, _, rfl, ?_⟩
  cases q <;> simp [opcBufWrite]

theorem Harmless.deselect {cfg : Config} {d : Nat} {ch : Chip} (h : Harmless ch.received) : ch.deselect cfg d = ch := by
  rcases h with h | ⟨op, rest, h1, h2⟩
  · unfold Chip.deselect; split <;> [rfl; (rw [h])]
  · rcases h2 with rfl | rfl | rfl | rfl | rfl
    · exact StoresNothing.deselect (h1 ▸ .inr ⟨_, _, rfl, .inl rfl⟩)
    · exact StoresNothing.deselect (h1 ▸ .inr ⟨_, _, rfl, .inr (.inl rfl)⟩)
    · exact StoresNothing.deselect (h1 ▸ .inr ⟨_, _, rfl, .inr (.inr (.inl rfl))⟩)
    · exact Chip.deselect_write (q := .a) h1
    · exact Chip.deselect_write (q := .b) h1

theorem Chip.Honest.settle {ch : Chip} (h : ch.Honest) (c n : Nat) : (ch.settle c n).Honest := fun hk =>
  settle_busy (h (by simpa using hk))

/-- Such a frame keeps a chip honest. -/
theorem kept_honest (cfg : Config) (d : Nat) : Kept cfg d Harmless Chip.Honest where
  settle n ch h := h.settle d n
  select ch h := h
  receive o ch h _ := by simpa [Chip.Honest] using h
  deselect ch h hq := by rw [hq.deselect]; exact h
  nil := .inl rfl
  cut _ _ h := h.cut

/-- Any frame leaves a chip that is not known to be ready so. -/
theorem kept_unknown (cfg : Config) (d : Nat) : Kept cfg d (fun _ => True) (fun ch => ch.knownReady = false) where
  settle n ch h := by simpa using h
  select ch h := h
  receive o ch h _ := by simpa using h
  deselect ch h _ := by
    unfold Chip.deselect
    split
    · exact h
    split
    · split
      · exact h
      · unfold Chip.addressed
        split
        · exact h
        split
        · simpa [Chip.transfer] using h
        split
        · exact h
        split <;> exact h
    · exact h
  nil := trivial
  cut _ _ _ := trivial

/-- Nothing outside answers. -/
theorem closed_answers (cfg : Config) (c : Nat) : Closed cfg c (fun b => b.answers = []) where
  sel _ h := h
  desel _ h := h
  xfer b o h := by rw [Bus.xfer_answers, h]; rfl
  noteReady _ h := h
  noteBusyFrame _ h := h
  noteCommit _ _ h := h
  loseBuffers _ h := h

/-- Chip `d` is honest after a procedure, and after the abort that an error starts. -/
def KeepsHonest {α : Type} (cfg : Config) (d : Nat) (r : Res Bus α) : Prop :=
  r.Post (fun _ b => b.HonestAt d) (fun _ _ b => b.HonestAt d ∧ ∀ j, b.cs = some j → (b.desel cfg j).HonestAt d)

namespace KeepsHonest

variable {cfg : Config} {c d : Nat} {α β : Type}

theorem andThen {r : Res Bus α} {f : α → Bus → Res Bus β} (h : KeepsHonest cfg d r)
    (hf : ∀ a b, r = .ok a b → b.HonestAt d → KeepsHonest cfg d (f a b)) : KeepsHonest cfg d (r.andThen f) := by
  cases r with
  | ok a b => exact hf a b rfl h
  | raise e c b => exact h

theorem of_keeps {r : Res Bus α} (h : Keeps cfg d Chip.Honest r) (ha : r.All fun b => b.answers = []) :
    KeepsHonest cfg d r := by
  cases r with
  | ok a b => exact ⟨ha, h⟩
  | raise e c b => exact ⟨⟨ha, h.1⟩, fun j hj => ⟨ha, h.2 j hj⟩⟩

theorem issue (hdr : List Byte) (nd nr : Nat) {b : Bus} (hb : b.HonestAt d) (hq : c = d → Harmless (frameOuts hdr nd nr)) :
    KeepsHonest cfg d (issue cfg c hdr nd nr b) :=
  of_keeps ((kept_honest cfg d).issue hdr nd nr hb.2 hq) ((closed_answers cfg c).issue hdr nd nr hb.1)

theorem statusRead {b : Bus} (hb : b.HonestAt d) : KeepsHonest cfg d (statusRead cfg c b) := by
  have hi := issue (cfg := cfg) (c := c) [opcStatusRead] 0 1 hb fun _ => .inr ⟨_, _, rfl, .inl rfl⟩
  have hs : ∀ v b', Machine.statusRead cfg c b = .ok v b' → c < b.chips.length →
      ready v = true → (b'.chip c).busy = false := fun v b' h hc => (statusRead_answered h hb.1 hc).1
  unfold Machine.statusRead at hs ⊢
  cases hr : Machine.issue cfg c [opcStatusRead] 0 1 b with
  | raise e x b' => rw [hr] at hi; exact hi
  | ok resp b' =>
    rw [hr] at hi hs
    simp only [Res.andThen_ok, Res.ok.injEq] at hs ⊢
    obtain ⟨h1, h2⟩ : b'.answers = [] ∧ b'.Has d Chip.Honest := hi
    obtain ⟨is, -, -, -, -, -, -, hl, -⟩ := (issue_post (cfg := cfg) (c := c) [opcStatusRead] 0 1 b).of_eq_ok hr
    have hs := hs _ _ ⟨rfl, rfl⟩
    show Bus.HonestAt d (if _ then _ else _)
    split
    · next hready =>
      refine ⟨h1, fun ch hc => ?_⟩
      rw [if_pos hready] at hs
      by_cases hcd : c = d
      · subst hcd
        intro _
        have hlt : c < b.chips.length := by
          rw [← hl, ← Bus.noteReady_length b' c]
          exact (List.getElem?_eq_some_iff.1 hc).1
        rw [← Bus.chip_of_getElem? hc]
        exact hs hlt hready
      · rw [Bus.noteReady, Bus.onChip_getElem?, if_neg hcd, Option.map_id] at hc
        exact h2 ch hc
    · exact ⟨h1, h2⟩

theorem pollLoop (k : Nat) {b : Bus} (hb : b.HonestAt d) (hd : ∀ j, b.cs = some j → (b.desel cfg j).HonestAt d) :
    KeepsHonest cfg d (pollLoop cfg c k b) := by
  induction k generalizing b with
  | zero => exact ⟨hb, hd⟩
  | succ k ih =>
    refine (statusRead hb).andThen fun s b' hr hb' => ?_
    have hcs : b'.cs = none := by
      obtain ⟨i, -, h2, -⟩ := (statusRead_post (cfg := cfg) (c := c) b).of_eq_ok hr
      exact h2
    show KeepsHonest cfg d (if _ then _ else _)
    split
    · exact hb'
    · exact ih hb' (by rw [hcs]; intro j hj; cases hj)

theorem pollReady {b : Bus} (hb : b.HonestAt d) (hcs : b.cs = none) : KeepsHonest cfg d (pollReady cfg c b) :=
  pollLoop _ hb (by rw [hcs]; intro j hj; cases hj)

theorem issueBusy (hdr : List Byte) {b : Bus} (hb : b.HonestAt d) : KeepsHonest cfg d (issueBusy cfg c hdr b) := by
  by_cases hcd : c = d
  · subst hcd
    have h1 : (b.noteBusyFrame c).Has c fun ch => ch.knownReady = false := by
      intro ch hc
      rw [Bus.noteBusyFrame, Bus.onChip_getElem?, Option.map_eq_some_iff] at hc
      obtain ⟨ch', -, rfl⟩ := hc
      simp
    have h2 : Keeps cfg c Chip.Honest (Machine.issue cfg c hdr 0 0 (b.noteBusyFrame c)) :=
      ((kept_unknown cfg c).issue hdr 0 0 h1 fun _ => trivial).mono fun ch h hk => by rw [h] at hk; cases hk
    exact (of_keeps h2 ((closed_answers cfg c).issue hdr 0 0 hb.1)).andThen fun _ _ _ hb' => hb'
  · have h1 : (b.noteBusyFrame c).HonestAt d := by
      refine ⟨hb.1, fun ch hc => ?_⟩
      rw [Bus.noteBusyFrame, Bus.onChip_getElem?, if_neg hcd, Option.map_id] at hc
      exact hb.2 ch hc
    exact (issue hdr 0 0 h1 fun h => absurd h hcd).andThen fun _ _ _ hb' => hb'

theorem issueBusy_cs {hdr : List Byte} {b b' : Bus} {a : Unit} (hr : Machine.issueBusy cfg c hdr b = .ok a b') :
    b'.cs = none := by
  unfold Machine.issueBusy at hr
  cases hi : Machine.issue cfg c hdr 0 0 (b.noteBusyFrame c) with
  | raise e x b1 => simp [hi] at hr
  | ok a b1 =>
    simp only [hi, Res.andThen_ok, Res.ok.injEq] at hr
    obtain ⟨is, -, -, -, h4, -⟩ := (issue_post (cfg := cfg) (c := c) hdr 0 0 _).of_eq_ok hi
    rw [← hr.2]; exact h4

theorem eraseAndPoll (hdr : List Byte) {b : Bus} (hb : b.HonestAt d) :
    KeepsHonest cfg d (eraseAndPoll cfg c hdr b) :=
  (issueBusy hdr hb).andThen fun _ _ hr hb' => pollReady hb' (issueBusy_cs hr)

theorem eraseFrom (k l : Nat) {b : Bus} (hb : b.HonestAt d) : KeepsHonest cfg d (eraseFrom cfg k l b) := by
  induction k generalizing l b with
  | zero => exact hb
  | succ k ih => exact (eraseAndPoll _ hb).andThen fun _ _ _ hb' => ih (l + 1) hb'

theorem pollFrom (k c : Nat) {b : Bus} (hb : b.HonestAt d) (hcs : b.cs = none) :
    KeepsHonest cfg d (pollFrom cfg k c b) := by
  induction k generalizing c b with
  | zero => exact hb
  | succ k ih => exact (pollReady hb hcs).andThen fun _ _ hr hb' => ih (c + 1) hb' (pollReady_cs hr)

theorem readProc (p : Nat) {b : Bus} (hb : b.HonestAt d) : KeepsHonest cfg d (readProc cfg c p b) :=
  (issueBusy _ hb).andThen fun _ _ hr h1 => (pollReady h1 (issueBusy_cs hr)).andThen fun _ _ _ h2 =>
    issue _ _ _ h2 fun _ => .inr ⟨_, _, rfl, by
      cases Parity.ofPage p <;> simp [opcBufRead]⟩

theorem noData {f : Bus → Res Bus Unit} {b : Bus} (h : KeepsHonest cfg d (f b)) : KeepsHonest cfg d (noData f b) :=
  h.andThen fun _ _ _ hb => hb

/-- A block of exchanges in a harmless frame. -/
theorem transferBlock (os : List Byte) {b : Bus} (hb : b.HonestAt d)
    (hq : b.cs = some d → ∀ ch, b.chips[d]? = some ch → Harmless (ch.received ++ os)) :
    KeepsHonest cfg d (transferBlock cfg c os b) := by
  have h := (kept_honest cfg d).transferBlock c os hb.2 hq
  have ha : (Machine.transferBlock cfg c os b).All fun b => b.answers = [] :=
    Closed.transferBlock (closed_answers cfg c).xfer os hb.1
  refine of_keeps (Res.Post.mono h (fun _ _ h => h.2.1) fun _ _ b' h => ⟨h.2.1, fun j hj =>
    (kept_honest cfg d).desel h.2.1 ?_⟩) ha
  rintro rfl
  rw [h.1] at hj
  exact h.2.2 hj

end KeepsHonest

/-! The same of the procedures over the block's state. -/

/-- `KeepsHonest` for a procedure over the state. -/
def HonestS {α : Type} (cfg : Config) (d : Nat) (r : Res State α) : Prop :=
  r.Post (fun _ w => w.bus.HonestAt d ∧ w.cfg = cfg)
    (fun _ _ w => w.bus.HonestAt d ∧ (∀ j, w.bus.cs = some j → (w.bus.desel cfg j).HonestAt d) ∧ w.cfg = cfg)

namespace HonestS

variable {d : Nat} {α β : Type}

theorem onBus {s : State} {f : Bus → Res Bus α} (h : KeepsHonest s.cfg d (f s.bus)) : HonestS s.cfg d (s.onBus f) := by
  unfold State.onBus
  cases hr : f s.bus with
  | ok a b => rw [hr] at h; exact ⟨h, rfl⟩
  | raise e c b => rw [hr] at h; exact ⟨h.1, h.2, rfl⟩

theorem andThen {cfg : Config} {r : Res State α} {f : α → State → Res State β} (h : HonestS cfg d r)
    (hf : ∀ a w, r = .ok a w → w.bus.HonestAt d → w.cfg = cfg → HonestS cfg d (f a w)) :
    HonestS cfg d (r.andThen f) := by
  cases r with
  | ok a w => exact hf a w rfl h.1 h.2
  | raise e c w => exact h

theorem perform {checks low body} {s t : State} (hs : s.bus.HonestAt d)
    (hb : firstError checks = none → HonestS s.cfg d (body s)) (h : perform checks low body s = .next t) :
    t.bus.HonestAt d := by
  rcases perform_cases h with ⟨e, -, rfl⟩ | ⟨hn, ⟨data, w, hr, rfl⟩ | ⟨e, c, w, hr, rfl⟩⟩
  · exact hs
  · have := hb hn; rw [hr] at this; exact this.1
  · have := hb hn; rw [hr] at this
    obtain ⟨h1, h2, h3⟩ := this
    have hrel : w.release.HonestAt d := by
      unfold State.release
      split
      · next j hj => rw [h3]; exact h2 j hj
      · exact h1
    show w.abort.bus.HonestAt d
    rw [State.abort_bus]
    split
    · exact hrel
    · exact ⟨hrel.1, hrel.2.loseBuffers fun _ _ h => h⟩

theorem engOpen {s : State} {c : Nat} (hs : s.bus.HonestAt d) : HonestS s.cfg d (engOpen c s) := by
  refine andThen (onBus (f := fun b => transferBlock s.cfg c (openFrame (s.handle c).par) (b.sel c))
    (KeepsHonest.transferBlock _ ⟨hs.1, (kept_honest s.cfg d).sel c hs.2⟩ ?_)) fun _ _ _ hw hc => ⟨hw, hc⟩
  intro hd ch hc
  obtain rfl := Option.some.inj hd
  rw [Bus.sel_getElem?, Option.map_eq_some_iff] at hc
  obtain ⟨ch', h1, rfl⟩ := hc
  simpa using harmless_open (s.handle c).par []

theorem engCommit {s : State} {c : Nat} (hs : s.bus.HonestAt d) (hq : c = d → Harmless (s.bus.chip c).received) :
    HonestS s.cfg d (engCommit c s) := by
  have h0 : (s.bus.desel s.cfg c).HonestAt d := ⟨hs.1, (kept_honest s.cfg d).desel hs.2 (by
    rintro rfl ch hc; rw [← Bus.chip_of_getElem? hc]; exact hq rfl)⟩
  refine andThen (onBus (s := engCloseFull c s) (f := pollReady s.cfg c) (KeepsHonest.pollReady h0 rfl)) ?_
  intro _ w _ hw hc
  refine andThen (r := w.onBus fun b => issueBusy w.cfg c (commitFrame w.cfg (w.handle c).par (w.handle c).wpage)
    (b.noteCommit w.cfg c (w.handle c).wpage)) ?_ fun _ u _ h1 h2 => ⟨h1, h2⟩
  rw [show s.cfg = w.cfg from hc.symm]
  exact onBus (f := fun b => issueBusy w.cfg c (commitFrame w.cfg (w.handle c).par (w.handle c).wpage)
    (b.noteCommit w.cfg c (w.handle c).wpage)) (KeepsHonest.issueBusy _ (b := w.bus.noteCommit w.cfg c _) hw)

end HonestS

end Sys2Proof.Machine
end

