-- ==== Sys2Proof/Laws/Invariants.lean ====
section
/-! SUPPORT. How a step divides, what keeps the invariant's parts, and what an instruction does to the cursors (R40, R41). -/

namespace Sys2Proof.Machine

/-- What serving the request `r` can do. -/
def Served (r : Request) (s t : State) : Prop :=
  (∃ i, decode r = .ok i ∧ exec i s = .next t) ∨
    t = { s with responses := s.responses ++ [errResponse .sequenceMisuse 0] }

theorem serve_split {r : Request} {s t : State} (h : serve r s = .next t) : Served r s t := by
  unfold serve at h
  cases hd : decode r with
  | ok i => rw [hd] at h; exact .inl ⟨i, hd, h⟩
  | error e => rw [hd] at h; exact .inr (Host.Outcome.next.inj h).symm

theorem step_running {s : State} (hv : s.cfg.valid = true) (hr : s.resetIn = none) : step s = serveOldest s := by
  simp [step, hv, hr]

theorem step_reset {s : State} (hv : s.cfg.valid = true) (hr : s.resetIn = some 0) : step s = .next s.blockReset := by
  simp [step, hv, hr]

theorem step_until {s : State} {k : Nat} (hv : s.cfg.valid = true) (hr : s.resetIn = some (k + 1)) :
    step s = serveUntilReset (k + 1) s := by
  simp [step, hv, hr]

/-- What a step of a valid instance can do: wait, take the reset that is due, serve the oldest request, or serve it while a
reset is coming. -/
theorem step_split {s t : State} (h : step s = .next t) (hv : s.cfg.valid = true) :
    t = s ∨ s.resetIn = some 0 ∧ t = s.blockReset ∨
      ∃ r later u, s.pending = r :: later ∧ Served r { s with pending := later } u ∧
        (s.resetIn = none ∧ t = u ∨
          ∃ k, s.resetIn = some (k + 1) ∧ t = State.resetDuring (k + 1) { s with pending := later } u) := by
  rcases hr : s.resetIn with _ | _ | k
  · rw [step_running hv hr] at h
    unfold serveOldest takeRequest at h
    rcases hp : s.pending with _ | ⟨r, later⟩ <;> simp only [hp] at h
    · exact .inl (Host.Outcome.next.inj h).symm
    · exact .inr (.inr ⟨r, later, t, rfl, serve_split (hr ▸ h), .inl ⟨rfl, rfl⟩⟩)
  · rw [step_reset hv hr] at h
    exact .inr (.inl ⟨rfl, (Host.Outcome.next.inj h).symm⟩)
  · rw [step_until hv hr] at h
    unfold serveUntilReset takeRequest at h
    rcases hp : s.pending with _ | ⟨r, later⟩ <;> simp only [hp] at h
    · exact .inl (Host.Outcome.next.inj h).symm
    · cases hs : serve r { s with pending := later } with
      | next u =>
        rw [hs] at h
        exact .inr (.inr ⟨r, later, u, rfl, serve_split (hr ▸ hs), .inr ⟨k, rfl, hr ▸ (Host.Outcome.next.inj h).symm⟩⟩)
      | fault f => rw [hs] at h; cases h
      | refused e => rw [hs] at h; cases h

/-- What every instruction, every answer and every reset keeps, every step keeps. -/
theorem step_keeps {P : State → Prop} {s t : State}
    (hreset : P s → P s.blockReset)
    (hcut : ∀ k w u, P w → w.cfg = s.cfg → P (State.cutOff k w u))
    (hcongr : ∀ w p r k, P w → P { w with pending := p, responses := r, resetIn := k })
    (hexec : ∀ i w u, P w → w.cfg = s.cfg → exec i w = .next u → P u) (hv : s.cfg.valid = true) (hs : P s)
    (h : step s = .next t) : P t := by
  rcases step_split h hv with rfl | ⟨-, rfl⟩ | ⟨r, later, u, -, hu, ht⟩
  · exact hs
  · exact hreset hs
  have hw : P { s with pending := later } := hcongr s later s.responses s.resetIn hs
  have hPu : P u := by
    rcases hu with ⟨i, -, hx⟩ | rfl
    · exact hexec i _ u hw rfl hx
    · exact hcongr s later _ s.resetIn hs
  rcases ht with ⟨-, rfl⟩ | ⟨k, -, rfl⟩
  · exact hPu
  · unfold State.resetDuring
    split
    · exact hcut _ _ _ hw rfl
    · exact hcongr u u.pending u.responses _ hPu

/-- The number of chips, and the canonical form of their memories. -/
def Bus.Shaped (n : Nat) (b : Bus) : Prop := b.chips.length = n ∧ ∀ ch ∈ b.chips, ch.Canonical

namespace Bus.Shaped

variable {n : Nat} {b : Bus}

theorem of_mem {b' : Bus} (h : b.Shaped n) (hl : b'.chips.length = b.chips.length)
    (hm : ∀ ch ∈ b'.chips, ∃ ch0 ∈ b.chips, ch0.Canonical → ch.Canonical) : b'.Shaped n :=
  ⟨hl.trans h.1, fun ch hc => by obtain ⟨ch0, h0, hi⟩ := hm ch hc; exact hi (h.2 _ h0)⟩

theorem sel (h : b.Shaped n) (c : Nat) : (b.sel c).Shaped n := h.of_mem (by simp) fun ch hc => by
  obtain ⟨ch', h1, rfl | rfl⟩ := Bus.mem_modify hc
  · obtain ⟨d, ch0, h2, rfl⟩ := Bus.mem_settleFrom h1
    exact ⟨ch0, h2, fun h => h.settle _ _⟩
  · obtain ⟨d, ch0, h2, rfl⟩ := Bus.mem_settleFrom h1
    exact ⟨ch0, h2, fun h => (h.settle _ _).select⟩

theorem desel (h : b.Shaped n) (cfg : Config) (c : Nat) : (b.desel cfg c).Shaped n := h.of_mem (by simp) fun ch hc => by
  obtain ⟨ch', h1, rfl | rfl⟩ := Bus.mem_modify hc
  · obtain ⟨d, ch0, h2, rfl⟩ := Bus.mem_settleFrom h1
    exact ⟨ch0, h2, fun h => h.settle _ _⟩
  · obtain ⟨d, ch0, h2, rfl⟩ := Bus.mem_settleFrom h1
    exact ⟨ch0, h2, fun h => (h.settle _ _).deselect _ _⟩

theorem exchange (h : b.Shaped n) (cfg : Config) (o : Byte) (a : Answer) : (b.exchange cfg o a).Shaped n :=
  h.of_mem (by simp) fun ch hc => by
    obtain ⟨i, hi⟩ := List.mem_iff_getElem?.1 hc
    cases a with
    | byte v =>
      rw [Bus.exchange_getElem?_byte, Option.map_eq_some_iff] at hi
      obtain ⟨ch0, h1, rfl⟩ := hi
      refine ⟨ch0, List.mem_of_getElem? h1, fun h => ?_⟩
      split
      · exact (h.settle _ _).receive _ _
      · exact h.settle _ _
    | fault =>
      rw [Bus.exchange_getElem?_fault, Option.map_eq_some_iff] at hi
      obtain ⟨ch0, h1, rfl⟩ := hi
      exact ⟨ch0, List.mem_of_getElem? h1, fun h => h.settle _ _⟩

theorem onChip {c : Nat} {f : Chip → Chip} (h : b.Shaped n) (hf : ∀ ch, ch.Canonical → (f ch).Canonical) :
    (b.onChip c f).Shaped n := h.of_mem (by simp) fun ch hc => by
  obtain ⟨ch', h1, rfl | rfl⟩ := Bus.mem_modify hc
  · exact ⟨_, h1, fun h => h⟩
  · exact ⟨ch', h1, hf ch'⟩

theorem loseBuffers (h : b.Shaped n) : b.loseBuffers.Shaped n := h.of_mem (by simp) fun ch hc => by
  obtain ⟨ch0, h0, rfl⟩ := List.mem_map.1 hc
  exact ⟨ch0, h0, fun h => h.loseBuffers _⟩

theorem replay (h : b.Shaped n) (cfg : Config) (es : List Event) : (b.replay cfg es).Shaped n := by
  induction es generalizing b with
  | nil => exact h
  | cons e es ih =>
    refine ih ?_
    cases e with
    | sel c => exact h.sel c
    | desel c =>
      simp only [Bus.react, Bus.confirmSeen]
      split
      · exact (h.desel cfg c).onChip fun _ h => h
      · exact h.desel cfg c
    | x o a => exact h.exchange cfg o a

theorem resetSelects (h : b.Shaped n) : b.resetSelects.Shaped n := h.of_mem (by simp) fun ch hc => by
  obtain ⟨i, hi⟩ := List.mem_iff_getElem?.1 hc
  rw [Bus.resetSelects_getElem?, Option.map_eq_some_iff] at hi
  obtain ⟨ch0, h0, rfl⟩ := hi
  refine ⟨ch0, List.mem_of_getElem? h0, fun h => ?_⟩
  by_cases hc : b.cs = some i
  · rw [if_pos hc]; exact (h.cutShort b.tick).atReset i b.tick
  · rw [if_neg hc]; exact h.atReset i b.tick

end Bus.Shaped

/-- Every bus event keeps the number of chips and the canonical form of their memories. -/
theorem closed_shape (cfg : Config) (n : Nat) (c : Nat) : Closed cfg c (Bus.Shaped n) where
  sel _ h := h.sel c
  desel _ h := h.desel cfg c
  xfer b o h := h.exchange cfg o (b.xfer cfg o).1
  noteReady _ h := h.onChip fun _ h => h
  noteBusyFrame b h := Bus.Shaped.onChip (b := { b with hazard := _ }) h fun _ h => h
  noteCommit _ _ h := h
  loseBuffers _ h := h.loseBuffers

/-- The invariant says nothing of the queue, the responses and the byte stream. -/
theorem inv_congr {s : State} (h : s.Inv) (p : List Request) (r : List Response) (st : List Byte) (k : Option Nat)
    (ps : List (List Event)) :
    State.Inv { s with pending := p, responses := r, stream := st, resetIn := k, past := ps } :=
  ⟨h.valid, h.banks, h.devices, h.curW_lt, h.curR_lt, h.ranges, h.soff_lt, h.phase, h.soff_eq, h.parked, h.rest_soff, h.canonical⟩

/-- R15: replayed events are what happens. -/
@[simp] theorem Bus.replay_trace (cfg : Config) (es : List Event) (b : Bus) : (b.replay cfg es).trace = b.trace ++ es := by
  induction es generalizing b with
  | nil => simp [Bus.replay]
  | cons e es ih =>
    show ((b.react cfg e).replay cfg es).trace = _
    rw [ih]
    cases e <;> simp [Bus.react]

@[simp] theorem Bus.replay_append (cfg : Config) (es es' : List Event) (b : Bus) :
    b.replay cfg (es ++ es') = (b.replay cfg es).replay cfg es' := List.foldl_append

/-- R73, R152: a status frame replayed confirms what `statusRead` confirms. -/
theorem Bus.replay_statusFrame (cfg : Config) (c : Nat) (x v : Byte) (b : Bus) :
    b.replay cfg [.sel c, .x 0xD7 (.byte x), .x 0x00 (.byte v), .desel c] =
      let b' := (((b.sel c).exchange cfg 0xD7 (.byte x)).exchange cfg 0x00 (.byte v)).desel cfg c
      if ready v then b'.noteReady c else b' := by
  have h : showsReady ((((b.sel c).exchange cfg 0xD7 (.byte x)).exchange cfg 0x00 (.byte v)).desel cfg c).trace.reverse =
      ready v := by
    simp [showsReady, Event.bringsReady, Event.sends, Event.isSel, opcStatusRead]
  simp only [replay, List.foldl_cons, List.foldl_nil, react, confirmSeen, h]

/-- U4: no page of the chip comes into doubt before its next `Desel`. -/
theorem Bus.replay_no_doubts {cfg : Config} {c : Nat} {es : List Event} (he : .desel c ∉ es) {b : Bus}
    (hb : (b.chip c).doubts = []) : ((b.replay cfg es).chip c).doubts = [] := by
  induction es generalizing b with
  | nil => exact hb
  | cons e es ih =>
    rw [List.mem_cons, not_or] at he
    refine ih he.2 (b := b.react cfg e) ?_
    simp only [chip] at hb ⊢
    cases e with
    | sel d =>
      rw [react, sel_getElem?]
      cases hc : b.chips[c]? <;> simp only [hc, Option.getD_some, Option.map_some] at hb ⊢
      · rfl
      · split <;> simp [hb]
    | desel d =>
      have hdc : d ≠ c := fun h => he.1 (by rw [h])
      have h : (b.react cfg (.desel d)).chips[c]? = (b.chips[c]?).map (Chip.settle c b.tick) := by
        simp only [react, confirmSeen]
        split
        · rw [noteReady, onChip_getElem?, desel_getElem?]; simp [hdc]
        · rw [desel_getElem?]; simp [hdc]
      rw [h]
      cases hc : b.chips[c]? <;> simp only [hc, Option.getD_some, Option.map_some] at hb ⊢
      · rfl
      · simp [hb]
    | x o a =>
      cases a with
      | byte v =>
        rw [react, exchange_getElem?_byte]
        cases hc : b.chips[c]? <;> simp only [hc, Option.getD_some, Option.map_some] at hb ⊢
        · rfl
        · split <;> simp [hb]
      | fault =>
        rw [react, exchange_getElem?_fault]
        cases hc : b.chips[c]? <;> simp only [hc, Option.getD_some, Option.map_some] at hb ⊢
        · rfl
        · simp [hb]

/-- R74, R291: a chip that a status frame has shown ready, and no later frame has ended on, has no page in doubt. -/
theorem Bus.replay_confirmed {cfg : Config} {c : Nat} {es later : List Event} {x v : Byte} (hv : ready v = true)
    (hl : .desel c ∉ later) (b : Bus) :
    ((b.replay cfg (es ++ [.sel c, .x 0xD7 (.byte x), .x 0x00 (.byte v), .desel c] ++ later)).chip c).doubts = [] := by
  rw [replay_append, replay_append, replay_statusFrame]
  simp only [hv, if_true]
  refine replay_no_doubts hl ?_
  simp only [chip, noteReady, onChip_getElem?, if_true]
  generalize (Bus.desel cfg c _).chips[c]? = o
  cases o <;> rfl

/-- R291, R293, U5: one chip at a reset. -/
theorem Bus.resetSelects_chip {b : Bus} {c : Nat} (h : c < b.chips.length) :
    b.resetSelects.chip c = (if b.cs = some c then (b.chip c).cutShort b.tick else b.chip c).atReset c b.tick := by
  simp only [Bus.chip, Bus.resetSelects_getElem?, List.getElem?_eq_getElem h, Option.map_some, Option.getD_some]

/-- R291, R293, U5: what the main array reads as after a reset. -/
theorem Bus.resetSelects_arrayByte {cfg : Config} {b : Bus} {c : Nat} (h : c < b.chips.length) (p o : Nat) :
    (b.resetSelects.chip c).arrayByte cfg c p o =
      if b.cs = some c then Config.unknownByte c 0 b.tick (mainAddr cfg p o) else (b.chip c).arrayByte cfg c p o := by
  rw [Bus.resetSelects_chip h]
  split
  · rw [Chip.arrayByte_of_no_doubts rfl]; rfl
  · exact Chip.arrayByte_congr rfl rfl c p o

/-- R291: a block right after a reset meets the invariant, whatever its chips. -/
theorem blockReset_inv {s : State} (hv : s.cfg.valid = true) (hb : s.bus.Shaped s.cfg.chips) : s.blockReset.Inv := by
  have hN : 0 < s.cfg.chips := by simp only [Config.valid, Bool.and_eq_true, decide_eq_true_eq] at hv; omega
  have hP : 0 < s.cfg.pageSize := by simp only [Config.valid, Bool.and_eq_true, decide_eq_true_eq] at hv; omega
  have hh : ∀ c, s.blockReset.handle c = Handle.reset := by
    intro c
    simp only [State.handle, State.blockReset_handles, List.getElem?_replicate]
    split <;> rfl
  have hr := hb.resetSelects
  refine ⟨hv, by simp, hr.1, hN, hN, ?_, hP, .inl ⟨?_, rfl⟩, ?_, ?_, fun _ => rfl, hr.2⟩
  · intro h hm
    rw [List.eq_of_mem_replicate hm]
    exact ⟨Nat.zero_le _, Nat.zero_le _, hP⟩
  · intro h hm; rw [List.eq_of_mem_replicate hm]; rfl
  · rw [hh]; rfl
  · intro c _ _; rw [hh]; rfl

/-- R291: the same of one reset in the middle of an operation. -/
theorem cutOff_inv {s t : State} (hv : s.cfg.valid = true) (hb : s.bus.Shaped s.cfg.chips) (k : Nat) :
    (State.cutOff k s t).Inv :=
  blockReset_inv (s := { s with bus := { s.bus.replay s.cfg ((State.eventsSince s t).take k) with hazard := t.bus.hazard } })
    hv (hb.replay s.cfg _)

/-- R291, R40: after a reset nothing lies behind either cursor. -/
theorem blockReset_shape (s : State) (hv : s.cfg.valid = true) : s.blockReset.RoundRobin := by
  have hN : 0 < s.cfg.chips := by simp only [Config.valid, Bool.and_eq_true, decide_eq_true_eq] at hv; omega
  have hh : ∀ c, s.blockReset.handle c = Handle.reset := by
    intro c
    simp only [State.handle, State.blockReset_handles, List.getElem?_replicate]
    split <;> rfl
  refine ⟨⟨0, Nat.zero_le _, ?_, fun c _ => ?_⟩, ⟨0, Nat.zero_le _, ?_, fun c _ => ?_⟩⟩
  · simp [pageChip]
  · rw [hh]; simp [cursorAt, Handle.reset]
  · simp [pageChip]
  · rw [hh]; simp [cursorAt, Handle.reset]

/-- A bank after a write of bank `c`. -/
theorem handle_of_set {s : State} {c d : Nat} {x : Handle} (hc : c < s.handles.length) :
    State.handle { s with handles := s.handles.set c x } d = if d = c then x else s.handle d := by
  simp only [State.handle, List.getElem?_set]
  by_cases h : c = d
  · subst h; simp [hc]
  · simp [h, Ne.symm h]

/-- A bank after a change of every bank. -/
theorem handle_of_map {s : State} {d : Nat} (f : Handle → Handle) (hd : d < s.handles.length) :
    State.handle { s with handles := s.handles.map f } d = f (s.handle d) := by
  simp [State.handle, hd]

/-- R216, R22: a cursor of a logical page of the stream is in range. -/
theorem cursorAt_le {cfg : Config} {l c : Nat} (h : l ≤ cfg.totalPages) (hc : c < cfg.chips) : cursorAt cfg l c ≤ cfg.numPages := by
  have h0 : 0 < cfg.chips := by omega
  have hdm := Nat.div_add_mod l cfg.chips
  unfold Config.totalPages at h
  unfold cursorAt
  split
  · next hlt =>
    have : cfg.chips * (l / cfg.chips) < cfg.chips * cfg.numPages := by omega
    have := Nat.lt_of_mul_lt_mul_left this
    omega
  · have : cfg.chips * (l / cfg.chips) ≤ cfg.chips * cfg.numPages := by omega
    have := Nat.le_of_mul_le_mul_left this h0
    omega

/-- The invariant of an idle state. -/
theorem inv_idle {s : State} (hv : s.cfg.valid = true) (hb : s.handles.length = s.cfg.chips)
    (hd : s.bus.chips.length = s.cfg.chips) (hW : s.curW < s.cfg.chips) (hR : s.curR < s.cfg.chips)
    (hr : ∀ h ∈ s.handles, h.wpage ≤ s.cfg.numPages ∧ h.rpage ≤ s.cfg.numPages ∧ h.off = 0 ∧ h.est = .idle) (hs : s.soff = 0)
    (hcs : s.bus.cs = none) (hc : ∀ ch ∈ s.bus.chips, ch.Canonical) : s.Inv := by
  have hp : 0 < s.cfg.pageSize := by
    simp only [Config.valid, Bool.and_eq_true, decide_eq_true_eq] at hv; omega
  have hh : ∀ c, c < s.cfg.chips → (s.handle c).off = 0 := fun c hc => (hr _ (State.handle_mem (by omega))).2.2.1
  exact ⟨hv, hb, hd, hW, hR, fun h hm => ⟨(hr h hm).1, (hr h hm).2.1, by rw [(hr h hm).2.2.1]; exact hp⟩, by omega,
    .inl ⟨fun h hm => (hr h hm).2.2.2, hcs⟩, by rw [hs, hh _ hW], fun c h1 _ => hh c h1, fun _ => hs, hc⟩

/-- The write exec_cursors unchanged. -/
theorem writeShape_congr {s w : State} {k : Nat} (h : s.WriteShape k) (h1 : w.cfg = s.cfg) (h2 : w.curW = s.curW)
    (h3 : ∀ c, c < s.cfg.chips → (w.handle c).wpage = (s.handle c).wpage) : w.WriteShape k := by
  obtain ⟨a, b, c⟩ := h
  exact ⟨by rw [h1]; exact a, by rw [h1, h2]; exact b, by rw [h1]; exact fun d hd => (h3 d hd).trans (c d hd)⟩

/-- The read exec_cursors unchanged. -/
theorem readShape_congr {s w : State} {k : Nat} (h : s.ReadShape k) (h1 : w.cfg = s.cfg) (h2 : w.curR = s.curR)
    (h3 : ∀ c, c < s.cfg.chips → (w.handle c).rpage = (s.handle c).rpage) : w.ReadShape k := by
  obtain ⟨a, b, c⟩ := h
  exact ⟨by rw [h1]; exact a, by rw [h1, h2]; exact b, by rw [h1]; exact fun d hd => (h3 d hd).trans (c d hd)⟩

/-- R40: one page more moves one cursor. -/
theorem cursorAt_succ {cfg : Config} (h0 : 0 < cfg.chips) (k c : Nat) (hc : c < cfg.chips) :
    cursorAt cfg (k + 1) c = cursorAt cfg k c + if c = pageChip cfg k then 1 else 0 := by
  unfold cursorAt pageChip
  have h1 := Nat.div_add_mod k cfg.chips
  have h2 := Nat.div_add_mod (k + 1) cfg.chips
  have h3 := Nat.mod_lt k h0
  have h4 := Nat.mod_lt (k + 1) h0
  by_cases hl : k % cfg.chips + 1 < cfg.chips
  · have : (k + 1) / cfg.chips = k / cfg.chips ∧ (k + 1) % cfg.chips = k % cfg.chips + 1 := by
      rw [Nat.div_mod_unique h0]; omega
    rw [this.1, this.2]
    split_ifs <;> omega
  · have : (k + 1) / cfg.chips = k / cfg.chips + 1 ∧ (k + 1) % cfg.chips = 0 := by
      rw [Nat.div_mod_unique h0, Nat.mul_add]; omega
    rw [this.1, this.2]
    split_ifs <;> omega

/-- R26: the chip of the next logical page. -/
theorem nextChip_pageChip {cfg : Config} (k : Nat) : nextChip cfg (pageChip cfg k) = pageChip cfg (k + 1) := by
  unfold nextChip pageChip
  simp

/-- R258: the cursor of the current chip. -/
theorem cursorAt_pageChip {cfg : Config} (k : Nat) : cursorAt cfg k (pageChip cfg k) = k / cfg.chips := by
  simp [cursorAt, pageChip]

/-- R22: a chip that is not full leaves a logical page to write. -/
theorem writeShape_lt {s : State} (hI : s.Inv) {k : Nat} (h : s.WriteShape k) (hw : (s.handle s.curW).wpage < s.cfg.numPages) : k < s.cfg.totalPages := by
  have := h.2.2 _ hI.curW_lt
  rw [h.2.1, cursorAt_pageChip] at this
  rw [h.2.1, this, Nat.div_lt_iff_lt_mul hI.chips_pos, Nat.mul_comm] at hw
  exact hw

/-- R23: the same on the read side. -/
theorem readShape_lt {s : State} (hI : s.Inv) {k : Nat} (h : s.ReadShape k) (hw : (s.handle s.curR).rpage < s.cfg.numPages) : k < s.cfg.totalPages := by
  have := h.2.2 _ hI.curR_lt
  rw [h.2.1, cursorAt_pageChip] at this
  rw [h.2.1, this, Nat.div_lt_iff_lt_mul hI.chips_pos, Nat.mul_comm] at hw
  exact hw

/-- R184, R222: a page end is one logical page. -/
theorem writeShape_commit {s w : State} {k : Nat} (hI : s.Inv) (h : s.WriteShape k) (hw : (s.handle s.curW).wpage < s.cfg.numPages)
    (h1 : w.cfg = s.cfg) (h2 : w.curW = nextChip s.cfg s.curW)
    (h3 : ∀ c, c < s.cfg.chips → (w.handle c).wpage = (s.handle c).wpage + if c = s.curW then 1 else 0) : w.WriteShape (k + 1) := by
  refine ⟨by rw [h1]; exact writeShape_lt hI h hw, by rw [h1, h2, h.2.1, nextChip_pageChip], ?_⟩
  rw [h1]; intro c hc
  rw [h3 c hc, cursorAt_succ hI.chips_pos k c hc, h.2.2 c hc, h.2.1]

/-- R186, R222: a page read is one logical page. -/
theorem readShape_read {s w : State} {k : Nat} (hI : s.Inv) (h : s.ReadShape k) (hw : (s.handle s.curR).rpage < s.cfg.numPages)
    (h1 : w.cfg = s.cfg) (h2 : w.curR = nextChip s.cfg s.curR)
    (h3 : ∀ c, c < s.cfg.chips → (w.handle c).rpage = (s.handle c).rpage + if c = s.curR then 1 else 0) : w.ReadShape (k + 1) := by
  refine ⟨by rw [h1]; exact readShape_lt hI h hw, by rw [h1, h2, h.2.1, nextChip_pageChip], ?_⟩
  rw [h1]; intro c hc
  rw [h3 c hc, cursorAt_succ hI.chips_pos k c hc, h.2.2 c hc, h.2.1]

/-- What an instruction does to the exec_cursors (R41): nothing, a page end, a page read, or a seek. -/
theorem exec_cursors {s t : State} {i : Instr} (hI : s.Inv) (h : exec i s = .next t) :
    t.cfg = s.cfg ∧ t.pending = s.pending ∧ t.handles.length = s.handles.length ∧
    ((t.curW = s.curW ∧ ∀ c, (t.handle c).wpage = (s.handle c).wpage) ∨
      (∃ v, i = .writeByte v) ∧ (s.handle s.curW).wpage < s.cfg.numPages ∧ s.soff + 1 = s.cfg.pageSize ∧
        t.curW = nextChip s.cfg s.curW ∧ (∀ c, (t.handle c).wpage = (s.handle c).wpage + (if c = s.curW then 1 else 0)) ∨
      ∃ l, i = .seekW l ∧ l.toNat ≤ s.cfg.totalPages ∧ t.curW = pageChip s.cfg l.toNat ∧
        ∀ c, c < s.cfg.chips → (t.handle c).wpage = cursorAt s.cfg l.toNat c) ∧
    ((t.curR = s.curR ∧ ∀ c, (t.handle c).rpage = (s.handle c).rpage) ∨
      i = .readPage ∧ (s.handle s.curR).rpage < s.cfg.numPages ∧
        t.curR = nextChip s.cfg s.curR ∧ (∀ c, (t.handle c).rpage = (s.handle c).rpage + (if c = s.curR then 1 else 0)) ∨
      ∃ l, i = .seekR l ∧ l.toNat ≤ s.cfg.totalPages ∧ t.curR = pageChip s.cfg l.toNat ∧
        ∀ c, c < s.cfg.chips → (t.handle c).rpage = cursorAt s.cfg l.toNat c) ∧
    (writesPar i = false → ∀ c, (t.handle c).par = (s.handle c).par) := by
  have hbank : s.curW < s.handles.length := by rw [hI.banks]; exact hI.curW_lt
  have hbankR : s.curR < s.handles.length := by rw [hI.banks]; exact hI.curR_lt
  have mapH : ∀ (f : Handle → Handle) (x : State), (∀ h, (f h).wpage = h.wpage ∧ (f h).rpage = h.rpage) → x.handles = s.handles.map f →
      ∀ c, (x.handle c).wpage = (s.handle c).wpage ∧ (x.handle c).rpage = (s.handle c).rpage := by
    intro f x hf hx c
    simp only [State.handle, hx, List.getElem?_map]
    cases s.handles[c]? with
    | none => simp
    | some h => simpa using hf h
  have mapP : ∀ (f : Handle → Handle) (x : State), (∀ h, (f h).par = h.par) → x.handles = s.handles.map f →
      ∀ c, (x.handle c).par = (s.handle c).par := by
    intro f x hf hx c
    simp only [State.handle, hx, List.getElem?_map]
    cases s.handles[c]? with
    | none => simp
    | some h => simpa using hf h
  have setH : ∀ (d : Nat) (y : Handle) (x : State), d < s.handles.length → x.handles = s.handles.set d y →
      ∀ c, x.handle c = if c = d then y else s.handle c := by
    intro d y x hd hx c
    have := handle_of_set (s := s) (c := d) (d := c) (x := y) hd
    rw [← this]; simp [State.handle, hx]
  cases exec_outcome hI h with
  | refused e h1 h2 ht =>
    subst ht
    exact ⟨rfl, rfl, rfl, .inl ⟨rfl, fun _ => rfl⟩, .inl ⟨rfl, fun _ => rfl⟩, fun _ _ => rfl⟩
  | failed e c base h1 h2 h3 h4 h5 h6 h7 h8 ht =>
    have key : ∀ (f : Handle → Handle), (∀ h, (f h).wpage = h.wpage ∧ (f h).rpage = h.rpage) → t.handles = s.handles.map f → t.curW = s.curW → t.curR = s.curR →
        ((t.curW = s.curW ∧ ∀ c, (t.handle c).wpage = (s.handle c).wpage)) ∧ ((t.curR = s.curR ∧ ∀ c, (t.handle c).rpage = (s.handle c).rpage)) :=
      fun f hf hx hW hR => ⟨⟨hW, fun c => (mapH f t hf hx c).1⟩, hR, fun c => (mapH f t hf hx c).2⟩
    have base_s : base = s → t.cfg = s.cfg ∧ t.pending = s.pending ∧ t.handles.length = s.handles.length ∧ ((t.curW = s.curW ∧ ∀ c, (t.handle c).wpage = (s.handle c).wpage)) ∧ ((t.curR = s.curR ∧ ∀ c, (t.handle c).rpage = (s.handle c).rpage)) ∧ ∀ c, (t.handle c).par = (s.handle c).par := by
      rintro rfl
      have hx : t.handles = base.handles.map Handle.aborted := by rw [ht]; rfl
      obtain ⟨a, b⟩ := key Handle.aborted (fun _ => ⟨rfl, rfl⟩) hx (by rw [ht]; rfl) (by rw [ht]; rfl)
      exact ⟨by rw [ht]; rfl, by rw [ht]; rfl, by rw [hx]; simp, a, b, mapP Handle.aborted t (fun _ => rfl) hx⟩
    cases i with
    | startW =>
      have hb : base = _ := h6
      have hx : t.handles = s.handles.map (fun h => h.start.aborted) := by rw [ht, hb]; simp [State.aborted]
      obtain ⟨a, b⟩ := key (fun h => h.start.aborted) (fun _ => ⟨rfl, rfl⟩) hx (by rw [ht, hb]; rfl) (by rw [ht, hb]; rfl)
      exact ⟨by rw [ht, hb]; rfl, by rw [ht, hb]; rfl, by rw [hx]; simp, .inl a, .inl b, fun hw => by cases hw⟩
    | writeByte v =>
      rcases h6 with rfl | ⟨hs, hb⟩
      · obtain ⟨a, b, c, d, e, f⟩ := base_s rfl
        exact ⟨a, b, c, .inl d, .inl e, fun _ => f⟩
      · have hx : t.handles = (s.handles.set s.curW (s.handle s.curW).committed).map Handle.aborted := by rw [ht, hb]; rfl
        rw [List.map_set] at hx
        have hh : ∀ c, (t.handle c).wpage = (s.handle c).wpage + (if c = s.curW then 1 else 0) ∧ (t.handle c).rpage = (s.handle c).rpage := by
          intro c
          simp only [State.handle, hx, List.getElem?_set, List.getElem?_map, List.length_map]
          by_cases hc : s.curW = c
          · subst hc
            simp [hbank, Handle.aborted, Handle.committed]
          · rw [if_neg hc, if_neg (Ne.symm hc)]
            cases s.handles[c]? with
            | none => simp
            | some h => simp [Handle.aborted]
        exact ⟨by rw [ht, hb]; rfl, by rw [ht, hb]; rfl, by rw [hx]; simp,
          .inr (.inl ⟨⟨v, rfl⟩, h1.2, hs, by rw [ht, hb]; rfl, fun c => (hh c).1⟩), .inl ⟨by rw [ht, hb]; rfl, fun c => (hh c).2⟩, fun hw => by cases hw⟩
    | _ => obtain ⟨a, b, c, d, e, f⟩ := base_s h6; exact ⟨a, b, c, .inl d, .inl e, fun _ => f⟩
  | answered data w h1 h2 h3 h4 h5 ht =>
    have hth : ∀ c, t.handle c = w.handle c := fun c => by rw [ht]; rfl
    have same : w = { s with bus := w.bus } → t.cfg = s.cfg ∧ t.pending = s.pending ∧ t.handles.length = s.handles.length ∧ (t.curW = s.curW ∧ ∀ c, (t.handle c).wpage = (s.handle c).wpage) ∧
        (t.curR = s.curR ∧ ∀ c, (t.handle c).rpage = (s.handle c).rpage) ∧ ∀ c, (t.handle c).par = (s.handle c).par := by
      intro hw
      have : t.handles = s.handles := by rw [ht, hw]
      have h' : ∀ c, t.handle c = s.handle c := fun c => by simp [State.handle, this]
      exact ⟨by rw [ht, hw], by rw [ht, hw], by rw [this], ⟨by rw [ht, hw], fun c => by rw [h']⟩, ⟨by rw [ht, hw], fun c => by rw [h']⟩, fun c => by rw [h']⟩
    cases i with
    | startW =>
      obtain ⟨hw, -⟩ := h2
      have hx : t.handles = s.handles.map Handle.start := by rw [ht, hw]
      exact ⟨by rw [ht, hw], by rw [ht, hw], by rw [hx]; simp, .inl ⟨by rw [ht, hw], fun c => (mapH Handle.start t (fun _ => ⟨rfl, rfl⟩) hx c).1⟩,
        .inl ⟨by rw [ht, hw], fun c => (mapH Handle.start t (fun _ => ⟨rfl, rfl⟩) hx c).2⟩, fun hw => by cases hw⟩
    | writeByte v =>
      rcases h2 with ⟨g0, hw, -⟩ | ⟨g0, hw, -⟩
      · have hx : t.handles = s.handles.set s.curW (s.handle s.curW).fed := by rw [ht, hw]
        have hh := setH _ _ t hbank hx
        refine ⟨by rw [ht, hw], by rw [ht, hw], by rw [hx]; simp, .inl ⟨by rw [ht, hw], fun c => ?_⟩, .inl ⟨by rw [ht, hw], fun c => ?_⟩, fun hw => by cases hw⟩
        · rw [hh]; by_cases hcc : c = s.curW <;> simp [hcc, Handle.fed]
        · rw [hh]; by_cases hcc : c = s.curW <;> simp [hcc, Handle.fed]
      · have hx : t.handles = s.handles.set s.curW (s.handle s.curW).committed := by rw [ht, hw]
        have hh := setH _ _ t hbank hx
        refine ⟨by rw [ht, hw], by rw [ht, hw], by rw [hx]; simp, .inr (.inl ⟨⟨v, rfl⟩, h1.2, g0, by rw [ht, hw], fun c => ?_⟩), .inl ⟨by rw [ht, hw], fun c => ?_⟩, fun hw => by cases hw⟩
        · rw [hh]; by_cases hcc : c = s.curW <;> simp [hcc, Handle.committed]
        · rw [hh]; by_cases hcc : c = s.curW <;> simp [hcc, Handle.committed]
    | endW =>
      obtain ⟨hw, -⟩ := h2
      have hx : t.handles = s.handles.map Handle.finished := by rw [ht, hw]
      exact ⟨by rw [ht, hw], by rw [ht, hw], by rw [hx]; simp, .inl ⟨by rw [ht, hw], fun c => (mapH Handle.finished t (fun _ => ⟨rfl, rfl⟩) hx c).1⟩,
        .inl ⟨by rw [ht, hw], fun c => (mapH Handle.finished t (fun _ => ⟨rfl, rfl⟩) hx c).2⟩, fun _ => mapP Handle.finished t (fun _ => rfl) hx⟩
    | readPage =>
      obtain ⟨hw, -⟩ := h2
      have hx : t.handles = s.handles.set s.curR (s.handle s.curR).wasRead := by rw [ht, hw]
      have hh := setH _ _ t hbankR hx
      refine ⟨by rw [ht, hw], by rw [ht, hw], by rw [hx]; simp, .inl ⟨by rw [ht, hw], fun c => ?_⟩, .inr (.inl ⟨rfl, h1.2, by rw [ht, hw], fun c => ?_⟩), fun _ c => ?_⟩
      · rw [hh]; by_cases hcc : c = s.curR <;> simp [hcc, Handle.wasRead]
      · rw [hh]; by_cases hcc : c = s.curR <;> simp [hcc, Handle.wasRead]
      · rw [hh]; by_cases hcc : c = s.curR <;> simp [hcc, Handle.wasRead]
    | seekW l =>
      obtain ⟨hw, -⟩ := h2
      have hx : t.handles = s.handles.mapIdx fun c h => { h with wpage := cursorAt s.cfg l.toNat c } := by rw [ht, hw]
      refine ⟨by rw [ht, hw], by rw [ht, hw], by rw [hx]; simp, .inr (.inr ⟨l, rfl, h1.2, by rw [ht, hw], fun c hc => ?_⟩), .inl ⟨by rw [ht, hw], fun c => ?_⟩, fun _ c => ?_⟩
      · have hc' : c < s.handles.length := by rw [hI.banks]; exact hc
        simp [State.handle, hx, hc']
      · simp only [State.handle, hx, List.getElem?_mapIdx]; cases s.handles[c]? <;> simp
      · simp only [State.handle, hx, List.getElem?_mapIdx]; cases s.handles[c]? <;> simp
    | seekR l =>
      obtain ⟨hw, -⟩ := h2
      have hx : t.handles = s.handles.mapIdx fun c h => { h with rpage := cursorAt s.cfg l.toNat c } := by rw [ht, hw]
      refine ⟨by rw [ht, hw], by rw [ht, hw], by rw [hx]; simp, .inl ⟨by rw [ht, hw], fun c => ?_⟩, .inr (.inr ⟨l, rfl, h1.2, by rw [ht, hw], fun c hc => ?_⟩), fun _ c => ?_⟩
      · simp only [State.handle, hx, List.getElem?_mapIdx]; cases s.handles[c]? <;> simp
      · have hc' : c < s.handles.length := by rw [hI.banks]; exact hc
        simp [State.handle, hx, hc']
      · simp only [State.handle, hx, List.getElem?_mapIdx]; cases s.handles[c]? <;> simp
    | _ => obtain ⟨a, b, c, d, e, f⟩ := same h2.1; exact ⟨a, b, c, .inl d, .inl e, fun _ => f⟩

end Sys2Proof.Machine
end

