-- ==== Sys2Proof/Laws/PerInstr.lean ====
section
/-! SUPPORT. Per instruction: the encoding carries the fixed bits its row of spec/opcode_table.json gives. -/

namespace Sys2Proof.Laws.TableRow

/-- The fixed fields of each instruction's row, `(hi, lo, value)`, as the table lists them. -/
def fixedFields : Instr → List (Nat × Nat × Nat)
  | .startW => [(31, 0, 268435456)]
  | .writeByte _ => [(31, 8, 2097152)]
  | .endW => [(31, 0, 805306368)]
  | .readPage => [(31, 0, 1073741824)]
  | .eraseRange _ => [(31, 24, 80)]
  | .seekW _ => [(31, 24, 96)]
  | .seekR _ => [(31, 24, 112)]
  | .readStatus _ => [(23, 0, 0), (31, 28, 8)]
  | .waitReady _ => [(23, 0, 0), (31, 28, 9)]
  | .pageErase _ _ => [(31, 28, 10)]
  | .sectorErase _ _ => [(31, 28, 11)]
  | .chipErase _ => [(23, 0, 0), (31, 28, 12)]
  | .reservedOp0 _ => [(31, 28, 0)]
  | .reservedOpD _ => [(31, 28, 13)]
  | .reservedOpE _ => [(31, 28, 14)]
  | .reservedOpF _ => [(31, 28, 15)]
  | .spiStatusRead _ => [(7, 0, 215)]
  | .spiPageToBuf1 _ _ => [(7, 0, 83)]
  | .spiPageToBuf2 _ _ => [(7, 0, 85)]
  | .spiBuf1Read _ _ => [(7, 0, 212)]
  | .spiBuf2Read _ _ => [(7, 0, 214)]
  | .spiBuf1Write _ _ _ => [(7, 0, 132)]
  | .spiBuf2Write _ _ _ => [(7, 0, 135)]
  | .spiBuf1Commit _ _ => [(7, 0, 131)]
  | .spiBuf1CommitAlt _ _ => [(7, 0, 136)]
  | .spiBuf2Commit _ _ => [(7, 0, 134)]
  | .spiBuf2CommitAlt _ _ => [(7, 0, 137)]
  | .spiPageErase _ _ => [(7, 0, 129)]
  | .spiSectorErase _ _ => [(7, 0, 124)]
  | .spiChipErase _ => [(31, 0, 3348398234)]
  | .spiIdRead _ _ => [(7, 0, 159)]
  | .spiSecurityRead _ _ => [(7, 0, 119)]

/-- The bits of a request, numbered as the table numbers them: a host word as it is; the first byte of a frame; the four
bytes of the chip-erase frame, the first in bits 31:24. -/
def tableBits : Request → Nat
  | .word w => w.toNat
  | .frame _ [b0, b1, b2, b3] =>
    if [b0, b1, b2, b3] = chipEraseFrame then b0.toNat * 2 ^ 24 + b1.toNat * 2 ^ 16 + b2.toNat * 2 ^ 8 + b3.toNat
    else b0.toNat
  | .frame _ bytes => (bytes.headD 0).toNat

/-- Every fixed field of the instruction's row has its value in the encoding. -/
def Statement (i : Instr) : Prop :=
  ∀ f ∈ fixedFields i, tableBits (encode i) / 2 ^ f.2.1 % 2 ^ (f.1 - f.2.1 + 1) = f.2.2

theorem statement_frame {i : Instr} {c : ChipField} {op : Byte} {rest : List Byte} {v : Nat}
    (he : encode i = .frame c (op :: rest)) (hf : fixedFields i = [(7, 0, v)]) (hop : op.toNat = v) (hc : op ≠ 0xC7) :
    Statement i := by
  have hb : tableBits (.frame c (op :: rest)) = op.toNat := by
    unfold tableBits
    split
    · next h => simp at h
    · next b0 b1 b2 b3 h =>
      simp only [Request.frame.injEq, List.cons.injEq] at h
      rw [if_neg, h.2.1]
      rintro hh
      simp only [chipEraseFrame, List.cons.injEq] at hh
      exact hc (h.2.1.trans hh.1)
    · next c' bytes hne h =>
      simp only [Request.frame.injEq] at h
      rw [← h.2]
      rfl
  have hlt := op.isLt
  intro f hmem
  rw [hf] at hmem
  obtain rfl := List.mem_singleton.1 hmem
  rw [he, hb, hop]
  simp only [Nat.reducePow, Nat.div_one, Nat.reduceSub, Nat.reduceAdd]
  omega

/-- A host word all of whose bits are fixed. -/
theorem statement_host {i : Instr} {w : HostWord} {v : Nat} (he : encode i = .word w)
    (hf : fixedFields i = [(31, 0, v)]) (hv : w.toNat = v := by decide) : Statement i := by
  have hw := w.isLt
  intro f hmem
  rw [hf] at hmem
  obtain rfl := List.mem_singleton.1 hmem
  rw [he]
  simp only [tableBits, hv] at hw ⊢
  omega

theorem startW : Statement .startW := statement_host rfl rfl
theorem endW : Statement .endW := statement_host rfl rfl
theorem readPage : Statement .readPage := statement_host rfl rfl

/-- A host word: what the fixed fields of its row say of `{op, chip, arg}`. -/
theorem statement_word {i : Instr} {op : BitVec 4} {chip : ChipField} {arg : ArgField}
    (he : encode i = .word (hostWord op chip arg))
    (hf : ∀ f ∈ fixedFields i, (op.toNat * 2 ^ 28 + chip.toNat * 2 ^ 24 + arg.toNat) / 2 ^ f.2.1 % 2 ^ (f.1 - f.2.1 + 1) =
      f.2.2) : Statement i := by
  intro f hmem
  rw [he]
  simp only [tableBits, hostWord_toNat]
  exact hf f hmem

theorem one_field {x hi lo v : Nat} (h : x / 2 ^ lo % 2 ^ (hi - lo + 1) = v) :
    ∀ f ∈ [((hi, lo, v) : Nat × Nat × Nat)], x / 2 ^ f.2.1 % 2 ^ (f.1 - f.2.1 + 1) = f.2.2 := by
  intro f hmem
  obtain rfl := List.mem_singleton.1 hmem
  exact h

theorem two_fields {x hi lo v hi' lo' v' : Nat} (h : x / 2 ^ lo % 2 ^ (hi - lo + 1) = v)
    (h' : x / 2 ^ lo' % 2 ^ (hi' - lo' + 1) = v') :
    ∀ f ∈ [((hi, lo, v) : Nat × Nat × Nat), (hi', lo', v')], x / 2 ^ f.2.1 % 2 ^ (f.1 - f.2.1 + 1) = f.2.2 := by
  intro f hmem
  rcases List.mem_cons.1 hmem with rfl | hmem
  · exact h
  · obtain rfl := List.mem_singleton.1 hmem
    exact h'

theorem writeByte (b : Byte) : Statement (.writeByte b) := by
  refine statement_word rfl (one_field ?_)
  have hb := b.isLt
  simp only [toNat_append_eq, BitVec.reduceToNat]
  omega

theorem eraseRange (n : ArgField) : Statement (.eraseRange n) := by
  refine statement_word rfl (one_field ?_)
  have h := n.isLt
  simp only [BitVec.reduceToNat]
  omega

theorem seekW (l : ArgField) : Statement (.seekW l) := by
  refine statement_word rfl (one_field ?_)
  have h := l.isLt
  simp only [BitVec.reduceToNat]
  omega

theorem seekR (l : ArgField) : Statement (.seekR l) := by
  refine statement_word rfl (one_field ?_)
  have h := l.isLt
  simp only [BitVec.reduceToNat]
  omega

theorem readStatus (c : ChipField) : Statement (.readStatus c) := by
  have h := c.isLt
  refine statement_word rfl (two_fields ?_ ?_) <;> simp only [BitVec.reduceToNat] <;> omega

theorem waitReady (c : ChipField) : Statement (.waitReady c) := by
  have h := c.isLt
  refine statement_word rfl (two_fields ?_ ?_) <;> simp only [BitVec.reduceToNat] <;> omega

theorem chipErase (c : ChipField) : Statement (.chipErase c) := by
  have h := c.isLt
  refine statement_word rfl (two_fields ?_ ?_) <;> simp only [BitVec.reduceToNat] <;> omega

theorem pageErase (c : ChipField) (p : ArgField) : Statement (.pageErase c p) := by
  refine statement_word rfl (one_field ?_)
  have h := c.isLt; have h' := p.isLt
  simp only [BitVec.reduceToNat]
  omega

theorem sectorErase (c : ChipField) (p : ArgField) : Statement (.sectorErase c p) := by
  refine statement_word rfl (one_field ?_)
  have h := c.isLt; have h' := p.isLt
  simp only [BitVec.reduceToNat]
  omega

theorem statement_reserved {i : Instr} {op : BitVec 4} {rest : BitVec 28} (he : encode i = .word (op ++ rest))
    (hf : fixedFields i = [(31, 28, op.toNat)]) : Statement i := by
  have h1 := op.isLt; have h2 := rest.isLt
  intro f hmem
  rw [hf] at hmem
  obtain rfl := List.mem_singleton.1 hmem
  rw [he]
  simp only [tableBits, toNat_append_eq]
  omega

theorem reservedOp0 (rest : BitVec 28) : Statement (.reservedOp0 rest) := statement_reserved rfl rfl
theorem reservedOpD (rest : BitVec 28) : Statement (.reservedOpD rest) := statement_reserved rfl rfl
theorem reservedOpE (rest : BitVec 28) : Statement (.reservedOpE rest) := statement_reserved rfl rfl
theorem reservedOpF (rest : BitVec 28) : Statement (.reservedOpF rest) := statement_reserved rfl rfl

theorem spiStatusRead (c : ChipField) : Statement (.spiStatusRead c) := statement_frame rfl rfl rfl (by decide)
theorem spiPageToBuf1 (c : ChipField) (a : AddrField) : Statement (.spiPageToBuf1 c a) :=
  statement_frame rfl rfl rfl (by decide)
theorem spiPageToBuf2 (c : ChipField) (a : AddrField) : Statement (.spiPageToBuf2 c a) :=
  statement_frame rfl rfl rfl (by decide)
theorem spiBuf1Read (c : ChipField) (a : AddrField) : Statement (.spiBuf1Read c a) :=
  statement_frame rfl rfl rfl (by decide)
theorem spiBuf2Read (c : ChipField) (a : AddrField) : Statement (.spiBuf2Read c a) :=
  statement_frame rfl rfl rfl (by decide)
theorem spiBuf1Write (c : ChipField) (a : AddrField) (data : List Byte) : Statement (.spiBuf1Write c a data) :=
  statement_frame rfl rfl rfl (by decide)
theorem spiBuf2Write (c : ChipField) (a : AddrField) (data : List Byte) : Statement (.spiBuf2Write c a data) :=
  statement_frame rfl rfl rfl (by decide)
theorem spiBuf1Commit (c : ChipField) (a : AddrField) : Statement (.spiBuf1Commit c a) :=
  statement_frame rfl rfl rfl (by decide)
theorem spiBuf1CommitAlt (c : ChipField) (a : AddrField) : Statement (.spiBuf1CommitAlt c a) :=
  statement_frame rfl rfl rfl (by decide)
theorem spiBuf2Commit (c : ChipField) (a : AddrField) : Statement (.spiBuf2Commit c a) :=
  statement_frame rfl rfl rfl (by decide)
theorem spiBuf2CommitAlt (c : ChipField) (a : AddrField) : Statement (.spiBuf2CommitAlt c a) :=
  statement_frame rfl rfl rfl (by decide)
theorem spiPageErase (c : ChipField) (a : AddrField) : Statement (.spiPageErase c a) :=
  statement_frame rfl rfl rfl (by decide)
theorem spiSectorErase (c : ChipField) (a : AddrField) : Statement (.spiSectorErase c a) :=
  statement_frame rfl rfl rfl (by decide)

theorem spiChipErase (c : ChipField) : Statement (.spiChipErase c) := by
  have hb : tableBits (encode (.spiChipErase c)) = 3348398234 := by
    show tableBits (.frame c [0xC7, 0x94, 0x80, 0x9A]) = _
    simp [tableBits, chipEraseFrame]
  intro f hmem
  obtain rfl := List.mem_singleton.1 hmem
  rw [hb]
  norm_num

theorem spiIdRead (c : ChipField) (rest : List Byte) : Statement (.spiIdRead c rest) :=
  statement_frame rfl rfl rfl (by decide)
theorem spiSecurityRead (c : ChipField) (rest : List Byte) : Statement (.spiSecurityRead c rest) :=
  statement_frame rfl rfl rfl (by decide)

end Sys2Proof.Laws.TableRow
end

