-- ==== Sys2Proof/Tests/Slice0.lean ====
section
/-! SUPPORT. Tests, with their expected results from spec/ (the vectors of 95_test_vectors.md and the worked examples of the
rules), and for each statement with hypotheses a witness that meets them. -/

namespace Sys2Proof.Machine

/-! Small states. -/

/-- `N = 2`, `P = 2`, `PAGE_BITS = 12`, `SHIFT = 1`, one dummy byte, two pages a sector. -/
def tiny (limit : Nat) (variant fault : Bool) : Config where
  chips := 2
  pageSize := 2
  pageBits := 12
  shift := 1
  pollLimit := limit
  commitVariant := variant
  bufReadDummy := 1
  hasBusFault := fault
  sectorPages := 2

/-- The instance most tests run on. -/
def plain : Config := tiny 2 false false

/-- The same, where the bus layer reports faults. -/
def faulty : Config := tiny 2 false true

/-- Right after reset with chips that are ready (R79), and with answers supplied from outside. -/
def idleAt (cfg : Config) (as : List Answer) : State :=
  { State.resetWith cfg with
    bus := { (State.resetWith cfg).bus with answers := as, chips := List.replicate cfg.chips Chip.blank } }

/-- After `START_W` and the bytes `data` of a page, with answers supplied from outside. -/
def fillingAt (cfg : Config) (data : List Byte) (as : List Answer) : State :=
  { State.resetWith cfg with
    handles := ⟨.a, 0, 0, data.length, .filling⟩ ::
      List.replicate (cfg.chips - 1) ⟨.a, 0, 0, 0, .filling⟩
    soff := data.length
    bus := { (State.resetWith cfg).bus with
      cs := some 0
      trace := .sel 0 :: exchanges (openFrame .a ++ data) (List.replicate (4 + data.length) 0)
      answers := as
      tick := 5 + data.length
      chips := { Chip.blank with received := openFrame .a ++ data, buf1 := Chip.blank.buf1.store 0 data } ::
        List.replicate (cfg.chips - 1) Chip.blank } }

/-- Chip `c` changed. -/
def State.withChip (s : State) (c : Nat) (f : Chip → Chip) : State := { s with bus := s.bus.onChip c f }

/-- Bank `c` changed. -/
def State.withHandle (s : State) (c : Nat) (f : Handle → Handle) : State := s.onHandle c f

/-- Readiness of chip `c` supplied from outside. -/
def State.finishing (s : State) (c : Nat) (later : List Bool) : State := s.withChip c fun ch => { ch with finish := later }

/-- The state a `next` outcome holds. -/
def after (o : Host.Outcome State Fault Refusal) : Option State :=
  match o with
  | .next s => some s
  | .fault _ => none
  | .refused _ => none

/-- The bus events of a run. -/
def traceOf (o : Host.Outcome State Fault Refusal) : Option (List Event) := (after o).map fun s => s.bus.trace

/-- The events a `next` outcome adds to `s`. -/
def eventsSince (s : State) (o : Host.Outcome State Fault Refusal) : Option (List Event) :=
  (after o).map fun t => t.bus.trace.drop s.bus.trace.length

/-- The last response: its error, chip, data and word. -/
def answered (o : Host.Outcome State Fault Refusal) : Option (Option ErrorKind × Nat × List Byte × BitVec 16) :=
  (after o).bind fun s => s.responses.getLast?.map fun r => (r.err, r.chip, r.data, r.word)

/-- The banks. -/
def banks (o : Host.Outcome State Fault Refusal) : Option (List Handle) := (after o).map fun s => s.handles

/-- `curW`, `curR`, `soff`, `cs`. -/
def cursors (o : Host.Outcome State Fault Refusal) : Option (Nat × Nat × Nat × Option Nat) :=
  (after o).map fun s => (s.curW, s.curR, s.soff, s.bus.cs)

/-- What chip `c` holds: main array, buffer 1, buffer 2, busy. -/
def chipAt (c : Nat) (o : Host.Outcome State Fault Refusal) :
    Option (List Host.Cell × List Host.Cell × List Host.Cell × Bool) :=
  (after o).map fun s => ((s.bus.chip c).main.cells, (s.bus.chip c).buf1.cells, (s.bus.chip c).buf2.cells, (s.bus.chip c).busy)

/-- `OK`. -/
def okWord : Option (Option ErrorKind × Nat × List Byte × BitVec 16) := some (none, 0, [], 0x0000)

/-- Neither an answer nor anything else but an error found by a check (R256). -/
def refusedWith (e : ErrorKind) (w : BitVec 16) (s : State) (o : Host.Outcome State Fault Refusal) : Bool :=
  decide (after o = some { s with responses := s.responses ++ [⟨some e, 0, [], w⟩] })

/-! Well-formedness. -/

theorem test_wf_buf1Write_too_long : (Instr.spiBuf1Write 0 0 (List.replicate 65537 0)).wf = false := by
  rw [Instr.wf, List.length_replicate]; decide

theorem test_wf_buf2Write_too_long : (Instr.spiBuf2Write 0 0 (List.replicate 65537 0)).wf = false := by
  rw [Instr.wf, List.length_replicate]; decide

/-! Decoding: words written out bit by bit, `{op, chip, arg}` (R111, R112) and frames (R102 to R107). -/

theorem test_decode_host :
    decodeWord 0b00010000000000000000000000000000 = .ok .startW ∧
    decodeWord 0b00100000000000000000000011000101 = .ok (.writeByte 0xC5) ∧
    decodeWord 0b00110000000000000000000000000000 = .ok .endW ∧
    decodeWord 0b01000000000000000000000000000000 = .ok .readPage ∧
    decodeWord 0b01010000000000000001000000000001 = .ok (.eraseRange 4097) ∧
    decodeWord 0b01100000000000000011000000000000 = .ok (.seekW 12288) ∧
    decodeWord 0b01110000100000000000000000000101 = .ok (.seekR 0x800005) ∧
    decodeWord 0b10000010000000000000000000000000 = .ok (.readStatus 2) ∧
    decodeWord 0b10011111000000000000000000000000 = .ok (.waitReady 15) ∧
    decodeWord 0b10100010000000000001000000000000 = .ok (.pageErase 2 0x1000) ∧
    decodeWord 0b10110001000000000000000100000000 = .ok (.sectorErase 1 0x100) ∧
    decodeWord 0b11001000000000000000000000000000 = .ok (.chipErase 8) := by decide

theorem test_decode_reserved :
    decodeWord 0b00001010000000000000000000000001 = .ok (.reservedOp0 0xA000001) ∧
    decodeWord 0b11010000000000000000000000000000 = .ok (.reservedOpD 0) ∧
    decodeWord 0b11101111111111111111111111111111 = .ok (.reservedOpE 0xFFFFFFF) ∧
    decodeWord 0b11110000000000000000000010000000 = .ok (.reservedOpF 0x80) := by decide

theorem test_decode_frames :
    decodeFrame 3 [0b11010111] = .ok (.spiStatusRead 3) ∧
    decodeFrame 0 [0b01010011, 0x02, 0x46, 0x00] = .ok (.spiPageToBuf1 0 0x024600) ∧
    decodeFrame 1 [0b01010101, 0x02, 0x46, 0x00] = .ok (.spiPageToBuf2 1 0x024600) ∧
    decodeFrame 0 [0b11010100, 0x00, 0x00, 0x05] = .ok (.spiBuf1Read 0 5) ∧
    decodeFrame 0 [0b11010110, 0x80, 0x00, 0x00] = .ok (.spiBuf2Read 0 0x800000) ∧
    decodeFrame 0 [0b10000100, 0x00, 0x01, 0x00, 0x11, 0x22] = .ok (.spiBuf1Write 0 0x000100 [0x11, 0x22]) ∧
    decodeFrame 0 [0b10000111, 0x00, 0x00, 0x00] = .ok (.spiBuf2Write 0 0 []) ∧
    decodeFrame 0 [0b10000011, 0x1F, 0xFE, 0x00] = .ok (.spiBuf1Commit 0 0x1FFE00) ∧
    decodeFrame 0 [0b10001000, 0x1F, 0xFE, 0x00] = .ok (.spiBuf1CommitAlt 0 0x1FFE00) ∧
    decodeFrame 0 [0b10000110, 0x1F, 0xFE, 0x00] = .ok (.spiBuf2Commit 0 0x1FFE00) ∧
    decodeFrame 0 [0b10001001, 0x1F, 0xFE, 0x00] = .ok (.spiBuf2CommitAlt 0 0x1FFE00) ∧
    decodeFrame 0 [0b10000001, 0x00, 0x02, 0x00] = .ok (.spiPageErase 0 0x000200) ∧
    decodeFrame 0 [0b01111100, 0x04, 0x00, 0x00] = .ok (.spiSectorErase 0 0x040000) ∧
    decodeFrame 2 [0b11000111, 0b10010100, 0b10000000, 0b10011010] = .ok (.spiChipErase 2) ∧
    decodeFrame 0 [0b10011111] = .ok (.spiIdRead 0 []) ∧
    decodeFrame 0 [0b01110111, 0x01] = .ok (.spiSecurityRead 0 [0x01]) := by decide

/-- Each rejection of the decoder, by name. -/
theorem test_decode_rejects :
    decodeWord 0x10000001 = .error .nonzeroUnusedField ∧ decodeWord 0x21000011 = .error .nonzeroUnusedField ∧
    decodeFrame 0 [] = .error .emptyFrame ∧ decodeFrame 0 [0x00] = .error .unknownOpcode ∧
    decodeFrame 0 [0xC7, 0x94, 0x80, 0x9B] = .error .unknownOpcode ∧
    decodeFrame 0 [0xD7, 0x00] = .error .wrongFrameLength ∧ decodeFrame 0 [0x81, 0x00, 0x02] = .error .wrongFrameLength ∧
    decodeFrame 0 [0x84, 0x00] = .error .wrongFrameLength := by decide

theorem test_decode_rejects_long_payload :
    withPayload (0 :: 0 :: 0 :: List.replicate 65537 0) (.spiBuf1Write 0) = .error .payloadTooLong := by
  rw [withPayload, List.length_replicate, if_neg (by decide)]

/-- The opcode table's numbering: a host word, the chip-erase frame, a frame with operand bytes of zeros. -/
theorem test_decodeTableWord :
    decodeTableWord 32 0xA0000123 = some (.pageErase 0 0x123) ∧ decodeTableWord 32 0xC794809A = some (.spiChipErase 0) ∧
    decodeTableWord 8 0x83 = some (.spiBuf1Commit 0 0) ∧ decodeTableWord 8 0xD7 = some (.spiStatusRead 0) ∧
    decodeTableWord 8 0x84 = some (.spiBuf1Write 0 0 []) ∧ decodeTableWord 8 0x01 = none := by decide

/-- 30_encoding.md R115: assembler lines. -/
theorem test_asmLine : asmLine (.pageErase 1 291) = "PAGE_ERASE 1, 291" ∧ asmLine .startW = "START_W" := by decide

/-- The program of the next step: `withFetchWord` and `step` (vector S1). -/
theorem test_fetch_first_after_reset :
    cursors (step (State.reset.withFetchWord 32 0x10000000)) = some (0, 0, 0, some 0) ∧
    (after (step (State.reset.withFetchWord 32 0x10000000))).map (fun s => s.pending) = some [] := by decide

/-! Codec: the table of 40_codec.md R146 and of 95_test_vectors.md section 2.1. -/

/-- `PAGE_BITS` and `SHIFT` of a codec vector. -/
def codec (bits shift : Nat) : Config := { plain with pageBits := bits, shift := shift }

theorem test_codec_encode :
    encodePage (codec 12 1) 0x000 = 0x000000 ∧ encodePage (codec 12 1) 0x001 = 0x000200 ∧
    encodePage (codec 12 1) 0x123 = 0x024600 ∧ encodePage (codec 12 1) 0xFFF = 0x1FFE00 ∧
    encodePage (codec 12 2) 0x001 = 0x000400 ∧ encodePage (codec 12 2) 0x123 = 0x048C00 ∧
    encodePage (codec 12 2) 0xFFF = 0x3FFC00 ∧ encodePage (codec 12 0) 0xABC = 0x0ABC00 ∧
    encodePage (codec 12 4) 0xFFF = 0xFFF000 ∧ encodePage (codec 11 1) 0x7FF = 0x0FFE00 ∧
    encodePage (codec 13 3) 0x1FFF = 0xFFF800 ∧ encodePage (codec 13 2) 0x1000 = 0x400000 ∧
    encodePage (codec 12 1) 0x800 = 0x100000 ∧ encodePage (codec 12 1) 0x0FF = 0x01FE00 ∧
    encodePage (codec 12 1) 0x080 = 0x010000 ∧ encodePage (codec 11 0) 0x7FF = 0x07FF00 ∧
    encodePage (codec 11 5) 0x7FF = 0xFFE000 ∧ encodePage (codec 13 0) 0x1234 = 0x123400 ∧
    encodePage (codec 13 3) 0x0001 = 0x000800 := by decide

theorem test_codec_decode :
    decodePage (codec 12 1) (addrOf 0x02 0x46 0x00) = 0x123 ∧ decodePage (codec 12 1) (addrOf 0xE2 0x47 0xFF) = 0x123 ∧
    decodePage (codec 12 2) (addrOf 0x3F 0xFC 0x00) = 0xFFF ∧ decodePage (codec 13 3) (addrOf 0xFF 0xF8 0x00) = 0x1FFF ∧
    decodePage (codec 11 1) (addrOf 0x0F 0xFE 0x00) = 0x7FF := by decide

/-- 40_codec.md R144: the parameters the bound rules out. -/
theorem test_construct_refuses : State.construct (codec 13 4) = none ∧ State.construct { plain with chips := 17 } = none ∧
    State.construct { plain with chips := 0 } = none ∧ State.construct { plain with pollLimit := 0 } = none := by decide

/-! Transport (vectors V1 to V16). -/

/-- V1, V2. -/
theorem test_readStatus :
    let o := exec (.readStatus 0) (idleAt plain (answersOf [0x00, 0xAC]))
    traceOf o = some [.sel 0, .x 0xD7 (.byte 0), .x 0x00 (.byte 0xAC), .desel 0] ∧
    answered o = some (none, 0, [0xAC], 0x00AC) ∧
    answered (exec (.readStatus 1) (idleAt plain (answersOf [0x00, 0x2C]))) = some (none, 0, [0x2C], 0x002C) := by decide

/-- V4. -/
theorem test_waitReady :
    let o := exec (.waitReady 0) (idleAt (tiny 3 false false) (answersOf [0, 0x00, 0, 0x00, 0, 0x80]))
    traceOf o = some (pollTrace 0 [(0, 0x00), (0, 0x00), (0, 0x80)]) ∧ answered o = okWord := by decide

/-- V5 and V6. -/
theorem test_waitReady_timeout :
    let o := exec (.waitReady 1) (idleAt (tiny 3 false false) (answersOf [0, 0, 0, 0, 0, 0, 0, 0x80]))
    traceOf o = some (pollTrace 1 [(0, 0), (0, 0), (0, 0)]) ∧ answered o = some (some .deviceTimeout, 1, [], 0x1200) ∧
    answered (exec (.waitReady 0) (idleAt (tiny 1 false false) (answersOf [0, 0x7F]))) =
      some (some .deviceTimeout, 0, [], 0x0200) := by decide

/-- V7. -/
theorem test_pageErase :
    let o := exec (.pageErase 0 0x123) ((idleAt plain (answersOf [0, 0, 0, 0, 0, 0x80])).finishing 0 [true])
    traceOf o = some (frameTrace 0 [0x81, 0x02, 0x46, 0x00] [0, 0, 0, 0] ++ pollTrace 0 [(0, 0x80)]) ∧ answered o = okWord ∧
    chipAt 0 o = some ([(0x246, 0xFF), (0x247, 0xFF)], [], [], false) := by
  refine ⟨?_, ?_, ?_⟩ <;> decide

/-- V13, V15. -/
theorem test_pageErase_range :
    refusedWith .invalidAddress 0x0300 (idleAt plain []) (exec (.pageErase 0 0x1000) (idleAt plain [])) = true ∧
    refusedWith .invalidAddress 0x0300 (idleAt plain []) (exec (.pageErase 2 0x1000) (idleAt plain [])) = true := by decide

/-- V10. -/
theorem test_sectorErase :
    let o := exec (.sectorErase 0 0x100) (idleAt (codec 12 2) (answersOf [0, 0, 0, 0, 0, 0x80]))
    traceOf o = some (frameTrace 0 [0x7C, 0x04, 0x00, 0x00] [0, 0, 0, 0] ++ pollTrace 0 [(0, 0x80)]) ∧ answered o = okWord := by
  decide

/-- V11. -/
theorem test_chipErase :
    let o := exec (.chipErase 1) (idleAt plain (answersOf [0, 0, 0, 0, 0, 0x80]))
    traceOf o = some (frameTrace 1 [0xC7, 0x94, 0x80, 0x9A] [0, 0, 0, 0] ++ pollTrace 1 [(0, 0x80)]) ∧ answered o = okWord := by
  decide

/-- V12, V16. -/
theorem test_transport_checks :
    refusedWith .invalidAddress 0x0300 (idleAt plain []) (exec (.readStatus 2) (idleAt plain [])) = true ∧
    refusedWith .sequenceMisuse 0x0400 (fillingAt plain [] []) (exec (.waitReady 2) (fillingAt plain [] [])) = true := by decide

/-! Engine (vectors E4 to E9). -/

/-- E4 and E5: a commit of page 0x123 from buffer B. -/
theorem test_engCommit :
    let run := fun (v : Bool) =>
      let s := (fillingAt (tiny 2 v false) [] (answersOf [0, 0x80, 0, 0, 0, 0])).withHandle 0
        fun h => { h with par := .b, wpage := 0x123 }
      match engCommit 0 s with
      | .ok _ t => some (t.bus.trace.drop s.bus.trace.length, t.handle 0, t.bus.cs)
      | .raise _ _ _ => none
    run false = some (.desel 0 :: pollTrace 0 [(0, 0x80)] ++ frameTrace 0 [0x86, 0x02, 0x46, 0x00] [0, 0, 0, 0],
      ⟨.a, 0x124, 0, 0, .filling⟩, none) ∧
    run true = some (.desel 0 :: pollTrace 0 [(0, 0x80)] ++ frameTrace 0 [0x89, 0x02, 0x46, 0x00] [0, 0, 0, 0],
      ⟨.a, 0x124, 0, 0, .filling⟩, none) := by decide

/-- E7: no commit frame after a timeout. -/
theorem test_engCommit_timeout :
    let s := (fillingAt plain [] (answersOf [0, 0, 0, 0])).withHandle 0 fun h => { h with par := .b, wpage := 0x123 }
    (match engCommit 0 s with
      | .ok _ _ => none
      | .raise e c t => some (e, c, t.bus.trace.drop s.bus.trace.length, (t.handle 0).par, (t.handle 0).wpage)) =
      some (.deviceTimeout, 0, .desel 0 :: pollTrace 0 [(0, 0), (0, 0)], .b, 0x123) := by decide

/-- E8 and E9: an odd page through buffer 2 with a dummy byte, an even one through buffer 1 without. -/
theorem test_engReadPage :
    let run := fun (dummy page : Nat) (as : List Byte) =>
      let s := (idleAt { plain with pageSize := 4, bufReadDummy := dummy } (answersOf as)).withHandle 0
        fun h => { h with rpage := page }
      match engReadPage 0 s with
      | .ok data t => some (t.bus.trace, (t.handle 0).rpage, data)
      | .raise _ _ _ => none
    run 1 3 [0, 0, 0, 0, 0, 0x80, 0, 0, 0, 0, 0, 0xDE, 0xAD, 0xBE, 0xEF] =
      some (frameTrace 0 [0x55, 0x00, 0x06, 0x00] [0, 0, 0, 0] ++ pollTrace 0 [(0, 0x80)] ++
        frameTrace 0 [0xD6, 0, 0, 0, 0, 0, 0, 0, 0] [0, 0, 0, 0, 0, 0xDE, 0xAD, 0xBE, 0xEF], 4, [0xDE, 0xAD, 0xBE, 0xEF]) ∧
    run 0 2 [0, 0, 0, 0, 0, 0x80, 0, 0, 0, 0, 1, 2, 3, 4] =
      some (frameTrace 0 [0x53, 0x00, 0x04, 0x00] [0, 0, 0, 0] ++ pollTrace 0 [(0, 0x80)] ++
        frameTrace 0 [0xD4, 0, 0, 0, 0, 0, 0, 0] [0, 0, 0, 0, 1, 2, 3, 4], 3, [1, 2, 3, 4]) := by decide

/-! Stream operations (vectors S1 to S16, F1 to F5). -/

/-- S1, S2. -/
theorem test_startW :
    let o := exec .startW (idleAt plain (answersOf [0, 0, 0, 0]))
    traceOf o = some (.sel 0 :: exchanges [0x84, 0, 0, 0] [0, 0, 0, 0]) ∧ answered o = okWord ∧
    banks o = some [⟨.a, 0, 0, 0, .filling⟩, ⟨.a, 0, 0, 0, .filling⟩] ∧ cursors o = some (0, 0, 0, some 0) ∧
    let s := { (idleAt plain (answersOf [0, 0, 0, 0])).withHandle 1 (fun h => { h with par := .b }) with curW := 1 }
    traceOf (exec .startW s) = some (.sel 1 :: exchanges [0x84, 0, 0, 0] [0, 0, 0, 0]) ∧
    cursors (exec .startW s) = some (1, 0, 0, some 1) := by
  refine ⟨?_, ?_, ?_, ?_, ?_, ?_⟩ <;> decide

/-- F1: a bus fault on the third exchange. -/
theorem test_startW_fault :
    let o := exec .startW (idleAt faulty [.byte 0, .byte 0, .fault])
    traceOf o = some [.sel 0, .x 0x84 (.byte 0), .x 0x00 (.byte 0), .x 0x00 .fault, .desel 0] ∧
    answered o = some (some .busFault, 0, [], 0x0100) ∧ cursors o = some (0, 0, 0, none) ∧
    banks o = some [⟨.a, 0, 0, 0, .idle⟩, ⟨.a, 0, 0, 0, .idle⟩] := by decide

/-- S3, S4, with what the chip holds. -/
theorem test_writeByte :
    let o := exec (.writeByte 0xAA) (fillingAt plain [] (answersOf [0]))
    eventsSince (fillingAt plain [] []) o = some [.x 0xAA (.byte 0)] ∧ cursors o = some (0, 0, 1, some 0) ∧
    let s := fillingAt plain [0xAA] (answersOf [0, 0, 0x80, 0, 0, 0, 0, 0, 0, 0, 0])
    let o := exec (.writeByte 0xAA) (s.finishing 0 [true])
    eventsSince s o = some ([.x 0xAA (.byte 0), .desel 0] ++ pollTrace 0 [(0, 0x80)] ++ frameTrace 0 [0x83, 0, 0, 0] [0, 0, 0, 0] ++
      .sel 1 :: exchanges [0x84, 0, 0, 0] [0, 0, 0, 0]) ∧ answered o = okWord ∧
    banks o = some [⟨.b, 1, 0, 0, .filling⟩, ⟨.a, 0, 0, 0, .filling⟩] ∧ cursors o = some (1, 0, 0, some 1) ∧
    chipAt 0 o = some ([(0, 0xAA), (1, 0xAA)], [(0, 0xAA), (1, 0xAA)], [], false) := by
  refine ⟨?_, ?_, ?_, ?_, ?_, ?_, ?_⟩ <;> decide

/-- F2; F3, in the commit frame; F4, in the header of the next chip. -/
theorem test_writeByte_faults :
    let o := exec (.writeByte 1) (fillingAt faulty [] [.fault])
    (eventsSince (fillingAt faulty [] []) o = some [.x 1 .fault, .desel 0] ∧
      answered o = some (some .busFault, 0, [], 0x0100) ∧ cursors o = some (0, 0, 0, none)) ∧
    let o := exec (.writeByte 2) (fillingAt faulty [1] (answersOf [0, 0, 0x80, 0] ++ [.fault]))
    (answered o = some (some .busFault, 0, [], 0x0100) ∧ cursors o = some (0, 0, 0, none) ∧
      banks o = some [⟨.a, 0, 0, 0, .idle⟩, ⟨.a, 0, 0, 0, .idle⟩]) ∧
    let o := exec (.writeByte 2) (fillingAt faulty [1] (answersOf [0, 0, 0x80, 0, 0, 0, 0, 0] ++ [.fault]))
    answered o = some (some .busFault, 1, [], 0x1100) ∧ cursors o = some (1, 0, 0, none) ∧
      banks o = some [⟨.b, 1, 0, 0, .idle⟩, ⟨.a, 0, 0, 0, .idle⟩] := by
  refine ⟨?_, ?_, ?_⟩ <;> decide

/-- S5, with `curW = 1`. -/
theorem test_endW :
    let s := { fillingAt plain [] (answersOf [0, 0x80, 0, 0x80]) with curW := 1 }
    let o := exec .endW s
    eventsSince s o = some (.desel 1 :: pollTrace 0 [(0, 0x80)] ++ pollTrace 1 [(0, 0x80)]) ∧ answered o = okWord ∧
    banks o = some [⟨.a, 0, 0, 0, .idle⟩, ⟨.a, 0, 0, 0, .idle⟩] ∧ cursors o = some (1, 0, 0, none) := by decide

/-- S6, S15, S16. -/
theorem test_wrong_phase :
    let f := fillingAt plain [1] []
    let g := idleAt plain []
    ([exec .endW f, exec (.seekW 0) f, exec .readPage f, exec (.eraseRange 1) f, exec .startW f].all
      (refusedWith .sequenceMisuse 0x0400 f)) = true ∧
    ([exec (.writeByte 1) g, exec .endW g].all (refusedWith .sequenceMisuse 0x0400 g)) = true := by decide

/-- S7. -/
theorem test_readPage :
    let o := exec .readPage { idleAt plain (answersOf [0, 0, 0, 0, 0, 0x80, 0, 0, 0, 0, 0, 0xAA, 0xAA]) with curR := 1 }
    traceOf o = some (frameTrace 1 [0x53, 0, 0, 0] [0, 0, 0, 0] ++ pollTrace 1 [(0, 0x80)] ++
      frameTrace 1 [0xD4, 0, 0, 0, 0, 0, 0] [0, 0, 0, 0, 0, 0xAA, 0xAA]) ∧
    answered o = some (none, 0, [0xAA, 0xAA], 0x0000) ∧ cursors o = some (0, 0, 0, none) ∧
    banks o = some [⟨.a, 0, 0, 0, .idle⟩, ⟨.a, 0, 1, 0, .idle⟩] ∧
    (after o).map (fun s => s.stream) = some [0xAA, 0xAA] := by decide

/-- F5. -/
theorem test_readPage_fault :
    let o := exec .readPage (idleAt faulty (answersOf [0, 0, 0, 0, 0, 0x80, 0, 0, 0, 0, 0] ++ [.fault]))
    (traceOf o).map List.length = some 18 ∧ answered o = some (some .busFault, 0, [], 0x0100) ∧
    banks o = some [⟨.a, 0, 0, 0, .idle⟩, ⟨.a, 0, 0, 0, .idle⟩] ∧ (after o).map (fun s => s.stream) = some [] := by decide

/-- Program 3. -/
theorem test_eraseRange :
    let o := exec (.eraseRange 3) (idleAt (codec 12 2) (answersOf [0, 0, 0, 0, 0, 0x80, 0, 0, 0, 0, 0, 0x80, 0, 0, 0, 0, 0, 0x80]))
    traceOf o = some (frameTrace 0 [0x81, 0, 0, 0] [0, 0, 0, 0] ++ pollTrace 0 [(0, 0x80)] ++
      frameTrace 1 [0x81, 0, 0, 0] [0, 0, 0, 0] ++ pollTrace 1 [(0, 0x80)] ++
      frameTrace 0 [0x81, 0, 4, 0] [0, 0, 0, 0] ++ pollTrace 0 [(0, 0x80)]) ∧ answered o = okWord := by decide

/-- S9, S10. -/
theorem test_eraseRange_bounds :
    traceOf (exec (.eraseRange 0) (idleAt (codec 11 1) [])) = some [] ∧
    refusedWith .invalidAddress 0x0300 (idleAt (codec 11 1) []) (exec (.eraseRange 4097) (idleAt (codec 11 1) [])) = true := by
  decide

/-- S11, S13, S14. -/
theorem test_seekW :
    let s := idleAt { plain with chips := 3 } []
    (banks (exec (.seekW 7) s)).map (·.map Handle.wpage) = some [3, 2, 2] ∧ cursors (exec (.seekW 7) s) = some (1, 0, 0, none) ∧
    (banks (exec (.seekW 12288) s)).map (·.map Handle.wpage) = some [4096, 4096, 4096] ∧
    cursors (exec (.seekW 12288) s) = some (0, 0, 0, none) ∧
    refusedWith .invalidAddress 0x0300 s (exec (.seekW 12289) s) = true := by decide

/-- S12. -/
theorem test_seekR :
    let s := idleAt { plain with chips := 3 } []
    (banks (exec (.seekR 5) s)).map (·.map Handle.rpage) = some [2, 2, 1] ∧
    cursors (exec (.seekR 5) s) = some (0, 2, 0, none) := by decide

/-- Program 5, operations 4, 7 and 10: the end of the address range. -/
theorem test_end_of_range :
    let s := (fillingAt plain [] []).withHandle 0 fun h => { h with wpage := 4096 }
    let r := (idleAt plain []).withHandle 0 fun h => { h with rpage := 4096 }
    refusedWith .invalidAddress 0x0300 s (exec (.writeByte 0xC3) s) = true ∧
    refusedWith .invalidAddress 0x0300 r (exec .readPage r) = true := by decide

/-! Malformed words (95_test_vectors.md section 2.5): "no bus event, no state change, response `(SequenceMisuse, 0, [])`". -/

theorem test_malformed :
    ([0x00000000, 0xD0000000, 0xE0000000, 0xF0000000, 0x10000001, 0x11000000, 0x20000100, 0x21000011, 0x51000003, 0x80000001,
      0xC0000001].all fun w => refusedWith .sequenceMisuse 0x0400 (idleAt plain []) (serve (.word w) (idleAt plain []))) = true ∧
    ([0x00000000, 0xD0000000, 0xE0000000, 0xF0000000].all fun w =>
      refusedWith .sequenceMisuse 0x0400 (fillingAt plain [1] []) (serve (.word w) (fillingAt plain [1] []))) = true := by decide

/-! Pseudo-operations (30_encoding.md R116). -/

theorem test_pseudo :
    writeBlock [0x11, 0x22] = [.writeByte 0x11, .writeByte 0x22] ∧ writeFill 2 0xAA = [.writeByte 0xAA, .writeByte 0xAA] ∧
    readPages 2 = [.readPage, .readPage] ∧ rewindW = [.seekW 0] ∧ rewindR = [.seekR 0] := by decide

/-- "An expansion stops at the first operation that answers an error." -/
theorem test_expansion_stops :
    (after (runExpansion (writeFill 3 1) (idleAt plain []))).map (fun s => s.responses.length) = some 1 := by decide

/-! Resets from outside (70_reset_and_hazards.md R290 to R293). -/

/-- Between two operations of a write session: the chip whose frame is cut holds any value (U5), of the other chip the buffers
hold anything (R293). -/
theorem test_reset_between :
    let s := { fillingAt plain [1] [] with resetIn := some 0 }
    let o := step s
    (banks o = some [⟨.a, 0, 0, 0, .idle⟩, ⟨.a, 0, 0, 0, .idle⟩] ∧ cursors o = some (0, 0, 0, none) ∧ traceOf o = some [] ∧
      answered o = none) ∧
    (after o).map (fun t => (t.past, t.resetIn, (t.bus.chip 0).main, (t.bus.chip 0).buf1, (t.bus.chip 1).main, (t.bus.chip 1).buf1)) =
      some ([s.bus.trace], none, .unspecified 6, .unspecified 6, .unspecified 0, .unspecified 6) := by
  refine ⟨?_, ?_⟩ <;> decide

/-- In the middle of `START_W`, after three bus events: no answer, every register as after construction. -/
theorem test_reset_cuts :
    let o := step { idleAt plain (answersOf [0, 0, 0, 0]) with pending := [.word 0x10000000, .word 0x80000000], resetIn := some 3 }
    (banks o = some [⟨.a, 0, 0, 0, .idle⟩, ⟨.a, 0, 0, 0, .idle⟩] ∧ cursors o = some (0, 0, 0, none) ∧ traceOf o = some [] ∧
      answered o = none) ∧
    (after o).map (fun t => (t.past, t.pending)) =
      some ([[.sel 0, .x 0x84 (.byte 0), .x 0x00 (.byte 0)]], [.word 0x80000000]) := by
  refine ⟨?_, ?_⟩ <;> decide

/-- In the middle of `END_W`, around the status frame that shows chip 0 ready: its page is confirmed with the `Desel`, and not
before (R74, R293). -/
theorem test_reset_keeps_what_was_confirmed :
    let s := (fillingAt plain [] (answersOf [0, 0x80, 0, 0x80])).withChip 0 fun ch => { ch with doubts := [⟨1, 0⟩] }
    let doubtsAfter (k : Nat) := (after (step { s with pending := [.word 0x30000000], resetIn := some k })).map
      fun t => (t.bus.chip 0).doubts
    doubtsAfter 1 = some [⟨1, 0⟩] ∧ doubtsAfter 5 = some [] ∧ doubtsAfter 6 = some [] := by
  refine ⟨?_, ?_, ?_⟩ <;> decide

/-- Right after the four events of `READ_STATUS`: it answers, and the reset is due. -/
theorem test_reset_after :
    let o := step { idleAt plain (answersOf [0, 0x9C]) with pending := [.word 0x80000000], resetIn := some 4 }
    answered o = some (none, 0, [0x9C], 0x009C) ∧ (after o).map (fun t => t.resetIn) = some (some 0) := by decide

/-! What is unknown (93_implementation_defined.md U4). -/

/-- A committed page is in doubt until a status read shows the chip ready. -/
theorem test_doubt :
    (after (exec (.spiBuf1Commit 0 0x000200) (idleAt plain []))).map (fun s => (s.bus.chip 0).doubts) = some [⟨1, 0⟩] ∧
    let s := (idleAt plain (answersOf [0, 0, 0, 0x80])).withChip 0 fun ch => { ch with doubts := [⟨1, 0⟩] }
    (after (exec (.waitReady 0) s)).map (fun t => (t.bus.chip 0).doubts) = some [] := by
  refine ⟨?_, ?_⟩ <;> decide

/-- An abort of a write session loses the buffers of every chip. -/
theorem test_abort_loses_buffers :
    (after (exec (.writeByte 1) (fillingAt faulty [7] [.fault]))).map
        (fun t => ((t.bus.chip 0).buf1, (t.bus.chip 1).buf2)) = some (.unspecified 8, .unspecified 8) := by decide

/-! Single frames on the reference chip (20_memory.md R81 to R89). -/

/-- A ready chip 0 with page 1 and buffer 2 known. -/
def known : State :=
  (idleAt plain []).withChip 0 fun ch =>
    { ch with main := ch.main.store 2 [0x31, 0x32], buf1 := ch.buf1.store 0 [0x11, 0x12], buf2 := ch.buf2.store 0 [0x21, 0x22] }

/-- R103, R83, R84. -/
theorem test_spi_commit_transfer :
    chipAt 0 (exec (.spiBuf1Commit 0 0x000200) known) =
      some ([(2, 0x11), (3, 0x12)], [(0, 0x11), (1, 0x12)], [(0, 0x21), (1, 0x22)], true) ∧
    chipAt 0 (exec (.spiBuf2Commit 0 0) known) =
      some ([(0, 0x21), (1, 0x22), (2, 0x31), (3, 0x32)], [(0, 0x11), (1, 0x12)], [(0, 0x21), (1, 0x22)], true) ∧
    chipAt 0 (exec (.spiPageToBuf1 0 0x000200) known) =
      some ([(2, 0x31), (3, 0x32)], [(0, 0x31), (1, 0x32)], [(0, 0x21), (1, 0x22)], true) ∧
    chipAt 0 (exec (.spiPageToBuf2 0 0x000200) known) =
      some ([(2, 0x31), (3, 0x32)], [(0, 0x11), (1, 0x12)], [(0, 0x31), (1, 0x32)], true) := by
  refine ⟨?_, ?_, ?_, ?_⟩ <;> decide

/-- R9: the other pair of commit opcodes; the pair not selected is refused (log 10). -/
theorem test_spi_commit_alt :
    let s := { known with cfg := tiny 2 true false }
    (chipAt 0 (exec (.spiBuf1CommitAlt 0 0x000200) s)).map (·.1) = some [(2, 0x11), (3, 0x12)] ∧
    (chipAt 0 (exec (.spiBuf2CommitAlt 0 0x000200) s)).map (·.1) = some [(2, 0x21), (3, 0x22)] ∧
    refusedWith .sequenceMisuse 0x0400 s (exec (.spiBuf1Commit 0 0) s) = true ∧
    refusedWith .sequenceMisuse 0x0400 known (exec (.spiBuf2CommitAlt 0 0) known) = true := by decide

/-- R86, R87 (sectors of two pages), R88. -/
theorem test_spi_erase :
    (chipAt 0 (exec (.spiPageErase 0 0x000200) known)).map (·.1) = some [(2, 0xFF), (3, 0xFF)] ∧
    (chipAt 0 (exec (.spiSectorErase 0 0x000200) known)).map (·.1) = some [(0, 0xFF), (1, 0xFF), (2, 0xFF), (3, 0xFF)] ∧
    (after (exec (.spiChipErase 0) known)).map (fun s => (s.bus.chip 0).main) = some ⟨.erased 0xFF, []⟩ := by decide

/-- R82: two bytes of a two-byte buffer; a third byte is too much (R110), and an address other than zero is none (R109). -/
theorem test_spi_write :
    (chipAt 0 (exec (.spiBuf1Write 0 0 [0xA1, 0xA2]) known)).map (·.2.1) = some [(0, 0xA1), (1, 0xA2)] ∧
    refusedWith .sequenceMisuse 0x0400 known (exec (.spiBuf1Write 0 1 [0xA1]) known) = true ∧
    (chipAt 0 (exec (.spiBuf2Write 0 0 [0xA1]) known)).map (·.2.2.1) = some [(0, 0xA1), (1, 0x22)] ∧
    refusedWith .sequenceMisuse 0x0400 known (exec (.spiBuf1Write 0 0 [1, 2, 3]) known) = true := by decide

/-- R85; R109. -/
theorem test_spi_read :
    answered (exec (.spiBuf1Read 0 0) known) = some (none, 0, [0x11, 0x12], 0x0000) ∧
    answered (exec (.spiBuf2Read 0 0) known) = some (none, 0, [0x21, 0x22], 0x0000) ∧
    refusedWith .sequenceMisuse 0x0400 known (exec (.spiBuf2Read 0 1) known) = true := by decide

/-- R82, R85: the chip itself reads any buffer address; from offset 1 of a two-byte buffer it wraps. -/
theorem test_chip_wraps :
    (match issue known.cfg 0 [0x84, 0, 0, 1, 0xA1, 0xA2] 0 0 known.bus with
      | .ok _ b => (b.chip 0).buf1.cells == [(0, 0xA2), (1, 0xA1)]
      | .raise _ _ _ => false) = true ∧
    (match issue known.cfg 0 [0xD6, 0, 0, 1] known.cfg.bufReadDummy 2 known.bus with
      | .ok data _ => data == [0x22, 0x21]
      | .raise _ _ _ => false) = true := by decide

/-- R108: page 1 is `00 02 00`; with a don't-care bit set, or a third byte, the field is built some other way. -/
theorem test_spi_page_field :
    refusedWith .sequenceMisuse 0x0400 known (exec (.spiPageErase 0 0x000201) known) = true ∧
    refusedWith .sequenceMisuse 0x0400 known (exec (.spiSectorErase 0 0x800200) known) = true ∧
    refusedWith .sequenceMisuse 0x0400 known (exec (.spiPageToBuf1 0 0x000300) known) = true ∧
    refusedWith .sequenceMisuse 0x0400 known (exec (.spiBuf1Commit 0 0x000201) known) = true := by decide

/-- R102; R107. -/
theorem test_spi_status_and_stops :
    answered (exec (.spiStatusRead 1) (idleAt plain (answersOf [0, 0x9C]))) = some (none, 0, [0x9C], 0x0000) ∧
    after (exec (.spiIdRead 0 []) known) = none ∧ after (exec (.spiSecurityRead 0 []) known) = none := by decide

/-- R89: a busy chip ignores a commit, and takes data only in the buffer not in use (R82). -/
theorem test_spi_busy :
    let s := known.withChip 0 fun ch => { ch with busy := true, inUse := some .a, finish := List.replicate 9 false }
    chipAt 0 (exec (.spiBuf1Commit 0 0x000200) s) = chipAt 0 (.next s) ∧
    chipAt 0 (exec (.spiBuf1Write 0 0 [0xA1]) s) = chipAt 0 (.next s) ∧
    (chipAt 0 (exec (.spiBuf2Write 0 0 [0xA1]) s)).map (·.2.2.1) = some [(0, 0xA1), (1, 0x22)] := by
  refine ⟨?_, ?_, ?_⟩ <;> decide

end Sys2Proof.Machine
end

