-- ==== Sys2Proof/Tests/Witnesses.lean ====
section
/-! SUPPORT. For each statement with hypotheses, a state and operands that meet them all; for one with several clauses, one for
each clause. -/

namespace Sys2Proof.Machine

/-- `State.Inv`, as a test that evaluates. -/
def checkInv (s : State) : Bool :=
  s.cfg.valid && decide (s.handles.length = s.cfg.chips) && decide (s.bus.chips.length = s.cfg.chips) &&
  decide (s.curW < s.cfg.chips) && decide (s.curR < s.cfg.chips) &&
  s.handles.all (fun h => decide (h.wpage ≤ s.cfg.numPages) && decide (h.rpage ≤ s.cfg.numPages) && decide (h.off < s.cfg.pageSize)) &&
  decide (s.soff < s.cfg.pageSize) && decide (s.soff = (s.handle s.curW).off) &&
  (List.range s.cfg.chips).all (fun c => decide (c = s.curW) || decide ((s.handle c).off = 0)) &&
  s.bus.chips.all (fun ch => decide (ch.main.wf) && decide (ch.buf1.wf) && decide (ch.buf2.wf)) &&
  ((s.idle && decide (s.bus.cs = none) && decide (s.soff = 0)) ||
    (s.filling && decide (s.bus.cs = some s.curW) &&
      decide ((s.bus.chip s.curW).received.take 4 = openFrame (s.handle s.curW).par) &&
      decide ((s.bus.chip s.curW).received.length = 4 + s.soff)))

theorem inv_of {s : State} (h : checkInv s = true) : s.Inv := by
  simp only [checkInv, Bool.and_eq_true, Bool.or_eq_true, decide_eq_true_eq, List.all_eq_true] at h
  obtain ⟨⟨⟨⟨⟨⟨⟨⟨⟨⟨h1, h2⟩, h3⟩, h4⟩, h5⟩, h6⟩, h7⟩, h8⟩, h9⟩, h10⟩, h11⟩ := h
  refine ⟨h1, h2, h3, h4, h5, fun x hx => ⟨(h6 x hx).1.1, (h6 x hx).1.2, (h6 x hx).2⟩, h7, ?_, h8,
    fun c hc hne => (h9 c (List.mem_range.2 hc)).resolve_left hne, ?_, fun ch hch => ⟨(h10 ch hch).1.1, (h10 ch hch).1.2, (h10 ch hch).2⟩⟩
  · rcases h11 with ⟨⟨hi, hc⟩, -⟩ | ⟨⟨⟨hf, hc⟩, ht⟩, hl⟩
    · exact .inl ⟨by simpa [State.idle] using hi, hc⟩
    · refine .inr ⟨by simpa [State.filling] using hf, hc, (s.bus.chip s.curW).received.drop 4, ?_, ?_⟩
      · rw [← ht, List.take_append_drop]
      · rw [List.length_drop, hl]; omega
  · rintro ⟨-, hn⟩
    rcases h11 with ⟨-, h0⟩ | ⟨⟨⟨-, hc⟩, -⟩, -⟩
    · exact h0
    · rw [hn] at hc; cases hc

/-- A state of a run: after `START_W` and a byte, asked for the byte that fills the page. -/
def midPage : State :=
  { fillingAt plain [0x11] (answersOf [0, 0, 0x80, 0, 0, 0, 0, 0, 0, 0, 0]) with pending := [.word 0x20000022] }

/-- One status read that shows the chip ready. -/
theorem polls_once (limit : Nat) : PollSucceeds (limit + 1) [(0, 0x80)] :=
  ⟨by simp, [], (0, 0x80), rfl, by simp, rfl⟩

/-- Ready exactly at the last read the limit allows. -/
theorem polls_twice : PollSucceeds 2 [(0, 0x00), (0, 0x80)] := ⟨by simp, [(0, 0x00)], (0, 0x80), rfl, by simp [ready], rfl⟩

/-- Never ready. -/
theorem polls_out : PollFails 2 [(0, 0x00), (0, 0x7F)] := ⟨rfl, by simp [ready]⟩

/-- A status read that shows the chip busy, then one cut short after its opcode; and one cut short at once. -/
theorem polls_cut : PollFaults 2 [(0, 0x7F)] [5] ∧ PollFaults 2 [] [] := ⟨⟨by simp, by simp [ready], by simp⟩, by simp, by simp, by simp⟩

/-! Encodings. -/

theorem witness_EncodeThenDecode : (Instr.spiBuf1Write 15 0x010203 [1, 2]).wf = true ∧ (Instr.pageErase 15 0xFFFFFF).wf = true := by
  decide

theorem witness_DecodedRequestsAreEncodings :
    decode (.word 0xA1000123) = .ok (.pageErase 1 0x123) ∧ decode (.frame 1 [0x84, 0, 0, 1, 7]) = .ok (.spiBuf1Write 1 1 [7]) := by
  decide

/-- One word for each alternative, and one that is not malformed. -/
theorem witness_MalformedWordsAreRefused :
    MalformedWord 0xD0000000 ∧ MalformedWord 0x10000001 ∧ MalformedWord 0x20000100 ∧ MalformedWord 0x51000003 ∧
    MalformedWord 0x80000001 ∧ ¬ MalformedWord 0x200000FF := by
  unfold MalformedWord; refine ⟨?_, ?_, ?_, ?_, ?_, ?_⟩ <;> decide

theorem witness_SpecWordsDecode : plain.commitVariant = false ∧ (tiny 2 true false).commitVariant = true := by decide

/-- A request that decodes, one that does not, none at all; a reset that is due; one that comes in the middle of `START_W`
(after 2 of its 5 events), at its end, and while a refused frame is asked for; and parameters that break a bound. -/
theorem witness_StepRunsDecodedInstruction :
    let s := { idleAt plain [] with pending := [.word 0x40000000, .word 0] }
    let t := { idleAt plain [] with pending := [.word 0x10000001], resetIn := some 3 }
    let u := { idleAt plain (answersOf [1, 2, 3, 4]) with pending := [.word 0x10000000] }
    let v := { idleAt plain [] with pending := [.frame 0 [0x9F]], resetIn := some 1 }
    (s.cfg.valid = true ∧ s.resetIn = none ∧ s.pending = .word 0x40000000 :: [.word 0] ∧ decode (.word 0x40000000) = .ok .readPage) ∧
    (t.cfg.valid = true ∧ t.resetIn ≠ some 0 ∧ t.pending = [.word 0x10000001] ∧
      decode (.word 0x10000001) = .error .nonzeroUnusedField) ∧
    ((idleAt plain []).cfg.valid = true ∧ (idleAt plain []).resetIn ≠ some 0 ∧ (idleAt plain []).pending = []) ∧
    (let w := { midPage with resetIn := some 0 }; w.cfg.valid = true ∧ w.resetIn = some 0) ∧
    (u.cfg.valid = true ∧ u.pending = .word 0x10000000 :: [] ∧ decode (.word 0x10000000) = .ok .startW ∧
      ∃ x es, exec .startW { u with resetIn := some (1 + 1), pending := [] } = .next x ∧ x.bus.trace = u.bus.trace ++ es ∧
        1 + 1 < es.length ∧ es.length ≤ 4 + 1) ∧
    (v.cfg.valid = true ∧ v.resetIn = some (0 + 1) ∧ v.pending = .frame 0 [0x9F] :: [] ∧
      decode (.frame 0 [0x9F]) = .ok (.spiIdRead 0 []) ∧ exec (.spiIdRead 0 []) { v with pending := [] } = .refused (.neverEmitted 0x9F)) ∧
    (State.resetWith { plain with chips := 17 }).cfg.valid = false :=
  ⟨by decide, by decide, by decide, by decide, ⟨by decide, by decide, by decide, _,
    .sel 0 :: exchanges [0x84, 0, 0, 0] [1, 2, 3, 4], rfl, by decide, by decide, by decide⟩, ⟨by decide, by decide, by decide, by decide, rfl⟩,
    by decide⟩

/-! Codec and striping. -/

theorem witness_CodecRoundTrip : plain.valid = true ∧ 4095 < plain.numPages ∧ 0 < plain.numPages ∧
    encodePage plain 4095 = encodePage plain 4095 := by decide

theorem witness_PageIndexPlacement : (codec 13 3).valid = true ∧ 8191 < (codec 13 3).numPages := by decide

/-- Two fields that differ outside the page field. -/
theorem witness_DecodeReadsOnlyThePageField :
    (0x024600 : AddrField) ≠ 0xE247FF ∧
    (0x024600 : AddrField).toNat / 2 ^ (plain.shift + 8) % 2 ^ plain.pageBits =
      (0xE247FF : AddrField).toNat / 2 ^ (plain.shift + 8) % 2 ^ plain.pageBits := by decide

/-- The last byte of the stream, and its location. -/
theorem witness_StripingMapIsOneToOne :
    plain.valid = true ∧ 16383 < plain.totalPages * plain.pageSize ∧ 1 < plain.chips ∧ 4095 < plain.numPages ∧ 1 < plain.pageSize ∧
    streamLocation plain 16383 = (1, 4095, 1) := by decide

/-! Reset and the invariants. -/

theorem witness_ParametersAreValidatedAtConstruction :
    State.construct plain = some (State.resetWith plain) ∧ State.construct (codec 13 4) = none :=
  ⟨rfl, by decide⟩

/-- Reset with a frame open (`midPage`) and with none; an operation cut with a chip selected (after 3 of `START_W`'s events) and
with none (after the first frame of `WAIT_READY`'s poll); `END_W` cut after chip 0 has shown itself ready. -/
theorem witness_ResetValues :
    Handle.reset ∈ (State.resetWith plain).handles ∧ (midPage.Inv ∧ midPage.bus.cs = some 0) ∧
    ((idleAt plain []).Inv ∧ (idleAt plain []).bus.cs ≠ some 0) ∧
    (let s := idleAt plain (answersOf [1, 2, 3, 4])
      let es := .sel 0 :: exchanges [0x84, 0, 0, 0] [1, 2, 3, 4]
      s.Inv ∧ (∃ t, exec .startW s = .next t ∧ t.bus.trace = s.bus.trace ++ es) ∧ 3 < es.length ∧
      (s.bus.replay s.cfg (es.take 3)).cs = some 0 ∧ 0 < s.cfg.chips ∧ (s.bus.replay s.cfg (es.take 3)).cs ≠ some 1) ∧
    (let s := idleAt plain (answersOf [0, 0x00, 0, 0x80])
      let es := pollTrace 1 [(0, 0x00), (0, 0x80)]
      s.Inv ∧ (∃ t, exec (.waitReady 1) s = .next t ∧ t.bus.trace = s.bus.trace ++ es) ∧ 4 < es.length ∧
        (s.bus.replay s.cfg (es.take 4)).cs ≠ some 1) ∧
    let s := fillingAt plain [] (answersOf [0, 0x80, 0, 0x80])
    let es := .desel 0 :: pollTrace 0 [(0, 0x80)] ++ pollTrace 1 [(0, 0x80)]
    s.Inv ∧ (∃ t, exec .endW s = .next t ∧ t.bus.trace = s.bus.trace ++ es) ∧ 6 < es.length ∧
      es.take 6 = [.desel 0] ++ [.sel 0, .x 0xD7 (.byte 0), .x 0x00 (.byte 0x80), .desel 0] ++ [.sel 1] ∧
      ready 0x80 = true ∧ .desel 0 ∉ [Event.sel 1] ∧ (s.bus.replay s.cfg (es.take 6)).cs ≠ some 0 :=
  ⟨by decide, ⟨inv_of (by decide), rfl⟩, ⟨inv_of (by decide), by decide⟩,
    ⟨inv_of (by decide), ⟨_, rfl, by decide⟩, by decide, by decide, by decide, by decide⟩,
    ⟨inv_of (by decide), ⟨_, rfl, by decide⟩, by decide, by decide⟩,
    inv_of (by decide), ⟨_, rfl, by decide⟩, by decide, by decide, by decide, by decide, by decide⟩

theorem witness_ResetMeetsTheInvariants : Config.standard.valid = true ∧ plain.valid = true := by decide

theorem witness_StepKeepsInvariant : midPage.Inv ∧ ∃ t, step midPage = .next t := ⟨inv_of (by decide), _, rfl⟩

/-- Cursors of three pages. -/
theorem witness_StepKeepsRoundRobinShape :
    let s := { midPage with handles := [⟨.a, 2, 0, 0, .filling⟩, ⟨.b, 1, 0, 1, .filling⟩], curW := 1, bus := { midPage.bus with
      cs := some 1
      chips := [Chip.blank, { Chip.blank with received := [0x87, 0, 0, 0, 0x11] }] } }
    s.Inv ∧ s.RoundRobin ∧ ∃ t, step s = .next t := by
  refine ⟨inv_of (by decide), ⟨⟨3, ?_⟩, ⟨0, ?_⟩⟩, _, rfl⟩
  · unfold State.WriteShape; decide
  · unfold State.ReadShape; decide

theorem witness_StepKeepsBusOrderly :
    (midPage.Inv ∧ midPage.BusOrderly ∧ ∃ t, step midPage = .next t) ∧
    let s := { idleAt plain [] with pending := [.word 0x80000000] }
    s.Inv ∧ s.BusOrderly ∧ ∃ t, step s = .next t :=
  ⟨⟨inv_of (by decide), ⟨[0x11], rfl, by decide⟩, _, rfl⟩, inv_of (by decide), rfl, _, rfl⟩

/-- Chip 0 seen ready, chip 1 busy. -/
theorem witness_StepKeepsKnownReadyHonest :
    let s := { ((idleAt plain []).withChip 0 fun ch => { ch with knownReady := true }).withChip 1 fun ch =>
      { ch with busy := true, inUse := some .a } with pending := [.word 0x50000001] }
    s.Inv ∧ s.KnownReadyHonest ∧ ∃ t, step s = .next t :=
  ⟨inv_of (by decide), ⟨rfl, by decide⟩, _, rfl⟩

/-- Two states with a page being written: other bits 6 to 0 in the bytes seen and in those to come, a fault among them; and the
same with a reset in the middle of the step. -/
theorem witness_OnlyBitSevenMatters :
    let s := { fillingAt faulty [0x11] [.byte 0x05, .byte 0x00, .byte 0x80, .fault] with pending := [.word 0x20000022] }
    let s' := { s with bus := { s.bus with
      answers := [.byte 0x7A, .byte 0x7F, .byte 0xFF, .fault]
      trace := .sel 0 :: exchanges (openFrame .a ++ [0x11]) (List.replicate 5 0x3C) } }
    (s ≠ s' ∧ s.Alike s' ∧ ∃ t, step s = .next t) ∧
    { s with resetIn := some 3 }.Alike { s' with resetIn := some 3 } ∧ ∃ t, step { s with resetIn := some 3 } = .next t := by
  intro s s'
  have ha : s.bus.Alike s'.bus := ⟨rfl, rfl, rfl, rfl, ⟨(by decide : ready 0x05 = ready 0x7A), (by decide : ready 0x00 = ready 0x7F),
    (by decide : ready 0x80 = ready 0xFF), trivial, trivial⟩, by decide⟩
  exact ⟨⟨by decide, ⟨rfl, rfl, rfl, rfl, rfl, rfl, rfl, ha, rfl, rfl, rfl⟩, _, rfl⟩,
    ⟨rfl, rfl, rfl, rfl, rfl, rfl, rfl, ha, rfl, rfl, rfl⟩, _, rfl⟩

/-! The stream operations. -/

/-- A normal end; a fault on the last byte of the header, and on the first. -/
theorem witness_StartWOpensTheCurrentChip :
    (let s := idleAt plain (answersOf [1, 2, 3, 4] ++ [.fault]);
      s.Inv ∧ s.idle = true ∧ s.bus.answers = answersOf [1, 2, 3, 4] ++ [.fault]) ∧
    (let s := idleAt faulty (answersOf [1, 2, 3] ++ [.fault]);
      s.Inv ∧ s.idle = true ∧ s.cfg.hasBusFault = true ∧ [1, 2, 3].length < 4 ∧ s.bus.answers = answersOf [1, 2, 3] ++ .fault :: []) ∧
    let s := idleAt faulty [.fault]
    s.Inv ∧ s.idle = true ∧ s.cfg.hasBusFault = true ∧ s.bus.answers = answersOf [] ++ .fault :: [] :=
  ⟨⟨inv_of (by decide), by decide⟩, ⟨inv_of (by decide), by decide⟩, inv_of (by decide), by decide⟩

/-- The last page of the chip. -/
theorem witness_WriteByteWithinAPage :
    let s := (fillingAt plain [] [.byte 9]).withHandle 0 fun h => { h with wpage := 4095 }
    s.Inv ∧ s.filling = true ∧ (s.handle s.curW).wpage < s.cfg.numPages ∧ s.soff + 1 < s.cfg.pageSize ∧ s.bus.answers = .byte 9 :: [] :=
  ⟨inv_of (by decide), by decide⟩

theorem witness_WriteByteEndsAPage :
    let s := (fillingAt plain [7] (answersOf [9, 0, 0, 0, 0x80, 1, 2, 3, 4, 5, 6, 7, 8])).withHandle 0 fun h => { h with wpage := 4095 }
    s.Inv ∧ s.filling = true ∧ (s.handle s.curW).wpage < s.cfg.numPages ∧ s.soff + 1 = s.cfg.pageSize ∧
    PollSucceeds s.cfg.pollLimit [(0, 0x00), (0, 0x80)] ∧ [1, 2, 3, 4].length = 4 ∧
    s.bus.answers = .byte 9 :: (answersOf (pollBytes [(0, 0x00), (0, 0x80)] ++ [1, 2, 3, 4] ++ [5, 6, 7, 8]) ++ []) :=
  ⟨inv_of (by decide), by decide, by decide, by decide, polls_twice, by decide⟩

theorem witness_WriteByteTimesOut :
    let s := fillingAt plain [7] (answersOf [9, 0, 0, 0, 0x7F])
    s.Inv ∧ s.filling = true ∧ (s.handle s.curW).wpage < s.cfg.numPages ∧ s.soff + 1 = s.cfg.pageSize ∧
    PollFails s.cfg.pollLimit [(0, 0x00), (0, 0x7F)] ∧
    s.bus.answers = .byte 9 :: (answersOf (pollBytes [(0, 0x00), (0, 0x7F)]) ++ []) :=
  ⟨inv_of (by decide), by decide, by decide, by decide, polls_out, by decide⟩

/-- On the byte; in the poll; in the commit frame; in the next header. -/
theorem witness_WriteByteBusFaults :
    (let s := fillingAt faulty [] [.fault];
      s.Inv ∧ s.filling = true ∧ s.cfg.hasBusFault = true ∧ (s.handle s.curW).wpage < s.cfg.numPages ∧ s.bus.answers = .fault :: []) ∧
    (let s := fillingAt faulty [7] (answersOf [9, 0, 0x7F, 5] ++ [.fault]);
      s.Inv ∧ s.filling = true ∧ s.cfg.hasBusFault = true ∧ s.soff + 1 = s.cfg.pageSize ∧
      PollFaults s.cfg.pollLimit [(0, 0x7F)] [5] ∧ s.bus.answers = .byte 9 :: (pollFaultAnswers [(0, 0x7F)] [5] ++ [])) ∧
    (let s := fillingAt faulty [7] (answersOf [9, 0, 0x80, 1, 2, 3] ++ [.fault]);
      s.Inv ∧ s.filling = true ∧ s.cfg.hasBusFault = true ∧ s.soff + 1 = s.cfg.pageSize ∧
      PollSucceeds s.cfg.pollLimit [(0, 0x80)] ∧
      s.bus.answers = .byte 9 :: (answersOf (pollBytes [(0, 0x80)] ++ [1, 2, 3]) ++ .fault :: [])) ∧
    let s := fillingAt faulty [7] (answersOf [9, 0, 0x80, 1, 2, 3, 4] ++ [.fault])
    s.Inv ∧ s.filling = true ∧ s.cfg.hasBusFault = true ∧ s.soff + 1 = s.cfg.pageSize ∧
      PollSucceeds s.cfg.pollLimit [(0, 0x80)] ∧
      s.bus.answers = .byte 9 :: (answersOf (pollBytes [(0, 0x80)] ++ [1, 2, 3, 4] ++ []) ++ .fault :: []) :=
  ⟨⟨inv_of (by decide), by decide⟩, ⟨inv_of (by decide), by decide, by decide, by decide, polls_cut.1, by decide⟩,
    ⟨inv_of (by decide), by decide, by decide, by decide, polls_once 1, by decide⟩,
    inv_of (by decide), by decide, by decide, by decide, polls_once 1, by decide⟩

theorem witness_EndWConfirmsEveryChip :
    let s := fillingAt plain [] (answersOf [0, 0x80, 0, 0x80])
    s.Inv ∧ s.filling = true ∧ s.soff = 0 ∧ (∀ c, c < s.cfg.chips → PollSucceeds s.cfg.pollLimit [(0, 0x80)]) ∧
    s.bus.answers = answersOf ((List.range s.cfg.chips).flatMap fun _ => pollBytes [(0, 0x80)]) ++ [] :=
  ⟨inv_of (by decide), by decide, by decide, fun _ _ => polls_once 1, by decide⟩

/-- The last chip never becomes ready; a bus fault in its poll. -/
theorem witness_EndWTimesOut :
    (let s := fillingAt plain [] (answersOf [0, 0x80, 0, 0, 0, 0x7F])
      let polls := fun (c : Nat) => if c = 0 then [(0, 0x80)] else [(0, 0x00), (0, 0x7F)]
      s.Inv ∧ s.filling = true ∧ s.soff = 0 ∧ 1 < s.cfg.chips ∧ (∀ d, d < 1 → PollSucceeds s.cfg.pollLimit (polls d)) ∧
      PollFails s.cfg.pollLimit (polls 1) ∧
      s.bus.answers = answersOf ((List.range (1 + 1)).flatMap fun d => pollBytes (polls d)) ++ []) ∧
    let s := fillingAt faulty [] (answersOf [0, 0x80, 0, 0x7F, 5] ++ [.fault])
    let polls := fun (c : Nat) => if c = 0 then [(0, 0x80)] else [(0, 0x7F)]
    s.Inv ∧ s.filling = true ∧ s.soff = 0 ∧ 1 < s.cfg.chips ∧ (∀ d, d < 1 → PollSucceeds s.cfg.pollLimit (polls d)) ∧
    s.cfg.hasBusFault = true ∧ PollFaults s.cfg.pollLimit (polls 1) [5] ∧
    s.bus.answers = answersOf ((List.range 1).flatMap fun d => pollBytes (polls d)) ++ (pollFaultAnswers (polls 1) [5] ++ []) := by
  refine ⟨⟨inv_of (by decide), by decide, by decide, by decide, fun d hd => ?_, polls_out, by decide⟩,
    inv_of (by decide), by decide, by decide, by decide, fun d hd => ?_, by decide, polls_cut.1, by decide⟩ <;>
  · obtain rfl : d = 0 := by omega
    exact polls_once 1

/-- The last page of the chip. -/
theorem witness_ReadPageStreamsAPage :
    let s := (idleAt plain (answersOf [1, 2, 3, 4, 0, 0x80, 5, 6, 7, 8, 9, 0x11, 0x22])).withHandle 0 fun h => { h with rpage := 4095 }
    s.Inv ∧ s.idle = true ∧ (s.handle s.curR).rpage < s.cfg.numPages ∧ PollSucceeds s.cfg.pollLimit [(0, 0x80)] ∧
    [5, 6, 7, 8, 9].length = 4 + s.cfg.bufReadDummy ∧ [0x11, 0x22].length = s.cfg.pageSize ∧
    s.bus.answers = answersOf ([1, 2, 3, 4] ++ pollBytes [(0, 0x80)] ++ [5, 6, 7, 8, 9] ++ [0x11, 0x22]) ++ [] :=
  ⟨inv_of (by decide), by decide, by decide, polls_once 1, by decide⟩

/-- A poll that runs out; a fault on the last byte of the transfer frame; one in the poll; one on the last byte of the page. -/
theorem witness_ReadPageFails :
    (let s := idleAt plain (answersOf [1, 2, 3, 4, 0, 0, 0, 0x7F]);
      s.Inv ∧ s.idle = true ∧ (s.handle s.curR).rpage < s.cfg.numPages ∧ PollFails s.cfg.pollLimit [(0, 0), (0, 0x7F)] ∧
      s.bus.answers = answersOf ([1, 2, 3, 4] ++ pollBytes [(0, 0), (0, 0x7F)]) ++ []) ∧
    (let s := idleAt faulty (answersOf [1, 2, 3] ++ [.fault]);
      s.Inv ∧ s.idle = true ∧ s.cfg.hasBusFault = true ∧ s.bus.answers = answersOf [1, 2, 3] ++ .fault :: []) ∧
    (let s := idleAt faulty (answersOf [1, 2, 3, 4, 0, 0x7F, 5] ++ [.fault]);
      s.Inv ∧ s.idle = true ∧ s.cfg.hasBusFault = true ∧ PollFaults s.cfg.pollLimit [(0, 0x7F)] [5] ∧
      s.bus.answers = answersOf [1, 2, 3, 4] ++ (pollFaultAnswers [(0, 0x7F)] [5] ++ [])) ∧
    let s := idleAt faulty (answersOf [1, 2, 3, 4, 0, 0x80, 5, 6, 7, 8, 9, 0x11] ++ [.fault])
    s.Inv ∧ s.idle = true ∧ s.cfg.hasBusFault = true ∧ PollSucceeds s.cfg.pollLimit [(0, 0x80)] ∧
      s.bus.answers = answersOf ([1, 2, 3, 4] ++ pollBytes [(0, 0x80)] ++ [5, 6, 7, 8, 9, 0x11]) ++ .fault :: [] :=
  ⟨⟨inv_of (by decide), by decide, by decide, polls_out, by decide⟩, ⟨inv_of (by decide), by decide⟩,
    ⟨inv_of (by decide), by decide, by decide, polls_cut.1, by decide⟩,
    inv_of (by decide), by decide, by decide, polls_once 1, by decide⟩

theorem witness_EraseRangeErasesEachPageOnce :
    let s := idleAt plain (answersOf [1, 2, 3, 4, 0, 0x80, 1, 2, 3, 4, 0, 0x80, 1, 2, 3, 4, 0, 0x80])
    s.Inv ∧ s.idle = true ∧ (3 : ArgField).toNat ≤ s.cfg.chips * s.cfg.numPages ∧
    (∀ l, l < (3 : ArgField).toNat → ([1, 2, 3, 4] : List Byte).length = 4 ∧ PollSucceeds s.cfg.pollLimit [(0, 0x80)]) ∧
    s.bus.answers = answersOf ((List.range (3 : ArgField).toNat).flatMap fun _ => [1, 2, 3, 4] ++ pollBytes [(0, 0x80)]) ++ [] :=
  ⟨inv_of (by decide), by decide, by decide, fun _ _ => ⟨rfl, polls_once 1⟩, by decide⟩

/-- At the last page of the range: a poll that runs out; a fault on the last byte of the erase frame; one in the poll. -/
theorem witness_EraseRangeTimesOut :
    let es := fun (l : Nat) => if l = 0 then [1, 2, 3, 4] else ([5, 6, 7, 8] : List Byte)
    let cut := fun (l : Nat) => if l = 0 then [1, 2, 3, 4] else ([5, 6, 7] : List Byte)
    (let s := idleAt plain (answersOf [1, 2, 3, 4, 0, 0x80, 5, 6, 7, 8, 0, 0, 0, 0x7F])
      let polls := fun (l : Nat) => if l = 0 then [(0, 0x80)] else [(0, 0x00), (0, 0x7F)]
      s.Inv ∧ s.idle = true ∧ (2 : ArgField).toNat ≤ s.cfg.chips * s.cfg.numPages ∧ 1 < (2 : ArgField).toNat ∧
      (∀ l, l < 1 → (es l).length = 4 ∧ PollSucceeds s.cfg.pollLimit (polls l)) ∧ PollFails s.cfg.pollLimit (polls 1) ∧
      s.bus.answers = answersOf ((List.range 1).flatMap fun l => es l ++ pollBytes (polls l)) ++
        (answersOf (es 1 ++ pollBytes (polls 1)) ++ [])) ∧
    (let s := idleAt faulty (answersOf [1, 2, 3, 4, 0, 0x80, 5, 6, 7] ++ [.fault])
      let polls := fun (l : Nat) => if l = 0 then [(0, 0x80)] else []
      s.Inv ∧ s.idle = true ∧ s.cfg.hasBusFault = true ∧ (cut 1).length < 4 ∧
      (∀ l, l < 1 → (cut l).length = 4 ∧ PollSucceeds s.cfg.pollLimit (polls l)) ∧
      s.bus.answers = answersOf ((List.range 1).flatMap fun l => cut l ++ pollBytes (polls l)) ++ (answersOf (cut 1) ++ .fault :: [])) ∧
    let s := idleAt faulty (answersOf [1, 2, 3, 4, 0, 0x80, 5, 6, 7, 8, 0, 0x7F, 5] ++ [.fault])
    let polls := fun (l : Nat) => if l = 0 then [(0, 0x80)] else [(0, 0x7F)]
    s.Inv ∧ s.idle = true ∧ s.cfg.hasBusFault = true ∧ (es 1).length = 4 ∧
    (∀ l, l < 1 → (es l).length = 4 ∧ PollSucceeds s.cfg.pollLimit (polls l)) ∧ PollFaults s.cfg.pollLimit (polls 1) [5] ∧
    s.bus.answers = answersOf ((List.range 1).flatMap fun l => es l ++ pollBytes (polls l)) ++
      (answersOf (es 1) ++ (pollFaultAnswers (polls 1) [5] ++ [])) := by
  refine ⟨⟨inv_of (by decide), by decide, by decide, by decide, fun l hl => ?_, polls_out, by decide⟩,
    ⟨inv_of (by decide), by decide, by decide, by decide, fun l hl => ?_, by decide⟩,
    inv_of (by decide), by decide, by decide, by decide, fun l hl => ?_, polls_cut.1, by decide⟩ <;>
  · obtain rfl : l = 0 := by omega
    exact ⟨rfl, polls_once 1⟩

/-- Both ends of the range of `SEEK_W` and `SEEK_R`. -/
theorem witness_SeekSetsTheCursors :
    (idleAt plain []).Inv ∧ (idleAt plain []).idle = true ∧ (8192 : ArgField).toNat ≤ plain.chips * plain.numPages ∧
    (0 : ArgField).toNat ≤ plain.chips * plain.numPages := ⟨inv_of (by decide), by decide⟩

/-- The page end, and the seek. -/
theorem witness_NextLogicalPageFollowsTheStream :
    (midPage.Inv ∧ midPage.WriteShape 0 ∧ midPage.filling = true ∧ 0 < midPage.cfg.totalPages ∧
      midPage.soff + 1 = midPage.cfg.pageSize ∧
      ∃ t, exec (.writeByte 0x22) midPage = .next t ∧ t.responses.getLast? = some (okResponse [])) ∧
    let s := idleAt plain []
    s.Inv ∧ s.WriteShape 0 ∧ s.idle = true ∧ (8192 : ArgField).toNat ≤ s.cfg.totalPages ∧ ∃ t, exec (.seekW 8192) s = .next t := by
  refine ⟨⟨inv_of (by decide), ?_, by decide, by decide, by decide, _, rfl, by decide⟩, inv_of (by decide), ?_, by decide, by decide,
    _, rfl⟩ <;> (unfold State.WriteShape; decide)

/-! The Command Transport. -/

/-- A normal end; a fault in each of the two exchanges. -/
theorem witness_StatusReadsReturnTheByte :
    (let s := idleAt plain (answersOf [1, 0xAC]);
      s.Inv ∧ s.idle = true ∧ (1 : ChipField).toNat < s.cfg.chips ∧ s.bus.answers = .byte 1 :: .byte 0xAC :: []) ∧
    (let s := idleAt faulty [.fault];
      s.Inv ∧ s.idle = true ∧ s.cfg.hasBusFault = true ∧ ([] : List Byte).length < 2 ∧ s.bus.answers = answersOf [] ++ .fault :: []) ∧
    let s := idleAt faulty (answersOf [1] ++ [.fault])
    s.Inv ∧ s.idle = true ∧ s.cfg.hasBusFault = true ∧ ([1] : List Byte).length < 2 ∧ s.bus.answers = answersOf [1] ++ .fault :: [] :=
  ⟨⟨inv_of (by decide), by decide⟩, ⟨inv_of (by decide), by decide⟩, inv_of (by decide), by decide⟩

/-- A poll that ends well, one that runs out, and a bus fault after a status read and at the first exchange. -/
theorem witness_WaitReadyPolls :
    (let s := idleAt plain (answersOf [0, 0x00, 0, 0x80]);
      s.Inv ∧ s.idle = true ∧ (1 : ChipField).toNat < s.cfg.chips ∧
      s.bus.answers = answersOf (pollBytes [(0, 0x00), (0, 0x80)]) ++ [] ∧ PollSucceeds s.cfg.pollLimit [(0, 0x00), (0, 0x80)]) ∧
    (let s := idleAt plain (answersOf [0, 0x00, 0, 0x7F]);
      s.Inv ∧ s.idle = true ∧ s.bus.answers = answersOf (pollBytes [(0, 0x00), (0, 0x7F)]) ++ [] ∧
      PollFails s.cfg.pollLimit [(0, 0x00), (0, 0x7F)]) ∧
    (let s := idleAt faulty (answersOf [0, 0x7F, 5] ++ [.fault]);
      s.Inv ∧ s.idle = true ∧ s.cfg.hasBusFault = true ∧ s.bus.answers = pollFaultAnswers [(0, 0x7F)] [5] ++ [] ∧
      PollFaults s.cfg.pollLimit [(0, 0x7F)] [5]) ∧
    let s := idleAt faulty [.fault]
    s.Inv ∧ s.idle = true ∧ s.cfg.hasBusFault = true ∧ s.bus.answers = pollFaultAnswers [] [] ++ [] ∧
      PollFaults s.cfg.pollLimit [] [] :=
  ⟨⟨inv_of (by decide), by decide, by decide, by decide, polls_twice⟩, ⟨inv_of (by decide), by decide, by decide, polls_out⟩,
    ⟨inv_of (by decide), by decide, by decide, by decide, polls_cut.1⟩, inv_of (by decide), by decide, by decide, by decide, polls_cut.2⟩

/-- The last page; each of the three erases. -/
theorem witness_ErasesSendAFrameAndPoll :
    let s := idleAt plain (answersOf [1, 2, 3, 4, 0, 0x80])
    let c : ChipField := 1
    let p : ArgField := 4095
    (s.Inv ∧ s.idle = true ∧ c.toNat < s.cfg.chips ∧ PollSucceeds s.cfg.pollLimit [(0, 0x80)] ∧
      s.bus.answers = answersOf ([1, 2, 3, 4] ++ pollBytes [(0, 0x80)]) ++ []) ∧
    ∀ i ∈ [Instr.pageErase c p, .sectorErase c p, .chipErase c], ∃ frame : List Byte,
      (i = .pageErase c p ∧ p.toNat < s.cfg.numPages ∧ frame = 0x81 :: addrBytes (encodePage s.cfg p.toNat) ∨
        i = .sectorErase c p ∧ p.toNat < s.cfg.numPages ∧ frame = 0x7C :: addrBytes (encodePage s.cfg p.toNat) ∨
        i = .chipErase c ∧ frame = [0xC7, 0x94, 0x80, 0x9A]) := by
  refine ⟨⟨inv_of (by decide), by decide, by decide, polls_once 1, by decide⟩, fun i hi => ?_⟩
  simp only [List.mem_cons, List.not_mem_nil, or_false] at hi
  rcases hi with rfl | rfl | rfl
  · exact ⟨_, .inl ⟨rfl, by decide, rfl⟩⟩
  · exact ⟨_, .inr (.inl ⟨rfl, by decide, rfl⟩)⟩
  · exact ⟨_, .inr (.inr ⟨rfl, rfl⟩)⟩

/-- A poll that runs out; a fault on the last byte of the erase frame; one in the poll. -/
theorem witness_ErasesTimeOut :
    (let s := idleAt plain (answersOf [1, 2, 3, 4, 0, 0, 0, 0x7F]);
      s.Inv ∧ s.idle = true ∧ (1 : ChipField).toNat < s.cfg.chips ∧ PollFails s.cfg.pollLimit [(0, 0), (0, 0x7F)] ∧
      s.bus.answers = answersOf ([1, 2, 3, 4] ++ pollBytes [(0, 0), (0, 0x7F)]) ++ [] ∧ (4095 : ArgField).toNat < s.cfg.numPages) ∧
    (let s := idleAt faulty (answersOf [1, 2, 3] ++ [.fault]);
      s.Inv ∧ s.idle = true ∧ s.cfg.hasBusFault = true ∧ ([1, 2, 3] : List Byte).length < 4 ∧
      s.bus.answers = answersOf [1, 2, 3] ++ .fault :: []) ∧
    let s := idleAt faulty (answersOf [1, 2, 3, 4, 0, 0x7F, 5] ++ [.fault])
    s.Inv ∧ s.idle = true ∧ s.cfg.hasBusFault = true ∧ PollFaults s.cfg.pollLimit [(0, 0x7F)] [5] ∧
      s.bus.answers = answersOf [1, 2, 3, 4] ++ (pollFaultAnswers [(0, 0x7F)] [5] ++ []) :=
  ⟨⟨inv_of (by decide), by decide, by decide, polls_out, by decide⟩, ⟨inv_of (by decide), by decide⟩,
    inv_of (by decide), by decide, by decide, polls_cut.1, by decide⟩

theorem witness_ReservedOperationsAnswerMisuse :
    decode (.word 0x0FFFFFFF) = .ok (.reservedOp0 0xFFFFFFF) ∧ decode (.word 0xD0000000) = .ok (.reservedOpD 0) ∧
    decode (.word 0xE0000000) = .ok (.reservedOpE 0) ∧ decode (.word 0xF0000000) = .ok (.reservedOpF 0) := by decide

/-! Errors found by a check. -/

theorem witness_WrongPhaseIsSequenceMisuse :
    ((idleAt plain []).Inv ∧ (idleAt plain []).idle = true) ∧
    ((fillingAt plain [1] []).Inv ∧ (fillingAt plain [1] []).filling = true ∧ (fillingAt plain [1] []).soff ≠ 0) ∧
    ((fillingAt plain [] []).Inv ∧ (fillingAt plain [] []).filling = true) ∧ MalformedWord 0x00000000 :=
  ⟨⟨inv_of (by decide), by decide⟩, ⟨inv_of (by decide), by decide⟩, ⟨inv_of (by decide), by decide⟩, by unfold MalformedWord; decide⟩

/-- The first value out of each range. -/
theorem witness_OutOfRangeIsInvalidAddress :
    (let s := (fillingAt plain [] []).withHandle 0 fun h => { h with wpage := 4096 };
      s.Inv ∧ s.filling = true ∧ (s.handle s.curW).wpage = s.cfg.numPages) ∧
    (let s := (idleAt plain []).withHandle 0 fun h => { h with rpage := 4096 };
      s.Inv ∧ s.idle = true ∧ (s.handle s.curR).rpage = s.cfg.numPages) ∧
    plain.numPages ≤ (4096 : ArgField).toNat ∧ plain.chips * plain.numPages < (8193 : ArgField).toNat ∧
    plain.chips ≤ (2 : ChipField).toNat :=
  ⟨⟨inv_of (by decide), by decide⟩, ⟨inv_of (by decide), by decide⟩, by decide⟩

/-! Single frames. -/

/-- Both settings of `COMMIT_VARIANT`; the last page; a fault on the last byte. -/
theorem witness_FourByteFramesAreSent :
    (let s := idleAt plain (answersOf [1, 2, 3, 4]);
      s.Inv ∧ s.idle = true ∧ (1 : ChipField).toNat < s.cfg.chips ∧ 4095 < s.cfg.numPages ∧
      s.bus.answers = answersOf [1, 2, 3, 4] ++ [] ∧ s.cfg.commitVariant = false) ∧
    (let s := idleAt (tiny 2 true false) (answersOf [1, 2, 3, 4]);
      s.Inv ∧ s.idle = true ∧ 0 < s.cfg.numPages ∧ s.bus.answers = answersOf [1, 2, 3, 4] ++ [] ∧ s.cfg.commitVariant = true) ∧
    let s := idleAt faulty (answersOf [1, 2, 3] ++ [.fault])
    s.Inv ∧ s.idle = true ∧ s.cfg.hasBusFault = true ∧ 0 < s.cfg.numPages ∧ ([1, 2, 3] : List Byte).length < 4 ∧
      s.bus.answers = answersOf [1, 2, 3] ++ .fault :: [] :=
  ⟨⟨inv_of (by decide), by decide⟩, ⟨inv_of (by decide), by decide⟩, inv_of (by decide), by decide⟩

/-- A whole page of data, and none; a fault on the last data byte. -/
theorem witness_BufferWriteFramesAreSent :
    (let s := idleAt plain (answersOf [1, 2, 3, 4, 5, 6]);
      s.Inv ∧ s.idle = true ∧ ([7, 8] : List Byte).length ≤ s.cfg.pageSize ∧
      ([1, 2, 3, 4, 5, 6] : List Byte).length = 4 + ([7, 8] : List Byte).length ∧
      s.bus.answers = answersOf [1, 2, 3, 4, 5, 6] ++ []) ∧
    (let s := idleAt plain (answersOf [1, 2, 3, 4]);
      s.Inv ∧ s.idle = true ∧ s.bus.answers = answersOf [1, 2, 3, 4] ++ []) ∧
    let s := idleAt faulty (answersOf [1, 2, 3, 4, 5] ++ [.fault])
    s.Inv ∧ s.idle = true ∧ s.cfg.hasBusFault = true ∧ ([1, 2, 3, 4, 5] : List Byte).length < 4 + ([7, 8] : List Byte).length ∧
      s.bus.answers = answersOf [1, 2, 3, 4, 5] ++ .fault :: [] :=
  ⟨⟨inv_of (by decide), by decide⟩, ⟨inv_of (by decide), by decide⟩, inv_of (by decide), by decide⟩

/-- A normal end; a fault on the last byte of the page. -/
theorem witness_BufferReadFramesReturnThePage :
    (let s := idleAt plain (answersOf [1, 2, 3, 4, 5, 0x11, 0x22]);
      s.Inv ∧ s.idle = true ∧ (1 : ChipField).toNat < s.cfg.chips ∧
      ([1, 2, 3, 4, 5] : List Byte).length = 4 + s.cfg.bufReadDummy ∧ ([0x11, 0x22] : List Byte).length = s.cfg.pageSize ∧
      s.bus.answers = answersOf ([1, 2, 3, 4, 5] ++ [0x11, 0x22]) ++ []) ∧
    let s := idleAt faulty (answersOf [1, 2, 3, 4, 5, 0x11] ++ [.fault])
    let frame := ([0xD4, 0x00, 0x00, 0x00] : List Byte) ++ List.replicate (s.cfg.bufReadDummy + s.cfg.pageSize) 0x00
    s.Inv ∧ s.idle = true ∧ s.cfg.hasBusFault = true ∧ ([1, 2, 3, 4, 5, 0x11] : List Byte).length < frame.length ∧
      s.bus.answers = answersOf [1, 2, 3, 4, 5, 0x11] ++ .fault :: [] :=
  ⟨⟨inv_of (by decide), by decide⟩, inv_of (by decide), by decide⟩

/-- An instruction that is neither of the two. -/
theorem witness_OnlyUnemittedFramesStop (c : ChipField) (rest : List Byte) :
    Instr.endW ≠ .spiIdRead c rest ∧ Instr.endW ≠ .spiSecurityRead c rest := ⟨nofun, nofun⟩

/-- The other pair of opcodes; an address one page field away from `encode(1)` and one past byte 0; a data byte too many;
the last page while Filling and on the first chip there is not. -/
theorem witness_FrameChecks :
    ((idleAt plain []).Inv ∧ plain.commitVariant = false ∧ (idleAt plain []).idle = true ∧ plain.chips ≤ (2 : ChipField).toNat) ∧
    (tiny 2 true false).commitVariant = true ∧ plain.pageSize < ([1, 2, 3] : List Byte).length ∧
    (∀ p, p < plain.numPages → (0x000201 : AddrField) ≠ encodePage plain p) ∧ (0x000001 : AddrField) ≠ 0 ∧
    4095 < plain.numPages ∧
    ((fillingAt plain [] []).Inv ∧ (fillingAt plain [] []).filling = true ∧ ([1, 2] : List Byte).length ≤ plain.pageSize) :=
  ⟨⟨inv_of (by decide), by decide⟩, by decide, by decide,
    fun p hp h => absurd (isPageField_encode (cfg := plain) (by decide) hp) (h ▸ by decide), by decide, by decide,
    inv_of (by decide), by decide⟩

/-! What every operation may answer and change. -/

/-- A run that ends in each kind of error, and one that ends in `OK`. -/
theorem witness_OperationsAnswerOnlyTheirErrors :
    (∃ t r, (idleAt faulty [.fault]).Inv ∧ exec .startW (idleAt faulty [.fault]) = .next t ∧
      t.responses = (idleAt faulty [.fault]).responses ++ [r] ∧ r.err = some .busFault) ∧
    ∃ t r, (idleAt plain []).Inv ∧ exec .endW (idleAt plain []) = .next t ∧
      t.responses = (idleAt plain []).responses ++ [r] ∧ r.err = some .sequenceMisuse :=
  ⟨⟨_, _, inv_of (by decide), rfl, rfl, rfl⟩, _, _, inv_of (by decide), rfl, rfl, rfl⟩

theorem witness_EveryOperationAnswersOnce : midPage.Inv ∧ ∃ t, exec .endW midPage = .next t := ⟨inv_of (by decide), _, rfl⟩

/-- An error found by a check; an abort of a write session; one of an erase. -/
theorem witness_ErrorsLeaveTheBlockReady :
    (∃ t r, (idleAt plain []).Inv ∧ exec .endW (idleAt plain []) = .next t ∧
      t.responses = (idleAt plain []).responses ++ [r] ∧ turnedAway r) ∧
    (let s := fillingAt plain [7] (answersOf [9, 0, 0, 0, 0x7F])
      ∃ t r, s.Inv ∧ exec (.writeByte 1) s = .next t ∧ t.responses = s.responses ++ [r] ∧ aborts r ∧
        inSession (.writeByte 1) = true ∧ 1 < s.cfg.chips) ∧
    let s := idleAt faulty [.fault]
    ∃ t r, s.Inv ∧ exec (.pageErase 1 0) s = .next t ∧ t.responses = s.responses ++ [r] ∧ aborts r ∧
      inSession (.pageErase 1 0) = false :=
  ⟨⟨_, _, inv_of (by decide), rfl, rfl, .inl rfl⟩, ⟨_, _, inv_of (by decide), rfl, rfl, .inl rfl, rfl, by decide⟩,
    _, _, inv_of (by decide), rfl, rfl, .inr rfl, rfl⟩

theorem witness_TransportKeepsEveryRegister :
    let s := idleAt plain (answersOf [0, 0x80])
    s.Inv ∧ keepsRegisters (.waitReady 1) = true ∧ ∃ t, exec (.waitReady 1) s = .next t := ⟨inv_of (by decide), by decide, _, rfl⟩

/-- A page end, a `READ_PAGE` and a `SEEK_W` that answer `OK`, and a `READ_PAGE` that ends in an error. -/
theorem witness_AccessMatrix :
    (∃ t, midPage.Inv ∧ exec (.writeByte 0x22) midPage = .next t ∧ t.responses = midPage.responses ++ [okResponse []] ∧
      (okResponse []).err = none ∧ writesReadCursor (.writeByte 0x22) = false ∧ writesEngineState (.writeByte 0x22) = false ∧
      (t.handle midPage.curW).wpage = (midPage.handle midPage.curW).wpage + 1) ∧
    (let s := idleAt plain (answersOf [1, 2, 3, 4, 0, 0x80, 5, 6, 7, 8, 9, 0x11, 0x22])
      ∃ t, s.Inv ∧ exec .readPage s = .next t ∧ t.responses = s.responses ++ [okResponse [0x11, 0x22]] ∧
        writesPar .readPage = false ∧ writesWriteCursor .readPage = false ∧ writesOffset .readPage = false ∧
        inSession .readPage = false ∧ (t.handle s.curR).rpage = (s.handle s.curR).rpage + 1) ∧
    (let s := idleAt faulty (answersOf [1] ++ [.fault])
      ∃ t r, s.Inv ∧ exec .readPage s = .next t ∧ t.responses = s.responses ++ [r] ∧ r.err = some .busFault) ∧
    ∃ t r, (idleAt plain []).Inv ∧ exec (.seekW 3) (idleAt plain []) = .next t ∧
      t.responses = (idleAt plain []).responses ++ [r] ∧ writesOffset (.seekW 3) = false ∧ inSession (.seekW 3) = false :=
  ⟨⟨_, inv_of (by decide), rfl, by decide, by decide, by decide, by decide, by decide⟩,
    ⟨_, inv_of (by decide), rfl, by decide, by decide, by decide, by decide, by decide, by decide⟩,
    ⟨_, _, inv_of (by decide), rfl, rfl, rfl⟩, _, _, inv_of (by decide), rfl, rfl, by decide, by decide⟩

/-- The longest `WRITE_BYTE` that ends in `OK`, and one cut short by a fault. -/
theorem witness_EveryOperationTerminatesInBound :
    (midPage.Inv ∧ ∃ t, exec (.writeByte 0x22) midPage = .next t ∧ t.responses = midPage.responses ++ [okResponse []]) ∧
    ∃ t, (idleAt faulty [.fault]).Inv ∧ exec .startW (idleAt faulty [.fault]) = .next t ∧
      t.responses = (idleAt faulty [.fault]).responses ++ [errResponse .busFault 0] :=
  ⟨⟨inv_of (by decide), _, rfl, by decide⟩, _, inv_of (by decide), rfl, by decide⟩

/-- On a chip not known to be ready: `READ_PAGE`, `ERASE_RANGE` and a single frame; a `PAGE_ERASE` that ends in an error. With
`COMMIT_VARIANT` 1, on pages not known to be erased: a single commit, and a page end. And both bits set before. -/
theorem witness_HazardsAreRemembered :
    (let s := idleAt plain (answersOf [1, 2, 3, 4, 0, 0x80, 5, 6, 7, 8, 9, 0x11, 0x22])
      ∃ t r, s.Inv ∧ exec .readPage s = .next t ∧ t.responses = s.responses ++ [r] ∧ firstBusyFrame s .readPage = some 0 ∧
        ¬ turnedAway r ∧ (s.bus.chip 0).knownReady = false) ∧
    (let s := idleAt plain (answersOf [1, 2, 3, 4, 0, 0x80])
      ∃ t r, s.Inv ∧ exec (.eraseRange 1) s = .next t ∧ t.responses = s.responses ++ [r] ∧
        firstBusyFrame s (.eraseRange 1) = some 0 ∧ ¬ turnedAway r ∧ (s.bus.chip 0).knownReady = false) ∧
    (let s := idleAt plain (answersOf [1, 2, 3, 4])
      ∃ t r, s.Inv ∧ exec (.spiPageToBuf1 1 0) s = .next t ∧ t.responses = s.responses ++ [r] ∧
        firstBusyFrame s (.spiPageToBuf1 1 0) = some 1 ∧ ¬ turnedAway r ∧ (s.bus.chip 1).knownReady = false) ∧
    (let s := idleAt faulty [.fault]
      ∃ t r, s.Inv ∧ exec (.pageErase 1 0) s = .next t ∧ t.responses = s.responses ++ [r] ∧
        firstBusyFrame s (.pageErase 1 0) = some 1 ∧ ¬ turnedAway r ∧ (s.bus.chip 1).knownReady = false) ∧
    (let s := idleAt (tiny 2 true false) (answersOf [1, 2, 3, 4])
      ∃ t r, s.Inv ∧ exec (.spiBuf1CommitAlt 1 0) s = .next t ∧ t.responses = s.responses ++ [r] ∧ ¬ turnedAway r ∧
        (s.bus.chip (1 : ChipField).toNat).pageErased s.cfg (decodePage s.cfg 0) = false) ∧
    (let s := fillingAt (tiny 2 true false) [0x11] (answersOf [0, 0, 0x80, 0, 0, 0, 0, 0, 0, 0, 0])
      ∃ t r, s.Inv ∧ exec (.writeByte 0x22) s = .next t ∧ t.responses = s.responses ++ [r] ∧ s.cfg.commitVariant = true ∧
        (t.handle s.curW).wpage = (s.handle s.curW).wpage + 1 ∧ 1 < s.cfg.pageSize ∧
        (s.bus.chip s.curW).main.read? (mainAddr s.cfg (s.handle s.curW).wpage 1) ≠ some 0xFF) ∧
    let s := { idleAt plain [] with bus := { (idleAt plain []).bus with hazard := ⟨true, true⟩ } }
    s.Inv ∧ s.bus.hazard.unreadyFrame = true ∧ s.bus.hazard.unerasedCommit = true :=
  ⟨⟨_, _, inv_of (by decide), rfl, rfl, rfl, by simp [turnedAway], rfl⟩, ⟨_, _, inv_of (by decide), rfl, rfl, by decide, by simp [turnedAway], rfl⟩,
    ⟨_, _, inv_of (by decide), rfl, rfl, rfl, by simp [turnedAway], rfl⟩, ⟨_, _, inv_of (by decide), rfl, rfl, rfl, by simp [turnedAway], rfl⟩,
    ⟨_, _, inv_of (by decide), rfl, rfl, by simp [turnedAway], by decide⟩,
    ⟨_, _, inv_of (by decide), rfl, rfl, rfl, by decide, by decide, by decide⟩, inv_of (by decide), by decide⟩

/-! The reference chips. -/

/-- An erase, and a session that an abort ends: the array of the chip not written, then the buffers too. -/
theorem witness_MemoryChangesOnlyWhereStored :
    (let s := idleAt plain (answersOf [1, 2, 3, 4, 0, 0x80])
      ∃ t r, s.Inv ∧ exec (.pageErase 1 0) s = .next t ∧ t.responses = s.responses ++ [r] ∧ ¬ storesOn s (.pageErase 1 0) 0 ∧
        ¬ (inSession (.pageErase 1 0) = true ∧ aborts r)) ∧
    let s := fillingAt plain [7] (answersOf [9, 0, 0, 0, 0x7F])
    ∃ t r, s.Inv ∧ exec (.writeByte 1) s = .next t ∧ t.responses = s.responses ++ [r] ∧ ¬ storesOn s (.writeByte 1) 1 ∧ aborts r :=
  ⟨⟨_, _, inv_of (by decide), rfl, rfl, by simp [storesOn], by simp [inSession]⟩,
    _, _, inv_of (by decide), rfl, rfl, (by decide : ¬ (1 : Nat) = 0), .inl rfl⟩

/-- The field of the last page; and one that only the chip takes, not the block. -/
theorem witness_CommitFrameProgramsThePage :
    known.Inv ∧ known.idle = true ∧ (0 : ChipField).toNat < known.cfg.chips ∧ known.cfg.hasBusFault = false ∧
    (known.bus.chip (0 : ChipField).toNat).busy = false ∧
    (4095 < known.cfg.numPages ∧ (0x1FFE00 : AddrField) = encodePage known.cfg 4095) ∧
    decodePage known.cfg 0x1FFFFF = 4095 := ⟨inv_of (by decide), by decide⟩

theorem witness_TransferFrameLoadsTheBuffer :
    known.Inv ∧ known.idle = true ∧ (1 : ChipField).toNat < known.cfg.chips ∧ known.cfg.hasBusFault = false ∧
    (known.bus.chip (1 : ChipField).toNat).busy = false ∧
    (1 < known.cfg.numPages ∧ (0x000200 : AddrField) = encodePage known.cfg 1) := ⟨inv_of (by decide), by decide⟩

/-- The last page for the two erases that name one; the frame of each erase. -/
theorem witness_ErasesSetPagesToFF :
    (known.Inv ∧ known.idle = true ∧ (0 : ChipField).toNat < known.cfg.chips ∧ known.cfg.hasBusFault = false ∧
      (known.bus.chip (0 : ChipField).toNat).busy = false ∧ (4095 : ArgField).toNat < known.cfg.numPages ∧
      (0x1FFE00 : AddrField) = encodePage known.cfg 4095 ∧
      encode (.spiPageErase 0 0x1FFE00) = .frame 0 (opcPageErase :: addrBytes 0x1FFE00) ∧
      encode (.spiSectorErase 0 0x1FFE00) = .frame 0 (opcSectorErase :: addrBytes 0x1FFE00) ∧
      encode (.spiChipErase 0) = .frame 0 [0xC7, 0x94, 0x80, 0x9A]) ∧
    ∃ erased : Nat → Prop, ∀ x, erased x ↔ x / known.cfg.sectorPages = (4095 : ArgField).toNat / known.cfg.sectorPages :=
  ⟨⟨inv_of (by decide), by decide⟩, _, fun _ => Iff.rfl⟩

/-- A status frame that answers "ready" ends the poll. -/
theorem poll_ready {cfg : Config} {c : Nat} {b b' : Bus} {low : Byte} (hl : 1 ≤ cfg.pollLimit)
    (h : issue cfg c [opcStatusRead] 0 1 b = .ok [statusByte true low] b') : pollReady cfg c b = .ok () (b'.noteReady c) := by
  obtain ⟨k, hk⟩ : ∃ k, cfg.pollLimit = k + 1 := ⟨_, (Nat.sub_add_cancel hl).symm⟩
  have hr : ready (statusByte true low) = true := by simp [ready, statusByte]
  simp [pollReady, hk, pollLoop, statusRead, h, hr]

/-- One that answers "busy" ends a poll of one read. -/
theorem poll_busy {cfg : Config} {c : Nat} {b b' : Bus} {low : Byte} (hl : cfg.pollLimit = 1)
    (h : issue cfg c [opcStatusRead] 0 1 b = .ok [statusByte false low] b') : pollReady cfg c b = .raise .deviceTimeout c b' := by
  have hr : ready (statusByte false low) = false := by simp [ready, statusByte]
  simp [pollReady, hl, pollLoop, statusRead, h, hr]

/-- One page erased, the chip ready by its first status read. -/
theorem witness_EraseRangeErasesItsPages :
    let s := (idleAt plain []).finishing 0 [true]
    s.Inv ∧ s.idle = true ∧ (1 : ArgField).toNat ≤ s.cfg.chips * s.cfg.numPages ∧ s.cfg.hasBusFault = false ∧ s.bus.answers = [] ∧
    (∀ c, c < s.cfg.chips → (s.bus.chip c).busy = false) ∧
    ∃ t, exec (.eraseRange 1) s = .next t ∧ t.responses = s.responses ++ [okResponse []] := by
  refine ⟨inv_of (by decide), by decide, by decide, by decide, by decide, by decide, ?_⟩
  obtain ⟨b1, h1⟩ : ∃ b1, issueBusy plain 0 [0x81, 0, 0, 0] ((idleAt plain []).finishing 0 [true]).bus = .ok () b1 := ⟨_, rfl⟩
  have h2 : ∃ low b2, issue plain 0 [opcStatusRead] 0 1 b1 = .ok [statusByte true low] b2 := by
    cases h1
    exact ⟨_, _, rfl⟩
  obtain ⟨low, b2, h2⟩ := h2
  have h3 : eraseFrom plain 1 0 ((idleAt plain []).finishing 0 [true]).bus = .ok () (b2.noteReady 0) := by
    show ((issueBusy plain 0 [0x81, 0, 0, 0] _).andThen _).andThen _ = _
    rw [h1]
    show (pollReady plain 0 b1).andThen _ = _
    rw [poll_ready (by decide) h2]
    rfl
  refine ⟨_, rfl, ?_⟩
  show (State.conclude lowZero ((State.onBus (eraseFrom plain 1 0) _).andThen _)).responses = _
  rw [State.onBus, h3]
  rfl

/-- The address the block sends, `0`, meets the last hypothesis by `rfl`. -/
theorem witness_BufferWriteFrameStoresItsData :
    (known.Inv ∧ known.idle = true ∧ (0 : ChipField).toNat < known.cfg.chips ∧ known.cfg.hasBusFault = false ∧
      ([7, 8] : List Byte).length ≤ known.cfg.pageSize ∧ (known.bus.chip (0 : ChipField).toNat).busy = false) ∧
    let s := known.withChip 0 fun ch => { ch with busy := true, inUse := some .b }
    s.Inv ∧ s.idle = true ∧ (s.bus.chip 0).inUse ≠ some .a := ⟨⟨inv_of (by decide), by decide⟩, inv_of (by decide), by decide⟩

theorem witness_ChipsAnswerReads :
    known.Inv ∧ known.idle = true ∧ (0 : ChipField).toNat < known.cfg.chips ∧ known.cfg.hasBusFault = false ∧
    known.bus.answers = [] ∧ (known.bus.chip 0).busy = false := ⟨inv_of (by decide), by decide⟩

theorem witness_BusyChipIgnoresFrames :
    let s := known.withChip 0 fun ch => { ch with busy := true, inUse := some .a, finish := List.replicate 6 false ++ [true] }
    s.Inv ∧ s.idle = true ∧ (0 : ChipField).toNat < s.cfg.chips ∧ s.cfg.hasBusFault = false ∧
    (s.bus.chip (0 : ChipField).toNat).busy = true ∧
    (s.bus.chip (0 : ChipField).toNat).finish = List.replicate 6 false ++ [true] ∧
    1 < s.cfg.numPages ∧ (0x000200 : AddrField) = encodePage s.cfg 1 := ⟨inv_of (by decide), by decide⟩

theorem witness_WriteByteStoresOneByte :
    (let s := fillingAt plain [] [];
      s.Inv ∧ s.filling = true ∧ (s.handle s.curW).wpage < s.cfg.numPages ∧ s.soff + 1 < s.cfg.pageSize ∧
      s.cfg.hasBusFault = false ∧ (s.bus.chip s.curW).busy = false) ∧
    let s := (fillingAt plain [] []).withChip 0 fun ch => { ch with busy := true, inUse := some .b }
    s.Inv ∧ s.filling = true ∧ (s.bus.chip s.curW).inUse ≠ some (s.handle s.curW).par :=
  ⟨⟨inv_of (by decide), by decide⟩, inv_of (by decide), by decide⟩

/-- A `WRITE_BYTE` that ends a page, from the ends of its bus procedures. -/
theorem writeBody_of {s : State} {v : Byte} {b1 b2 b3 : Bus} (hc : s.curW < s.handles.length) (hP : ¬ s.soff + 1 < s.cfg.pageSize)
    (h1 : engSend s.curW v s = .ok () { s with bus := b1 })
    (h2 : pollReady s.cfg s.curW (b1.desel s.cfg s.curW) = .ok () b2)
    (h3 : issueBusy s.cfg s.curW (commitFrame s.cfg (s.handle s.curW).par (s.handle s.curW).wpage)
      (b2.noteCommit s.cfg s.curW (s.handle s.curW).wpage) = .ok () b3)
    (h4 : ∀ q, ∃ ins b4, transferBlock s.cfg (nextChip s.cfg s.curW) (openFrame q) (b3.sel (nextChip s.cfg s.curW)) = .ok ins b4) :
    ∃ t, writeBody v s = .ok [] t ∧ t.responses = s.responses := by
  have e2 : engCommit s.curW { s with bus := b1 } =
      .ok () { s with bus := b3, handles := s.handles.set s.curW (s.handle s.curW).committed } := by
    rw [engCommit_eq (s := { s with bus := b1 }) hc]
    simp only [h2, State.handle_bus, h3]
  simp only [writeBody, h1, Res.andThen_ok, if_neg hP, pageAdvance, e2, engOpen]
  obtain ⟨ins, b4, h4⟩ := h4 (State.handle { s with
    bus := b3
    handles := s.handles.set s.curW (s.handle s.curW).committed
    soff := 0
    curW := nextChip s.cfg s.curW } (nextChip s.cfg s.curW)).par
  rw [State.onBus_ok (f := fun b => transferBlock s.cfg (nextChip s.cfg s.curW) _ (b.sel (nextChip s.cfg s.curW))) h4]
  exact ⟨_, rfl, rfl⟩

/-- The same where the poll runs out. -/
theorem writeBody_of_raise {s : State} {v : Byte} {b1 b2 : Bus} {e : ErrorKind} {d : Nat} (hc : s.curW < s.handles.length)
    (hP : ¬ s.soff + 1 < s.cfg.pageSize) (h1 : engSend s.curW v s = .ok () { s with bus := b1 })
    (h2 : pollReady s.cfg s.curW (b1.desel s.cfg s.curW) = .raise e d b2) :
    ∃ t, writeBody v s = .raise e d t ∧ t.responses = s.responses := by
  have e2 : engCommit s.curW { s with bus := b1 } = .raise e d { engCloseFull s.curW { s with bus := b1 } with bus := b2 } := by
    rw [engCommit_eq (s := { s with bus := b1 }) hc]
    simp only [h2]
  simp only [writeBody, h1, Res.andThen_ok, if_neg hP, pageAdvance, e2]
  exact ⟨_, rfl, rfl⟩

/-- A `READ_PAGE`, from the end of its bus procedure. -/
theorem readBody_of {s : State} {data : List Byte} {b : Bus}
    (h : readProc s.cfg s.curR (s.handle s.curR).rpage s.bus = .ok data b) :
    ∃ t, readBody s = .ok data t ∧ t.responses = s.responses := by
  rw [readBody, engReadPage_eq, State.onBus_ok h]
  exact ⟨_, rfl, rfl⟩

/-- With ready chips a full page is committed. -/
theorem fullPage_ok : ∃ t, writeBody 8 (fillingAt plain [7] []) = .ok [] t ∧ t.responses = [] := by
  obtain ⟨b1, low, b2, b3, h1, h2, h3, h4⟩ : ∃ b1 low b2 b3,
      engSend 0 8 (fillingAt plain [7] []) = .ok () { fillingAt plain [7] [] with bus := b1 } ∧
      issue plain 0 [opcStatusRead] 0 1 (b1.desel plain 0) = .ok [statusByte true low] b2 ∧
      issueBusy plain 0 (commitFrame plain .a 0) ((b2.noteReady 0).noteCommit plain 0 0) = .ok () b3 ∧
      ∀ q, ∃ ins b4, transferBlock plain 1 (openFrame q) (b3.sel 1) = .ok ins b4 :=
    ⟨_, _, _, _, rfl, rfl, rfl, fun q => by cases q <;> exact ⟨_, _, rfl⟩⟩
  exact writeBody_of (s := fillingAt plain [7] []) (by decide) (by decide) h1 (poll_ready (cfg := plain) (by decide) h2) h3 h4

/-- The state of the timeout: chip 0 stays busy with its other buffer. -/
def stuckPage : State :=
  (fillingAt (tiny 1 false false) [7] []).withChip 0 fun ch =>
    { ch with busy := true, inUse := some .b, finish := List.replicate 9 false }

/-- With a busy chip it is not. -/
theorem fullPage_busy : ∃ t, writeBody 8 stuckPage = .raise .deviceTimeout 0 t ∧ t.responses = [] := by
  obtain ⟨b1, low, b2, h1, h2⟩ : ∃ b1 low b2,
      engSend 0 8 stuckPage = .ok () { stuckPage with bus := b1 } ∧
      issue (tiny 1 false false) 0 [opcStatusRead] 0 1 (b1.desel (tiny 1 false false) 0) = .ok [statusByte false low] b2 :=
    ⟨_, _, _, rfl, rfl⟩
  exact writeBody_of_raise (s := stuckPage) (by decide) (by decide) h1 (poll_busy (cfg := tiny 1 false false) rfl h2)

/-- A run that ends in `OK`, and one in `DeviceTimeout`. -/
theorem witness_WriteByteProgramsItsPage :
    (let s := fillingAt plain [7] [];
      s.Inv ∧ s.filling = true ∧ (s.handle s.curW).wpage < s.cfg.numPages ∧ s.soff + 1 = s.cfg.pageSize ∧
      s.cfg.hasBusFault = false ∧ s.bus.answers = [] ∧ (s.bus.chip s.curW).busy = false ∧
      ∃ t, exec (.writeByte 8) s = .next t ∧ t.responses = s.responses ++ [okResponse []]) ∧
    let s := stuckPage
    s.Inv ∧ s.filling = true ∧ (s.handle s.curW).wpage < s.cfg.numPages ∧ s.soff + 1 = s.cfg.pageSize ∧
      s.cfg.hasBusFault = false ∧ s.bus.answers = [] ∧ (s.bus.chip s.curW).inUse ≠ some (s.handle s.curW).par ∧
      ∃ t, exec (.writeByte 8) s = .next t ∧ t.responses = s.responses ++ [errResponse .deviceTimeout s.curW] := by
  refine ⟨⟨inv_of (by decide), by decide, by decide, by decide, by decide, by decide, by decide, ?_⟩,
    inv_of (by decide), by decide, by decide, by decide, by decide, by decide, by decide, ?_⟩
  · obtain ⟨t, ht, hr⟩ := fullPage_ok
    exact ⟨_, perform_ok (by decide) ht, by rw [hr]; rfl⟩
  · obtain ⟨t, ht, hr⟩ := fullPage_busy
    exact ⟨_, perform_raise (by decide) ht, by
      show t.responses ++ _ = _
      rw [hr]; rfl⟩

theorem witness_ReadPageReturnsTheStoredPage :
    let s := known.finishing 0 [true]
    s.Inv ∧ s.idle = true ∧ (s.handle s.curR).rpage < s.cfg.numPages ∧ s.cfg.hasBusFault = false ∧ s.bus.answers = [] ∧
    (s.bus.chip s.curR).busy = false ∧
    ∃ t r, exec .readPage s = .next t ∧ t.responses = s.responses ++ [r] ∧ r.err = none := by
  refine ⟨inv_of (by decide), by decide, by decide, by decide, by decide, by decide, ?_⟩
  have h1 : ∃ b1 low b2, issueBusy plain 0 [0x53, 0, 0, 0] (known.finishing 0 [true]).bus = .ok () b1 ∧
      issue plain 0 [opcStatusRead] 0 1 b1 = .ok [statusByte true low] b2 ∧
      ∃ data b3, issue plain 0 [0xD4, 0, 0, 0] 1 2 (b2.noteReady 0) = .ok data b3 := ⟨_, _, _, rfl, rfl, _, _, rfl⟩
  obtain ⟨b1, low, b2, h1, h2, data, b3, h3⟩ := h1
  have h4 : readProc plain 0 0 (known.finishing 0 [true]).bus = .ok data b3 := by
    unfold readProc
    rw [show issueBusy plain 0 (transferFrame plain 0) (known.finishing 0 [true]).bus = .ok () b1 from h1, Res.andThen_ok,
      poll_ready (by decide) h2, Res.andThen_ok]
    exact h3
  obtain ⟨t, ht, hr⟩ := readBody_of (s := known.finishing 0 [true]) h4
  exact ⟨_, _, perform_ok (by decide) ht, by rw [hr], rfl⟩

end Sys2Proof.Machine
end

section
/-! The scope: what a step is (R17, R291), and which instances exist (R12, R290). -/

namespace Sys2Proof.Machine

section Scope

variable {s t : State} {r : Request} {later : List Request} {i : Instr} {e : DecodeError} {es : List Event} {k : Nat}

/-! Serving one request. -/

theorem serve_of_decode (hd : decode r = .ok i) : serve r s = exec i s := by
  simp only [serve, hd]

theorem serve_of_decode_error (hd : decode r = .error e) :
    serve r s = .next { s with responses := s.responses ++ [errResponse .sequenceMisuse 0] } := by
  simp only [serve, hd]
  rfl

theorem takeRequest_nil (hp : s.pending = []) : takeRequest s = none := by
  simp only [takeRequest, hp]

theorem takeRequest_cons (hp : s.pending = r :: later) : takeRequest s = some (r, { s with pending := later }) := by
  simp only [takeRequest, hp]

theorem serveOldest_cons (hp : s.pending = r :: later) : serveOldest s = serve r { s with pending := later } := by
  simp only [serveOldest, takeRequest_cons hp]

theorem serveUntilReset_next (hp : s.pending = r :: later) (h : serve r { s with pending := later } = .next t) :
    serveUntilReset k s = .next (State.resetDuring k { s with pending := later } t) := by
  simp only [serveUntilReset, takeRequest_cons hp, h]

theorem serveUntilReset_refused {x : Refusal} (hp : s.pending = r :: later)
    (h : serve r { s with pending := later } = .refused x) : serveUntilReset k s = .refused x := by
  simp only [serveUntilReset, takeRequest_cons hp, h]

/-! A reset that comes during an operation. -/

theorem eventsSince_of_trace (h : t.bus.trace = s.bus.trace ++ es) : s.eventsSince t = es := by
  rw [State.eventsSince, h, List.drop_left]

theorem resetDuring_of_lt (h : t.bus.trace = s.bus.trace ++ es) (hk : k < es.length) :
    State.resetDuring k s t = State.cutOff k s t := by
  rw [State.resetDuring, eventsSince_of_trace h, if_pos hk]

theorem resetDuring_of_ge (h : t.bus.trace = s.bus.trace ++ es) (hk : es.length ≤ k) :
    State.resetDuring k s t = { t with resetIn := some (k - es.length) } := by
  rw [State.resetDuring, eventsSince_of_trace h, if_neg (Nat.not_lt.mpr hk)]

theorem resetDuring_of_no_event (h : t.bus.trace = s.bus.trace) (hr : t.resetIn = some k) :
    State.resetDuring k s t = t := by
  have hes : t.bus.trace = s.bus.trace ++ [] := by rw [h, List.append_nil]
  rw [resetDuring_of_ge hes (Nat.zero_le k), List.length_nil, Nat.sub_zero, ← hr]

/-! One step, by what is asked and by the reset that is coming. -/

theorem step_invalid (hv : s.cfg.valid = false) : step s = .fault .parameterOutOfRange := by
  simp [step, hv]

theorem step_waits (hv : s.cfg.valid = true) (hr : s.resetIn ≠ some 0) (hp : s.pending = []) : step s = .next s := by
  rcases hk : s.resetIn with _ | _ | k
  · simp only [step_running hv hk, serveOldest, takeRequest_nil hp]
  · exact absurd hk hr
  · simp only [step_until hv hk, serveUntilReset, takeRequest_nil hp]

theorem step_decoded (hv : s.cfg.valid = true) (hr : s.resetIn = none) (hp : s.pending = r :: later)
    (hd : decode r = .ok i) : step s = exec i { s with pending := later } := by
  rw [step_running hv hr, serveOldest_cons hp, serve_of_decode hd]

/-- A refusal makes no bus event, so a reset that is coming is still as far away. -/
theorem step_malformed (hv : s.cfg.valid = true) (hr : s.resetIn ≠ some 0) (hp : s.pending = r :: later)
    (hd : decode r = .error e) :
    step s = .next { s with pending := later, responses := s.responses ++ [errResponse .sequenceMisuse 0] } := by
  rcases hk : s.resetIn with _ | _ | k
  · rw [step_running hv hk, serveOldest_cons hp, serve_of_decode_error hd, ← hk]
  · exact absurd hk hr
  · rw [step_until hv hk, serveUntilReset_next hp (serve_of_decode_error hd), ← hk]
    exact congrArg _ (resetDuring_of_no_event rfl hk)

theorem step_until_refused {x : Refusal} (hv : s.cfg.valid = true) (hr : s.resetIn = some (k + 1))
    (hp : s.pending = r :: later) (hd : decode r = .ok i) (hx : exec i { s with pending := later } = .refused x) :
    step s = .refused x := by
  rw [step_until hv hr, serveUntilReset_refused hp ((serve_of_decode hd).trans hx)]

theorem step_until_next (hv : s.cfg.valid = true) (hr : s.resetIn = some (k + 1)) (hp : s.pending = r :: later)
    (hd : decode r = .ok i) (hx : exec i { s with pending := later } = .next t) :
    step s = .next (State.resetDuring (k + 1) { s with pending := later } t) := by
  rw [step_until hv hr, serveUntilReset_next hp ((serve_of_decode hd).trans hx)]

end Scope

/-- Settles O5: one clause for each way the parameters, the reset that is coming and the oldest request can stand. -/
theorem stepRunsDecodedInstruction : Obligations.StepRunsDecodedInstruction := by
  unfold Obligations.StepRunsDecodedInstruction
  refine fun s => ⟨?runs, ?malformed, ?waits, ?reset, ?during, ?invalid⟩
  case runs => exact fun hv hr r later i hp hd => step_decoded hv hr hp hd
  case malformed => exact fun hv hr r later e hp hd => step_malformed hv hr hp hd
  case waits => exact fun hv hr hp => step_waits hv hr hp
  case reset => exact fun hv hr => step_reset hv hr
  case during =>
    intro hv k r later i hr hp hd
    refine ⟨fun x hx => step_until_refused hv hr hp hd hx, fun t es hx htr => ⟨fun hlt => ?cut, fun hge => ?ends⟩⟩
    case cut => exact (step_until_next hv hr hp hd hx).trans (congrArg _ (resetDuring_of_lt htr hlt))
    case ends => exact (step_until_next hv hr hp hd hx).trans (congrArg _ (resetDuring_of_ge htr hge))
  case invalid => exact fun hv => step_invalid hv

theorem construct_eq_some_iff {cfg : Config} {s : State} :
    State.construct cfg = some s ↔ cfg.valid = true ∧ s = State.resetWith cfg := by
  rw [State.construct, Option.ite_none_right_eq_some, Option.some.injEq, eq_comm (a := s)]

/-- Settles O10: construction succeeds on valid parameters, and those are the ones that meet the bounds. -/
theorem parametersAreValidatedAtConstruction : Obligations.ParametersAreValidatedAtConstruction := by
  unfold Obligations.ParametersAreValidatedAtConstruction
  intro cfg s
  rw [construct_eq_some_iff, config_valid_iff]

end Sys2Proof.Machine
end

section
/-! The invariant of the block (R31 to R33) and the access matrix (R41): what one instruction does to each register, then what one
step keeps. -/

namespace Sys2Proof.Machine

/-! Reading the banks of a state whose list of banks is known. -/

section Banks

variable {s w : State} {β : Type} {g : Handle → β} {c d : Nat} {x : Handle}

theorem handle_congr (h : w.handles = s.handles) (c : Nat) : w.handle c = s.handle c := by
  simp only [State.handle, h]

theorem handle_set (h : w.handles = s.handles.set d x) (hd : d < s.handles.length) (c : Nat) :
    w.handle c = if c = d then x else s.handle c :=
  (handle_congr (s := { s with handles := s.handles.set d x }) h c).trans (handle_of_set hd)

theorem handle_map {f : Handle → Handle} (h : w.handles = s.handles.map f) (hc : c < s.handles.length) :
    w.handle c = f (s.handle c) :=
  (handle_congr (s := { s with handles := s.handles.map f }) h c).trans (handle_of_map f hc)

theorem exists_handle (h : x ∈ s.handles) : ∃ c, c < s.handles.length ∧ s.handle c = x := by
  obtain ⟨c, hc, rfl⟩ := List.mem_iff_getElem.1 h
  exact ⟨c, hc, State.handle_of_getElem? (List.getElem?_eq_getElem hc)⟩

/-- A field of the banks that a write of bank `d` leaves as it is. -/
theorem field_set (h : w.handles = s.handles.set d x) (hd : d < s.handles.length) (hx : g x = g (s.handle d)) (c : Nat) :
    g (w.handle c) = g (s.handle c) := by
  rw [handle_set h hd]
  split
  · next e => rw [e, hx]
  · rfl

/-- A field of the banks that a change of every bank leaves as it is. -/
theorem field_mapIdx {f : Nat → Handle → Handle} (h : w.handles = s.handles.mapIdx f) (hf : ∀ c x, g (f c x) = g x)
    (c : Nat) : g (w.handle c) = g (s.handle c) := by
  simp only [State.handle, h, List.getElem?_mapIdx]
  cases s.handles[c]? with
  | none => rfl
  | some y => exact hf c y

theorem field_map {f : Handle → Handle} (h : w.handles = s.handles.map f) (hf : ∀ x, g (f x) = g x) (c : Nat) :
    g (w.handle c) = g (s.handle c) := by
  simp only [State.handle, h, List.getElem?_map]
  cases s.handles[c]? with
  | none => rfl
  | some y => exact hf y

end Banks

/-! The two phases between operations (R32, R33), bank by bank. -/

/-- R32, R33: the Idle block: every engine Idle, every offset 0, no select asserted. -/
def State.AtRest (s : State) : Prop :=
  (∀ c, c < s.cfg.chips → (s.handle c).est = .idle ∧ (s.handle c).off = 0) ∧ s.soff = 0 ∧ s.bus.cs = none

/-- R32, R33, R104: the Filling block: every engine Filling, the select of `curW` asserted, `soff` bytes on its open frame and
none on any other chip. -/
def State.MidSession (s : State) : Prop :=
  (∀ c, c < s.cfg.chips → (s.handle c).est = .filling ∧ (s.handle c).off = if c = s.curW then s.soff else 0) ∧
  s.soff < s.cfg.pageSize ∧ s.bus.cs = some s.curW ∧ s.Heard

/-- R22, R23, R26, R27: every cursor is in its range. -/
def State.CursorsInRange (s : State) : Prop :=
  s.curW < s.cfg.chips ∧ s.curR < s.cfg.chips ∧
  ∀ c, c < s.cfg.chips → (s.handle c).wpage ≤ s.cfg.numPages ∧ (s.handle c).rpage ≤ s.cfg.numPages

section Parts

variable {s : State}

theorem State.Inv.shaped (h : s.Inv) : s.bus.Shaped s.cfg.chips := ⟨h.devices, h.canonical⟩

theorem State.Inv.pageSize_pos (h : s.Inv) : 0 < s.cfg.pageSize := Nat.zero_lt_of_lt h.soff_lt

theorem State.Inv.bank_lt (h : s.Inv) {c : Nat} (hc : c < s.cfg.chips) : c < s.handles.length := h.banks.symm ▸ hc

theorem State.Inv.atRest (h : s.Inv) (hi : s.idle = true) : s.AtRest := by
  have hs := h.rest_soff (h.resting hi)
  exact ⟨fun c hc => ⟨State.idle_iff.1 hi _ (h.mem_handle hc), h.off_of_soff hs c⟩, hs, (h.resting hi).2⟩

theorem State.Inv.midSession (h : s.Inv) (hf : s.filling = true) : s.MidSession := by
  refine ⟨fun c hc => ⟨State.filling_iff.1 hf _ (h.mem_handle hc), ?_⟩, h.soff_lt, (h.streaming hf).2.1, h.heard⟩
  split
  · next e => rw [e, h.soff_eq]
  · next e => exact h.parked c hc e

theorem State.Inv.atRest_or_midSession (h : s.Inv) : s.AtRest ∨ s.MidSession :=
  h.idle_or_filling.imp h.atRest h.midSession

/-- R32: with no select asserted the block is Idle. -/
theorem State.Inv.idle_of_no_select (h : s.Inv) (hcs : s.bus.cs = none) : s.idle = true :=
  h.idle_or_filling.resolve_right fun hf => by
    have hsel := (h.streaming hf).2.1
    rw [hcs] at hsel
    cases hsel

theorem State.Inv.est_of_idle (h : s.Inv) (hi : s.idle = true) (c : Nat) : (s.handle c).est = .idle := by
  by_cases hc : c < s.cfg.chips
  · exact ((h.atRest hi).1 c hc).1
  · have hnone : s.handles[c]? = none := List.getElem?_eq_none_iff.2 (by rw [h.banks]; omega)
    simp [State.handle, hnone, Handle.reset]

theorem State.Inv.cursorsInRange (h : s.Inv) : s.CursorsInRange := by
  refine ⟨h.curW_lt, h.curR_lt, fun c hc => ?_⟩
  obtain ⟨hw, hr, -⟩ := h.ranges _ (h.mem_handle hc)
  exact ⟨hw, hr⟩

/-- The invariant from its parts, in the Idle block. -/
theorem State.AtRest.inv (h : s.AtRest) (hv : s.cfg.valid = true) (hb : s.handles.length = s.cfg.chips)
    (hc : s.CursorsInRange) (hd : s.bus.Shaped s.cfg.chips) : s.Inv := by
  obtain ⟨hbank, hsoff, hcs⟩ := h
  obtain ⟨hW, hR, hcur⟩ := hc
  refine inv_idle hv hb hd.1 hW hR (fun x hx => ?_) hsoff hcs hd.2
  obtain ⟨c, hc, rfl⟩ := exists_handle hx
  rw [hb] at hc
  exact ⟨(hcur c hc).1, (hcur c hc).2, (hbank c hc).2, (hbank c hc).1⟩

/-- The invariant from its parts, in a write session. -/
theorem State.MidSession.inv (h : s.MidSession) (hv : s.cfg.valid = true) (hb : s.handles.length = s.cfg.chips)
    (hc : s.CursorsInRange) (hd : s.bus.Shaped s.cfg.chips) : s.Inv := by
  obtain ⟨hbank, hsoff, hcs, hheard⟩ := h
  obtain ⟨hW, hR, hcur⟩ := hc
  have bank : ∀ x ∈ s.handles, ∃ c, c < s.cfg.chips ∧ s.handle c = x := hb ▸ fun x hx => exists_handle hx
  refine ⟨hv, hb, hd.1, hW, hR, fun x hx => ?ranges, hsoff, .inr ⟨fun x hx => ?filling, hcs, hheard _ hcs⟩,
    by rw [(hbank _ hW).2, if_pos rfl], fun c hc hne => by rw [(hbank c hc).2, if_neg hne],
    fun hr => absurd (hr.2.symm.trans hcs) (by simp), hd.2⟩
  case ranges =>
    obtain ⟨c, hc, rfl⟩ := bank x hx
    refine ⟨(hcur c hc).1, (hcur c hc).2, ?_⟩
    rw [(hbank c hc).2]
    split <;> omega
  case filling =>
    obtain ⟨c, hc, rfl⟩ := bank x hx
    exact (hbank c hc).1

end Parts

/-- R35: cursors of which the one of chip `d`, below its bound, moves by 1. -/
theorem moved_by_one {f g : Nat → Nat} {d m : Nat} (hp : ∀ c, f c = g c + if c = d then 1 else 0) (hlt : g d < m) (c : Nat) :
    f c = g c ∨ c = d ∧ f c = g c + 1 ∧ f c ≤ m := by
  have hc := hp c
  split at hc
  · next e => exact .inr ⟨e, hc, by rw [hc, e]; exact hlt⟩
  · exact .inl hc

/-! What an operation that answers `OK` leaves, register by register (R41). -/

section OkRegs

variable {s w : State} {i : Instr} {data : List Byte}

theorem ready_idle (hn : inSession i = false) (h : Ready s i) : s.idle = true := by
  cases i with
  | startW => cases hn
  | writeByte v => cases hn
  | endW => cases hn
  | readPage => exact h.1
  | seekW l => exact h.1
  | seekR l => exact h.1
  | _ => exact h

theorem ready_soff (hI : s.Inv) (hn : writesOffset i = false) (h : Ready s i) : s.soff = 0 := by
  cases i with
  | writeByte v => cases hn
  | endW => exact h.2
  | startW => exact (hI.atRest h).2.1
  | _ => exact (hI.atRest (ready_idle rfl h)).2.1

theorem okRegs_unlisted (h : OkRegs s data i w) : w.cfg = s.cfg ∧ w.resetIn = s.resetIn ∧ w.past = s.past := by
  cases i with
  | writeByte v => rcases h with ⟨-, h, -⟩ | ⟨-, h, -⟩ <;> rw [h] <;> exact ⟨rfl, rfl, rfl⟩
  | _ => rw [h.1]; exact ⟨rfl, rfl, rfl⟩

theorem okRegs_cs (hn : inSession i = false) (h : OkRegs s data i w) : w.bus.cs = none := by
  cases i with
  | startW => cases hn
  | writeByte v => cases hn
  | _ => exact h.2

theorem okRegs_offsets (hI : s.Inv) (hn : writesOffset i = false) (h : OkRegs s data i w) :
    w.soff = s.soff ∧ ∀ c, (w.handle c).off = (s.handle c).off := by
  cases i with
  | writeByte v => cases hn
  | startW => exact ⟨by rw [h.1], field_map (congrArg State.handles h.1) fun _ => rfl⟩
  | endW => exact ⟨by rw [h.1], field_map (congrArg State.handles h.1) fun _ => rfl⟩
  | readPage =>
    exact ⟨by rw [h.1], field_set (congrArg State.handles h.1) (hI.bank_lt hI.curR_lt) rfl⟩
  | seekW l => exact ⟨by rw [h.1], field_mapIdx (congrArg State.handles h.1) fun _ _ => rfl⟩
  | seekR l => exact ⟨by rw [h.1], field_mapIdx (congrArg State.handles h.1) fun _ _ => rfl⟩
  | _ => exact ⟨by rw [h.1], fun c => congrArg Handle.off (handle_congr (congrArg State.handles h.1) c)⟩

theorem okRegs_est (hI : s.Inv) (hn : writesEngineState i = false) (hr : Ready s i) (h : OkRegs s data i w) (c : Nat) :
    (w.handle c).est = (s.handle c).est := by
  cases i with
  | startW => cases hn
  | endW => cases hn
  | writeByte v =>
    have hbank := hI.bank_lt hI.curW_lt
    have hfill : (s.handle s.curW).est = .filling := ((hI.midSession hr.1).1 _ hI.curW_lt).1
    rcases h with ⟨-, h, -⟩ | ⟨-, h, -⟩
    · exact field_set (congrArg State.handles h) hbank rfl c
    · exact field_set (congrArg State.handles h) hbank hfill.symm c
  | readPage => exact field_set (congrArg State.handles h.1) (hI.bank_lt hI.curR_lt) rfl c
  | seekW l => exact field_mapIdx (congrArg State.handles h.1) (fun _ _ => rfl) c
  | seekR l => exact field_mapIdx (congrArg State.handles h.1) (fun _ _ => rfl) c
  | _ => exact congrArg Handle.est (handle_congr (congrArg State.handles h.1) c)

/-- R32, R33: outside a write session the block stays Idle. -/
theorem okRegs_atRest (hI : s.Inv) (hn : inSession i = false) (ho : writesOffset i = false) (he : writesEngineState i = false)
    (hr : Ready s i) (h : OkRegs s data i w) : w.AtRest := by
  obtain ⟨hrest, hsoff, -⟩ := hI.atRest (ready_idle hn hr)
  obtain ⟨hws, hwo⟩ := okRegs_offsets hI ho h
  refine ⟨fun c hc => ?_, hws.trans hsoff, okRegs_cs hn h⟩
  rw [(okRegs_unlisted h).1] at hc
  exact ⟨(okRegs_est hI he hr h c).trans (hrest c hc).1, (hwo c).trans (hrest c hc).2⟩

theorem startW_midSession (hI : s.Inv) (hr : Ready s .startW) (h : OkRegs s data .startW w) (hh : w.Heard) :
    w.MidSession := by
  have hcfg := (okRegs_unlisted h).1
  obtain ⟨hws, hwo⟩ := okRegs_offsets hI rfl h
  obtain ⟨hw, hcs⟩ := h
  have hs : w.soff = 0 := hws.trans (ready_soff hI rfl hr)
  have hcur : w.curW = s.curW := by rw [hw]
  refine ⟨fun c hc => ⟨?_, ?_⟩, by rw [hs, hcfg]; exact hI.pageSize_pos, hcur ▸ hcs, hh⟩
  · rw [hcfg] at hc
    rw [handle_map (congrArg State.handles hw) (hI.bank_lt hc)]
    rfl
  · rw [hwo, hI.off_of_soff (hws ▸ hs), hs, ite_self]

theorem writeByte_midSession (hI : s.Inv) {v : Byte} (hr : Ready s (.writeByte v)) (h : OkRegs s data (.writeByte v) w)
    (hh : w.Heard) : w.MidSession := by
  have hcfg := (okRegs_unlisted h).1
  have hbank := hI.bank_lt hI.curW_lt
  have hest : ∀ c, c < w.cfg.chips → (w.handle c).est = .filling := fun c hc =>
    (okRegs_est hI rfl hr h c).trans ((hI.midSession hr.1).1 c (hcfg ▸ hc)).1
  rcases h with ⟨hlt, hw, hcs⟩ | ⟨-, hw, hcs⟩
  · have hcur : w.curW = s.curW := by rw [hw]
    have hs : w.soff = s.soff + 1 := congrArg State.soff hw
    refine ⟨fun c hc => ⟨hest c hc, ?_⟩, by rw [hs, hcfg]; exact hlt, hcur ▸ hcs, hh⟩
    rw [handle_set (congrArg State.handles hw) hbank, hs, hcur, hI.soff_eq]
    split
    · rfl
    · next hne => exact hI.off_of_ne hne
  · have hcur : w.curW = nextChip s.cfg s.curW := by rw [hw]
    have hs : w.soff = 0 := congrArg State.soff hw
    refine ⟨fun c hc => ⟨hest c hc, ?_⟩, by rw [hs, hcfg]; exact hI.pageSize_pos, hcur ▸ hcs, hh⟩
    rw [handle_set (congrArg State.handles hw) hbank, hs, ite_self]
    split
    · rfl
    · next hne => exact hI.off_of_ne hne

theorem endW_atRest (hI : s.Inv) (hr : Ready s .endW) (h : OkRegs s data .endW w) : w.AtRest := by
  have hcfg := (okRegs_unlisted h).1
  obtain ⟨hws, hwo⟩ := okRegs_offsets hI rfl h
  refine ⟨fun c hc => ⟨?_, (hwo c).trans (hI.off_of_soff hr.2 c)⟩, hws.trans hr.2, h.2⟩
  rw [hcfg] at hc
  rw [handle_map (congrArg State.handles h.1) (hI.bank_lt hc)]
  rfl

/-- R32, R33, R104: an operation that answers `OK` leaves the block Idle or in a write session. -/
theorem okRegs_phase (hI : s.Inv) (hr : Ready s i) (h : OkRegs s data i w) (hh : w.Heard) : w.AtRest ∨ w.MidSession := by
  cases i with
  | startW => exact .inr (startW_midSession hI hr h hh)
  | writeByte v => exact .inr (writeByte_midSession hI hr h hh)
  | endW => exact .inl (endW_atRest hI hr h)
  | _ => exact .inl (okRegs_atRest hI rfl rfl rfl hr h)

end OkRegs

/-! What an operation that fails starts its abort from (R256). -/

section ErrBase

variable {s base : State} {i : Instr}

theorem errBase_unlisted (h : ErrBase s i base) :
    base.handles.length = s.handles.length ∧ base.resetIn = s.resetIn ∧ base.past = s.past := by
  cases i with
  | startW => rw [show base = _ from h]; exact ⟨List.length_map _, rfl, rfl⟩
  | writeByte v =>
    rcases h with rfl | ⟨-, rfl⟩
    · exact ⟨rfl, rfl, rfl⟩
    · exact ⟨List.length_set, rfl, rfl⟩
  | _ => rw [show base = s from h]; exact ⟨rfl, rfl, rfl⟩

/-- R256: an abort leaves the Idle block. -/
theorem aborted_atRest {b : Bus} (hb : base.handles.length = base.cfg.chips) (hcs : b.cs = none) :
    (base.aborted b).AtRest := by
  refine ⟨fun c hc => ?_, rfl, hcs⟩
  rw [handle_map (s := base) (w := base.aborted b) rfl (hb ▸ hc)]
  exact ⟨rfl, rfl⟩

end ErrBase

/-! What an instruction leaves of each part of the invariant. -/

section Exec

variable {s t : State} {i : Instr}

theorem exec_shaped (hI : s.Inv) (h : exec i s = .next t) : t.bus.Shaped s.cfg.chips :=
  (exec_closed (fun c => closed_shape s.cfg s.cfg.chips c) hI.shaped h).1

/-- R22, R26: the write cursors. -/
theorem exec_writeCursors_inRange (hI : s.Inv) (h : exec i s = .next t) :
    t.curW < s.cfg.chips ∧ ∀ c, c < s.cfg.chips → (t.handle c).wpage ≤ s.cfg.numPages := by
  obtain ⟨hW, -, hcur⟩ := hI.cursorsInRange
  obtain ⟨-, -, -, hw, -⟩ := exec_cursors hI h
  rcases hw with ⟨hk, hp⟩ | ⟨-, hlt, -, hk, hp⟩ | ⟨l, -, hl, hk, hp⟩
  · exact ⟨hk ▸ hW, fun c hc => hp c ▸ (hcur c hc).1⟩
  · exact ⟨hk ▸ Nat.mod_lt _ hI.chips_pos, fun c hc =>
      (moved_by_one hp hlt c).elim (fun e => e ▸ (hcur c hc).1) fun hm => hm.2.2⟩
  · exact ⟨hk ▸ Nat.mod_lt _ hI.chips_pos, fun c hc => hp c hc ▸ cursorAt_le hl hc⟩

/-- R23, R27: the read cursors. -/
theorem exec_readCursors_inRange (hI : s.Inv) (h : exec i s = .next t) :
    t.curR < s.cfg.chips ∧ ∀ c, c < s.cfg.chips → (t.handle c).rpage ≤ s.cfg.numPages := by
  obtain ⟨-, hR, hcur⟩ := hI.cursorsInRange
  obtain ⟨-, -, -, -, hr, -⟩ := exec_cursors hI h
  rcases hr with ⟨hk, hp⟩ | ⟨-, hlt, hk, hp⟩ | ⟨l, -, hl, hk, hp⟩
  · exact ⟨hk ▸ hR, fun c hc => hp c ▸ (hcur c hc).2⟩
  · exact ⟨hk ▸ Nat.mod_lt _ hI.chips_pos, fun c hc =>
      (moved_by_one hp hlt c).elim (fun e => e ▸ (hcur c hc).2) fun hm => hm.2.2⟩
  · exact ⟨hk ▸ Nat.mod_lt _ hI.chips_pos, fun c hc => hp c hc ▸ cursorAt_le hl hc⟩

theorem exec_cursorsInRange (hI : s.Inv) (h : exec i s = .next t) : t.CursorsInRange := by
  obtain ⟨hW, hw⟩ := exec_writeCursors_inRange hI h
  obtain ⟨hR, hr⟩ := exec_readCursors_inRange hI h
  rw [State.CursorsInRange, (exec_cursors hI h).1]
  exact ⟨hW, hR, fun c hc => ⟨hw c hc, hr c hc⟩⟩

/-- R32, R33: every instruction, however it ends, leaves the block Idle or in a write session. -/
theorem exec_phase (hI : s.Inv) (h : exec i s = .next t) : t.AtRest ∨ t.MidSession := by
  cases exec_outcome hI h with
  | refused e _ _ ht =>
    subst ht
    exact hI.atRest_or_midSession
  | answered data w hr hregs _ hheard _ ht =>
    have hw : w.AtRest ∨ w.MidSession := okRegs_phase hI hr hregs hheard
    subst ht
    exact hw
  | failed e c base _ _ _ _ _ hbase hcs _ ht _ =>
    have hb : base.handles.length = base.cfg.chips := by
      rw [(errBase_unlisted hbase).1, hI.banks, (errBase_same hbase).2]
    have hrest : (base.aborted t.bus).AtRest := aborted_atRest hb hcs
    rw [ht]
    exact .inl hrest

/-- R31 to R33: every instruction keeps the invariant. -/
theorem exec_inv (hI : s.Inv) (h : exec i s = .next t) : t.Inv := by
  obtain ⟨hcfg, -, hlen, -⟩ := exec_cursors hI h
  have hv : t.cfg.valid = true := hcfg ▸ hI.valid
  have hb : t.handles.length = t.cfg.chips := by rw [hlen, hI.banks, hcfg]
  have hc : t.CursorsInRange := exec_cursorsInRange hI h
  have hd : t.bus.Shaped t.cfg.chips := hcfg ▸ exec_shaped hI h
  exact (exec_phase hI h).elim (fun hp => hp.inv hv hb hc hd) fun hp => hp.inv hv hb hc hd

end Exec

/-- Settles O13: an instruction keeps the parts of the invariant one by one, a reset sets them up anew. -/
theorem stepKeepsInvariant : Obligations.StepKeepsInvariant := by
  unfold Obligations.StepKeepsInvariant
  intro s t hI h
  refine step_keeps (P := State.Inv) (fun hs => ?reset) (fun k w u hw _ => ?cut) (fun w p r k hw => ?congr)
    (fun i w u hw _ hx => exec_inv hw hx) hI.valid hI h
  case reset => exact blockReset_inv hs.valid hs.shaped
  case cut => exact cutOff_inv hw.valid hw.shaped k
  case congr => exact inv_congr hw p r w.stream k w.past

end Sys2Proof.Machine
end

section
/-! The round-robin shape of the cursors (R40), the order on the bus (R29, R101, R107 to R110), and the state right after reset
(R39), which meets every invariant. -/

namespace Sys2Proof.Machine

section Shape

variable {s t : State} {i : Instr}

/-- R40, R41: a page end moves the write cursors one logical page on, a seek sets them to one. -/
theorem exec_writeShape (hI : s.Inv) (h : exec i s = .next t) (hs : ∃ k, s.WriteShape k) : ∃ k, t.WriteShape k := by
  obtain ⟨k, hk⟩ := hs
  obtain ⟨hcfg, -, -, hw, -⟩ := exec_cursors hI h
  rcases hw with ⟨hcur, hp⟩ | ⟨-, hlt, -, hcur, hp⟩ | ⟨l, -, hl, hcur, hp⟩
  · exact ⟨k, writeShape_congr hk hcfg hcur fun c _ => hp c⟩
  · exact ⟨k + 1, writeShape_commit hI hk hlt hcfg hcur fun c _ => hp c⟩
  · exact ⟨l.toNat, by rw [State.WriteShape, hcfg]; exact ⟨hl, hcur, hp⟩⟩

/-- R40, R41: the same of a page read, and of a seek on the read side. -/
theorem exec_readShape (hI : s.Inv) (h : exec i s = .next t) (hs : ∃ k, s.ReadShape k) : ∃ k, t.ReadShape k := by
  obtain ⟨k, hk⟩ := hs
  obtain ⟨hcfg, -, -, -, hr, -⟩ := exec_cursors hI h
  rcases hr with ⟨hcur, hp⟩ | ⟨-, hlt, hcur, hp⟩ | ⟨l, -, hl, hcur, hp⟩
  · exact ⟨k, readShape_congr hk hcfg hcur fun c _ => hp c⟩
  · exact ⟨k + 1, readShape_read hI hk hlt hcfg hcur fun c _ => hp c⟩
  · exact ⟨l.toNat, by rw [State.ReadShape, hcfg]; exact ⟨hl, hcur, hp⟩⟩

theorem exec_roundRobin (hI : s.Inv) (h : exec i s = .next t) (hs : s.RoundRobin) : t.RoundRobin :=
  ⟨exec_writeShape hI h hs.1, exec_readShape hI h hs.2⟩

end Shape

/-- A property of the state that reset sets up and every instruction keeps where the invariant holds is kept by every step. The
queue, the responses and a reset to come are no part of it. -/
theorem step_keeps_with_inv {P : State → Prop} {s t : State} (hreset : ∀ w : State, w.cfg.valid = true → P w.blockReset)
    (hcongr : ∀ w p r k, P w → P { w with pending := p, responses := r, resetIn := k })
    (hexec : ∀ i w u, w.Inv → P w → exec i w = .next u → P u) (hI : s.Inv) (hs : P s) (h : step s = .next t) : P t := by
  suffices hboth : t.Inv ∧ P t from hboth.2
  refine step_keeps (P := fun w => w.Inv ∧ P w) (fun hw => ?reset) (fun k w u hw _ => ?cut) (fun w p r k hw => ?congr)
    (fun i w u hw _ hx => ⟨exec_inv hw.1 hx, hexec i w u hw.1 hw.2 hx⟩) hI.valid ⟨hI, hs⟩ h
  case reset => exact ⟨blockReset_inv hw.1.valid hw.1.shaped, hreset s hw.1.valid⟩
  case cut => exact ⟨cutOff_inv hw.1.valid hw.1.shaped k, hreset _ hw.1.valid⟩
  case congr => exact ⟨inv_congr hw.1 p r w.stream k w.past, hcongr w p r k hw.2⟩

/-- Settles O14: by what an instruction does to the cursors; a reset puts both sets at logical page 0. -/
theorem stepKeepsRoundRobinShape : Obligations.StepKeepsRoundRobinShape := by
  unfold Obligations.StepKeepsRoundRobinShape
  intro s t hI hs h
  exact step_keeps_with_inv blockReset_shape (fun _ _ _ _ hw => hw) (fun _ _ _ hw hp hx => exec_roundRobin hw hx hp) hI hs h

/-! The bus monitor. -/

section Orderly

variable {s t : State} {i : Instr}

/-- R29: what the events of an operation add to a trace the monitor has accepted. -/
theorem busOrderly_of_traced {n : Nat} {m m' : Monitor} (hcfg : t.cfg = s.cfg) (hm : Monitor.run s.cfg .free s.bus.trace = some m)
    (h : Traced s.cfg n m m' s.bus t.bus) (hm' : t.MonitorAt m') : t.BusOrderly := by
  obtain ⟨es, htrace, -, hrun⟩ := h
  refine State.busOrderly_iff.2 ⟨m', hm', ?_⟩
  rw [hcfg, htrace]
  exact Monitor.run_trans hm hrun

/-- R101, R107 to R110, R160: every instruction, however it ends, puts only whole frames and frames cut by a fault on the bus. -/
theorem exec_busOrderly (hI : s.Inv) (h : exec i s = .next t) (hs : s.BusOrderly) : t.BusOrderly := by
  have hcfg : t.cfg = s.cfg := (exec_cursors hI h).1
  obtain ⟨m, hm, hrun⟩ := State.busOrderly_iff.1 hs
  cases exec_outcome hI h with
  | refused e _ _ ht =>
    rw [ht]
    exact hs
  | answered data w _ _ _ _ hmoved ht =>
    obtain ⟨m', hm', htr⟩ := hmoved m hm
    subst ht
    exact busOrderly_of_traced hcfg hrun htr hm'
  | failed e c base _ _ _ _ _ _ hcs hmoved _ _ =>
    exact busOrderly_of_traced hcfg hrun (hmoved m hm) ((State.monitorAt_none hcs).2 rfl)

end Orderly

/-- Settles O15: the monitor follows every instruction from where it stood; after a reset it starts anew. -/
theorem stepKeepsBusOrderly : Obligations.StepKeepsBusOrderly := by
  unfold Obligations.StepKeepsBusOrderly
  intro s t hI hs h
  exact step_keeps_with_inv (fun _ _ => rfl) (fun _ _ _ _ hw => hw) (fun _ _ _ hw hp hx => exec_busOrderly hw hx hp) hI hs h

/-! Right after reset. -/

section Reset

variable {cfg : Config}

theorem resetWith_handle (cfg : Config) (c : Nat) : (State.resetWith cfg).handle c = Handle.reset := by
  simp only [State.handle, State.resetWith, List.getElem?_replicate]
  split <;> rfl

theorem resetWith_shaped (cfg : Config) : (State.resetWith cfg).bus.Shaped cfg.chips := by
  refine ⟨by simp [State.resetWith], fun ch hch => ?_⟩
  obtain ⟨c, -, rfl⟩ := List.mem_map.1 hch
  exact Chip.canonical_reset c

theorem resetWith_inv (hv : cfg.valid = true) : (State.resetWith cfg).Inv := by
  have hN : 0 < cfg.chips := (config_valid_iff.1 hv).1.1
  have hrest : (State.resetWith cfg).AtRest := ⟨fun c _ => by rw [resetWith_handle]; exact ⟨rfl, rfl⟩, rfl, rfl⟩
  refine hrest.inv hv List.length_replicate ⟨hN, hN, fun c _ => ?_⟩ (resetWith_shaped cfg)
  rw [resetWith_handle]
  exact ⟨Nat.zero_le _, Nat.zero_le _⟩

/-- The registers are those of a reset in place (R39, R291). -/
theorem resetWith_roundRobin (hv : cfg.valid = true) : (State.resetWith cfg).RoundRobin :=
  blockReset_shape (State.resetWith cfg) hv

theorem resetWith_knownReadyHonest (cfg : Config) : (State.resetWith cfg).KnownReadyHonest := by
  refine ⟨rfl, fun ch hch hk => ?_⟩
  obtain ⟨c, -, rfl⟩ := List.mem_map.1 hch
  cases hk

end Reset

/-- Settles O12: every register has its reset value, the trace is empty, and no chip is known to be ready. -/
theorem resetMeetsTheInvariants : Obligations.ResetMeetsTheInvariants := by
  unfold Obligations.ResetMeetsTheInvariants
  intro cfg hv
  exact ⟨resetWith_inv hv, resetWith_roundRobin hv, rfl, resetWith_knownReadyHonest cfg, rfl⟩

end Sys2Proof.Machine
end

section
/-! The access matrix (R41, R35, R12): which operation writes which register, however it ends. -/

namespace Sys2Proof.Machine

section Matrix

variable {s t : State} {i : Instr} {r : Response}

/-- R41 lists neither a reset to come nor the runs that have ended: no operation writes them. -/
theorem exec_unlisted (hI : s.Inv) (h : exec i s = .next t) : t.resetIn = s.resetIn ∧ t.past = s.past := by
  cases exec_outcome hI h with
  | refused e _ _ ht => subst ht; exact ⟨rfl, rfl⟩
  | answered data w _ hregs _ _ _ ht => subst ht; exact (okRegs_unlisted hregs).2
  | failed e c base _ _ _ _ _ hbase _ _ ht _ => rw [ht]; exact (errBase_unlisted hbase).2

/-- R41: `off` and `soff`. Where an operation that does not write them fails, the abort finds them 0 already. -/
theorem exec_offsets (hI : s.Inv) (h : exec i s = .next t) (hn : writesOffset i = false) :
    t.soff = s.soff ∧ ∀ c, (t.handle c).off = (s.handle c).off := by
  cases exec_outcome hI h with
  | refused e _ _ ht => subst ht; exact ⟨rfl, fun _ => rfl⟩
  | answered data w _ hregs _ _ _ ht =>
    have hw := okRegs_offsets hI hn hregs
    subst ht
    exact hw
  | failed e c base hr _ _ _ _ _ _ _ ht _ =>
    have hs : s.soff = 0 := ready_soff hI hn hr
    have ht0 : t.soff = 0 := by rw [ht]; rfl
    exact ⟨ht0.trans hs.symm, fun c => ((exec_inv hI h).off_of_soff ht0 c).trans (hI.off_of_soff hs c).symm⟩

/-- R41, R32: `cs` and `est` outside a write session. -/
theorem exec_outside_session (hI : s.Inv) (h : exec i s = .next t) (hn : inSession i = false) :
    t.bus.cs = s.bus.cs ∧ ∀ c, (t.handle c).est = (s.handle c).est := by
  suffices hend : (t.bus.cs = s.bus.cs ∧ ∀ c, (t.handle c).est = (s.handle c).est) ∨ s.idle = true ∧ t.bus.cs = none by
    refine hend.elim id fun ⟨hi, hcs⟩ => ⟨hcs.trans (hI.atRest hi).2.2.symm, fun c => ?_⟩
    have hT := exec_inv hI h
    rw [hI.est_of_idle hi, hT.est_of_idle (hT.idle_of_no_select hcs)]
  cases exec_outcome hI h with
  | refused e _ _ ht => subst ht; exact .inl ⟨rfl, fun _ => rfl⟩
  | answered data w hr hregs _ _ _ ht =>
    have hw := okRegs_cs hn hregs
    subst ht
    exact .inr ⟨ready_idle hn hr, hw⟩
  | failed e c base hr _ _ _ _ _ hcs _ _ _ => exact .inr ⟨ready_idle hn hr, hcs⟩

/-- R41: `est` after `OK`. -/
theorem exec_est_of_ok (hI : s.Inv) (h : exec i s = .next t) (hr : t.responses = s.responses ++ [r])
    (hn : writesEngineState i = false) (hok : r.err = none) (c : Nat) : (t.handle c).est = (s.handle c).est := by
  cases exec_outcome hI h with
  | refused e _ _ ht => subst ht; rfl
  | answered data w hready hregs _ _ _ ht => subst ht; exact okRegs_est hI hn hready hregs c
  | failed e d base _ _ _ _ _ _ _ _ ht _ =>
    rw [ht] at hr
    obtain rfl : errResponse e d = r := by simpa using hr
    cases hok

/-- R35: a page end moves one write cursor by 1, not past `NUM_PAGES`. -/
theorem exec_wpage_of_writeByte {v : Byte} (hI : s.Inv) (h : exec (.writeByte v) s = .next t) (c : Nat) :
    (t.handle c).wpage = (s.handle c).wpage ∨
      c = s.curW ∧ (t.handle c).wpage = (s.handle c).wpage + 1 ∧ (t.handle c).wpage ≤ s.cfg.numPages := by
  obtain ⟨-, -, -, ⟨-, hp⟩ | ⟨-, hlt, -, -, hp⟩ | ⟨l, hi, -⟩, -⟩ := exec_cursors hI h
  · exact .inl (hp c)
  · exact moved_by_one hp hlt c
  · cases hi

/-- R35: a page read moves one read cursor by 1, not past `NUM_PAGES`. -/
theorem exec_rpage_of_readPage (hI : s.Inv) (h : exec .readPage s = .next t) (c : Nat) :
    (t.handle c).rpage = (s.handle c).rpage ∨
      c = s.curR ∧ (t.handle c).rpage = (s.handle c).rpage + 1 ∧ (t.handle c).rpage ≤ s.cfg.numPages := by
  obtain ⟨-, -, -, -, ⟨-, hp⟩ | ⟨-, hlt, -, hp⟩ | ⟨l, hi, -⟩, -⟩ := exec_cursors hI h
  · exact .inl (hp c)
  · exact moved_by_one hp hlt c
  · cases hi

/-- R41: `wpage` and `curW`. -/
theorem exec_writeCursors (hI : s.Inv) (h : exec i s = .next t) (hn : writesWriteCursor i = false) :
    t.curW = s.curW ∧ ∀ c, (t.handle c).wpage = (s.handle c).wpage := by
  obtain ⟨-, -, -, hkept | ⟨⟨v, rfl⟩, -⟩ | ⟨l, rfl, -⟩, -⟩ := exec_cursors hI h
  · exact hkept
  · cases hn
  · cases hn

/-- R41: `rpage` and `curR`. -/
theorem exec_readCursors (hI : s.Inv) (h : exec i s = .next t) (hn : writesReadCursor i = false) :
    t.curR = s.curR ∧ ∀ c, (t.handle c).rpage = (s.handle c).rpage := by
  obtain ⟨-, -, -, -, hkept | ⟨rfl, -⟩ | ⟨l, rfl, -⟩, -⟩ := exec_cursors hI h
  · exact hkept
  · cases hn
  · cases hn

end Matrix

/-- Settles O47: one lemma for each column of the matrix. -/
theorem accessMatrix : Obligations.AccessMatrix := by
  unfold Obligations.AccessMatrix
  intro i s t r hI h hr
  obtain ⟨hcfg, hpending, hlen, -, -, hpar⟩ := exec_cursors hI h
  obtain ⟨hreset, hpast⟩ := exec_unlisted hI h
  refine ⟨hcfg, hpending, hreset, hpast, hlen, hpar, exec_writeCursors hI h, exec_readCursors hI h, ?wpage, ?rpage,
    exec_offsets hI h, exec_outside_session hI h, exec_est_of_ok hI h hr⟩
  case wpage => rintro ⟨v, rfl⟩ c; exact exec_wpage_of_writeByte hI h c
  case rpage => rintro rfl c; exact exec_rpage_of_readPage hI h c

end Sys2Proof.Machine
end

section
/-! Noninterference (R37, U3): two states that differ at most in bits 6 to 0 of incoming bytes, in step through every procedure, every
instruction and every way a step can go. -/

namespace Sys2Proof.Machine

/-- Two outcomes that an outside observer may not tell apart. -/
inductive OutcomesAlike : Host.Outcome State Fault Refusal → Host.Outcome State Fault Refusal → Prop where
  | next {t t' : State} (h : t.Alike t') : OutcomesAlike (.next t) (.next t')
  | fault (f : Fault) : OutcomesAlike (.fault f) (.fault f)
  | refused (e : Refusal) : OutcomesAlike (.refused e) (.refused e)

theorem OutcomesAlike.exists_next {t : State} {x' : Host.Outcome State Fault Refusal} (h : OutcomesAlike (.next t) x') :
    ∃ t', x' = .next t' ∧ t.Alike t' := by
  cases h with
  | next h => exact ⟨_, rfl, h⟩

/-- The bus procedure of an operation depends on the parameters alone. -/
theorem transportProc_congr {s s' : State} (h : s'.cfg = s.cfg) (i : Instr) : transportProc s' i = transportProc s i := by
  cases i <;> simp only [transportProc, h]

/-! Bus procedures. -/

namespace Bus.Alike

variable {cfg : Config} {c : Nat} {b b' : Bus}

theorem noData {f : Bus → Res Bus Unit} (h : Res.Rel AnyUnit Bus.Alike (f b) (f b')) :
    Res.Rel SameReadys Bus.Alike (noData f b) (noData f b') := h.andThen fun _ _ _ _ _ hb => ⟨.nil, hb⟩

theorem statusData (h : b.Alike b') : Res.Rel SameReadys Bus.Alike (statusData cfg c b) (statusData cfg c b') :=
  h.statusRead.andThen fun _ _ _ _ hv hb => ⟨.cons hv .nil, hb⟩

theorem writeFrame (h : b.Alike b') (hdr : List Byte) :
    Res.Rel SameReadys Bus.Alike (Machine.noData (fun b => (Machine.issue cfg c hdr 0 0 b).andThen fun _ b => .ok () b) b)
      (Machine.noData (fun b => (Machine.issue cfg c hdr 0 0 b).andThen fun _ b => .ok () b) b') :=
  noData (f := fun b => (Machine.issue cfg c hdr 0 0 b).andThen fun _ b => .ok () b)
    ((h.issue hdr 0 0).andThen fun _ _ _ _ _ hb => ⟨trivial, hb⟩)

theorem commitFrame (h : b.Alike b') (hdr : List Byte) (p : Nat) :
    Res.Rel SameReadys Bus.Alike (Machine.noData (fun b => Machine.issueBusy cfg c hdr (b.noteCommit cfg c p)) b)
      (Machine.noData (fun b => Machine.issueBusy cfg c hdr (b.noteCommit cfg c p)) b') :=
  noData (f := fun b => Machine.issueBusy cfg c hdr (b.noteCommit cfg c p)) ((h.noteCommit cfg c p).issueBusy hdr)

end Bus.Alike

namespace State.Alike

variable {s s' t t' : State} {c : Nat}

/-- The bus procedure of a transport call, an `ERASE_RANGE` or a single frame, in both runs. -/
theorem transportProc (h : s.Alike s') (i : Instr) :
    Res.Rel SameReadys Bus.Alike (transportProc s i s.bus) (transportProc s' i s'.bus) := by
  have hb := h.bus
  rw [transportProc_congr h.cfg]
  cases i with
  | eraseRange n => exact Bus.Alike.noData (hb.eraseFrom _ _)
  | readStatus c => exact hb.statusData
  | waitReady c => exact Bus.Alike.noData hb.pollReady
  | pageErase c p => exact Bus.Alike.noData (hb.eraseAndPoll _)
  | sectorErase c p => exact Bus.Alike.noData (hb.eraseAndPoll _)
  | chipErase c => exact Bus.Alike.noData (hb.eraseAndPoll _)
  | spiStatusRead c => exact hb.statusData
  | spiBuf1Read c a => exact hb.issue _ _ _
  | spiBuf2Read c a => exact hb.issue _ _ _
  | spiBuf1Write c a data => exact hb.writeFrame _
  | spiBuf2Write c a data => exact hb.writeFrame _
  | spiBuf1Commit c a => exact hb.commitFrame _ _
  | spiBuf1CommitAlt c a => exact hb.commitFrame _ _
  | spiBuf2Commit c a => exact hb.commitFrame _ _
  | spiBuf2CommitAlt c a => exact hb.commitFrame _ _
  | spiPageToBuf1 c a => exact Bus.Alike.noData (hb.issueBusy _)
  | spiPageToBuf2 c a => exact Bus.Alike.noData (hb.issueBusy _)
  | spiPageErase c a => exact Bus.Alike.noData (hb.issueBusy _)
  | spiSectorErase c a => exact Bus.Alike.noData (hb.issueBusy _)
  | spiChipErase c => exact Bus.Alike.noData (hb.issueBusy _)
  | _ => exact ⟨.nil, hb⟩

theorem transportGuard (h : s.Alike s') (i : Instr) : transportGuard s' i = transportGuard s i := by
  cases i <;> simp only [Machine.transportGuard, countChecks, pageChecks, frameChecks, transportChecks, h.idle, h.cfg]

/-! The bodies of the stream operations. -/

theorem startBody (h : s.Alike s') : Res.Rel SameReadys State.Alike (startBody s) (startBody s') := by
  simp only [Machine.startBody, h.curW, h.cfg]
  have hstart : (s.forEachChip engStart s.cfg.chips).Alike (s'.forEachChip engStart s.cfg.chips) :=
    h.forEachChip (fun c _ _ hu => hu.onHandle c _) _
  refine (hstart.engOpen _).andThen fun _ _ _ _ _ hu => ?_
  exact ⟨.nil, hu⟩

theorem pageAdvance (h : s.Alike s') (c : Nat) :
    Res.Rel SameReadys State.Alike (pageAdvance c s) (pageAdvance c s') := by
  refine (h.engCommit c).andThen fun _ _ u u' _ hu => ?_
  simp only [hu.cfg, hu.curW]
  have hnext : State.Alike { u with soff := 0, curW := nextChip u.cfg u.curW }
      { u' with cfg := u.cfg, soff := 0, curW := nextChip u.cfg u.curW } := { hu with cfg := rfl, soff := rfl, curW := rfl }
  refine (hnext.engOpen _).andThen fun _ _ _ _ _ hw => ?_
  exact ⟨.nil, hw⟩

theorem writeBody (h : s.Alike s') (v : Byte) : Res.Rel SameReadys State.Alike (writeBody v s) (writeBody v s') := by
  simp only [Machine.writeBody, h.curW]
  refine (h.engSend s.curW v).andThen fun _ _ u u' _ hu => ?_
  simp only [hu.soff, hu.cfg]
  split
  · exact ⟨.nil, { hu.onHandle s.curW Handle.fed with soff := rfl }⟩
  · exact hu.pageAdvance _

theorem endBody (h : s.Alike s') : Res.Rel SameReadys State.Alike (endBody s) (endBody s') := by
  simp only [Machine.endBody, h.cfg, h.curW]
  have hclosed : State.Alike { s with bus := s.bus.desel s.cfg s.curW }
      { s' with cfg := s.cfg, curW := s.curW, bus := s'.bus.desel s.cfg s.curW } :=
    { h with cfg := rfl, curW := rfl, bus := h.bus.desel _ _ }
  refine (hclosed.onBus (hclosed.bus.pollFrom _ _)).andThen fun _ _ u u' _ hu => ?_
  refine ⟨.nil, ?_⟩
  rw [hu.cfg]
  exact hu.forEachChip (fun c _ _ hw => hw.onHandle c _) _

theorem readBody (h : s.Alike s') : Res.Rel SameReadys State.Alike (readBody s) (readBody s') := by
  simp only [Machine.readBody, h.curR]
  refine (h.engReadPage s.curR).andThen fun data data' u u' hd hu => ⟨hd, ?_⟩
  exact { hu with
    curR := by simp only [hu.cfg, hu.curR]
    stream := by simp only [List.length_append, hu.stream, hd.length_eq] }

theorem seekBodyW (h : s.Alike s') (l : Nat) : Res.Rel SameReadys State.Alike (seekBodyW l s) (seekBodyW l s') := by
  simp only [Machine.seekBodyW, h.cfg]
  have hseek : (s.forEachChip (seekChipW l) s.cfg.chips).Alike (s'.forEachChip (seekChipW l) s.cfg.chips) :=
    h.forEachChip (fun c u u' hu => by simp only [seekChipW, hu.cfg]; exact hu.onHandle c _) _
  exact ⟨.nil, { hseek with curW := rfl }⟩

theorem seekBodyR (h : s.Alike s') (l : Nat) : Res.Rel SameReadys State.Alike (seekBodyR l s) (seekBodyR l s') := by
  simp only [Machine.seekBodyR, h.cfg]
  have hseek : (s.forEachChip (seekChipR l) s.cfg.chips).Alike (s'.forEachChip (seekChipR l) s.cfg.chips) :=
    h.forEachChip (fun c u u' hu => by simp only [seekChipR, hu.cfg]; exact hu.onHandle c _) _
  exact ⟨.nil, { hseek with curR := rfl }⟩

/-! Instructions. -/

/-- R255, R256: the same checks, and bodies in step. -/
theorem operation (h : s.Alike s') {checks checks' : List (Bool × ErrorKind)} (hc : checks' = checks)
    {low : List Byte → Byte} {body body' : State → Res State (List Byte)}
    (hb : Res.Rel SameReadys State.Alike (body s) (body' s')) :
    OutcomesAlike (Machine.perform checks low body s) (Machine.perform checks' low body' s') := by
  obtain ⟨t, t', ht, ht', hT⟩ := h.perform hc (low := low) hb
  rw [ht, ht']
  exact .next hT

theorem exec (h : s.Alike s') (i : Instr) : OutcomesAlike (exec i s) (exec i s') := by
  by_cases hid : ∃ c rest, i = .spiIdRead c rest ∨ i = .spiSecurityRead c rest
  · obtain ⟨c, rest, rfl | rfl⟩ := hid <;> exact .refused _
  cases hk : keepsRegisters i with
  | true =>
    have hne : ∀ c rest, i ≠ .spiIdRead c rest ∧ i ≠ .spiSecurityRead c rest := by simpa using hid
    rw [exec_transport hk hne, exec_transport hk hne]
    exact h.operation (h.transportGuard i) (h.onBus (h.transportProc i))
  | false =>
    cases i with
    | startW => exact h.operation (by simp only [h.idle]) h.startBody
    | writeByte v => exact h.operation (by simp only [writeChecks, h.filling, h.handle, h.curW, h.cfg]) (h.writeBody v)
    | endW => exact h.operation (by simp only [h.filling, h.soff]) h.endBody
    | readPage => exact h.operation (by simp only [h.idle, h.handle, h.curR, h.cfg]) h.readBody
    | seekW l => exact h.operation (by simp only [countChecks, h.idle, h.cfg]) (h.seekBodyW _)
    | seekR l => exact h.operation (by simp only [countChecks, h.idle, h.cfg]) (h.seekBodyR _)
    | _ => cases hk

/-! Resets and steps. -/

theorem eventsSince (h : s.Alike s') (ht : t.Alike t') :
    (s'.eventsSince t').map observed = (s.eventsSince t).map observed := by
  have hlen : s'.bus.trace.length = s.bus.trace.length := by simpa using congrArg List.length h.bus.trace
  rw [State.eventsSince, State.eventsSince, List.map_drop, List.map_drop, ht.bus.trace, hlen]

theorem eventsSince_length (h : s.Alike s') (ht : t.Alike t') :
    (s'.eventsSince t').length = (s.eventsSince t).length := by
  simpa using congrArg List.length (h.eventsSince ht)

/-- R291: the same operation cut off after the same number of events. -/
theorem cutOff (h : s.Alike s') (ht : t.Alike t') (k : Nat) : (State.cutOff k s t).Alike (State.cutOff k s' t') := by
  have hev : ((s'.eventsSince t').take k).map observed = ((s.eventsSince t).take k).map observed := by
    rw [List.map_take, List.map_take, h.eventsSince ht]
  have hb := h.bus.replay (cfg := s.cfg) hev
  simp only [State.cutOff, h.cfg]
  exact blockReset { h with cfg := rfl, bus := { hb with hazard := ht.bus.hazard } }

theorem resetDuring (h : s.Alike s') (ht : t.Alike t') (k : Nat) :
    (State.resetDuring k s t).Alike (State.resetDuring k s' t') := by
  simp only [State.resetDuring, h.eventsSince_length ht]
  split
  · exact h.cutOff ht k
  · exact { ht with resetIn := rfl }

/-- R113: a request is decoded without a look at the state. -/
theorem serve (h : s.Alike s') (r : Request) : OutcomesAlike (serve r s) (serve r s') := by
  unfold Machine.serve
  cases decode r with
  | ok i => exact h.exec i
  | error e => exact .next (h.respond (some .sequenceMisuse) 0 rfl 0 0)

theorem serveOldest (h : s.Alike s') : OutcomesAlike (serveOldest s) (serveOldest s') := by
  rcases hp : s.pending with _ | ⟨r, later⟩
  · simp only [Machine.serveOldest, takeRequest_nil hp, takeRequest_nil (h.pending.trans hp)]
    exact .next h
  · rw [serveOldest_cons hp, serveOldest_cons (h.pending.trans hp)]
    have hrest : State.Alike { s with pending := later } { s' with pending := later } := { h with pending := rfl }
    exact hrest.serve r

theorem serveUntilReset (h : s.Alike s') (k : Nat) : OutcomesAlike (serveUntilReset k s) (serveUntilReset k s') := by
  rcases hp : s.pending with _ | ⟨r, later⟩
  · simp only [Machine.serveUntilReset, takeRequest_nil hp, takeRequest_nil (h.pending.trans hp)]
    exact .next h
  · have hrest : State.Alike { s with pending := later } { s' with pending := later } := { h with pending := rfl }
    have hserve := hrest.serve r
    simp only [Machine.serveUntilReset, takeRequest_cons hp, takeRequest_cons (h.pending.trans hp)]
    generalize Machine.serve r { s with pending := later } = x at hserve ⊢
    generalize Machine.serve r { s' with pending := later } = x' at hserve ⊢
    cases hserve with
    | next ht => exact .next (hrest.resetDuring ht k)
    | fault f => exact .fault f
    | refused e => exact .refused e

theorem step (h : s.Alike s') : OutcomesAlike (step s) (step s') := by
  cases hv : s.cfg.valid with
  | false =>
    rw [step_invalid hv, step_invalid (h.cfg ▸ hv)]
    exact .fault _
  | true =>
    have hv' : s'.cfg.valid = true := h.cfg ▸ hv
    rcases hr : s.resetIn with _ | _ | k
    · rw [step_running hv hr, step_running hv' (h.resetIn.trans hr)]
      exact h.serveOldest
    · rw [step_reset hv hr, step_reset hv' (h.resetIn.trans hr)]
      exact .next h.blockReset
    · rw [step_until hv hr, step_until hv' (h.resetIn.trans hr)]
      exact h.serveUntilReset (k + 1)

end State.Alike

/-- Settles O17: only the bit that `ready` reads decides how a procedure goes on, so both states take the same branches. -/
theorem onlyBitSevenMatters : Obligations.OnlyBitSevenMatters := by
  unfold Obligations.OnlyBitSevenMatters
  intro s s' t h hs
  have hstep := h.step
  rw [hs] at hstep
  exact hstep.exists_next

end Sys2Proof.Machine
end

section
/-! The striping map (R64), a bijection between the bytes of the stream and the locations of the chips. -/

namespace Sys2Proof.Machine

section Striping

variable {cfg : Config} {c p o n : Nat}

/-- R64: logical page `p * N + c` is page `p` of chip `c`. -/
theorem streamLocation_of_location (hc : c < cfg.chips) (ho : o < cfg.pageSize) :
    streamLocation cfg ((p * cfg.chips + c) * cfg.pageSize + o) = (c, p, o) := by
  have hpage : ((p * cfg.chips + c) * cfg.pageSize + o) / cfg.pageSize = p * cfg.chips + c := Nat.div_eq_of_lt_le
    (Nat.le_add_right _ _) (by rw [Nat.succ_mul]; omega)
  have hoff : ((p * cfg.chips + c) * cfg.pageSize + o) % cfg.pageSize = o := by
    rw [Nat.mul_add_mod_self_right, Nat.mod_eq_of_lt ho]
  have hchip : (p * cfg.chips + c) % cfg.chips = c := by rw [Nat.mul_add_mod_self_right, Nat.mod_eq_of_lt hc]
  have hindex : (p * cfg.chips + c) / cfg.chips = p := Nat.div_eq_of_lt_le
    (Nat.le_add_right _ _) (by rw [Nat.succ_mul]; omega)
  simp only [streamLocation, pageChip, pageIndex, hpage, hoff, hchip, hindex]

/-- R64: the byte of the stream at a location, whatever its range. -/
theorem eq_of_streamLocation (h : streamLocation cfg n = (c, p, o)) : n = (p * cfg.chips + c) * cfg.pageSize + o := by
  simp only [streamLocation, pageChip, pageIndex, Prod.mk.injEq] at h
  obtain ⟨rfl, rfl, rfl⟩ := h
  rw [Nat.div_add_mod', Nat.div_add_mod']

/-- R60, R64: the locations of the chips are those of the first `N * NUM_PAGES * P` bytes. -/
theorem location_lt (hc : c < cfg.chips) (hp : p < cfg.numPages) (ho : o < cfg.pageSize) :
    (p * cfg.chips + c) * cfg.pageSize + o < cfg.totalPages * cfg.pageSize := by
  have hl : p * cfg.chips + c < cfg.totalPages := calc
    p * cfg.chips + c < (p + 1) * cfg.chips := by rw [Nat.succ_mul]; omega
    _ ≤ cfg.numPages * cfg.chips := Nat.mul_le_mul_right _ hp
    _ = cfg.totalPages := Nat.mul_comm _ _
  calc (p * cfg.chips + c) * cfg.pageSize + o < (p * cfg.chips + c + 1) * cfg.pageSize := by rw [Nat.succ_mul]; omega
    _ ≤ cfg.totalPages * cfg.pageSize := Nat.mul_le_mul_right _ hl

end Striping

/-- Settles O9: quotients and remainders by `P` and by `N` determine the byte of the stream. -/
theorem stripingMapIsOneToOne : Obligations.StripingMapIsOneToOne := by
  unfold Obligations.StripingMapIsOneToOne
  intro cfg hv
  obtain ⟨⟨hN, -⟩, ⟨hP, -⟩, -⟩ := config_valid_iff.1 hv
  refine ⟨fun n hn => ⟨_, _, _, rfl, rfl, rfl, rfl, Nat.mod_lt _ hN, ?page, Nat.mod_lt _ hP⟩, fun c p o hc hp ho =>
    ⟨_, location_lt hc hp ho, streamLocation_of_location hc ho, fun m hm => eq_of_streamLocation hm⟩⟩
  case page => exact Nat.div_lt_of_lt_mul (Nat.div_lt_of_lt_mul (by rwa [Nat.mul_comm] at hn))

end Sys2Proof.Machine
end

section
/-! What an operation does to the chips it does not store on (R63, R90), and what losing the buffers at the abort of a write session
leaves (U4, log 5). -/

namespace Sys2Proof.Machine

/-! From the chip at an index to the chip of a select line. -/

section Has

variable {b b' : Bus} {c : Nat}

theorem Bus.Has.chip {P : Chip → Prop} (h : b.Has c P) (hc : c < b.chips.length) : P (b.chip c) :=
  h _ (Bus.getElem?_chip hc)

/-- A select line beyond the last chip reads as a blank chip. -/
theorem Bus.chip_of_length_le (h : b.chips.length ≤ c) : b.chip c = Chip.blank := by
  rw [Bus.chip, List.getElem?_eq_none_iff.2 h, Option.getD_none]

theorem sameArray_of_has (hl : b'.chips.length = b.chips.length) (h : b'.Has c (Chip.SameArray c (b.chip c))) :
    b.SameArray c b' := by
  by_cases hc : c < b.chips.length
  · exact h.chip (hl ▸ hc)
  · rw [Bus.SameArray, Bus.chip_of_length_le (by omega : b.chips.length ≤ c), Bus.chip_of_length_le (by omega : b'.chips.length ≤ c)]
    exact Chip.sameArray_refl c Chip.blank

theorem sameBuffers_of_has (hl : b'.chips.length = b.chips.length) (h : b'.Has c (Chip.SameBytes c (b.chip c))) :
    b.SameBuffers c b' := by
  by_cases hc : c < b.chips.length
  · exact (h.chip (hl ▸ hc)).2
  · rw [Bus.SameBuffers, Bus.chip_of_length_le (by omega : b.chips.length ≤ c),
      Bus.chip_of_length_le (by omega : b'.chips.length ≤ c)]
    exact fun _ _ => rfl

end Has

/-! How an operation ends. -/

section Perform

variable {s t : State} {d : Nat} {P P' : Chip → Prop} {checks : List (Bool × ErrorKind)} {low : List Byte → Byte}
  {body : State → Res State (List Byte)} {r : Response}

theorem KeepsS.mono {α : Type} {x : Res State α} (h : KeepsS s.cfg d P x) (hP : ∀ ch, P ch → P' ch) :
    KeepsS s.cfg d P' x :=
  Res.Post.mono h (fun _ _ hw => ⟨fun ch hc => hP ch (hw.1 ch hc), hw.2⟩) fun _ _ _ ⟨hw, hdesel, hcfg⟩ =>
    ⟨fun ch hc => hP ch (hw ch hc), fun j hj ch hc => hP ch (hdesel j hj ch hc), hcfg⟩

/-- U4: only an abort loses the buffers. -/
theorem has_of_not_aborted {i : Instr} (hs : s.bus.Has d P) (hb : firstError checks = none → KeepsS s.cfg d P (body s))
    (he : firstError checks = none → BodyEffect s i (body s)) (h : perform checks low body s = .next t)
    (hr : t.responses = s.responses ++ [r]) (hn : ¬ aborts r) : t.bus.Has d P := by
  rcases perform_cases h with ⟨e, -, rfl⟩ | ⟨hc, ⟨data, w, hw, rfl⟩ | ⟨e, c, w, hw, rfl⟩⟩
  · exact hs
  · exact ((hb hc).of_eq_ok hw).1
  · obtain ⟨-, -, ⟨base, hbase, hab⟩, -, hkind⟩ := (he hc).of_eq_raise hw
    have hresp : w.responses = s.responses := (congrArg State.responses (hab w.bus)).trans (errBase_same hbase).1
    have hre : errResponse e c = r := by simpa [State.takeError_eq, hresp] using hr
    have hab : e = .deviceTimeout ∨ e = .busFault := hkind.symm.imp And.left And.left
    exact absurd (hre ▸ hab.imp (congrArg some) (congrArg some)) hn

/-- R256: the abort of an operation of the Idle block keeps what its body keeps. -/
theorem has_of_idle (hs : s.bus.Has d P)
    (hb : firstError checks = none →
      KeepsS s.cfg d P (body s) ∧ ∀ e c w, body s = .raise e c w → w.idle = true)
    (h : perform checks low body s = .next t) : t.bus.Has d P := by
  cases hc : firstError checks with
  | none => exact KeepsS.perform hs (.inr (hb hc).2) (fun _ => (hb hc).1) h
  | some e =>
    rw [perform_refused hc] at h
    obtain rfl := Host.Outcome.next.inj h
    exact hs

end Perform

/-! Operations outside a write session. -/

section Outside

variable {s t : State} {i : Instr} {d : Nat} {ch0 : Chip}

theorem statusData_keeps {cfg : Config} {c : Nat} {b : Bus} (hb : b.Has d (Chip.SameBytes d ch0)) :
    Keeps cfg d (Chip.SameBytes d ch0) (statusData cfg c b) :=
  ((kept_sameBytes cfg d ch0).statusRead (sameBytes_blind d ch0) hb fun _ => storesNothing_status _).andThen
    fun _ _ _ hb' => hb'

theorem storesNothing_read {op : Byte} (h : op = opcBuf1Read ∨ op = opcBuf2Read) (rest : List Byte) :
    StoresNothing (op :: rest) := .inr ⟨op, rest, rfl, .inr (h.imp_right .inl)⟩

/-- R63, R90: the bus procedure of a transport call, an `ERASE_RANGE` or a single frame keeps the bytes of every chip that the
operation does not store on. -/
theorem transportProc_keeps (hcs : s.bus.cs = none) (hn : ¬ storesOn s i d) (hs : s.bus.Has d (Chip.SameBytes d ch0)) :
    Keeps s.cfg d (Chip.SameBytes d ch0) (transportProc s i s.bus) := by
  have hk := kept_sameBytes s.cfg d ch0
  have hB := sameBytes_blind d ch0
  have hstatus : ∀ c, c = d → StoresNothing [opcStatusRead, dummyOut] := fun _ _ => storesNothing_status _
  have other : ∀ {c : ChipField} {Q : Prop}, ¬ d = c.toNat → c.toNat = d → Q := fun hne hc => absurd hc.symm hne
  have erase : ∀ {c : ChipField} {hdr : List Byte}, ¬ d = c.toNat → Keeps s.cfg d (Chip.SameBytes d ch0)
      (noData (eraseAndPoll s.cfg c.toNat hdr) s.bus) := fun hne => noData_keeps (hk.eraseAndPoll hB _ hs (Ne.symm hne))
  have busy : ∀ {c : ChipField} {hdr : List Byte}, ¬ d = c.toNat → Keeps s.cfg d (Chip.SameBytes d ch0)
      (noData (issueBusy s.cfg c.toNat hdr) s.bus) := fun hne => noData_keeps (hk.issueBusy hB _ hs (other hne))
  have commit : ∀ {c : ChipField} {hdr : List Byte} {p : Nat}, ¬ d = c.toNat → Keeps s.cfg d (Chip.SameBytes d ch0)
      (noData (fun b => issueBusy s.cfg c.toNat hdr (b.noteCommit s.cfg c.toNat p)) s.bus) := fun {c hdr p} hne =>
    noData_keeps (f := fun b => issueBusy s.cfg c.toNat hdr (b.noteCommit s.cfg c.toNat p))
      (hk.issueBusy hB _ (b := s.bus.noteCommit s.cfg c.toNat p) hs (other hne))
  have write : ∀ {c : ChipField} {hdr : List Byte}, ¬ d = c.toNat → Keeps s.cfg d (Chip.SameBytes d ch0)
      (noData (fun b => (issue s.cfg c.toNat hdr 0 0 b).andThen fun _ b => .ok () b) s.bus) := fun {c hdr} hne =>
    noData_keeps (f := fun b => (issue s.cfg c.toNat hdr 0 0 b).andThen fun _ b => .ok () b)
      ((hk.issue _ _ _ hs (other hne)).andThen fun _ _ _ hb => hb)
  cases i with
  | eraseRange n =>
    exact noData_keeps (eraseFrom_keeps hk hB _ _ hs fun l _ hl hc => hn ⟨l, by omega, hc.symm⟩)
  | readStatus c => exact statusData_keeps hs
  | waitReady c => exact noData_keeps (hk.pollReady hB hs hcs (hstatus _))
  | pageErase c p => exact erase hn
  | sectorErase c p => exact erase hn
  | chipErase c => exact erase hn
  | spiStatusRead c => exact statusData_keeps hs
  | spiPageToBuf1 c a => exact busy hn
  | spiPageToBuf2 c a => exact busy hn
  | spiBuf1Read c a => exact hk.issue _ _ _ hs fun _ => storesNothing_read (.inl rfl) _
  | spiBuf2Read c a => exact hk.issue _ _ _ hs fun _ => storesNothing_read (.inr rfl) _
  | spiBuf1Write c a data => exact write hn
  | spiBuf2Write c a data => exact write hn
  | spiBuf1Commit c a => exact commit hn
  | spiBuf1CommitAlt c a => exact commit hn
  | spiBuf2Commit c a => exact commit hn
  | spiBuf2CommitAlt c a => exact commit hn
  | spiPageErase c a => exact busy hn
  | spiSectorErase c a => exact busy hn
  | spiChipErase c => exact busy hn
  | _ => exact hs

theorem readBody_keeps (hd : d ≠ s.curR) (hs : s.bus.Has d (Chip.SameBytes d ch0)) :
    KeepsS s.cfg d (Chip.SameBytes d ch0) (readBody s) := by
  rw [readBody, engReadPage_eq, Res.andThen_assoc]
  refine (KeepsS.onBus (readProc_keeps (kept_sameBytes _ _ _) (sameBytes_blind _ _) hd.symm _ hs)).andThen ?_
  intro data w _ hw hcfg
  exact ⟨hw, hcfg⟩

theorem readBody_raise_idle {e : ErrorKind} {c : Nat} {w : State} (h : readBody s = .raise e c w) : w.idle = s.idle := by
  rw [readBody, engReadPage_eq, Res.andThen_assoc] at h
  cases hp : s.onBus (readProc s.cfg s.curR (s.handle s.curR).rpage) with
  | ok data u => rw [hp] at h; cases h
  | raise e' c' u => rw [hp] at h; cases h; exact onBus_raise_idle hp

theorem seekBodyW_bus (l : Nat) : ∃ w, seekBodyW l s = .ok [] w ∧ w.bus = s.bus ∧ w.cfg = s.cfg := by
  obtain ⟨hbus, hcfg⟩ := forEachChip_bus (seekChipW l) (fun _ _ => ⟨rfl, rfl⟩) s.cfg.chips s
  exact ⟨_, rfl, hbus, hcfg⟩

theorem seekBodyR_bus (l : Nat) : ∃ w, seekBodyR l s = .ok [] w ∧ w.bus = s.bus ∧ w.cfg = s.cfg := by
  obtain ⟨hbus, hcfg⟩ := forEachChip_bus (seekChipR l) (fun _ _ => ⟨rfl, rfl⟩) s.cfg.chips s
  exact ⟨_, rfl, hbus, hcfg⟩

/-- A body that leaves the bus keeps everything of it. -/
theorem keepsS_of_bus {P : Chip → Prop} {body : State → Res State (List Byte)} (hs : s.bus.Has d P)
    (hb : ∃ w, body s = .ok [] w ∧ w.bus = s.bus ∧ w.cfg = s.cfg) :
    KeepsS s.cfg d P (body s) ∧ ∀ e c w, body s = .raise e c w → w.idle = true := by
  obtain ⟨w, hw, hbus, hcfg⟩ := hb
  rw [hw]
  exact ⟨⟨hbus.symm ▸ hs, hcfg⟩, fun e c u hu => by cases hu⟩

/-- R63, R90: outside a write session an operation keeps every byte of every chip it does not store on, however it ends. -/
theorem exec_sameBytes (hI : s.Inv) (hi : inSession i = false) (h : exec i s = .next t) (hn : ¬ storesOn s i d)
    (hs : s.bus.Has d (Chip.SameBytes d ch0)) : t.bus.Has d (Chip.SameBytes d ch0) := by
  cases hk : keepsRegisters i with
  | true =>
    have hne : ∀ c rest, i ≠ .spiIdRead c rest ∧ i ≠ .spiSecurityRead c rest := by
      intro c rest
      constructor <;> rintro rfl <;> cases h
    rw [exec_transport hk hne] at h
    refine has_of_idle hs (fun hg => ?_) h
    have hidle := (transport_effect hI hk hne hg).1
    exact ⟨KeepsS.onBus (transportProc_keeps (hI.resting hidle).2 hn hs), fun e c w hw => (onBus_raise_idle hw).trans hidle⟩
  | false =>
    cases i with
    | readPage =>
      refine has_of_idle hs (fun hg => ⟨readBody_keeps hn hs, fun e c w hw => ?_⟩) (h : execReadPage s = .next t)
      exact (readBody_raise_idle hw).trans (firstError_cons_none hg).1
    | seekW l => exact has_of_idle hs (fun _ => keepsS_of_bus hs (seekBodyW_bus l.toNat)) (h : execSeekW l s = .next t)
    | seekR l => exact has_of_idle hs (fun _ => keepsS_of_bus hs (seekBodyR_bus l.toNat)) (h : execSeekR l s = .next t)
    | startW => cases hi
    | writeByte v => cases hi
    | endW => cases hi
    | _ => cases hk

end Outside

/-! Write sessions. -/

section Session

variable {s t : State} {d : Nat} {ch0 : Chip} {r : Response}

theorem startBody_keeps (hs : s.bus.Has d (Chip.SameBytes d ch0)) : KeepsS s.cfg d (Chip.SameBytes d ch0) (startBody s) := by
  obtain ⟨hbus, hcfg⟩ := forEachChip_bus engStart (fun _ _ => ⟨rfl, rfl⟩) s.cfg.chips s
  have hopen := engOpen_keeps (s := s.forEachChip engStart s.cfg.chips) (c := s.curW) (kept_sameBytes _ d ch0)
    (hbus.symm ▸ hs) fun _ => storesNothing_open _
  rw [hcfg] at hopen
  exact hopen.andThen fun _ _ _ hw hc => ⟨hw, hc⟩

/-- R63: a `WRITE_BYTE` stores on chip `curW`; the buffer it opens is on the next chip, and nothing is stored in it yet. -/
theorem writeBody_keeps (hcs : s.bus.cs = some s.curW) (hd : d ≠ s.curW) (v : Byte)
    (hs : s.bus.Has d (Chip.SameBytes d ch0)) : KeepsS s.cfg d (Chip.SameBytes d ch0) (writeBody v s) := by
  have hk := kept_sameBytes s.cfg d ch0
  have hne : ∀ {Q : Prop}, s.curW = d → Q := fun hc => absurd hc.symm hd
  have hsend : KeepsS s.cfg d (Chip.SameBytes d ch0) (engSend s.curW v s) := by
    refine (KeepsS.onBus (f := transferBlock s.cfg s.curW [v]) ?_).andThen fun _ _ _ hw hc => ⟨hw, hc⟩
    refine Res.Post.mono (hk.transferBlock s.curW [v] hs fun h => hne (Option.some.inj (hcs.symm.trans h))) (fun _ _ h => h.2.1)
      fun _ _ b h => ⟨h.2.1, fun j hj => hk.desel h.2.1 fun hjd => ?_⟩
    rw [h.1, hcs] at hj
    exact hne ((Option.some.inj hj).trans hjd)
  refine hsend.andThen fun _ u _ hu hucfg => ?_
  show KeepsS s.cfg d _ (if _ then _ else _)
  split
  · exact ⟨hu, hucfg⟩
  · rw [← hucfg] at hk ⊢
    refine (engCommit_keeps hk (sameBytes_blind d ch0) hu (Ne.symm hd)).andThen fun _ w _ hw hwcfg => ?_
    rw [← hwcfg] at hk ⊢
    exact (engOpen_keeps (s := { w with soff := 0, curW := nextChip w.cfg w.curW }) hk hw
      fun _ => storesNothing_open _).andThen fun _ _ _ hx hc => ⟨hx, hc⟩

/-- R104, R213: the frame that `END_W` ends is a header alone, which stores nothing. -/
theorem endBody_keeps (hI : s.Inv) (hf : s.filling = true) (h0 : s.soff = 0) (hs : s.bus.Has d (Chip.SameBytes d ch0)) :
    KeepsS s.cfg d (Chip.SameBytes d ch0) (endBody s) := by
  have hk := kept_sameBytes s.cfg d ch0
  obtain ⟨-, -, data, hdata, hlen⟩ := hI.streaming hf
  have hhdr : (s.bus.chip s.curW).received = openFrame (s.handle s.curW).par := by
    rw [hdata, List.length_eq_zero_iff.1 (hlen.trans h0), List.append_nil]
  have hdesel : (s.bus.desel s.cfg s.curW).Has d (Chip.SameBytes d ch0) := by
    refine hk.desel hs ?_
    rintro rfl ch hch
    rw [← Bus.chip_of_getElem? hch, hhdr]
    exact storesNothing_open _
  refine KeepsS.andThen (KeepsS.onBus (s := { s with bus := s.bus.desel s.cfg s.curW })
    (pollFrom_keeps hk (sameBytes_blind d ch0) (storesNothing_status _) _ 0 hdesel rfl)) fun _ w _ hw hcfg => ?_
  obtain ⟨hbus, hcfg'⟩ := forEachChip_bus engEnd (fun _ _ => ⟨rfl, rfl⟩) w.cfg.chips w
  exact ⟨hbus.symm ▸ hw, hcfg'.trans hcfg⟩

theorem Chip.SameBytes.sameArray {ch : Chip} (h : Chip.SameBytes d ch0 ch) : Chip.SameArray d ch0 ch := h.1

theorem Chip.SameArray.loseBuffers {ch : Chip} (n : Nat) (h : Chip.SameArray d ch0 ch) :
    Chip.SameArray d ch0 (ch.loseBuffers n) := h

/-- U4: what an operation of a write session leaves of a chip whose bytes its body keeps. -/
theorem session_memory {i : Instr} {checks : List (Bool × ErrorKind)} {low : List Byte → Byte}
    {body : State → Res State (List Byte)} (hs : s.bus.Has d (Chip.SameBytes d ch0))
    (hb : firstError checks = none → KeepsS s.cfg d (Chip.SameBytes d ch0) (body s) ∧ BodyEffect s i (body s))
    (h : perform checks low body s = .next t) (hr : t.responses = s.responses ++ [r]) :
    t.bus.Has d (Chip.SameArray d ch0) ∧ (¬ aborts r → t.bus.Has d (Chip.SameBytes d ch0)) :=
  ⟨KeepsS.perform (fun ch hc => (hs ch hc).1) (.inl fun n _ hch => hch.loseBuffers n)
      (fun hc => (hb hc).1.mono fun _ => Chip.SameBytes.sameArray) h,
    has_of_not_aborted hs (fun hc => (hb hc).1) (fun hc => (hb hc).2) h hr⟩

/-- R63, R90: an operation of a write session. -/
theorem exec_session_memory {i : Instr} (hI : s.Inv) (hi : inSession i = true) (h : exec i s = .next t)
    (hr : t.responses = s.responses ++ [r]) (hn : ¬ storesOn s i d) (hs : s.bus.Has d (Chip.SameBytes d ch0)) :
    t.bus.Has d (Chip.SameArray d ch0) ∧ (¬ aborts r → t.bus.Has d (Chip.SameBytes d ch0)) := by
  cases i with
  | startW =>
    refine session_memory (i := .startW) hs (fun hc => ?_) (h : execStartW s = .next t) hr
    exact ⟨startBody_keeps hs, startBody_effect hI (firstError_cons_none hc).1⟩
  | writeByte v =>
    refine session_memory (i := .writeByte v) hs (fun hc => ?_) (h : execWriteByte v s = .next t) hr
    obtain ⟨hf, hc⟩ := firstError_cons_none hc
    have hp : (s.handle s.curW).wpage < s.cfg.numPages := by simpa using (firstError_cons_none hc).1
    exact ⟨writeBody_keeps (hI.streaming hf).2.1 hn v hs, writeBody_effect hI hf hp v⟩
  | endW =>
    refine session_memory (i := .endW) hs (fun hc => ?_) (h : execEndW s = .next t) hr
    obtain ⟨hf, hc⟩ := firstError_cons_none hc
    have h0 : s.soff = 0 := by simpa using (firstError_cons_none hc).1
    exact ⟨endBody_keeps hI hf h0 hs, endBody_effect hI hf h0⟩
  | _ => cases hi

end Session

/-- Settles O50: the frames of other chips, and those that store nothing, keep every byte of a chip; the abort of a write session
keeps its main array. -/
theorem memoryChangesOnlyWhereStored : Obligations.MemoryChangesOnlyWhereStored := by
  unfold Obligations.MemoryChangesOnlyWhereStored
  intro i s t r hI h hr c hn
  have hlen : t.bus.chips.length = s.bus.chips.length := (exec_shaped hI h).1.trans hI.devices.symm
  suffices hmem : t.bus.Has c (Chip.SameArray c (s.bus.chip c)) ∧
      (¬ (inSession i = true ∧ aborts r) → t.bus.Has c (Chip.SameBytes c (s.bus.chip c))) from
    ⟨sameArray_of_has hlen hmem.1, fun ha => sameBuffers_of_has hlen (hmem.2 ha)⟩
  cases hi : inSession i with
  | true =>
    obtain ⟨harray, hbytes⟩ := exec_session_memory hI hi h hr hn (has_same c s.bus)
    exact ⟨harray, fun ha => hbytes fun hab => ha ⟨rfl, hab⟩⟩
  | false =>
    have hbytes := exec_sameBytes hI hi h hn (has_same c s.bus)
    exact ⟨fun ch hc => (hbytes ch hc).1, fun _ => hbytes⟩

end Sys2Proof.Machine
end

section
/-! Frames that make a ready chip busy (R83, R84, R86 to R88), as the chip takes them and as instructions. -/

namespace Sys2Proof.Machine

section Frames

variable {s : State} {c : ChipField} {a : AddrField} {q : Parity} {hdr : List Byte} {b : Bus}

theorem State.Inv.chip_lt (hI : s.Inv) {d : Nat} (hd : d < s.cfg.chips) : d < s.bus.chips.length := hI.devices.symm ▸ hd

/-- R140, R141: a page survives its encoding. -/
theorem decodePage_encodePage {cfg : Config} (hv : cfg.valid = true) {p : Nat} (hp : p < cfg.numPages) :
    decodePage cfg (encodePage cfg p) = p := by
  rw [decodePage_eq, encodePage_toNat hv hp, Nat.pow_add, Nat.mul_assoc, Nat.mul_div_cancel _ (by positivity)]
  exact Nat.mod_eq_of_lt hp

theorem isPageField_of_encode (hI : s.Inv) (ha : ∃ x, x < s.cfg.numPages ∧ a = encodePage s.cfg x) :
    isPageField s.cfg a = true := by
  obtain ⟨x, hx, rfl⟩ := ha
  exact isPageField_encode hI.valid hx

theorem noData_ok {f : Bus → Res Bus Unit} {b b' : Bus} (h : f b = .ok () b') : noData f b = .ok [] b' := by
  rw [noData, h, Res.andThen_ok]

/-- R84: the page-to-buffer frame of buffer `q`, sent alone. -/
theorem transfer_exec (hi : s.idle = true) (hc : c.toNat < s.cfg.chips) (ha : isPageField s.cfg a = true)
    (h : issueBusy s.cfg c.toNat (opcPageToBuf q :: addrBytes a) s.bus = .ok () b) :
    ∃ t, exec (transferInstr q c a) s = .next t ∧ t.bus = b := by
  cases q with
  | a => exact exec_frame (i := .spiPageToBuf1 c a) rfl (by simp) (frameChecks_none ha hi hc) (noData_ok h)
  | b => exact exec_frame (i := .spiPageToBuf2 c a) rfl (by simp) (frameChecks_none ha hi hc) (noData_ok h)

/-- R86 to R88: an erase frame, sent alone. -/
theorem erase_exec {i : Instr} (hi : s.idle = true) (hc : c.toNat < s.cfg.chips)
    (hinstr : (i = .spiPageErase c a ∨ i = .spiSectorErase c a) ∧ isPageField s.cfg a = true ∨ i = .spiChipErase c)
    (henc : encode i = .frame c hdr) (h : issueBusy s.cfg c.toNat hdr s.bus = .ok () b) :
    ∃ t, exec i s = .next t ∧ t.bus = b := by
  rcases hinstr with ⟨rfl | rfl, ha⟩ | rfl <;> cases henc
  · exact exec_frame (i := .spiPageErase c a) rfl (by simp) (frameChecks_none ha hi hc) (noData_ok h)
  · exact exec_frame (i := .spiSectorErase c a) rfl (by simp) (frameChecks_none ha hi hc) (noData_ok h)
  · exact exec_frame (i := .spiChipErase c) rfl (by simp) (frameChecks_none rfl hi hc) (noData_ok h)

end Frames

/-! Commits and transfers. -/

namespace Chip

variable {cfg : Config} {c : Nat} {ch ch0 : Chip} {q : Parity}

/-- R60: the addresses of `k` pages from page `p` on. -/
theorem mainAddr_mem_pages {p k x o : Nat} (ho : o < cfg.pageSize) :
    (p * cfg.pageSize ≤ mainAddr cfg x o ∧ mainAddr cfg x o < p * cfg.pageSize + k * cfg.pageSize) ↔ p ≤ x ∧ x < p + k :=
  page_mem ho

/-- R60: the addresses of page `p`. -/
theorem mainAddr_mem_page {p x o : Nat} (ho : o < cfg.pageSize) :
    (p * cfg.pageSize ≤ mainAddr cfg x o ∧ mainAddr cfg x o < (p + 1) * cfg.pageSize) ↔ x = p := by
  rw [Nat.add_mul, mainAddr_mem_pages ho]
  omega

/-- R83: a commit programs the page with the buffer, byte for byte. -/
theorem commit_mainByte_page {p x o : Nat} (ho : o < cfg.pageSize) :
    (ch.commit cfg c q p).mainByte c (mainAddr cfg x o) =
      if x = p then ch.bufByte c q o else ch.mainByte c (mainAddr cfg x o) := by
  rw [commit_mainByte, if_congr (mainAddr_mem_page ho) rfl rfl]
  split
  · next hx => rw [hx, mainAddr, Nat.add_sub_cancel_left]
  · rfl

/-- U4: what every page reads as after a commit. -/
theorem commit_arrayByte_page {p x o : Nat} (ho : o < cfg.pageSize) :
    (ch.commit cfg c q p).arrayByte cfg c x o =
      if x = p then Config.doubtByte c ch.commits (mainAddr cfg x o) else ch.arrayByte cfg c x o := by
  split
  · next hx => rw [hx]; exact commit_arrayByte q p o
  · next hx => exact commit_arrayByte_ne q hx ho

/-- R74: what has been confirmed reads as what was committed. -/
theorem confirmed_arrayByte (x o : Nat) :
    ch.confirmed.arrayByte cfg c x o = ch.mainByte c (mainAddr cfg x o) := arrayByte_of_no_doubts rfl c x o

@[simp] theorem transfer_doubts (p : Nat) : (ch.transfer cfg c q p).doubts = ch.doubts := setBuf_doubts ch q _

end Chip

/-- Settles O51: at `Desel` the ready chip commits the buffer to the page its address field decodes to. -/
theorem commitFrameProgramsThePage : Obligations.CommitFrameProgramsThePage := by
  unfold Obligations.CommitFrameProgramsThePage
  intro s c a q hI hi hc hf hb p d
  obtain ⟨b, ch1, hissue, -, -, -, hchip, hb1, hrec, hmain, hbuf, hdoubts, hcommits⟩ :=
    issueBusy_ready (b := s.bus.noteCommit s.cfg c.toNat p) hf (hdr := opcCommit s.cfg q :: addrBytes a) rfl
      (hI.chip_lt hc) hb
  have hd : b.chip c.toNat = ch1.commit s.cfg c.toNat q p := by
    rw [hchip, Chip.deselect_commit hb1 hrec, addrOf_bytes]
  refine ⟨b, hissue, fun ha => commit_exec hi hc q (isPageField_of_encode hI ha) hissue, ?_⟩
  rw [hd]
  refine ⟨rfl, fun x o ho => ?main, fun x o ho => ?array, fun x o => Chip.confirmed_arrayByte x o, fun r o => ?buffers⟩
  case main => rw [Chip.commit_mainByte_page ho, Chip.bufByte_congr hbuf, Chip.mainByte_congr hmain]; rfl
  case array => rw [Chip.commit_arrayByte_page ho, hcommits, Chip.arrayByte_congr hmain hdoubts]; rfl
  case buffers => rw [Chip.commit_bufByte, Chip.bufByte_congr hbuf]; rfl

/-- Settles O52: at `Desel` the ready chip loads the page its address field decodes to. -/
theorem transferFrameLoadsTheBuffer : Obligations.TransferFrameLoadsTheBuffer := by
  unfold Obligations.TransferFrameLoadsTheBuffer
  intro s c a q hI hi hc hf hb
  obtain ⟨b, ch1, hissue, -, -, -, hchip, hb1, hrec, hmain, hbuf, hdoubts, -⟩ :=
    issueBusy_ready hf (hdr := opcPageToBuf q :: addrBytes a) rfl (hI.chip_lt hc) hb
  have hd : b.chip c.toNat = ch1.transfer s.cfg c.toNat q (decodePage s.cfg a) := by
    rw [hchip, Chip.deselect_transfer hb1 hrec, addrOf_bytes]
  refine ⟨b, hissue, fun ha => transfer_exec hi hc (isPageField_of_encode hI ha) hissue, ?_⟩
  rw [hd]
  refine ⟨rfl, fun x => ?main, by rw [Chip.transfer_doubts, hdoubts], fun r o => ?buffers⟩
  case main => rw [Chip.transfer_mainByte, Chip.mainByte_congr hmain]
  case buffers => rw [Chip.transfer_bufByte, Chip.arrayByte_congr hmain hdoubts, Chip.bufByte_congr hbuf]

end Sys2Proof.Machine
end

section
/-! Erases (R86 to R88): what one leaves of a chip, and what of that a poll keeps. -/

namespace Sys2Proof.Machine

/-- R86 to R88: `ch` is `ch0` but for the pages `erased`, which are `0xFF` and in no doubt; no page is newly in doubt. -/
structure Chip.Erases (cfg : Config) (c : Nat) (erased : Nat → Prop) (ch0 ch : Chip) : Prop where
  blank : ∀ x o, x < cfg.numPages → o < cfg.pageSize → erased x → ch.mainByte c (mainAddr cfg x o) = 0xFF
  certain : ∀ d ∈ ch.doubts, d.page < cfg.numPages → ¬ erased d.page
  rest : ∀ x o, x < cfg.numPages → o < cfg.pageSize → ¬ erased x →
    ch.mainByte c (mainAddr cfg x o) = ch0.mainByte c (mainAddr cfg x o)
  doubts : ∀ d ∈ ch.doubts, d ∈ ch0.doubts
  buffers : ∀ q o, ch.bufByte c q o = ch0.bufByte c q o

/-- R86, R87, R88: `hdr` is the frame, with address field `a`, that erases the pages `erased`. -/
def EraseFrame (cfg : Config) (a : AddrField) (hdr : List Byte) (erased : Nat → Prop) : Prop :=
  hdr = opcPageErase :: addrBytes a ∧ (∀ x, erased x ↔ x = decodePage cfg a) ∨
  hdr = opcSectorErase :: addrBytes a ∧ (∀ x, erased x ↔ x / cfg.sectorPages = decodePage cfg a / cfg.sectorPages) ∨
  hdr = chipEraseFrame ∧ ∀ x, erased x

namespace Chip

variable {cfg : Config} {c p k : Nat} {ch0 ch ch' : Chip} {erased : Nat → Prop}

theorem Erases.arrayByte (h : Erases cfg c erased ch0 ch) {x o : Nat} (hx : x < cfg.numPages) (ho : o < cfg.pageSize)
    (he : erased x) : ch.arrayByte cfg c x o = 0xFF := by
  have hnone : ch.doubt? x = none := List.find?_eq_none.2 fun d hd hpage => by
    obtain rfl : d.page = x := by simpa using hpage
    exact h.certain d hd hx he
  rw [Chip.arrayByte, hnone]
  exact h.blank x o hx ho he

/-- A poll, which keeps every byte and brings no doubt, keeps what an erase has done. -/
theorem Erases.sameBytes (h : Erases cfg c erased ch0 ch) (hs : SameBytes c ch ch') : Erases cfg c erased ch0 ch' := by
  obtain ⟨⟨hmain, hdoubts⟩, hbuf⟩ := hs
  exact
    { blank := fun x o hx ho he => (hmain _).trans (h.blank x o hx ho he)
      certain := fun d hd => h.certain d (hdoubts d hd)
      rest := fun x o hx ho he => (hmain _).trans (h.rest x o hx ho he)
      doubts := fun d hd => h.doubts d (hdoubts d hd)
      buffers := fun q o => (hbuf q o).trans (h.buffers q o) }

/-- R86, R87: the erase of `k` pages from page `p` on. -/
theorem erasePages_erases (hs : SameBytes c ch0 ch) (he : ∀ x, x < cfg.numPages → (erased x ↔ p ≤ x ∧ x < p + k)) :
    Erases cfg c erased ch0 (ch.erasePages cfg p k) := by
  obtain ⟨⟨hmain, hdoubts⟩, hbuf⟩ := hs
  have hbyte : ∀ x o, o < cfg.pageSize → (ch.erasePages cfg p k).mainByte c (mainAddr cfg x o) =
      if p ≤ x ∧ x < p + k then 0xFF else ch0.mainByte c (mainAddr cfg x o) := fun x o ho => by
    rw [erasePages_mainByte, hmain, if_congr (mainAddr_mem_pages ho) rfl rfl]
  refine ⟨fun x o hx ho hx' => ?blank, fun d hd hlt hd' => ?certain, fun x o hx ho hx' => ?rest, fun d hd => ?doubts,
    fun q o => (erasePages_bufByte p k q o).trans (hbuf q o)⟩
  case blank => rw [hbyte x o ho, if_pos ((he x hx).1 hx')]
  case certain =>
    have hout := (mem_settled.1 hd).2
    have hin := (he _ hlt).1 hd'
    omega
  case rest => rw [hbyte x o ho, if_neg fun hin => hx' ((he x hx).2 hin)]
  case doubts => exact hdoubts d (mem_settled.1 hd).1

/-- R88. -/
theorem eraseChip_erases (hs : SameBytes c ch0 ch) (he : ∀ x, erased x) : Erases cfg c erased ch0 ch.eraseChip where
  blank _ _ _ _ _ := eraseChip_mainByte _
  certain _ hd := absurd hd List.not_mem_nil
  rest x _ _ _ hx := absurd (he x) hx
  doubts _ hd := absurd hd List.not_mem_nil
  buffers q o := (eraseChip_bufByte q o).trans (hs.2 q o)

/-- R86 to R88: a ready chip at the end of an erase frame. -/
theorem deselect_erases {a : AddrField} {hdr : List Byte} (hv : cfg.valid = true) (hf : EraseFrame cfg a hdr erased)
    (hs : SameBytes c ch0 ch) (hb : ch.busy = false) (hr : ch.received = hdr) :
    (ch.deselect cfg c).busy = true ∧ Erases cfg c erased ch0 (ch.deselect cfg c) := by
  rcases hf with ⟨rfl, he⟩ | ⟨rfl, he⟩ | ⟨rfl, he⟩
  · rw [deselect_pageErase hb hr, addrOf_bytes]
    refine ⟨rfl, erasePages_erases hs fun x _ => (he x).trans ?_⟩
    omega
  · rw [deselect_sectorErase hb hr, addrOf_bytes]
    have hsector : 1 ≤ cfg.sectorPages := by
      obtain ⟨-, -, -, -, -, h⟩ := config_valid_iff.1 hv
      exact h
    exact ⟨rfl, erasePages_erases hs fun x hx => (he x).trans (sectorStart_mem hsector (decodePage_lt cfg a) hx).symm⟩
  · rw [deselect_chipErase hb hr]
    exact ⟨rfl, eraseChip_erases hs he⟩

/-- Chips with the same memories and doubts read the same. -/
theorem sameBytes_of_memories (hmain : ch.main = ch0.main) (hbuf : ∀ q, ch.buf q = ch0.buf q)
    (hdoubts : ch.doubts = ch0.doubts) : SameBytes c ch0 ch :=
  sameBytes_of_eq (sameBytes_refl c ch0) hmain hbuf fun _ hd => hdoubts ▸ hd

end Chip

section Erases

variable {s : State} {c : ChipField} {p : ArgField} {i : Instr} {erased : Nat → Prop}

theorem EraseFrame.length {cfg : Config} {a : AddrField} {hdr : List Byte} (h : EraseFrame cfg a hdr erased) :
    hdr.length = 4 := by
  rcases h with ⟨rfl, -⟩ | ⟨rfl, -⟩ | ⟨rfl, -⟩ <;> rfl

/-- R157 to R159: the host operations that erase, and the pages they erase. -/
def EraseOperation (s : State) (c : ChipField) (p : ArgField) (i : Instr) (erased : Nat → Prop) : Prop :=
  i = .pageErase c p ∧ p.toNat < s.cfg.numPages ∧ (∀ x, erased x ↔ x = p.toNat) ∨
  i = .sectorErase c p ∧ p.toNat < s.cfg.numPages ∧
    (∀ x, erased x ↔ x / s.cfg.sectorPages = p.toNat / s.cfg.sectorPages) ∨
  i = .chipErase c ∧ ∀ x, erased x

/-- R157 to R159: such an operation is its frame and a poll. -/
theorem EraseOperation.frame (h : EraseOperation s c p i erased) (hv : s.cfg.valid = true) (hi : s.idle = true)
    (hc : c.toNat < s.cfg.chips) :
    ∃ hdr, EraseFrame s.cfg (encodePage s.cfg p.toNat) hdr erased ∧ keepsRegisters i = true ∧
      (∀ c rest, i ≠ .spiIdRead c rest ∧ i ≠ .spiSecurityRead c rest) ∧ firstError (transportGuard s i) = none ∧
      transportProc s i = noData (eraseAndPoll s.cfg c.toNat hdr) := by
  rcases h with ⟨rfl, hp, he⟩ | ⟨rfl, hp, he⟩ | ⟨rfl, he⟩
  · rw [← decodePage_encodePage hv hp] at he
    exact ⟨_, .inl ⟨rfl, he⟩, rfl, by simp, pageChecks_none hi hc hp, rfl⟩
  · rw [← decodePage_encodePage hv hp] at he
    exact ⟨_, .inr (.inl ⟨rfl, he⟩), rfl, by simp, pageChecks_none hi hc hp, rfl⟩
  · exact ⟨_, .inr (.inr ⟨rfl, he⟩), rfl, by simp, transportChecks_none hi hc, rfl⟩

end Erases

/-- Settles O53: the erase is done at the `Desel` of its frame, and the poll changes no byte. -/
theorem erasesSetPagesToFF : Obligations.ErasesSetPagesToFF := by
  unfold Obligations.ErasesSetPagesToFF
  intro s c hI hi hc hf hb leaves
  have leaves_of_erases : ∀ {b : Bus} {erased : Nat → Prop},
      Chip.Erases s.cfg c.toNat erased (s.bus.chip c.toNat) (b.chip c.toNat) → leaves b erased := fun h =>
    ⟨fun x o hx ho => ⟨h.arrayByte hx ho, h.rest x o hx ho⟩, h.doubts, h.buffers⟩
  refine ⟨fun a hdr erased hframe => ?frames, fun p i erased hop => ?operations⟩
  case frames =>
    obtain ⟨b, ch1, hissue, -, -, -, hchip, hb1, hrec, hmain, hbuf, hdoubts, -⟩ :=
      issueBusy_ready hf (EraseFrame.length hframe) (hI.chip_lt hc) hb
    obtain ⟨hbusy, herases⟩ := Chip.deselect_erases hI.valid hframe (c := c.toNat)
      (Chip.sameBytes_of_memories hmain hbuf hdoubts) hb1 hrec
    rw [← hchip] at hbusy herases
    exact ⟨b, hissue, hbusy, leaves_of_erases herases, fun i hinstr henc =>
      erase_exec hi hc (hinstr.imp_left (And.imp_right (isPageField_of_encode hI))) henc hissue⟩
  case operations =>
    obtain ⟨hdr, hframe, hk, hne, hg, hproc⟩ := EraseOperation.frame hop hI.valid hi hc
    obtain ⟨t, ch1, hexec, hpoll, hb1, hrec, hmain, hbuf, hdoubts, -⟩ :=
      erase_poll hI hi hc hf hb hframe.length hk hne hg hproc
    obtain ⟨-, herases⟩ := Chip.deselect_erases hI.valid hframe (c := c.toNat)
      (Chip.sameBytes_of_memories hmain hbuf hdoubts) hb1 hrec
    exact ⟨t, hexec, leaves_of_erases (herases.sameBytes hpoll)⟩

end Sys2Proof.Machine
end

section
/-! Buffer writes, buffer reads, status reads (R81, R82, R85), and frames on a chip that stays busy (R89). -/

namespace Sys2Proof.Machine

/-! Buffer writes. -/

/-- R82: a whole buffer-write frame of at most `P` data bytes on a chip that takes them. -/
theorem Chip.hear_write {cfg : Config} {c n : Nat} {ch : Chip} {q : Parity} {a : AddrField} {data : List Byte}
    (ht : ch.Takes q) (hr : ch.received = []) (hl : data.length ≤ cfg.pageSize) :
    (∀ j v, data[j]? = some v →
      (ch.hear cfg c n (opcBufWrite q :: addrBytes a ++ data)).bufByte c q ((a.toNat + j) % cfg.pageSize) = v) ∧
    ∀ r o, ¬ (r = q ∧ ∃ j, j < data.length ∧ o = (a.toNat + j) % cfg.pageSize) →
      (ch.hear cfg c n (opcBufWrite q :: addrBytes a ++ data)).bufByte c r o = ch.bufByte c r o := by
  have hhdr : ∀ r o, (ch.hear cfg c n (opcBufWrite q :: addrBytes a)).bufByte c r o = ch.bufByte c r o :=
    bufByte_congr fun r => hear_buf_of_short (by simp [hr]) r
  have hrec : (ch.hear cfg c n (opcBufWrite q :: addrBytes a)).received =
      opcBufWrite q :: a.extractLsb' 16 8 :: a.extractLsb' 8 8 :: a.extractLsb' 0 8 :: [] := by
    rw [hear_received, hr, List.nil_append, addrBytes]
  have hoffset : ∀ j, (bufferOffset cfg a + 0 + j) % cfg.pageSize = (a.toNat + j) % cfg.pageSize := fun j => by
    rw [bufferOffset, Nat.add_zero, Nat.mod_add_mod]
  have hdata := hear_data (cfg := cfg) (c := c) (n := n + (opcBufWrite q :: addrBytes a).length) (takes_hear ht _) hrec hl
  simp only [addrOf_bytes, List.length_nil, hoffset, hhdr] at hdata
  rw [hear_append]
  exact hdata

/-- R82, R150: the chip after a whole buffer-write frame. -/
theorem issue_write {cfg : Config} {c : Nat} {b b' : Bus} {q : Parity} {a : AddrField} {data is : List Byte}
    (h : issue cfg c (opcBufWrite q :: addrBytes a ++ data) 0 0 b = .ok is b') (hc : c < b.chips.length)
    (ht : (b.chip c).Takes q) (hl : data.length ≤ cfg.pageSize) :
    (∀ j v, data[j]? = some v → (b'.chip c).bufByte c q ((a.toNat + j) % cfg.pageSize) = v) ∧
    (∀ r o, ¬ (r = q ∧ ∃ j, j < data.length ∧ o = (a.toNat + j) % cfg.pageSize) →
      (b'.chip c).bufByte c r o = (b.chip c).bufByte c r o) ∧ b.SameArray c b' := by
  have hch := issue_chips h c
  rw [Bus.getElem?_chip hc, Option.map_some, if_pos rfl, frameOuts, dummies_zero, List.append_nil, List.append_nil] at hch
  have hd := Bus.chip_of_getElem? hch
  rw [Chip.deselect_write (q := q) (rest := addrBytes a ++ data) (by simp [Chip.hear_received])] at hd
  obtain ⟨hstored, hrest⟩ := Chip.hear_write (cfg := cfg) (c := c) (n := b.tick + 1) (a := a)
    (ch := ((b.chip c).settle c b.tick).select) ht.settle (Chip.select_received _) hl
  rw [Bus.SameArray, hd]
  refine ⟨fun j v hj => ?_, fun r o ho => ?_, fun x => ?_, fun d hd => ?_⟩
  · rw [Chip.settle_bufByte, hstored j v hj]
  · rw [Chip.settle_bufByte, hrest r o ho]
    exact Chip.bufByte_congr (by simp) r o
  · exact Chip.mainByte_congr (by simp) x
  · simpa using hd

section Frames

variable {s : State} {c : ChipField} {q : Parity} {b : Bus}

/-- R82: the buffer-write frame of buffer `q`, sent alone. -/
theorem write_exec {data is : List Byte} (hi : s.idle = true) (hc : c.toNat < s.cfg.chips)
    (hl : data.length ≤ s.cfg.pageSize)
    (h : issue s.cfg c.toNat (opcBufWrite q :: addrBytes 0 ++ data) 0 0 s.bus = .ok is b) :
    ∃ t, exec (writeInstr q c 0 data) s = .next t ∧ t.bus = b := by
  have hcheck : (decide (data.length ≤ s.cfg.pageSize) && isBufferField 0) = true := by simp [hl]
  have hproc : noData (fun b => (issue s.cfg c.toNat (opcBufWrite q :: addrBytes 0 ++ data) 0 0 b).andThen
      fun _ b => .ok () b) s.bus = .ok [] b := noData_ok (by rw [h, Res.andThen_ok])
  cases q with
  | a => exact exec_frame (i := .spiBuf1Write c 0 data) rfl (by simp) (frameChecks_none hcheck hi hc) hproc
  | b => exact exec_frame (i := .spiBuf2Write c 0 data) rfl (by simp) (frameChecks_none hcheck hi hc) hproc

/-- R85, log 12: the buffer-read frame of buffer `q`, sent alone, answers with its response bytes. -/
theorem read_exec {data : List Byte} (hi : s.idle = true) (hc : c.toNat < s.cfg.chips)
    (h : issue s.cfg c.toNat (opcBufRead q :: addrBytes 0) s.cfg.bufReadDummy s.cfg.pageSize s.bus = .ok data b) :
    ∃ t, exec (readInstr q c 0) s = .next t ∧ t.bus = b ∧ t.responses = s.responses ++ [okResponse data] := by
  have hcheck := frameChecks_none (s := s) (c := c) isBufferField_zero hi hc
  cases q with
  | a => exact ⟨_, perform_ok hcheck (State.onBus_ok h), rfl, rfl⟩
  | b => exact ⟨_, perform_ok hcheck (State.onBus_ok h), rfl, rfl⟩

end Frames

/-- Settles O55: the header is stored nowhere, each data byte at its offset. -/
theorem bufferWriteFrameStoresItsData : Obligations.BufferWriteFrameStoresItsData := by
  unfold Obligations.BufferWriteFrameStoresItsData
  intro s c a data q hI hi hc hf hl ht
  obtain ⟨is, b, hissue⟩ := issue_ok (c := c.toNat) hf (opcBufWrite q :: addrBytes a ++ data) 0 0 s.bus
  refine ⟨b, is, hissue, ?_, issue_write hissue (hI.chip_lt hc) ht hl⟩
  rintro rfl
  exact write_exec hi hc hl hissue

/-! Reads. -/

/-- R155: `READ_STATUS` answers the status byte, in its data and in its word. -/
theorem readStatus_exec {s : State} {c : ChipField} {v : Byte} {b : Bus} (hi : s.idle = true) (hc : c.toNat < s.cfg.chips)
    (h : statusRead s.cfg c.toNat s.bus = .ok v b) :
    exec (.readStatus c) s = .next { s with bus := b, responses := s.responses ++ [okResponse [v] v] } := by
  refine perform_ok (data := [v]) (low := lowStatus) (t := { s with bus := b }) (transportChecks_none hi hc) ?_
  rw [State.onBus_ok h, Res.andThen_ok]

/-- Settles O56: the reference chip's answers to a buffer read and to a status read. -/
theorem chipsAnswerReads : Obligations.ChipsAnswerReads := by
  unfold Obligations.ChipsAnswerReads
  intro s c a q hI hi hc hf ha
  have hlt := hI.chip_lt hc
  refine ⟨?bufferRead, ?statusRead⟩
  case bufferRead =>
    obtain ⟨b, hissue⟩ := issue_read hf (q := q) (a := a) ha hlt s.cfg.pageSize
    refine ⟨b, _, hissue, rfl, ?_⟩
    rintro rfl
    exact read_exec hi hc hissue
  case statusRead =>
    obtain ⟨v, b, hread, -, -, hbusy, hready, hmain, -, hdoubts, -⟩ := statusRead_answer hf ha hlt
    refine ⟨_, v, readStatus_exec hi hc hread, rfl, hready, fun hv => ⟨hbusy hv, fun p o => ?_⟩, fun hv p o => ?_⟩
    · rw [if_pos hv] at hdoubts
      exact (Chip.arrayByte_of_no_doubts hdoubts _ p o).trans (Chip.mainByte_congr hmain _)
    · rw [if_neg (by simp [hv])] at hdoubts
      exact Chip.arrayByte_congr hmain hdoubts _ p o

/-! A chip that stays busy. -/

/-- R89: a busy chip starts nothing at the end of a frame. -/
theorem Chip.deselect_busy {cfg : Config} {c : Nat} {ch : Chip} (h : ch.busy = true) : ch.deselect cfg c = ch :=
  if_pos h

/-- R80, R89: a four-byte frame on a chip that stays busy through its six bus events. -/
theorem issueBusy_still {cfg : Config} {c : Nat} {b : Bus} {hdr : List Byte} {later : List Bool}
    (hf : cfg.hasBusFault = false) (hl : hdr.length = 4) (hc : c < b.chips.length) (hb : (b.chip c).busy = true)
    (hfin : (b.chip c).finish = List.replicate 6 false ++ later) :
    ∃ b', issueBusy cfg c hdr b = .ok () b' ∧ (b'.chip c).busy = true ∧ b.SameMemory c b' := by
  obtain ⟨resp, b', hissue⟩ := issue_ok (c := c) hf hdr 0 0 (b.noteBusyFrame c)
  refine ⟨b', by rw [issueBusy, hissue, Res.andThen_ok], ?_⟩
  have hch := issue_chips hissue c
  have hnote : (b.noteBusyFrame c).chips[c]? = some { b.chip c with knownReady := false } := by
    rw [Bus.noteBusyFrame, Bus.onChip_getElem?]
    simp [Bus.getElem?_chip hc]
  rw [hnote, Option.map_some, if_pos rfl, frameOuts, dummies_zero, List.append_nil, List.append_nil] at hch
  have hd := Bus.chip_of_getElem? hch
  obtain ⟨hb1, hfin1⟩ := Chip.settle_still (c := c) (n := (b.noteBusyFrame c).tick)
    (ch := { b.chip c with knownReady := false }) hb hfin
  obtain ⟨hb2, hfin2⟩ := Chip.hear_still (cfg := cfg) (c := c) (n := (b.noteBusyFrame c).tick + 1)
    (ch := Chip.select _) (later := false :: later) hdr hb1 (by rw [hl]; exact hfin1)
  obtain ⟨hb3, -⟩ := Chip.settle_still (c := c) (n := (b.noteBusyFrame c).tick + 1 + (hdr.length + 0 + 0)) hb2 hfin2
  rw [Chip.deselect_busy hb3] at hd
  have hsame : Chip.SameBytes c (b.chip c) (b'.chip c) := by
    rw [hd]
    refine Chip.sameBytes_of_memories (by simp) (fun q => ?_) (by simp)
    rw [Chip.settle_buf, Chip.hear_buf_of_short (by simp [hl]), Chip.select_buf, Chip.settle_buf]
    exact Chip.buf_congr rfl rfl q
  exact ⟨hd ▸ hb3, hsame⟩

/-- R83, R84, R86 to R88: an instruction that sends one frame which makes the chip busy. Only the hazard bits of the bus it is sent
on can differ from the state's (U9). -/
theorem busyFrame_exec {s : State} {c : ChipField} {a : AddrField} {q : Parity} {i : Instr} (hi : s.idle = true)
    (hc : c.toNat < s.cfg.chips) (ha : isPageField s.cfg a = true)
    (h : i = commitInstr s.cfg q c a ∨ i = transferInstr q c a ∨ i = .spiPageErase c a ∨ i = .spiSectorErase c a ∨
      i = .spiChipErase c) :
    ∃ (hdr : List Byte) (b0 : Bus), hdr.length = 4 ∧ b0.chips = s.bus.chips ∧
      ∀ b, issueBusy s.cfg c.toNat hdr b0 = .ok () b → ∃ t, exec i s = .next t ∧ t.bus = b := by
  rcases h with rfl | rfl | rfl | rfl | rfl
  · exact ⟨opcCommit s.cfg q :: addrBytes a, s.bus.noteCommit s.cfg c.toNat (decodePage s.cfg a), rfl, rfl,
      fun _ => commit_exec hi hc q ha⟩
  · exact ⟨opcPageToBuf q :: addrBytes a, s.bus, rfl, rfl, fun _ => transfer_exec hi hc ha⟩
  · exact ⟨opcPageErase :: addrBytes a, s.bus, rfl, rfl, fun _ => erase_exec hi hc (.inl ⟨.inl rfl, ha⟩) rfl⟩
  · exact ⟨opcSectorErase :: addrBytes a, s.bus, rfl, rfl, fun _ => erase_exec hi hc (.inl ⟨.inr rfl, ha⟩) rfl⟩
  · exact ⟨chipEraseFrame, s.bus, rfl, rfl, fun _ => erase_exec (a := a) hi hc (.inr rfl) rfl⟩

/-- Settles O57: busy at its `Desel`, the chip does not act on the frame. -/
theorem busyChipIgnoresFrames : Obligations.BusyChipIgnoresFrames := by
  unfold Obligations.BusyChipIgnoresFrames
  intro s c a q later hdr hI hi hc hf hb hfin hhdr
  refine ⟨issueBusy_still hf ?length (hI.chip_lt hc) hb hfin, fun i p hp ha hinstr => ?instruction⟩
  case length => rcases hhdr with rfl | rfl | rfl | rfl | rfl <;> rfl
  case instruction =>
    obtain ⟨hdr', b0, hl, hchips, hexec⟩ := busyFrame_exec hi hc (isPageField_of_encode hI ⟨p, hp, ha⟩) hinstr
    have hchip : b0.chip c.toNat = s.bus.chip c.toNat := by rw [Bus.chip, hchips, Bus.chip]
    obtain ⟨b, hissue, hbusy, hsame⟩ := issueBusy_still (b := b0) hf hl (hchips.symm ▸ hI.chip_lt hc) (hchip ▸ hb)
      (hchip ▸ hfin)
    obtain ⟨t, ht, rfl⟩ := hexec b hissue
    exact ⟨t, ht, hbusy, by simpa only [Bus.SameMemory, Bus.SameArray, Bus.SameBuffers, hchip] using hsame⟩

end Sys2Proof.Machine
end

section
/-! What a `WRITE_BYTE` stores in the open buffer (R66, R82), what one that fills a page programs (R83, R184), and what a
`READ_PAGE` loads and returns (R84, R85, R186). -/

namespace Sys2Proof.Machine

/-! Procedures that store nothing and confirm nothing. -/

/-- Both memories of a chip and the pages in doubt are those of `ch0`. -/
def Chip.SameContents (ch0 ch : Chip) : Prop :=
  ch.main = ch0.main ∧ (∀ q, ch.buf q = ch0.buf q) ∧ ch.doubts = ch0.doubts

theorem kept_sameContents (cfg : Config) (d : Nat) (ch0 : Chip) :
    Kept cfg d StoresNothing (Chip.SameContents ch0) where
  settle n ch h := ⟨(Chip.settle_main d n ch).trans h.1, fun q => (Chip.settle_buf d n ch q).trans (h.2.1 q),
    (Chip.settle_doubts d n ch).trans h.2.2⟩
  select ch h := ⟨h.1, fun q => (Chip.select_buf ch q).trans (h.2.1 q), h.2.2⟩
  receive o ch h hq := ⟨(Chip.receive_main cfg o ch).trans h.1,
    fun q => by rw [Chip.receive_buf, hq.storesAt]; exact h.2.1 q, (Chip.receive_doubts cfg o ch).trans h.2.2⟩
  deselect ch h hq := by rw [hq.deselect]; exact h
  nil := .inl rfl
  cut _ _ h := h.cut

theorem engOpen_ok {c : Nat} {s : State} (hf : s.cfg.hasBusFault = false) : ∃ b, engOpen c s = .ok () { s with bus := b } := by
  obtain ⟨is, b, h⟩ := transferBlock_ok (c := c) hf (openFrame (s.handle c).par) (s.bus.sel c)
  refine ⟨b, ?_⟩
  rw [engOpen, State.onBus_ok (f := fun b => transferBlock s.cfg c (openFrame (s.handle c).par) (b.sel c)) h, Res.andThen_ok]

/-- R11, R153: without bus faults a poll fails in a timeout alone, and no select is asserted then. -/
theorem pollReady_raise {cfg : Config} {c d : Nat} {e : ErrorKind} {b b' : Bus} (hf : cfg.hasBusFault = false)
    (hcs : b.cs = none) (h : pollReady cfg c b = .raise e d b') : e = .deviceTimeout ∧ b'.cs = none := by
  obtain ⟨-, -, -, ⟨he, hsel, -⟩ | ⟨-, hfault, -⟩⟩ := (pollLoop_post (cfg := cfg) (c := c) cfg.pollLimit b).of_eq_raise h
  · refine ⟨he, hsel.elim id ?_⟩
    rintro ⟨-, rfl⟩
    exact hcs
  · rw [hf] at hfault
    cases hfault

/-! `WRITE_BYTE`. -/

section Write

variable {s : State} {v : Byte}

theorem writeChecks_none (hf : s.filling = true) (hp : (s.handle s.curW).wpage < s.cfg.numPages) :
    firstError (writeChecks s) = none := by
  simp [writeChecks, hf, hp]

/-- R211: a byte within a page. -/
theorem writeBody_within {b : Bus} (hsend : engSend s.curW v s = .ok () { s with bus := b })
    (hsoff : s.soff + 1 < s.cfg.pageSize) :
    ∃ w, writeBody v s = .ok [] w ∧ w.soff = s.soff + 1 ∧ w.bus = b := by
  refine ⟨{ State.onHandle s.curW Handle.fed { s with bus := b } with soff := s.soff + 1 }, ?_, rfl, rfl⟩
  rw [writeBody, hsend, Res.andThen_ok]
  exact if_pos hsoff

end Write

/-- Settles O58: the byte goes out on the open frame, whose next offset is `soff`. -/
theorem writeByteStoresOneByte : Obligations.WriteByteStoresOneByte := by
  unfold Obligations.WriteByteStoresOneByte
  intro s v hI hfill hp hsoff hf ht
  obtain ⟨b, hsend, -, -, -, -, hmain, hdoubts, -, hbuf⟩ := send_chip hI hfill hf ht v
  obtain ⟨w, hw, hwsoff, rfl⟩ := writeBody_within hsend hsoff
  exact ⟨_, perform_ok (writeChecks_none hfill hp) hw, hwsoff, hbuf,
    fun x => Chip.mainByte_congr hmain x, fun d hd => hdoubts ▸ hd⟩

section PageEnd

variable {s : State} {v : Byte}

theorem writeBody_pageEnd {b : Bus} (hsend : engSend s.curW v s = .ok () { s with bus := b })
    (hsoff : s.soff + 1 = s.cfg.pageSize) : writeBody v s = pageAdvance s.curW { s with bus := b } := by
  rw [writeBody, hsend, Res.andThen_ok]
  exact if_neg (by show ¬ s.soff + 1 < s.cfg.pageSize; omega)

/-- R89, R184 step 1: the end of the open frame leaves what the chip holds. -/
theorem desel_write_contents {cfg : Config} {c : Nat} {b : Bus} {q : Parity} (hc : c < b.chips.length)
    (hr : ∃ rest, (b.chip c).received = opcBufWrite q :: rest) :
    Chip.SameContents (b.chip c) ((b.desel cfg c).chip c) ∧ ((b.desel cfg c).chip c).commits = (b.chip c).commits := by
  obtain ⟨rest, hr⟩ := hr
  have hd : (b.desel cfg c).chip c = (b.chip c).settle c b.tick := by
    refine Bus.chip_of_getElem? ?_
    rw [Bus.desel_getElem?, Bus.getElem?_chip hc, Option.map_some, if_pos rfl]
    exact congrArg some (Chip.deselect_write (q := q) (rest := rest) (by simpa using hr))
  rw [hd]
  exact ⟨⟨by simp, by simp, by simp⟩, by simp⟩

@[simp] theorem Chip.commit_buf (cfg : Config) (c : Nat) (q r : Parity) (p : Nat) (ch : Chip) :
    (ch.commit cfg c q p).buf r = ch.buf r := Chip.buf_congr rfl rfl r

/-- Chips that hold the same commit the same. -/
theorem Chip.SameContents.commit {cfg : Config} {c p : Nat} {q : Parity} {ch0 ch : Chip} (h : Chip.SameContents ch0 ch)
    (hcommits : ch.commits = ch0.commits) : Chip.SameContents (ch0.commit cfg c q p) (ch.commit cfg c q p) := by
  obtain ⟨hmain, hbuf, hdoubts⟩ := h
  have hpage : ch.bufPage cfg c q = ch0.bufPage cfg c q := List.map_congr_left fun o _ => Chip.bufByte_congr hbuf q o
  refine ⟨?_, fun r => by rw [Chip.commit_buf, Chip.commit_buf, hbuf], ?_⟩
  · simp only [Chip.commit, hmain, hpage]
  · simp only [Chip.commit, hcommits, hdoubts]

/-- R184 with the reference chips: the poll that ends well confirms what was committed before, and the commit frame follows; a
poll that runs out leaves the main array. -/
theorem engCommit_answer {c : Nat} (hv : s.cfg.valid = true) (hf : s.cfg.hasBusFault = false) (ha : s.bus.answers = [])
    (hbank : c < s.handles.length) (hc : c < s.bus.chips.length) (hp : (s.handle c).wpage < s.cfg.numPages)
    (hr : ∃ rest, (s.bus.chip c).received = opcBufWrite (s.handle c).par :: rest) :
    (engCommit c s).Post
      (fun _ u => u.cfg = s.cfg ∧ u.bus.Has c
        (Chip.SameContents ((s.bus.chip c).confirmed.commit s.cfg c (s.handle c).par (s.handle c).wpage)))
      (fun e _ u => e = .deviceTimeout ∧ u.bus.cs = none ∧ (u.bus.chip c).main = (s.bus.chip c).main ∧
        (u.bus.chip c).doubts = (s.bus.chip c).doubts) := by
  obtain ⟨⟨hmain, hbuf, hdoubts⟩, hcommits⟩ := desel_write_contents (cfg := s.cfg) hc hr
  have hpoll := pollLoop_answer (c := c) hf s.cfg.pollLimit (b := s.bus.desel s.cfg c) ha (by rwa [Bus.desel_length])
  rw [engCommit_eq hbank]
  cases hpr : pollReady s.cfg c (s.bus.desel s.cfg c) with
  | raise e d b1 =>
    obtain ⟨-, hmain1, hdoubts1⟩ := hpoll.of_eq_raise hpr
    obtain ⟨he, hcs⟩ := pollReady_raise hf rfl hpr
    exact ⟨he, hcs, hmain1.trans hmain, hdoubts1.trans hdoubts⟩
  | ok a b1 =>
    obtain ⟨-, hlen1, hready, hmain1, hbuf1, hdoubts1, hcommits1⟩ := hpoll.of_eq_ok hpr
    rw [Bus.desel_length] at hlen1
    obtain ⟨b2, ch2, hissue, -, -, -, hchip, hb2, hrec, hmain2, hbuf2, hdoubts2, hcommits2⟩ :=
      issueBusy_ready (b := b1.noteCommit s.cfg c (s.handle c).wpage) hf
        (hdr := commitFrame s.cfg (s.handle c).par (s.handle c).wpage) rfl (hlen1.symm ▸ hc) hready
    rw [Chip.deselect_commit hb2 hrec, addrOf_bytes, decodePage_encodePage hv hp] at hchip
    simp only [hissue]
    refine ⟨rfl, fun ch hch => ?_⟩
    rw [← Bus.chip_of_getElem? hch]
    show Chip.SameContents _ (b2.chip c)
    rw [hchip]
    refine Chip.SameContents.commit ⟨?_, fun q => ?_, ?_⟩ ?_
    · exact hmain2.trans (hmain1.trans hmain)
    · exact (hbuf2 q).trans ((hbuf1 q).trans ((hbuf q).trans (Chip.confirmed_buf _ q).symm))
    · exact hdoubts2.trans hdoubts1
    · exact hcommits2.trans (hcommits1.trans hcommits)

/-- R184, R211 with the reference chips: the page-full sequence. The buffer opened next, on the same chip or on another, keeps its
bytes. -/
theorem pageAdvance_answer {c : Nat} (hv : s.cfg.valid = true) (hf : s.cfg.hasBusFault = false) (ha : s.bus.answers = [])
    (hbank : c < s.handles.length) (hc : c < s.bus.chips.length) (hp : (s.handle c).wpage < s.cfg.numPages)
    (hr : ∃ rest, (s.bus.chip c).received = opcBufWrite (s.handle c).par :: rest) :
    (pageAdvance c s).Post
      (fun _ w => w.bus.Has c
        (Chip.SameContents ((s.bus.chip c).confirmed.commit s.cfg c (s.handle c).par (s.handle c).wpage)))
      (fun e _ w => e = .deviceTimeout ∧ w.bus.cs = none ∧ (w.bus.chip c).main = (s.bus.chip c).main ∧
        (w.bus.chip c).doubts = (s.bus.chip c).doubts) := by
  refine (engCommit_answer hv hf ha hbank hc hp hr).andThen fun _ u ⟨hcfg, hu⟩ => ?_
  obtain ⟨b, hopen⟩ := engOpen_ok (c := nextChip u.cfg u.curW) (s := { u with soff := 0, curW := nextChip u.cfg u.curW })
    (by rw [← hcfg] at hf; exact hf)
  have hkeep := engOpen_keeps (c := nextChip u.cfg u.curW) (s := { u with soff := 0, curW := nextChip u.cfg u.curW })
    (kept_sameContents u.cfg c _) hu fun _ => storesNothing_open _
  rw [hopen] at hkeep
  simp only [hopen, Res.andThen_ok]
  exact hkeep.1

/-- R211 with the reference chips: a byte that fills the page of chip `curW`. `fed` is that chip with the byte in its buffer. -/
theorem writeBody_answer (hI : s.Inv) (hfill : s.filling = true) (hp : (s.handle s.curW).wpage < s.cfg.numPages)
    (hsoff : s.soff + 1 = s.cfg.pageSize) (hf : s.cfg.hasBusFault = false) (ha : s.bus.answers = [])
    (ht : (s.bus.chip s.curW).Takes (s.handle s.curW).par) (v : Byte) :
    ∃ fed : Chip, fed.main = (s.bus.chip s.curW).main ∧ fed.doubts = (s.bus.chip s.curW).doubts ∧
      fed.commits = (s.bus.chip s.curW).commits ∧
      (∀ q o, fed.bufByte s.curW q o =
        if q = (s.handle s.curW).par ∧ o = s.soff then v else (s.bus.chip s.curW).bufByte s.curW q o) ∧
      (writeBody v s).Post
        (fun _ w => w.bus.Has s.curW
          (Chip.SameContents (fed.confirmed.commit s.cfg s.curW (s.handle s.curW).par (s.handle s.curW).wpage)))
        (fun e _ w => e = .deviceTimeout ∧ w.bus.cs = none ∧ (w.bus.chip s.curW).main = fed.main ∧
          (w.bus.chip s.curW).doubts = fed.doubts) := by
  obtain ⟨b, hsend, hab, -, hlen, hrec, hmain, hdoubts, hcommits, hbuf⟩ := send_chip hI hfill hf ht v
  refine ⟨b.chip s.curW, hmain, hdoubts, hcommits, hbuf, ?_⟩
  rw [writeBody_pageEnd hsend hsoff]
  exact pageAdvance_answer (s := { s with bus := b }) hI.valid hf (by simpa [ha] using hab) (hI.bank_lt hI.curW_lt)
    (hlen.symm ▸ hI.chip_lt hI.curW_lt) hp hrec

end PageEnd

/-- R301, U4: an abort with no select asserted leaves the main arrays. -/
theorem abort_array {w : State} (hcs : w.bus.cs = none) (c : Nat) :
    (w.abort.bus.chip c).main = (w.bus.chip c).main ∧ (w.abort.bus.chip c).doubts = (w.bus.chip c).doubts := by
  rw [State.abort_bus, State.release_none hcs]
  split
  · exact ⟨rfl, rfl⟩
  · simp only [Bus.chip, Bus.loseBuffers_chips, List.getElem?_map]
    cases w.bus.chips[c]? <;> exact ⟨rfl, rfl⟩

/-- R17: one operation, one response. -/
theorem response_inj {l l' : List Response} {x y : Response} (h : l ++ [x] = l' ++ [y]) : x = y := by
  simpa using (List.append_inj' h rfl).2

/-- Settles O59: the last byte of the page, the poll, the commit frame, and the next buffer's header, which stores nothing. -/
theorem writeByteProgramsItsPage : Obligations.WriteByteProgramsItsPage := by
  unfold Obligations.WriteByteProgramsItsPage
  intro s t v hI hfill hp hsoff hf ha htakes hexec c h
  have hlen : c < t.bus.chips.length := by rw [(exec_shaped hI hexec).1]; exact hI.curW_lt
  obtain ⟨fed, hmain, hdoubts, hcommits, hbuf, hbody⟩ := writeBody_answer hI hfill hp hsoff hf ha htakes v
  rcases perform_cases (hexec : execWriteByte v s = .next t) with
    ⟨e, he, -⟩ | ⟨-, ⟨data, w, hw, rfl⟩ | ⟨e, d, w, hw, rfl⟩⟩
  · rw [writeChecks_none hfill hp] at he
    cases he
  · refine ⟨fun _ => ?programmed, fun hr => ?notTimeout⟩
    case notTimeout => cases congrArg Response.err (response_inj hr)
    case programmed =>
      obtain ⟨hmainW, hbufW, hdoubtsW⟩ := (hbody.of_eq_ok hw).chip hlen
      have hmainByte : ∀ p o, o < s.cfg.pageSize → (w.bus.chip c).mainByte c (mainAddr s.cfg p o) =
          if p = h.wpage then if o = s.soff then v else (s.bus.chip c).bufByte c h.par o
          else (s.bus.chip c).mainByte c (mainAddr s.cfg p o) := fun p o ho => by
        rw [Chip.mainByte_congr hmainW, Chip.commit_mainByte_page ho, Chip.bufByte_congr (Chip.confirmed_buf fed), hbuf,
          Chip.mainByte_congr ((Chip.confirmed_main fed).trans hmain)]
        simp only [h, c, true_and]
      refine ⟨hmainByte, fun p o ho => ?array, fun q o => ?buffers⟩
      case array =>
        rw [hmainByte p o ho, Chip.arrayByte_congr hmainW hdoubtsW, Chip.commit_arrayByte_page ho, Chip.confirmed_arrayByte,
          Chip.mainByte_congr hmain]
        split
        · exact congrArg (Config.doubtByte c · _) hcommits
        · rfl
      case buffers =>
        rw [Chip.bufByte_congr hbufW, Chip.commit_bufByte, Chip.bufByte_congr (Chip.confirmed_buf fed), hbuf]
  · refine ⟨fun hr => ?notOk, fun _ p o => ?kept⟩
    case notOk => cases congrArg Response.err (response_inj hr)
    case kept =>
      obtain ⟨-, hcs, hmainW, hdoubtsW⟩ := hbody.of_eq_raise hw
      obtain ⟨hmainA, hdoubtsA⟩ := abort_array hcs c
      have hmainT : (w.abort.bus.chip c).main = (s.bus.chip c).main := hmainA.trans (hmainW.trans hmain)
      exact ⟨Chip.mainByte_congr hmainT _,
        Chip.arrayByte_congr hmainT (hdoubtsA.trans (hdoubtsW.trans hdoubts)) c p o⟩

/-! `READ_PAGE`. -/

section Read

variable {cfg : Config} {c p : Nat} {b : Bus}

/-- R84: chips that hold the same load the same. -/
theorem transfer_sameBytes {ch0 ch : Chip} {q : Parity} (h : Chip.SameContents ch0 ch) :
    Chip.SameBytes c (ch0.transfer cfg c q p) (ch.transfer cfg c q p) := by
  obtain ⟨hmain, hbuf, hdoubts⟩ := h
  refine ⟨⟨fun x => ?_, fun d hd => ?_⟩, fun r o => ?_⟩
  · rw [Chip.transfer_mainByte, Chip.transfer_mainByte, Chip.mainByte_congr hmain]
  · rw [Chip.transfer_doubts] at hd ⊢
    rwa [hdoubts] at hd
  · rw [Chip.transfer_bufByte, Chip.transfer_bufByte, Chip.arrayByte_congr hmain hdoubts, Chip.bufByte_congr hbuf]

/-- R85, R186: once the transfer has loaded page `p`, the buffer read receives it. -/
theorem issue_read_transferred (hf : cfg.hasBusFault = false) (ha : b.answers = []) (hc : c < b.chips.length) {ch0 : Chip}
    (h : b.Has c (Chip.SameBytes c (ch0.transfer cfg c (.ofPage p) p))) :
    ∃ b', issue cfg c (readFrame p) cfg.bufReadDummy cfg.pageSize b =
        .ok ((List.range cfg.pageSize).map (ch0.arrayByte cfg c p)) b' ∧
      b'.Has c (Chip.SameBytes c (ch0.transfer cfg c (.ofPage p) p)) := by
  obtain ⟨b', hissue⟩ := issue_read hf (q := .ofPage p) (a := bufferStart) ha hc cfg.pageSize
  have hop : opcBufRead (.ofPage p) = opcBuf1Read ∨ opcBufRead (.ofPage p) = opcBuf2Read := by
    cases Parity.ofPage p
    · exact .inl rfl
    · exact .inr rfl
  have hkeep := (kept_sameBytes cfg c _).issue (c := c) (readFrame p) cfg.bufReadDummy cfg.pageSize h fun _ =>
    storesNothing_read hop _
  refine ⟨b', hissue.trans ?_, hkeep.of_eq_ok hissue⟩
  congr 1
  refine List.map_congr_left fun o ho => ?_
  have ho : o < cfg.pageSize := List.mem_range.1 ho
  rw [show (bufferStart.toNat + o) % cfg.pageSize = o by simp [bufferStart, Nat.mod_eq_of_lt ho], (h.chip hc).2,
    Chip.transfer_bufByte, if_pos ⟨rfl, ho⟩]

/-- R186 with the reference chips: on a ready chip the transfer loads the page, the poll and the buffer read change no byte, and
only the poll can fail. -/
theorem readProc_answer (hv : cfg.valid = true) (hf : cfg.hasBusFault = false) (ha : b.answers = [])
    (hc : c < b.chips.length) (hb : (b.chip c).busy = false) (hp : p < cfg.numPages) :
    (readProc cfg c p b).Post
      (fun data b' => b'.Has c (Chip.SameBytes c ((b.chip c).transfer cfg c (.ofPage p) p)) ∧
        data = (List.range cfg.pageSize).map ((b.chip c).arrayByte cfg c p))
      (fun _ _ b' => b'.cs = none ∧ b'.Has c (Chip.SameBytes c ((b.chip c).transfer cfg c (.ofPage p) p))) := by
  obtain ⟨b1, ch1, hissue, hcs1, hlen1, ha1, hchip, hb1, hrec, hmain, hbuf, hdoubts, -⟩ :=
    issueBusy_ready hf (hdr := transferFrame cfg p) rfl hc hb
  rw [Chip.deselect_transfer hb1 hrec, addrOf_bytes, decodePage_encodePage hv hp] at hchip
  have hloaded : b1.Has c (Chip.SameBytes c ((b.chip c).transfer cfg c (.ofPage p) p)) := fun ch hch => by
    rw [← Bus.chip_of_getElem? hch, hchip]
    exact transfer_sameBytes ⟨hmain, hbuf, hdoubts⟩
  have hpoll := (kept_sameBytes cfg c _).pollReady (c := c) (sameBytes_blind c _) hloaded hcs1 fun _ => storesNothing_status _
  rw [readProc, hissue, Res.andThen_ok]
  cases hpr : pollReady cfg c b1 with
  | raise e d b2 => exact ⟨(pollReady_raise hf hcs1 hpr).2, (hpoll.of_eq_raise hpr).1⟩
  | ok a b2 =>
    obtain ⟨ha2, hlen2, -⟩ := (pollLoop_answer hf _ (by rw [ha1, ha]; rfl) (hlen1.symm ▸ hc)).of_eq_ok hpr
    obtain ⟨b3, hread, hkept⟩ := issue_read_transferred hf ha2 (by omega) (hpoll.of_eq_ok hpr)
    rw [Res.andThen_ok, hread]
    exact ⟨hkept, rfl⟩

end Read

/-- R214, R256 with the reference chips: what `READ_PAGE` leaves of chip `curR`, however it ends, and what it answers. -/
theorem readPage_answer {s t : State} (hI : s.Inv) (hi : s.idle = true) (hp : (s.handle s.curR).rpage < s.cfg.numPages)
    (hf : s.cfg.hasBusFault = false) (ha : s.bus.answers = []) (hb : (s.bus.chip s.curR).busy = false)
    (h : exec .readPage s = .next t) :
    t.bus.Has s.curR (Chip.SameBytes s.curR ((s.bus.chip s.curR).transfer s.cfg s.curR
        (.ofPage (s.handle s.curR).rpage) (s.handle s.curR).rpage)) ∧
      ∀ r, t.responses = s.responses ++ [r] → r.err = none →
        r.data = (List.range s.cfg.pageSize).map ((s.bus.chip s.curR).arrayByte s.cfg s.curR (s.handle s.curR).rpage) := by
  have hproc := readProc_answer hI.valid hf ha (hI.chip_lt hI.curR_lt) hb hp
  have hcheck : firstError [(s.idle, ErrorKind.sequenceMisuse),
      (decide ((s.handle s.curR).rpage < s.cfg.numPages), ErrorKind.invalidAddress)] = none := by simp [hi, hp]
  have hbody : ∀ x, State.onBus (readProc s.cfg s.curR (s.handle s.curR).rpage) s = x → readBody s = x.andThen
      fun data w => .ok data { w.onHandle s.curR Handle.wasRead with
        curR := nextChip w.cfg w.curR, stream := w.stream ++ data } := fun x hx => by
    rw [readBody, engReadPage_eq, Res.andThen_assoc, hx]
    rfl
  cases hr : readProc s.cfg s.curR (s.handle s.curR).rpage s.bus with
  | ok data b =>
    obtain ⟨hbytes, rfl⟩ := hproc.of_eq_ok hr
    have hx := perform_ok hcheck (low := lowZero) (hbody _ (State.onBus_ok hr))
    obtain rfl := Host.Outcome.next.inj (hx.symm.trans h)
    refine ⟨hbytes, fun r hresp _ => ?_⟩
    rw [← response_inj hresp]
    rfl
  | raise e d b =>
    obtain ⟨hcs, hbytes⟩ := hproc.of_eq_raise hr
    have hx := perform_raise hcheck (low := lowZero) (hbody _ (State.onBus_raise hr))
    obtain rfl := Host.Outcome.next.inj (hx.symm.trans h)
    rw [takeError_idle_none hI hi hcs]
    refine ⟨hbytes, fun r hresp hok => ?_⟩
    rw [← response_inj hresp] at hok
    cases hok

/-- Settles O60: the page is in the buffer of its parity once the transfer has been sent, whether or not the poll ends well. -/
theorem readPageReturnsTheStoredPage : Obligations.ReadPageReturnsTheStoredPage := by
  unfold Obligations.ReadPageReturnsTheStoredPage
  intro s t hI hi hp hf ha hb hexec c p
  obtain ⟨hbytes, hdata⟩ := readPage_answer hI hi hp hf ha hb hexec
  have hlen : c < t.bus.chips.length := by rw [(exec_shaped hI hexec).1]; exact hI.curR_lt
  obtain ⟨⟨hmain, hdoubts⟩, hbuf⟩ := hbytes.chip hlen
  refine ⟨⟨fun x => (hmain x).trans (Chip.transfer_mainByte _ _ x), fun d hd => ?doubts⟩, fun q o => ?buffers, hdata⟩
  case doubts => simpa using hdoubts d hd
  case buffers => exact (hbuf q o).trans (Chip.transfer_bufByte _ q p o)

end Sys2Proof.Machine
end

section
/-! The two encodings (R100 to R113): the decoder on what the encoder writes, what a request that decodes encodes, and the host words
that decode to no operation. -/

namespace Sys2Proof

/-! The decoder on encodings. -/

theorem withAddress_addrBytes (a : AddrField) (f : AddrField → Instr) : withAddress (addrBytes a) f = .ok (f a) := by
  rw [addrBytes, withAddress, addrOf_bytes]

theorem withPayload_addrBytes (a : AddrField) {data : List Byte} (hl : data.length ≤ maxPayload)
    (f : AddrField → List Byte → Instr) : withPayload (addrBytes a ++ data) f = .ok (f a data) := by
  simp only [addrBytes, List.cons_append, List.nil_append, withPayload, if_pos hl, addrOf_bytes]

/-- Settles O1: a host word by its fields, a frame by its first byte and its address bytes. -/
theorem encodeThenDecode : Obligations.EncodeThenDecode := by
  unfold Obligations.EncodeThenDecode
  intro i hwf
  cases i with
  | startW | endW | readPage => rfl
  | writeByte b =>
    simp only [encode, decode, decodeWord, opField_hostWord, chipField_hostWord, argField_hostWord, byteArg_high, byteArg_low]
    rfl
  | eraseRange n | seekW n | seekR n | readStatus n | waitReady n | chipErase n =>
    simp [encode, decode, decodeWord, ifUnusedZero]
  | pageErase c p | sectorErase c p => simp [encode, decode, decodeWord]
  | reservedOp0 rest | reservedOpD rest | reservedOpE rest | reservedOpF rest =>
    simp [encode, decode, decodeWord, opField_reserved, rest_reserved]
  | spiStatusRead c | spiChipErase c => rfl
  | spiPageToBuf1 c a | spiPageToBuf2 c a | spiBuf1Read c a | spiBuf2Read c a | spiBuf1Commit c a | spiBuf1CommitAlt c a
  | spiBuf2Commit c a | spiBuf2CommitAlt c a | spiPageErase c a | spiSectorErase c a => exact withAddress_addrBytes a _
  | spiBuf1Write c a data | spiBuf2Write c a data => exact withPayload_addrBytes a (of_decide_eq_true hwf) _
  | spiIdRead c rest | spiSecurityRead c rest => rfl

/-! What a host word that decodes encodes, and why one does not decode. -/

section Words

variable {w : HostWord} {i : Instr}

/-- R111 to R113: a host word that decodes is the encoding of what it decodes to. -/
theorem encode_of_decodeWord (h : decodeWord w = .ok i) : i.wf = true ∧ encode i = .word w := by
  unfold decodeWord at h
  split at h
  case h_1 hop | h_3 hop | h_4 hop =>
    obtain ⟨hz, rfl⟩ := Machine.ifUnused_ok h
    rw [Bool.and_eq_true, beq_iff_eq, beq_iff_eq] at hz
    exact ⟨rfl, Machine.word_eq hop hz.1 hz.2⟩
  case h_2 hop =>
    obtain ⟨hz, rfl⟩ := Machine.ifUnused_ok h
    rw [Bool.and_eq_true, beq_iff_eq, beq_iff_eq] at hz
    exact ⟨rfl, Machine.word_eq hop hz.1 (byteArg_eq hz.2).symm⟩
  case h_5 hop | h_6 hop | h_7 hop =>
    obtain ⟨hz, rfl⟩ := Machine.ifUnused_ok h
    exact ⟨rfl, Machine.word_eq hop (beq_iff_eq.1 hz) rfl⟩
  case h_8 hop | h_9 hop | h_12 hop =>
    obtain ⟨hz, rfl⟩ := Machine.ifUnused_ok h
    exact ⟨rfl, Machine.word_eq hop rfl (beq_iff_eq.1 hz)⟩
  case h_10 hop | h_11 hop =>
    cases h
    exact ⟨rfl, Machine.word_eq hop rfl rfl⟩
  case h_13 hop | h_14 hop | h_15 hop =>
    cases h
    exact ⟨rfl, Machine.reservedWord_eq hop⟩
  case h_16 =>
    cases h
    have hop : (opField w).toNat = 0 := by have hlt := (opField w).isLt; grind
    exact ⟨rfl, Machine.reservedWord_eq hop⟩

/-- R113: a word is refused only where a field that must be 0 is not. -/
theorem ifUnused_error {z : Bool} {e : DecodeError} (h : ifUnusedZero z i = .error e) : z = false := by
  cases z with
  | true => cases h
  | false => rfl

/-- R113: the encoding of an operation that is not reserved has no bit set in a field that must be 0. -/
theorem reserved_of_malformed_encode (h : encode i = .word w) (hm : Machine.MalformedWord w) :
    ∃ rest, i = .reservedOp0 rest ∨ i = .reservedOpD rest ∨ i = .reservedOpE rest ∨ i = .reservedOpF rest := by
  cases i with
  | reservedOp0 rest | reservedOpD rest | reservedOpE rest | reservedOpF rest => exact ⟨rest, by simp⟩
  | startW | endW | readPage | eraseRange n | seekW n | seekR n | readStatus c | waitReady c | chipErase c | pageErase c p
  | sectorErase c p =>
    obtain rfl := Request.word.inj h
    simp [Machine.MalformedWord] at hm
  | writeByte b =>
    obtain rfl := Request.word.inj h
    have hb := byteArg_high b
    simp only [Machine.MalformedWord, opField_hostWord, chipField_hostWord, argField_hostWord, hb] at hm
    simp at hm
  | _ => cases h

/-- R111: field `op` from its value. -/
theorem opField_eq {n : Nat} (h : (opField w).toNat = n) : opField w = BitVec.ofNat 4 n := by
  rw [← h, BitVec.ofNat_toNat, BitVec.setWidth_eq]

/-- R113: a host word that does not decode has a bit set in a field that must be 0. -/
theorem malformed_of_decodeWord_error {e : DecodeError} (h : decodeWord w = .error e) : Machine.MalformedWord w := by
  unfold decodeWord at h
  split at h
  case h_1 hop | h_2 hop | h_3 hop | h_4 hop =>
    have hz := ifUnused_error h
    rw [Bool.and_eq_false_iff, beq_eq_false_iff_ne, beq_eq_false_iff_ne] at hz
    simpa [Machine.MalformedWord, opField_eq hop] using hz
  case h_5 hop | h_6 hop | h_7 hop | h_8 hop | h_9 hop | h_12 hop =>
    have hz := ifUnused_error h
    rw [beq_eq_false_iff_ne] at hz
    simpa [Machine.MalformedWord, opField_eq hop] using hz
  case h_10 | h_11 | h_13 | h_14 | h_15 | h_16 => cases h

end Words

/-! What a frame that decodes encodes. -/

section Frames

variable {c : ChipField} {op : Byte} {rest bytes : List Byte} {i : Instr}

/-- R103, R105: a frame of an opcode and three address bytes. -/
theorem encode_of_withAddress {f : AddrField → Instr} (h : withAddress rest f = .ok i)
    (hf : ∀ a, (f a).wf = true ∧ encode (f a) = .frame c (op :: addrBytes a)) :
    i.wf = true ∧ encode i = .frame c (op :: rest) := by
  obtain ⟨a, rfl, rfl⟩ := Machine.withAddress_ok h
  exact hf a

/-- R104: a frame of an opcode, three address bytes and data. -/
theorem encode_of_withPayload {f : AddrField → List Byte → Instr} (h : withPayload rest f = .ok i)
    (hf : ∀ a data, (f a data).wf = decide (data.length ≤ maxPayload) ∧
      encode (f a data) = .frame c (op :: addrBytes a ++ data)) :
    i.wf = true ∧ encode i = .frame c (op :: rest) := by
  obtain ⟨a, data, hl, rfl, rfl⟩ := Machine.withPayload_ok h
  obtain ⟨hwf, henc⟩ := hf a data
  exact ⟨hwf.trans (decide_eq_true hl), henc⟩

/-- R107: the first byte of a frame that decodes, by what may follow it. -/
theorem opcode_of_decodeFrame (h : decodeFrame c (op :: rest) = .ok i) :
    op ∈ [opcPageToBuf1, opcPageToBuf2, opcBuf1Read, opcBuf2Read, opcBuf1Commit, opcBuf1CommitAlt, opcBuf2Commit, opcBuf2CommitAlt,
      opcPageErase, opcSectorErase] ∨
    op ∈ [opcBuf1Write, opcBuf2Write] ∨ op = opcStatusRead ∨ op :: rest = chipEraseFrame ∨ op ∈ [opcIdRead, opcSecurityRead] := by
  by_contra hn
  simp only [List.mem_cons, List.not_mem_nil, or_false, not_or] at hn
  simp only [decodeFrame, hn, if_false] at h
  cases h

/-- R100 to R107, R110: a frame that decodes is the encoding of what it decodes to. -/
theorem encode_of_decodeFrame (h : decodeFrame c bytes = .ok i) : i.wf = true ∧ encode i = .frame c bytes := by
  cases bytes with
  | nil => cases h
  | cons op rest =>
    rcases opcode_of_decodeFrame h with hop | hop | rfl | hbytes | hop
    · simp only [List.mem_cons, List.not_mem_nil, or_false] at hop
      rcases hop with rfl | rfl | rfl | rfl | rfl | rfl | rfl | rfl | rfl | rfl <;>
        exact encode_of_withAddress h fun _ => ⟨rfl, rfl⟩
    · simp only [List.mem_cons, List.not_mem_nil, or_false] at hop
      rcases hop with rfl | rfl <;> exact encode_of_withPayload h fun _ _ => ⟨rfl, rfl⟩
    · cases rest with
      | nil => cases h; exact ⟨rfl, rfl⟩
      | cons x rest => cases h
    · rw [hbytes] at h ⊢
      cases h
      exact ⟨rfl, rfl⟩
    · simp only [List.mem_cons, List.not_mem_nil, or_false] at hop
      rcases hop with rfl | rfl <;> · cases h; exact ⟨rfl, rfl⟩

end Frames

/-- Settles O2: for a word by its op, for a frame by its first byte. -/
theorem decodedRequestsAreEncodings : Obligations.DecodedRequestsAreEncodings := by
  unfold Obligations.DecodedRequestsAreEncodings
  intro r i h
  cases r with
  | word w => exact encode_of_decodeWord h
  | frame c bytes => exact encode_of_decodeFrame h

/-- Settles O3: a malformed word that decodes is reserved, since no other encoding is malformed. -/
theorem malformedWordsAreRefused : Obligations.MalformedWordsAreRefused := by
  unfold Obligations.MalformedWordsAreRefused
  refine ⟨fun w s hm => ?refused, fun w hm => ?decodes⟩
  case refused =>
    cases hd : decode (.word w) with
    | error e => exact Machine.serve_of_decode_error hd
    | ok i =>
      rw [Machine.serve_of_decode hd]
      obtain ⟨rest, rfl | rfl | rfl | rfl⟩ := reserved_of_malformed_encode (encode_of_decodeWord hd).2 hm
      all_goals rfl
  case decodes =>
    cases hd : decode (.word w) with
    | error e => exact absurd (malformed_of_decodeWord_error hd) hm
    | ok i => exact ⟨i, rfl, (encode_of_decodeWord hd).2⟩

/-- Settles O4: each request by evaluation, the commit opcodes for each value of `COMMIT_VARIANT`. -/
theorem specWordsDecode : Obligations.SpecWordsDecode := by
  unfold Obligations.SpecWordsDecode
  refine ⟨by decide, by decide, by decide, by decide, by decide, by decide, by decide, fun cfg hv => ?pair0, fun cfg hv => ?pair1⟩
  case pair0 => simp [Machine.opcCommit, hv, opcBuf1Commit, opcBuf2Commit]
  case pair1 => simp [Machine.opcCommit, hv, opcBuf1CommitAlt, opcBuf2CommitAlt]

end Sys2Proof
end

section
/-! The single SPI frames (R100 to R110, R150, R160, R162): what each is checked for, and what it sends and answers. -/

namespace Sys2Proof.Machine

/-! Each kind of frame as its checks and its bus procedure. -/

section Kinds

variable (s : State) (q : Parity) (c : ChipField) (a : AddrField) (data : List Byte)

theorem exec_transferInstr : exec (transferInstr q c a) s =
    perform (frameChecks (isPageField s.cfg a) c s) lowZero
      (busBody (issueBusy s.cfg c.toNat (opcPageToBuf q :: addrBytes a))) s := by
  cases q <;> rfl

/-- R9: of the pair `COMMIT_VARIANT` selects. -/
theorem exec_commitInstr : exec (commitInstr s.cfg q c a) s =
    perform (frameChecks (isPageField s.cfg a) c s) lowZero
      (busBody fun b => issueBusy s.cfg c.toNat (opcCommit s.cfg q :: addrBytes a)
        (b.noteCommit s.cfg c.toNat (decodePage s.cfg a))) s := by
  cases q <;> cases hv : s.cfg.commitVariant <;>
    simp [commitInstr, opcCommit, hv, exec, execSpiBuf1Commit, execSpiBuf1CommitAlt, execSpiBuf2Commit, execSpiBuf2CommitAlt, commitOp]

theorem exec_writeInstr : exec (writeInstr q c a data) s =
    perform (frameChecks (decide (data.length ≤ s.cfg.pageSize) && isBufferField a) c s) lowZero
      (busBody fun b => (issue s.cfg c.toNat (opcBufWrite q :: addrBytes a ++ data) 0 0 b).andThen fun _ b => .ok () b) s := by
  cases q <;> rfl

theorem exec_readInstr : exec (readInstr q c a) s =
    perform (frameChecks (isBufferField a) c s) lowZero
      (State.onBus (issue s.cfg c.toNat (opcBufRead q :: addrBytes a) s.cfg.bufReadDummy s.cfg.pageSize)) s := by
  cases q <;> rfl

end Kinds

/-! The checks (R107 to R110, R162). -/

/-- Instruction `i` has the checks of a frame of chip `c`, one the block emits if `emitted`. -/
def ChecksFrame (s : State) (i : Instr) (c : ChipField) (emitted : Bool) : Prop :=
  ∃ low body, exec i s = perform (frameChecks emitted c s) low body s

section Checks

variable {s : State} {i : Instr} {q : Parity} {c : ChipField} {a : AddrField} {data : List Byte} {e : Bool}

theorem ChecksFrame.refused_of_error {k : ErrorKind} (h : ChecksFrame s i c e) (hk : firstError (frameChecks e c s) = some k) :
    exec i s = .next { s with responses := s.responses ++ [errResponse k 0] } := by
  obtain ⟨low, body, hx⟩ := h
  rw [hx, perform_refused hk]

theorem ChecksFrame.not_emitted (h : ChecksFrame s i c e) (he : e = false) :
    exec i s = .next { s with responses := s.responses ++ [errResponse .sequenceMisuse 0] } :=
  h.refused_of_error (by rw [he]; rfl)

theorem ChecksFrame.not_idle (h : ChecksFrame s i c true) (hi : s.idle = false) :
    exec i s = .next { s with responses := s.responses ++ [errResponse .sequenceMisuse 0] } :=
  h.refused_of_error (by simp [frameChecks, transportChecks, hi])

theorem ChecksFrame.no_chip (h : ChecksFrame s i c true) (hi : s.idle = true) (hc : s.cfg.chips ≤ c.toNat) :
    exec i s = .next { s with responses := s.responses ++ [errResponse .invalidAddress 0] } :=
  h.refused_of_error (by simp [frameChecks, transportChecks, chipInRange, hi, Nat.not_lt.2 hc])

/-- R108: the frames of format `SA`. -/
theorem checksFrame_page (h : i = transferInstr q c a ∨ i = commitInstr s.cfg q c a ∨ i = .spiPageErase c a ∨
      i = .spiSectorErase c a) :
    ChecksFrame s i c (isPageField s.cfg a) := by
  rcases h with rfl | rfl | rfl | rfl
  · exact ⟨_, _, exec_transferInstr s q c a⟩
  · exact ⟨_, _, exec_commitInstr s q c a⟩
  · exact ⟨_, _, rfl⟩
  · exact ⟨_, _, rfl⟩

/-- R109: the frames of format `SR`. -/
theorem checksFrame_read : ChecksFrame s (readInstr q c a) c (isBufferField a) := ⟨_, _, exec_readInstr s q c a⟩

/-- R109, R110: the frames of format `SW`. -/
theorem checksFrame_write :
    ChecksFrame s (writeInstr q c a data) c (decide (data.length ≤ s.cfg.pageSize) && isBufferField a) :=
  ⟨_, _, exec_writeInstr s q c a data⟩

/-- R107: the commit frames of the pair that `COMMIT_VARIANT` does not select. -/
theorem checksFrame_otherPair (h : s.cfg.commitVariant = true ∧ (i = .spiBuf1Commit c a ∨ i = .spiBuf2Commit c a) ∨
    s.cfg.commitVariant = false ∧ (i = .spiBuf1CommitAlt c a ∨ i = .spiBuf2CommitAlt c a)) : ChecksFrame s i c false := by
  rcases h with ⟨hv, rfl | rfl⟩ | ⟨hv, rfl | rfl⟩
  · exact ⟨lowZero, _, by rw [exec, execSpiBuf1Commit, commitOp, hv]; rfl⟩
  · exact ⟨lowZero, _, by rw [exec, execSpiBuf2Commit, commitOp, hv]; rfl⟩
  · exact ⟨lowZero, _, by rw [exec, execSpiBuf1CommitAlt, commitOp, hv]; rfl⟩
  · exact ⟨lowZero, _, by rw [exec, execSpiBuf2CommitAlt, commitOp, hv]; rfl⟩

/-- R108: a field that is `encode(p)` of no page. -/
theorem isPageField_eq_false {cfg : Config} (h : ∀ p, p < cfg.numPages → a ≠ encodePage cfg p) : isPageField cfg a = false := by
  rw [← Bool.not_eq_true, isPageField_iff]
  exact fun ha => h _ (decodePage_lt cfg a) ha.symm

/-- R109: a field that is no buffer address. -/
theorem isBufferField_eq_false (h : a ≠ 0) : isBufferField a = false := by
  rwa [← Bool.not_eq_true, isBufferField_iff]

/-- R107 to R110: the frames the block emits. -/
theorem checksFrame_emitted (hI : s.Inv) {p : Nat} (hp : p < s.cfg.numPages) (hl : data.length ≤ s.cfg.pageSize)
    (h : i = .spiStatusRead c ∨ i = transferInstr q c (encodePage s.cfg p) ∨ i = commitInstr s.cfg q c (encodePage s.cfg p) ∨
      i = .spiPageErase c (encodePage s.cfg p) ∨ i = .spiSectorErase c (encodePage s.cfg p) ∨ i = .spiChipErase c ∨
      i = readInstr q c 0 ∨ i = writeInstr q c 0 data) : ChecksFrame s i c true := by
  have hpage := isPageField_encode hI.valid hp
  rcases h with rfl | h | h | h | h | rfl | rfl | rfl
  · exact ⟨_, _, rfl⟩
  · exact hpage ▸ checksFrame_page (q := q) (.inl h)
  · exact hpage ▸ checksFrame_page (.inr (.inl h))
  · exact hpage ▸ checksFrame_page (q := q) (.inr (.inr (.inl h)))
  · exact hpage ▸ checksFrame_page (q := q) (.inr (.inr (.inr h)))
  · exact ⟨_, _, rfl⟩
  · exact checksFrame_read
  · have hemitted : (decide (data.length ≤ s.cfg.pageSize) && isBufferField 0) = true := by simp [hl]
    exact hemitted ▸ checksFrame_write

end Checks

/-- Settles O42: a frame that is not emitted fails the first check, any other the check of the phase, then that of the chip. -/
theorem frameChecks_hold : Obligations.FrameChecks := by
  unfold Obligations.FrameChecks
  intro s c a data q i hI
  refine ⟨?notEmitted, fun p hp hl h => ?emitted⟩
  case notEmitted =>
    rintro (h | h | ⟨ha, h⟩ | ⟨ha, rfl | rfl⟩ | ⟨hl, rfl⟩)
    · exact (checksFrame_otherPair (.inl h)).not_emitted rfl
    · exact (checksFrame_otherPair (.inr h)).not_emitted rfl
    · exact (checksFrame_page h).not_emitted (isPageField_eq_false ha)
    · exact checksFrame_read.not_emitted (isBufferField_eq_false ha)
    · exact checksFrame_write.not_emitted (by rw [isBufferField_eq_false ha, Bool.and_false])
    · exact checksFrame_write.not_emitted (by rw [decide_eq_false (Nat.not_le.2 hl), Bool.false_and])
  case emitted =>
    have hchecks := checksFrame_emitted hI hp hl h
    exact ⟨fun hf => hchecks.not_idle (hI.idle_eq_false hf), fun hi hc => hchecks.no_chip hi hc⟩

/-! What a frame sends and answers (R150, R160, R256). -/

/-- Instruction `i` has the checks of a frame the block emits and is that one frame on chip `c`: header `hdr`, `nd` dummy and `nr`
response positions. `answer` is the data of its response. What is noted of the frame when it is begun is no bus event. -/
def SendsFrame (s : State) (i : Instr) (c : ChipField) (hdr : List Byte) (nd nr : Nat) (answer : List Byte → List Byte) : Prop :=
  ∃ (f : Bus → Res Bus (List Byte)) (b0 : Bus), exec i s = perform (frameChecks true c s) lowZero (State.onBus f) s ∧
    b0.answers = s.bus.answers ∧ b0.trace = s.bus.trace ∧
    f s.bus = (issue s.cfg c.toNat hdr nd nr b0).andThen fun resp b => .ok (answer resp) b

/-- What a `SendsFrame` with no data in its response answers. -/
def noAnswer (_ : List Byte) : List Byte := []

@[simp] theorem noAnswer_eq (resp : List Byte) : noAnswer resp = [] := rfl

section Sends

variable {s : State} {i : Instr} {c : ChipField} {a : AddrField} {hdr is : List Byte} {nd nr : Nat}
  {answer : List Byte → List Byte} {rest : List Answer} {e : Bool}

/-- A frame with no response positions. -/
theorem sendsFrame_of_busBody {note : Bus → Bus} (hx : exec i s = perform (frameChecks e c s) lowZero
      (busBody fun b => (issue s.cfg c.toNat hdr 0 0 (note b)).andThen fun _ b => .ok () b) s)
    (he : e = true) (hans : (note s.bus).answers = s.bus.answers) (htr : (note s.bus).trace = s.bus.trace) :
    SendsFrame s i c hdr 0 0 noAnswer := by
  refine ⟨_, note s.bus, he ▸ hx.trans (perform_congr (busBody_eq _ _)), hans, htr, ?_⟩
  rw [noData, Res.andThen_assoc]
  rfl

theorem sendsFrame_issueBusy (hx : exec i s = perform (frameChecks e c s) lowZero (busBody (issueBusy s.cfg c.toNat hdr)) s)
    (he : e = true) : SendsFrame s i c hdr 0 0 noAnswer :=
  sendsFrame_of_busBody (note := fun b => b.noteBusyFrame c.toNat) hx he rfl rfl

theorem sendsFrame_commit {q : Parity} (ha : isPageField s.cfg a = true) :
    SendsFrame s (commitInstr s.cfg q c a) c (opcCommit s.cfg q :: addrBytes a) 0 0 noAnswer :=
  sendsFrame_of_busBody (note := fun b => (b.noteCommit s.cfg c.toNat (decodePage s.cfg a)).noteBusyFrame c.toNat)
    (exec_commitInstr s q c a) ha rfl rfl

theorem sendsFrame_write {q : Parity} {data : List Byte} (hl : data.length ≤ s.cfg.pageSize) :
    SendsFrame s (writeInstr q c 0 data) c (opcBufWrite q :: addrBytes 0 ++ data) 0 0 noAnswer :=
  sendsFrame_of_busBody (note := id) (exec_writeInstr s q c 0 data) (by simp [hl]) rfl rfl

theorem sendsFrame_read {q : Parity} :
    SendsFrame s (readInstr q c 0) c (opcBufRead q :: addrBytes 0) s.cfg.bufReadDummy s.cfg.pageSize id := by
  refine ⟨_, s.bus, exec_readInstr s q c 0, rfl, rfl, ?_⟩
  cases issue s.cfg c.toNat (opcBufRead q :: addrBytes 0) s.cfg.bufReadDummy s.cfg.pageSize s.bus <;> rfl

/-- R150, R308: the frame sent whole. -/
theorem SendsFrame.completes (h : SendsFrame s i c hdr nd nr answer) (hi : s.idle = true) (hc : c.toNat < s.cfg.chips)
    (hl : is.length = hdr.length + nd + nr) (hans : s.bus.answers = answersOf is ++ rest) :
    ∃ b, exec i s = .next { s with
          bus := b
          responses := s.responses ++ [okResponse (answer (is.drop (hdr.length + nd)))] } ∧
      s.bus.After b none (frameTrace c.toNat (frameOuts hdr nd nr) is) rest := by
  obtain ⟨f, b0, hx, hans0, htr0, hf⟩ := h
  obtain ⟨b, hissue, hafter⟩ := frame_script (cfg := s.cfg) (c := c.toNat) hl (hans0.trans hans)
  refine ⟨b, ?_, by simpa only [Bus.After, htr0] using hafter⟩
  rw [hx, perform_ok (frameChecks_none rfl hi hc) (State.onBus_ok (hf.trans (by rw [hissue, Res.andThen_ok])))]
  rfl

/-- R160, R256: the frame cut short. -/
theorem SendsFrame.faults (h : SendsFrame s i c hdr nd nr answer) (hI : s.Inv) (hi : s.idle = true) (hc : c.toNat < s.cfg.chips)
    (hb : s.cfg.hasBusFault = true) (hl : is.length < hdr.length + nd + nr) (hans : s.bus.answers = answersOf is ++ .fault :: rest) :
    ∃ b, exec i s = .next { s with bus := b, responses := s.responses ++ [errResponse .busFault c.toNat] } ∧
      s.bus.After b none (cutFrame c.toNat (frameOuts hdr nd nr) is) rest := by
  obtain ⟨f, b0, hx, hans0, htr0, hf⟩ := h
  obtain ⟨b, hissue, hafter⟩ := frame_fault (c := c.toNat) hb hl (hans0.trans hans)
  have hcut := Bus.After.cut (es := []) hafter s.cfg
  refine ⟨b.desel s.cfg c.toNat, ?_, by simpa only [Bus.After, htr0, List.nil_append] using hcut⟩
  rw [hx, perform_raise (frameChecks_none rfl hi hc) (State.onBus_raise (hf.trans (by rw [hissue]; rfl))),
    takeError_idle_some hI hi hafter.1]

end Sends

/-- Settles O38: each of the nine is one four-byte frame. -/
theorem fourByteFramesAreSent : Obligations.FourByteFramesAreSent := by
  unfold Obligations.FourByteFramesAreSent
  intro s c p is rest i frame hI hi hc hp a hframe
  have ha : isPageField s.cfg a = true := isPageField_encode hI.valid hp
  have hsends : frame.length = 4 ∧ SendsFrame s i c frame 0 0 noAnswer := by
    rcases hframe with ⟨rfl, rfl⟩ | ⟨rfl, rfl⟩ | ⟨rfl, rfl⟩ | ⟨rfl, rfl⟩ | ⟨rfl, rfl⟩ | ⟨hv, ⟨rfl, rfl⟩ | ⟨rfl, rfl⟩⟩ |
      ⟨hv, ⟨rfl, rfl⟩ | ⟨rfl, rfl⟩⟩
    · exact ⟨rfl, sendsFrame_issueBusy (exec_transferInstr s .a c a) ha⟩
    · exact ⟨rfl, sendsFrame_issueBusy (exec_transferInstr s .b c a) ha⟩
    · exact ⟨rfl, sendsFrame_issueBusy (i := .spiPageErase c a) rfl ha⟩
    · exact ⟨rfl, sendsFrame_issueBusy (i := .spiSectorErase c a) rfl ha⟩
    · exact ⟨rfl, sendsFrame_issueBusy (i := .spiChipErase c) rfl rfl⟩
    · exact ⟨rfl, by simpa [commitInstr, opcCommit, hv, opcBuf1Commit] using sendsFrame_commit (c := c) (q := .a) ha⟩
    · exact ⟨rfl, by simpa [commitInstr, opcCommit, hv, opcBuf2Commit] using sendsFrame_commit (c := c) (q := .b) ha⟩
    · exact ⟨rfl, by simpa [commitInstr, opcCommit, hv, opcBuf1CommitAlt] using sendsFrame_commit (c := c) (q := .a) ha⟩
    · exact ⟨rfl, by simpa [commitInstr, opcCommit, hv, opcBuf2CommitAlt] using sendsFrame_commit (c := c) (q := .b) ha⟩
  obtain ⟨hlen, hsends⟩ := hsends
  refine ⟨fun hl hans => ?completes, fun hb hl hans => ?faults⟩
  case completes => simpa using hsends.completes hi hc (hl.trans hlen.symm) hans
  case faults => simpa using hsends.faults hI hi hc hb (hlen.symm ▸ hl) hans

/-- Settles O39: both buffers. -/
theorem bufferWriteFramesAreSent : Obligations.BufferWriteFramesAreSent := by
  unfold Obligations.BufferWriteFramesAreSent
  intro s c data is rest i op hI hi hc hl hframe
  have hsends : SendsFrame s i c ([op, 0x00, 0x00, 0x00] ++ data) 0 0 noAnswer := by
    rcases hframe with ⟨rfl, rfl⟩ | ⟨rfl, rfl⟩
    · exact sendsFrame_write (q := .a) hl
    · exact sendsFrame_write (q := .b) hl
  have hlen : ([op, 0x00, 0x00, 0x00] ++ data).length = 4 + data.length := by rw [List.length_append]; rfl
  refine ⟨fun hl hans => ?completes, fun hb hl hans => ?faults⟩
  case completes => simpa using hsends.completes hi hc (hl.trans hlen.symm) hans
  case faults => simpa using hsends.faults hI hi hc hb (hlen.symm ▸ hl) hans

/-- Settles O40: both buffers. -/
theorem bufferReadFramesReturnThePage : Obligations.BufferReadFramesReturnThePage := by
  unfold Obligations.BufferReadFramesReturnThePage
  intro s c rest i op hI hi hc hframe frame
  have hsends : SendsFrame s i c [op, 0x00, 0x00, 0x00] s.cfg.bufReadDummy s.cfg.pageSize id := by
    rcases hframe with ⟨rfl, rfl⟩ | ⟨rfl, rfl⟩
    · exact sendsFrame_read (q := .a)
    · exact sendsFrame_read (q := .b)
  have houts : frameOuts [op, 0x00, 0x00, 0x00] s.cfg.bufReadDummy s.cfg.pageSize = frame := frameOuts_eq _ _ _
  refine ⟨fun hs data hhs hdata hans => ?completes, fun is hb hl hans => ?faults⟩
  case completes =>
    have hdrop : (hs ++ data).drop (4 + s.cfg.bufReadDummy) = data := List.drop_left' hhs
    have h := hsends.completes hi hc (by rw [List.length_append, hhs, hdata]; rfl) hans
    rwa [houts, show (hs ++ data).drop ([op, 0x00, 0x00, 0x00].length + s.cfg.bufReadDummy) = data from hdrop] at h
  case faults =>
    have h := hsends.faults hI hi hc hb (by rwa [← houts, frameOuts_length] at hl) hans
    rwa [houts] at h

end Sys2Proof.Machine
end

section
/-! How an instruction ends (R113, R114, R163, R250): which stop, what the reserved ones answer, and the one response of the others. -/

namespace Sys2Proof.Machine

/-- Settles O35: the four meanings are the answer to a malformed request. -/
theorem reservedOperationsAnswerMisuse : Obligations.ReservedOperationsAnswerMisuse := by
  unfold Obligations.ReservedOperationsAnswerMisuse
  rintro rest s i (rfl | rfl | rfl | rfl) <;> rfl

/-- Settles O41: an instruction that keeps the registers is its checks and one bus procedure, a stream operation its checks and
its body. -/
theorem onlyUnemittedFramesStop : Obligations.OnlyUnemittedFramesStop := by
  unfold Obligations.OnlyUnemittedFramesStop
  refine ⟨fun c rest s => ⟨rfl, rfl⟩, fun i s hne => ?answers⟩
  case answers =>
    cases hk : keepsRegisters i with
    | true => exact ⟨_, exec_transport hk hne⟩
    | false =>
      cases i with
      | startW | writeByte v | endW | readPage | seekW l | seekR l => exact ⟨_, rfl⟩
      | _ => cases hk

/-! The response (R114). -/

/-- R114: the fields of the response word. -/
theorem responseWord_toNat {err : Option ErrorKind} {c : Nat} (low : Byte) (hc : c < 16) :
    (State.responseWord err c low).toNat = c * 2 ^ 12 + errCode err * 2 ^ 8 + low.toNat := by
  have herr : errCode err < 8 := by cases err with | none => decide | some e => cases e <;> decide
  simp only [State.responseWord, toNat_append_eq, BitVec.toNat_ofNat, BitVec.reduceToNat]
  omega

theorem responseLow_errResponse (i : Instr) (e : ErrorKind) (c : Nat) : responseLow i (errResponse e c) = 0 := by
  cases i <;> rfl

/-- R114, R250: the one response of an instruction, its word by `responseWord`. -/
theorem exec_responds {i : Instr} {s t : State} (hI : s.Inv) (h : exec i s = .next t) :
    ∃ r, t.responses = s.responses ++ [r] ∧ r.chip < s.cfg.chips ∧
      (r.err = none ∨ r.err = some .sequenceMisuse ∨ r.err = some .invalidAddress → r.chip = 0) ∧
      (r.err ≠ none → r.data = []) ∧ (r.err = none → r.data.length = responseLength s.cfg i) ∧
      r.word = State.responseWord r.err r.chip (responseLow i r) := by
  cases exec_outcome hI h with
  | refused e _ _ ht =>
    subst ht
    refine ⟨errResponse e 0, rfl, hI.chips_pos, fun _ => rfl, fun _ => rfl, nofun, ?_⟩
    rw [responseLow_errResponse]
    rfl
  | answered data w _ _ hlen _ _ ht =>
    subst ht
    refine ⟨okResponse data (transportLow i data), rfl, hI.chips_pos, fun _ => rfl, fun hne => absurd rfl hne, fun _ => hlen, ?_⟩
    rw [← transportLow_eq]
    rfl
  | failed e c base _ hc _ hk _ _ _ _ ht _ =>
    refine ⟨errResponse e c, congrArg State.responses ht, hc, ?_, fun _ => rfl, nofun, ?_⟩
    · rcases hk with rfl | rfl <;> simp [errResponse]
    · rw [responseLow_errResponse]
      rfl

/-- Settles O44: a chip number is below 16, so it fits its field of the word. -/
theorem everyOperationAnswersOnce : Obligations.EveryOperationAnswersOnce := by
  unfold Obligations.EveryOperationAnswersOnce
  intro i s t hI h
  obtain ⟨⟨-, hchips⟩, -⟩ := config_valid_iff.1 hI.valid
  obtain ⟨r, hresp, hc, hchip, herr, hok, hword⟩ := exec_responds hI h
  refine ⟨r, hresp, hc, hchip, herr, hok, ?_⟩
  rw [hword, responseWord_toNat _ (Nat.lt_of_lt_of_le hc hchips)]
  generalize r.err = err
  rcases err with _ | _ | _ | _ | _ <;> rfl

end Sys2Proof.Machine
end

section
/-! The Page Address Codec (R140 to R143): the round trip, the bytes of an encoded page, and the bits that decoding reads. -/

namespace Sys2Proof.Machine

/-- R140: the bytes sent for a page, whatever the page's range; a shifted index above 16 bits is cut off. -/
theorem addrBytes_encodePage (cfg : Config) (p : Nat) :
    addrBytes (encodePage cfg p) = [BitVec.ofNat 8 (p * 2 ^ cfg.shift / 256), BitVec.ofNat 8 (p * 2 ^ cfg.shift), 0x00] := by
  have hbytes (v : Nat) : (BitVec.ofNat 16 v).extractLsb' 8 8 = BitVec.ofNat 8 (v / 256) ∧
      (BitVec.ofNat 16 v).extractLsb' 0 8 = BitVec.ofNat 8 v := by
    constructor <;> apply BitVec.eq_of_toNat_eq <;>
      simp only [BitVec.extractLsb'_toNat, BitVec.toNat_ofNat, Nat.shiftRight_eq_div_pow] <;> omega
  obtain ⟨hhigh, hlow⟩ := hbytes (p * 2 ^ cfg.shift)
  simp only [encodePage, addrBytes_addrOf, Nat.shiftLeft_eq, hhigh, hlow]

/-- R143 (2): `byte2`, the last of the bytes sent, is 0. -/
theorem encodePage_byte2 (cfg : Config) (p : Nat) : (encodePage cfg p).extractLsb' 0 8 = 0 :=
  congrArg (·.getD 2 0) (addrBytes_encodePage cfg p)

/-- R143 (4): `encode` is one to one on the pages, since `decode` is its left inverse there. -/
theorem encodePage_injective {cfg : Config} (hv : cfg.valid = true) {p q : Nat} (hp : p < cfg.numPages) (hq : q < cfg.numPages)
    (h : encodePage cfg p = encodePage cfg q) : p = q := by
  rw [← decodePage_encodePage hv hp, h, decodePage_encodePage hv hq]

/-- R141 on the three bytes of an address: `byte2` falls below the page field. -/
theorem decodePage_addrOf (cfg : Config) (b0 b1 b2 : Byte) :
    decodePage cfg (addrOf b0 b1 b2) = (b0.toNat * 256 + b1.toNat) / 2 ^ cfg.shift % 2 ^ cfg.pageBits := by
  have hbytes : (addrOf b0 b1 b2).toNat / 2 ^ 8 = b0.toNat * 256 + b1.toNat := by
    have h2 := b2.isLt
    rw [addrOf_toNat]
    omega
  rw [decodePage_eq, Nat.add_comm, Nat.pow_add, ← Nat.div_div_eq_div_mul, hbytes]

/-- Settles O6: injectivity follows from the round trip. -/
theorem codecRoundTrip : Obligations.CodecRoundTrip := by
  unfold Obligations.CodecRoundTrip
  exact fun cfg hv => ⟨fun p hp => ⟨decodePage_encodePage hv hp, encodePage_byte2 cfg p⟩, fun _ _ => encodePage_injective hv⟩

/-- Settles O7: the field is the 16-bit value `p << SHIFT` above a zero byte, and a page below `NUM_PAGES` fits in it. -/
theorem pageIndexPlacement : Obligations.PageIndexPlacement := by
  unfold Obligations.PageIndexPlacement
  refine fun cfg p hv hp => ⟨?field, addrBytes_encodePage cfg p⟩
  case field => rw [encodePage_toNat hv hp, Nat.pow_add, Nat.mul_assoc]

/-- Settles O8: the page is a function of the page field alone, by R141 as arithmetic. -/
theorem decodeReadsOnlyThePageField : Obligations.DecodeReadsOnlyThePageField := by
  unfold Obligations.DecodeReadsOnlyThePageField
  refine fun cfg b0 b1 b2 => ⟨decodePage_addrOf cfg b0 b1 b2, fun a a' h => ?alike⟩
  case alike => rw [decodePage_eq, decodePage_eq, h]

end Sys2Proof.Machine
end

section
/-! The transport calls, `ERASE_RANGE`, the single frames and the reserved codes write no register (R162, R41), and what the host
operations of the Command Transport answer when the incoming bytes are given (R155 to R160, R308). -/

namespace Sys2Proof.Machine

/-! No register is written. -/

section Kept

variable {s t w : State} {i : Instr} {data : List Byte}

theorem inSession_of_keepsRegisters (hk : keepsRegisters i = true) : inSession i = false := by
  cases i with
  | startW | writeByte v | endW => cases hk
  | _ => rfl

theorem okRegs_of_keepsRegisters (hk : keepsRegisters i = true) (h : OkRegs s data i w) :
    (∃ b, w = { s with bus := b }) ∧ w.bus.cs = none := by
  cases i with
  | startW | writeByte v | endW | readPage | seekW l | seekR l => cases hk
  | _ => exact h.imp_left fun hw => ⟨_, hw⟩

theorem errBase_of_keepsRegisters (hk : keepsRegisters i = true) (h : ErrBase s i w) : w = s := by
  cases i with
  | startW | writeByte v => cases hk
  | _ => exact h

/-- R33, R256: the abort finds the registers of the Idle block as it leaves them. -/
theorem State.Inv.aborted_idle (hI : s.Inv) (hi : s.idle = true) (b : Bus) : s.aborted b = { s with bus := b } := by
  rw [State.aborted, hI.aborted_eq hi, ← (hI.atRest hi).2.1]

/-- R162, R41, R215: such an operation, however it ends, changes the bus and adds its response. -/
theorem exec_of_keepsRegisters (hI : s.Inv) (hk : keepsRegisters i = true) (h : exec i s = .next t) :
    ∃ b r, t = { s with bus := b, responses := s.responses ++ [r] } ∧ b.cs = s.bus.cs := by
  cases exec_outcome hI h with
  | refused e _ _ ht => exact ⟨s.bus, _, ht, rfl⟩
  | answered data w hr hregs _ _ _ ht =>
    have hi := ready_idle (inSession_of_keepsRegisters hk) hr
    obtain ⟨⟨b, rfl⟩, hcs⟩ := okRegs_of_keepsRegisters hk hregs
    exact ⟨b, _, ht, hcs.trans (hI.atRest hi).2.2.symm⟩
  | failed e c base hr _ _ _ _ hbase hcs _ ht _ =>
    have hi := ready_idle (inSession_of_keepsRegisters hk) hr
    rw [errBase_of_keepsRegisters hk hbase, hI.aborted_idle hi] at ht
    exact ⟨t.bus, _, ht, hcs.trans (hI.atRest hi).2.2.symm⟩

end Kept

/-- Settles O46: such an operation changes the bus, with `cs` as before, and adds its response. -/
theorem transportKeepsEveryRegister : Obligations.TransportKeepsEveryRegister := by
  unfold Obligations.TransportKeepsEveryRegister
  intro i s t hI hk h
  obtain ⟨b, r, rfl, hcs⟩ := exec_of_keepsRegisters hI hk h
  exact ⟨rfl, rfl, rfl, rfl, rfl, hcs, rfl, rfl⟩

/-! How a bus procedure of the Idle block ends in an error (R162, R256). -/

section Errors

variable {s : State} {checks : List (Bool × ErrorKind)} {low : List Byte → Byte} {body : State → Res State (List Byte)}
  {e : ErrorKind} {c j : Nat} {b : Bus}

/-- With no select asserted the abort changes nothing. -/
theorem perform_raise_deselected (hI : s.Inv) (hi : s.idle = true) (hc : firstError checks = none)
    (hb : body s = .raise e c { s with bus := b }) (hcs : b.cs = none) :
    perform checks low body s = .next { s with bus := b, responses := s.responses ++ [errResponse e c] } := by
  rw [perform_raise hc hb, takeError_idle_none hI hi hcs]

/-- With a select asserted the abort deasserts it. -/
theorem perform_raise_selected (hI : s.Inv) (hi : s.idle = true) (hc : firstError checks = none)
    (hb : body s = .raise e c { s with bus := b }) (hcs : b.cs = some j) :
    perform checks low body s =
      .next { s with bus := b.desel s.cfg j, responses := s.responses ++ [errResponse e c] } := by
  rw [perform_raise hc hb, takeError_idle_some hI hi hcs]

end Errors

/-! `READ_STATUS` and the single status frame. -/

section Status

variable {s : State} {c : ChipField} {b : Bus}

/-- R102, log 12: the single status frame answers the status byte as its data. -/
theorem spiStatusRead_exec {v : Byte} (hi : s.idle = true) (hc : c.toNat < s.cfg.chips)
    (h : statusRead s.cfg c.toNat s.bus = .ok v b) :
    exec (.spiStatusRead c) s = .next { s with bus := b, responses := s.responses ++ [okResponse [v]] } := by
  have hdata : statusData s.cfg c.toNat s.bus = .ok [v] b := by rw [statusData, h, Res.andThen_ok]
  exact (exec_transport rfl (by simp)).trans (perform_ok (frameChecks_none rfl hi hc) (State.onBus_ok hdata))

/-- R160, R256: the abort ends the frame of a status read that fails. -/
theorem statusRead_exec_raise {i : Instr} {e : ErrorKind} {d j : Nat} (hI : s.Inv) (hi : s.idle = true)
    (hc : c.toNat < s.cfg.chips) (h : statusRead s.cfg c.toNat s.bus = .raise e d b) (hcs : b.cs = some j)
    (hinstr : i = .readStatus c ∨ i = .spiStatusRead c) :
    exec i s = .next { s with bus := b.desel s.cfg j, responses := s.responses ++ [errResponse e d] } := by
  have hdata : statusData s.cfg c.toNat s.bus = .raise e d b := by rw [statusData, h, Res.andThen_raise]
  rcases hinstr with rfl | rfl
  · exact (exec_transport rfl (by simp)).trans
      (perform_raise_selected hI hi (transportChecks_none hi hc) (State.onBus_raise hdata) hcs)
  · exact (exec_transport rfl (by simp)).trans
      (perform_raise_selected hI hi (frameChecks_none rfl hi hc) (State.onBus_raise hdata) hcs)

end Status

/-- Settles O31: both are one status frame; they differ in their checks and in the low byte of the response word. -/
theorem statusReadsReturnTheByte : Obligations.StatusReadsReturnTheByte := by
  unfold Obligations.StatusReadsReturnTheByte
  intro s c rest hI hi hc
  refine ⟨fun i v hans => ?completes, fun is i hb hl hans hinstr => ?faults⟩
  case completes =>
    obtain ⟨b, hread, hafter⟩ := statusRead_after (c := c.toNat) hans
    exact ⟨⟨b, readStatus_exec hi hc hread, hafter⟩, b, spiStatusRead_exec hi hc hread, hafter⟩
  case faults =>
    obtain ⟨b, hread, hafter⟩ := statusRead_fault (c := c.toNat) hb hl hans
    exact ⟨_, statusRead_exec_raise hI hi hc hread hafter.1 hinstr, hafter.cut (es := []) s.cfg⟩

/-- Settles O32: by how the poll ends. -/
theorem waitReadyPolls : Obligations.WaitReadyPolls := by
  unfold Obligations.WaitReadyPolls
  intro s c ps rest hI hi hc
  have hchecks := transportChecks_none hi hc
  refine ⟨fun hp hans => ?ready, fun hp hans => ?timeout, fun is hb hp hans => ?fault⟩
  case ready =>
    obtain ⟨b, hpoll, hafter⟩ := poll_script (c := c.toNat) hp hans
    exact ⟨b, perform_ok hchecks (busBody_ok hpoll), hafter⟩
  case timeout =>
    obtain ⟨b, hpoll, hafter⟩ := poll_timeout (c := c.toNat) (hI.atRest hi).2.2 hp hans
    exact ⟨b, perform_raise_deselected hI hi hchecks (busBody_raise hpoll) hafter.1, hafter⟩
  case fault =>
    obtain ⟨b, hpoll, hafter⟩ := poll_fault (c := c.toNat) hb hp hans
    exact ⟨_, perform_raise_selected hI hi hchecks (busBody_raise hpoll) hafter.1, hafter.cut s.cfg⟩

/-! The erases. -/

/-- R157 to R159: instruction `i` erases on chip `c`, and `frame` is its frame. -/
def ErasesBy (s : State) (c : ChipField) (p : ArgField) (i : Instr) (frame : List Byte) : Prop :=
  i = .pageErase c p ∧ p.toNat < s.cfg.numPages ∧ frame = 0x81 :: addrBytes (encodePage s.cfg p.toNat) ∨
  i = .sectorErase c p ∧ p.toNat < s.cfg.numPages ∧ frame = 0x7C :: addrBytes (encodePage s.cfg p.toNat) ∨
  i = .chipErase c ∧ frame = [0xC7, 0x94, 0x80, 0x9A]

section Erases

variable {s : State} {c : ChipField} {p : ArgField} {i : Instr} {frame : List Byte}

theorem ErasesBy.length (h : ErasesBy s c p i frame) : frame.length = 4 := by
  rcases h with ⟨-, -, rfl⟩ | ⟨-, -, rfl⟩ | ⟨-, rfl⟩ <;> rfl

/-- R157 to R159: an erase of the Idle block passes its checks and is its frame and a poll. -/
theorem ErasesBy.exec_eq (h : ErasesBy s c p i frame) (hi : s.idle = true) (hc : c.toNat < s.cfg.chips) :
    ∃ checks, firstError checks = none ∧
      exec i s = perform checks lowZero (busBody (eraseAndPoll s.cfg c.toNat frame)) s := by
  rcases h with ⟨rfl, hp, rfl⟩ | ⟨rfl, hp, rfl⟩ | ⟨rfl, rfl⟩
  · exact ⟨_, pageChecks_none hi hc hp, rfl⟩
  · exact ⟨_, pageChecks_none hi hc hp, rfl⟩
  · exact ⟨_, transportChecks_none hi hc, rfl⟩

end Erases

/-- Settles O33: the three erases differ in their checks and their frames. -/
theorem erasesSendAFrameAndPoll : Obligations.ErasesSendAFrameAndPoll := by
  unfold Obligations.ErasesSendAFrameAndPoll
  intro s c p es ps rest i frame hI hi hc hl hp hans herase
  obtain ⟨checks, hchecks, hx⟩ := ErasesBy.exec_eq herase hi hc
  obtain ⟨b, hproc, hafter⟩ := erase_script (c := c.toNat) (hl.trans (ErasesBy.length herase).symm) hp hans
  exact ⟨b, hx.trans (perform_ok hchecks (busBody_ok hproc)), hafter⟩

/-- Settles O34: by where the erase fails. -/
theorem erasesTimeOut : Obligations.ErasesTimeOut := by
  unfold Obligations.ErasesTimeOut
  intro s c p es ps rest i frame hI hi hc herase
  obtain ⟨checks, hchecks, hx⟩ := ErasesBy.exec_eq herase hi hc
  have hlen : frame.length = 4 := ErasesBy.length herase
  refine ⟨fun hl hp hans => ?timeout, fun hb hl hans => ?frame, fun is hb hl hp hans => ?poll⟩
  case timeout =>
    obtain ⟨b, hproc, hafter⟩ := erase_timeout (c := c.toNat) (hl.trans hlen.symm) hp hans
    exact ⟨b, hx.trans (perform_raise_deselected hI hi hchecks (busBody_raise hproc) hafter.1), hafter⟩
  case frame =>
    obtain ⟨b, hproc, hafter⟩ := erase_fault (c := c.toNat) hb (hlen.symm ▸ hl) hans
    exact ⟨_, hx.trans (perform_raise_selected hI hi hchecks (busBody_raise hproc) hafter.1), hafter.cut (es := []) s.cfg⟩
  case poll =>
    obtain ⟨b, hproc, hafter⟩ := erase_pollFault (c := c.toNat) hb (hl.trans hlen.symm) hp hans
    refine ⟨_, hx.trans (perform_raise_selected hI hi hchecks (busBody_raise hproc) hafter.1), ?_⟩
    exact ((hafter.of_eq (List.append_assoc ..).symm).cut s.cfg).of_eq (List.append_assoc ..)

end Sys2Proof.Machine
end

section
/-! Where a bus fault can end a `WRITE_BYTE` (R160, R257): on the byte, in the poll or in the commit frame of a page end, in the
header of the next chip. -/

namespace Sys2Proof.Machine

/-- R184 steps 6 to 9 on a bank that is Filling, as between operations. -/
theorem Handle.committed_of_filling {h : Handle} (he : h.est = .filling) :
    h.committed = { h with par := h.par.flip, wpage := h.wpage + 1, off := 0 } := by
  rw [Handle.committed, ← he]

/-- R256: the abort finds the engine Committing or Filling, and leaves the same. -/
theorem engCloseFull_aborted (c : Nat) (s : State) (b : Bus) : (engCloseFull c s).aborted b = s.aborted b := by
  rw [State.aborted, State.aborted, engCloseFull_eq, modify_committing_aborted]

section WriteFaults

variable {s w : State} {v i : Byte} {e : ErrorKind} {c j : Nat} {b1 b2 : Bus} {ps : List (Byte × Byte)} {ks os : List Byte}
  {rest : List Answer}

/-- R256, U4: a `WRITE_BYTE` that fails while a select is asserted. -/
theorem writeByte_raise (hI : s.Inv) (hf : s.filling = true) (hp : (s.handle s.curW).wpage < s.cfg.numPages)
    (h : writeBody v s = .raise e c w) (hcs : w.bus.cs = some j) :
    exec (.writeByte v) s = .next { w.aborted (w.bus.desel w.cfg j).loseBuffers with
      responses := w.responses ++ [errResponse e c] } := by
  obtain ⟨-, -, -, hsession, -⟩ := (writeBody_effect hI hf hp v).of_eq_raise h
  exact (perform_raise (writeChecks_none hf hp) h).trans
    (congrArg Host.Outcome.next (State.takeError_session_some hcs (hsession rfl) e c))

/-- R257: a bus fault in `engCommit`: the page is not committed and no cursor moves. -/
theorem writeByte_commit_raise (hI : s.Inv) (hf : s.filling = true) (hp : (s.handle s.curW).wpage < s.cfg.numPages)
    (hsoff : s.soff + 1 = s.cfg.pageSize) (hsend : engSend s.curW v s = .ok () { s with bus := b1 })
    (hcommit : engCommit s.curW { s with bus := b1 } =
      .raise e c { engCloseFull s.curW { s with bus := b1 } with bus := b2 }) (hcs : b2.cs = some j) :
    exec (.writeByte v) s = .next { s.aborted (b2.desel s.cfg j).loseBuffers with
      responses := s.responses ++ [errResponse e c] } := by
  have hbody : writeBody v s = .raise e c { engCloseFull s.curW { s with bus := b1 } with bus := b2 } := by
    rw [writeBody_pageEnd hsend hsoff, pageAdvance, hcommit, Res.andThen_raise]
  have hsame := engCloseFull_aborted s.curW { s with bus := b1 } (b2.desel s.cfg j).loseBuffers
  rw [writeByte_raise hI hf hp hbody hcs]
  exact congrArg (fun u : State => Host.Outcome.next { u with responses := s.responses ++ [errResponse e c] }) hsame

/-- R211 steps 5 to 8 with the page committed and a bus fault in the header of the next chip. -/
theorem pageAdvance_open_fault {handles : List Handle} {next : Nat} (hbank : c < s.handles.length)
    (hcommitted : s.handles.set c (s.handle c).committed = handles) (hnext : nextChip s.cfg s.curW = next)
    (hb : s.cfg.hasBusFault = true) (hps : PollSucceeds s.cfg.pollLimit ps) (hk : ks.length = 4) (ho : os.length < 4)
    (hans : s.bus.answers = answersOf (pollBytes ps ++ ks ++ os) ++ .fault :: rest) :
    let header := [opcBufWrite ({ s with handles := handles }.handle next).par, 0x00, 0x00, 0x00]
    ∃ b, pageAdvance c s = .raise .busFault next { s with handles := handles, curW := next, soff := 0, bus := b } ∧
      s.bus.After b (some next) (.desel c :: pollTrace c ps ++
        frameTrace c (opcCommit s.cfg (s.handle c).par :: addrBytes (encodePage s.cfg (s.handle c).wpage)) ks ++
        (.sel next :: exchanges (header.take os.length) os ++ [.x (header.getD os.length 0) .fault])) rest := by
  intro header
  obtain ⟨b1, hcommit, hafter1⟩ := engCommit_script (rest := answersOf os ++ .fault :: rest) hbank hps hk
    (by simpa using hans)
  obtain ⟨b2, hopen, hafter2⟩ := engOpen_fault (c := next)
    (s := { s with bus := b1, handles := handles, soff := 0, curW := next }) hb ho hafter1.2.2
  refine ⟨b2, ?_, hafter1.trans hafter2⟩
  rw [pageAdvance, hcommit, hcommitted]
  simp only [Res.andThen_ok, hnext]
  rw [hopen, Res.andThen_raise]

end WriteFaults

/-- Settles O22: by where the fault falls. -/
theorem writeByteBusFaults : Obligations.WriteByteBusFaults := by
  unfold Obligations.WriteByteBusFaults
  intro s v rest hI hf hb hp c h next handles abort commit header
  have hsel : s.bus.cs = some c := (hI.streaming hf).2.1
  have hbank : c < s.handles.length := hI.bank_lt hI.curW_lt
  refine ⟨fun hans => ?byte, fun i ps is hsoff hps hans => ?poll, fun i ps ks hsoff hps hk hans => ?commit,
    fun i ps ks os hsoff hps hk ho hans => ?header⟩
  case byte =>
    obtain ⟨b, hsend, hafter⟩ := engSend_fault (c := c) (v := v) hb hans
    have hbody : writeBody v s = .raise .busFault c { s with bus := b } := by
      rw [writeBody, hsend, Res.andThen_raise]
    exact ⟨_, writeByte_raise (w := { s with bus := b }) hI hf hp hbody (hafter.1.trans hsel), (hafter.desel s.cfg c).loseBuffers⟩
  case poll =>
    obtain ⟨b1, hsend, hafter1⟩ := engSend_script (c := c) (v := v) hans
    obtain ⟨b2, hcommit, hafter2⟩ := engCommit_pollFault (c := c) (s := { s with bus := b1 }) hb hps hafter1.2.2
    refine ⟨_, writeByte_commit_raise hI hf hp hsoff hsend hcommit hafter2.1, ?_⟩
    exact (((hafter1.trans hafter2).desel s.cfg c).loseBuffers).of_eq (by simp [pollFaultTrace, cutFrame])
  case commit =>
    obtain ⟨b1, hsend, hafter1⟩ := engSend_script (c := c) (v := v) hans
    obtain ⟨b2, hcommit, hafter2⟩ := engCommit_fault (c := c) (s := { s with bus := b1 }) hb hbank hps hk hafter1.2.2
    refine ⟨_, writeByte_commit_raise hI hf hp hsoff hsend hcommit hafter2.1, ?_⟩
    exact (((hafter1.trans hafter2).desel s.cfg c).loseBuffers).of_eq (by simp [commit, h, State.handle_bus])
  case header =>
    have hfilling : h.est = .filling := ((hI.midSession hf).1 c hI.curW_lt).1
    obtain ⟨b1, hsend, hafter1⟩ := engSend_script (c := c) (v := v) hans
    obtain ⟨b2, hadvance, hafter2⟩ := pageAdvance_open_fault (s := { s with bus := b1 }) (handles := handles) hbank
      (congrArg (s.handles.set c) (Handle.committed_of_filling hfilling)) rfl hb hps hk ho hafter1.2.2
    have hbody := (writeBody_pageEnd hsend hsoff).trans hadvance
    refine ⟨_, writeByte_raise hI hf hp hbody hafter2.1, ?_⟩
    refine (((hafter1.trans hafter2).desel s.cfg next).loseBuffers).of_eq ?_
    simp only [List.append_assoc, List.cons_append, List.nil_append]
    rfl

end Sys2Proof.Machine
end

section
/-! A `WRITE_BYTE` whose poll at the page end runs out (R184, R256, R257). -/

namespace Sys2Proof.Machine

/-- R256, U4: a `WRITE_BYTE` that fails with every select deasserted. -/
theorem writeByte_raise_deselected {s w : State} {v : Byte} {e : ErrorKind} {c : Nat} (hI : s.Inv) (hf : s.filling = true)
    (hp : (s.handle s.curW).wpage < s.cfg.numPages) (h : writeBody v s = .raise e c w) (hcs : w.bus.cs = none) :
    exec (.writeByte v) s = .next { w.aborted w.bus.loseBuffers with
      responses := w.responses ++ [errResponse e c] } := by
  obtain ⟨-, -, -, hsession, -⟩ := (writeBody_effect hI hf hp v).of_eq_raise h
  exact (perform_raise (writeChecks_none hf hp) h).trans
    (congrArg Host.Outcome.next (State.takeError_session_none hcs (hsession rfl) e c))

/-- Settles O21: the poll comes before the commit frame, and when it runs out `engCommit` has only closed the open frame. -/
theorem writeByteTimesOut : Obligations.WriteByteTimesOut := by
  unfold Obligations.WriteByteTimesOut
  intro s v i ps rest hI hf hp hsoff hps hans
  obtain ⟨b1, hsend, hafter1⟩ := engSend_script (c := s.curW) (v := v) hans
  obtain ⟨b2, hcommit, hafter2⟩ := engCommit_timeout (c := s.curW) (s := { s with bus := b1 }) hps hafter1.2.2
  have hbody : writeBody v s =
      .raise .deviceTimeout s.curW { engCloseFull s.curW { s with bus := b1 } with bus := b2 } := by
    rw [writeBody_pageEnd hsend hsoff, pageAdvance, hcommit, Res.andThen_raise]
  have hsame := engCloseFull_aborted s.curW { s with bus := b1 } b2.loseBuffers
  refine ⟨b2.loseBuffers, ?_, (hafter1.trans hafter2).loseBuffers⟩
  rw [writeByte_raise_deselected hI hf hp hbody hafter2.1]
  exact congrArg (fun u : State =>
    Host.Outcome.next { u with responses := s.responses ++ [errResponse .deviceTimeout s.curW] }) hsame

end Sys2Proof.Machine
end

section
/-! A write session with the incoming bytes given (R308): its start (R210), the byte within a page and the one that fills it (R211), and
its end (R213). -/

namespace Sys2Proof.Machine

/-- R160, R256: the abort ends the status frame in which a poll meets a bus fault. -/
theorem Bus.After.cut_poll {b b1 : Bus} {cs : Option Nat} {c : Nat} {es : List Event} {ps : List (Byte × Byte)} {is : List Byte}
    {r : List Answer} (h : b.After b1 cs (es ++ (pollTrace c ps ++ (.sel c ::
      exchanges ([opcStatusRead, dummyOut].take is.length) is ++ [.x ([opcStatusRead, dummyOut].getD is.length 0) .fault]))) r)
    (cfg : Config) : b.After (b1.desel cfg c) none (es ++ pollFaultTrace c ps is) r :=
  ((h.of_eq (List.append_assoc ..).symm).cut cfg).of_eq (List.append_assoc ..)

/-- R256, U4: the abort of an operation of a write session. -/
theorem session_raise {s w : State} {i : Instr} {checks : List (Bool × ErrorKind)} {low : List Byte → Byte}
    {body : State → Res State (List Byte)} {e : ErrorKind} {c : Nat} (hi : inSession i = true)
    (hc : firstError checks = none) (he : BodyEffect s i (body s)) (h : body s = .raise e c w) :
    perform checks low body s = .next { w.aborted w.release.loseBuffers with
      responses := w.responses ++ [errResponse e c] } := by
  obtain ⟨-, -, -, hsession, -⟩ := he.of_eq_raise h
  rw [perform_raise hc h, State.takeError_eq, State.abort_bus_session (hsession hi)]
  rfl

/-! `START_W`. -/

section Start

variable {s : State}

/-- R210: every engine started, then the buffer of chip `curW` opened. -/
theorem startBody_eq (hI : s.Inv) :
    startBody s = (engOpen s.curW { s with handles := s.handles.map Handle.start }).andThen fun _ w => .ok [] w := by
  rw [startBody, forEachChip_engStart s hI.banks]

/-- R181, R182: the buffer that `START_W` opens is A. -/
theorem opcBufWrite_started (hI : s.Inv) :
    opcBufWrite (State.handle { s with handles := s.handles.map Handle.start } s.curW).par = 0x84 := by
  rw [handle_map (s := s) rfl (hI.bank_lt hI.curW_lt)]
  rfl

/-- R256: after the abort of a `START_W` only the parities show that it has been. -/
theorem State.Inv.aborted_started (hI : s.Inv) (hi : s.idle = true) :
    (s.handles.map Handle.start).map Handle.aborted = s.handles.map fun h => { h with par := .a } :=
  calc (s.handles.map Handle.start).map Handle.aborted
    _ = (s.handles.map Handle.aborted).map fun h => { h with par := .a } := by simp only [List.map_map]; rfl
    _ = _ := by rw [hI.aborted_eq hi]

end Start

/-- Settles O18: every engine starts before the header goes out, so a fault in the header finds the session begun. -/
theorem startWOpensTheCurrentChip : Obligations.StartWOpensTheCurrentChip := by
  unfold Obligations.StartWOpensTheCurrentChip
  intro s is rest hI hi
  have hcheck : firstError [(s.idle, ErrorKind.sequenceMisuse)] = none := by rw [hi]; rfl
  have hheader := opcBufWrite_started hI
  refine ⟨fun hl hans => ?opened, fun hb hl hans => ?fault⟩
  case opened =>
    obtain ⟨b, hopen, hafter⟩ := engOpen_script (c := s.curW) (s := { s with handles := s.handles.map Handle.start }) hl hans
    rw [hheader] at hafter
    have hbody : startBody s = .ok [] { s with handles := s.handles.map Handle.start, bus := b } := by
      rw [startBody_eq hI, hopen, Res.andThen_ok]
    exact ⟨b, perform_ok hcheck hbody, hafter⟩
  case fault =>
    obtain ⟨b, hopen, hafter⟩ := engOpen_fault (c := s.curW) (s := { s with handles := s.handles.map Handle.start }) hb hl hans
    rw [hheader] at hafter
    have hbody : startBody s = .raise .busFault s.curW { s with handles := s.handles.map Handle.start, bus := b } := by
      rw [startBody_eq hI, hopen, Res.andThen_raise]
    refine ⟨_, (session_raise (i := .startW) rfl hcheck (startBody_effect hI hi) hbody).trans ?_,
      ((hafter.desel s.cfg s.curW).loseBuffers).of_eq (by simp)⟩
    rw [State.release_some hafter.1]
    simp only [State.aborted, hI.aborted_started hi, ← (hI.atRest hi).2.1]

/-! `WRITE_BYTE`. -/

/-- Settles O19: one exchange, and the registers of a byte within a page. -/
theorem writeByteWithinAPage : Obligations.WriteByteWithinAPage := by
  unfold Obligations.WriteByteWithinAPage
  intro s v i rest hI hf hp hsoff hans
  obtain ⟨b, hsend, hafter⟩ := engSend_script (c := s.curW) (v := v) hans
  obtain ⟨w, hw, -, rfl⟩ := writeBody_within hsend hsoff
  obtain ⟨⟨-, hregs, hcs⟩ | ⟨hend, -⟩, -⟩ := (writeBody_effect hI hf hp v).of_eq_ok hw
  · refine ⟨w.bus, (perform_ok (writeChecks_none hf hp) hw).trans ?_, hcs, hafter.2⟩
    rw [hregs]
    rfl
  · omega

/-- R184, R211 steps 5 to 8: the page committed and the buffer of the next chip opened. -/
theorem pageAdvance_script {s : State} {c next : Nat} {handles : List Handle} {ps : List (Byte × Byte)} {ks os : List Byte}
    {rest : List Answer} (hbank : c < s.handles.length) (hcommitted : s.handles.set c (s.handle c).committed = handles)
    (hnext : nextChip s.cfg s.curW = next) (hps : PollSucceeds s.cfg.pollLimit ps) (hk : ks.length = 4) (ho : os.length = 4)
    (hans : s.bus.answers = answersOf (pollBytes ps ++ ks ++ os) ++ rest) :
    ∃ b, pageAdvance c s = .ok [] { s with handles := handles, curW := next, soff := 0, bus := b } ∧
      s.bus.After b (some next) (.desel c :: pollTrace c ps ++
        frameTrace c (opcCommit s.cfg (s.handle c).par :: addrBytes (encodePage s.cfg (s.handle c).wpage)) ks ++
        .sel next :: exchanges [opcBufWrite ({ s with handles := handles }.handle next).par, 0x00, 0x00, 0x00] os) rest := by
  obtain ⟨b1, hcommit, hafter1⟩ := engCommit_script (rest := answersOf os ++ rest) hbank hps hk (by simpa using hans)
  obtain ⟨b2, hopen, hafter2⟩ := engOpen_script (c := next)
    (s := { s with bus := b1, handles := handles, soff := 0, curW := next }) ho hafter1.2.2
  refine ⟨b2, ?_, hafter1.trans hafter2⟩
  rw [pageAdvance, hcommit, hcommitted]
  simp only [Res.andThen_ok, hnext]
  rw [hopen, Res.andThen_ok]

/-- Settles O20: the byte, then the page advance. -/
theorem writeByteEndsAPage : Obligations.WriteByteEndsAPage := by
  unfold Obligations.WriteByteEndsAPage
  intro s v i ps ks os rest hI hf hp hsoff hps hk ho hans c h next handles
  have hfilling : h.est = .filling := ((hI.midSession hf).1 c hI.curW_lt).1
  obtain ⟨b1, hsend, hafter1⟩ := engSend_script (c := c) (v := v) hans
  obtain ⟨b2, hadvance, hafter2⟩ := pageAdvance_script (s := { s with bus := b1 }) (handles := handles)
    (hI.bank_lt hI.curW_lt) (congrArg (s.handles.set c) (Handle.committed_of_filling hfilling)) rfl hps hk ho hafter1.2.2
  exact ⟨b2, perform_ok (writeChecks_none hf hp) ((writeBody_pageEnd hsend hsoff).trans hadvance),
    (hafter1.trans hafter2).of_eq (by simp only [List.append_assoc, List.cons_append, List.nil_append]; rfl)⟩

/-! `END_W`. -/

/-- R15: one `Desel`. -/
theorem desel_after (b : Bus) (cfg : Config) (c : Nat) : b.After (b.desel cfg c) none [.desel c] b.answers := ⟨rfl, rfl, rfl⟩

section End

variable {s : State} {e : ErrorKind} {c : Nat} {b : Bus}

theorem endChecks_none (hf : s.filling = true) (h0 : s.soff = 0) :
    firstError [(s.filling, ErrorKind.sequenceMisuse), (decide (s.soff = 0), .sequenceMisuse)] = none := by
  simp [hf, h0]

/-- R213: an `END_W` whose polls all end well. -/
theorem endW_exec (hI : s.Inv) (hf : s.filling = true) (h0 : s.soff = 0)
    (h : pollFrom s.cfg s.cfg.chips 0 (s.bus.desel s.cfg s.curW) = .ok () b) :
    exec .endW s = .next { s with
      handles := s.handles.map Handle.finished, bus := b, responses := s.responses ++ [okResponse []] } := by
  refine perform_ok (endChecks_none hf h0) (low := lowZero) (t := { s with handles := s.handles.map Handle.finished, bus := b }) ?_
  rw [endBody, State.onBus_ok (s := { s with bus := s.bus.desel s.cfg s.curW }) h, Res.andThen_ok]
  exact congrArg (Res.ok []) (forEachChip_engEnd { s with bus := b } hI.banks)

/-- R213, R256: at a page boundary the abort does to the banks what `engEnd` does. -/
theorem State.Inv.aborted_boundary (hI : s.Inv) (h0 : s.soff = 0) :
    s.handles.map Handle.aborted = s.handles.map Handle.finished := by
  refine List.map_congr_left fun x hx => ?_
  rw [Handle.aborted, Handle.finished, ← hI.off_mem h0 hx]

/-- R213, R257: an `END_W` of which a poll fails. -/
theorem endW_exec_raise (hI : s.Inv) (hf : s.filling = true) (h0 : s.soff = 0)
    (h : pollFrom s.cfg s.cfg.chips 0 (s.bus.desel s.cfg s.curW) = .raise e c b) :
    exec .endW s = .next { s with
      handles := s.handles.map Handle.finished
      bus := (State.release { s with bus := b }).loseBuffers
      responses := s.responses ++ [errResponse e c] } := by
  have hbody : endBody s = .raise e c { s with bus := b } := by
    rw [endBody, State.onBus_raise (s := { s with bus := s.bus.desel s.cfg s.curW }) h, Res.andThen_raise]
  refine (session_raise (i := .endW) rfl (endChecks_none hf h0) (endBody_effect hI hf h0) hbody).trans ?_
  simp only [State.aborted, hI.aborted_boundary h0, ← h0]

end End

/-- Settles O23: the open frame ends before the first poll, and the polls are those of chips 0 to N-1 in order. -/
theorem endWConfirmsEveryChip : Obligations.EndWConfirmsEveryChip := by
  unfold Obligations.EndWConfirmsEveryChip
  intro s polls rest hI hf h0 hp hans
  obtain ⟨b, hpolls, hafter⟩ := pollFrom_script (c := 0) (b := s.bus.desel s.cfg s.curW) rfl hp hans
  simp only [Nat.zero_add] at hafter
  exact ⟨b, endW_exec hI hf h0 hpolls, (desel_after s.bus s.cfg s.curW).trans hafter⟩

/-- Settles O24: a poll that runs out leaves no select asserted, one that meets a fault leaves the chip's. -/
theorem endWTimesOut : Obligations.EndWTimesOut := by
  unfold Obligations.EndWTimesOut
  intro s c polls rest hI hf h0 hc hp
  refine ⟨fun hpc hans => ?timeout, fun is hb hpc hans => ?fault⟩
  case timeout =>
    rw [List.range_succ, List.flatMap_append, answersOf_append, List.append_assoc] at hans
    obtain ⟨b, hpolls, hafter⟩ := pollFrom_raise (c := 0) (b := s.bus.desel s.cfg s.curW) rfl hc hp hans
      fun b1 hcs h => poll_timeout hcs (by simpa using hpc) (by simpa using h)
    simp only [Nat.zero_add] at hpolls hafter
    refine ⟨_, endW_exec_raise hI hf h0 hpolls, ?_⟩
    rw [State.release_none hafter.1]
    exact ((desel_after s.bus s.cfg s.curW).trans hafter).loseBuffers.of_eq (by simp [List.range_succ])
  case fault =>
    obtain ⟨b, hpolls, hafter⟩ := pollFrom_raise (c := 0) (b := s.bus.desel s.cfg s.curW) rfl hc hp hans
      fun b1 hcs h => poll_fault hb (by simpa using hpc) (by simpa using h)
    simp only [Nat.zero_add] at hpolls hafter
    refine ⟨_, endW_exec_raise hI hf h0 hpolls, ?_⟩
    rw [State.release_some hafter.1]
    have hcut := ((desel_after s.bus s.cfg s.curW).trans hafter).of_eq (List.append_assoc ..).symm
    exact (hcut.cut_poll s.cfg).loseBuffers

end Sys2Proof.Machine
end

section
/-! `READ_PAGE` (R214) with the incoming bytes given (R308): its bus procedure by how it ends, then the operation. -/

namespace Sys2Proof.Machine

/-! The transfer frame, the poll and the buffer-read frame. -/

section ReadProc

variable {cfg : Config} {c p : Nat} {b : Bus} {ts : List Byte} {ps : List (Byte × Byte)} {rest : List Answer}

/-- R105, R186 step 5: all bytes sent in the buffer-read frame. -/
def readOuts (cfg : Config) (p : Nat) : List Byte :=
  [opcBufRead (.ofPage p), 0x00, 0x00, 0x00] ++ List.replicate (cfg.bufReadDummy + cfg.pageSize) 0x00

theorem frameOuts_readFrame (cfg : Config) (p : Nat) :
    frameOuts (readFrame p) cfg.bufReadDummy cfg.pageSize = readOuts cfg p :=
  frameOuts_eq (readFrame p) cfg.bufReadDummy cfg.pageSize

theorem readOuts_length (cfg : Config) (p : Nat) : (readOuts cfg p).length = 4 + cfg.bufReadDummy + cfg.pageSize := by
  simp only [readOuts, List.length_append, List.length_replicate, List.length_cons, List.length_nil]
  omega

/-- R186, R105: the data are the bytes of the response positions. -/
theorem readProc_script {hs data : List Byte} (hl : ts.length = 4) (hp : PollSucceeds cfg.pollLimit ps)
    (hh : hs.length = 4 + cfg.bufReadDummy) (hd : data.length = cfg.pageSize)
    (hans : b.answers = answersOf (ts ++ pollBytes ps ++ hs ++ data) ++ rest) :
    ∃ b', readProc cfg c p b = .ok data b' ∧
      b.After b' none (frameTrace c (transferFrame cfg p) ts ++ pollTrace c ps ++
        frameTrace c (readOuts cfg p) (hs ++ data)) rest := by
  obtain ⟨b1, htransfer, hafter1⟩ := busyFrame_script (cfg := cfg) (c := c) (hdr := transferFrame cfg p) hl
    (rest := answersOf (pollBytes ps ++ hs ++ data) ++ rest) (by simpa using hans)
  obtain ⟨b2, hpoll, hafter2⟩ := poll_script (cfg := cfg) (c := c) hp (rest := answersOf (hs ++ data) ++ rest)
    (by simpa using hafter1.2.2)
  obtain ⟨b3, hread, hafter3⟩ := frame_script (cfg := cfg) (c := c) (hdr := readFrame p) (nd := cfg.bufReadDummy)
    (nr := cfg.pageSize) (is := hs ++ data) (by rw [List.length_append, hh, hd]; rfl) hafter2.2.2
  rw [frameOuts_readFrame] at hafter3
  rw [List.drop_left' (by rw [hh]; rfl)] at hread
  exact ⟨b3, by simp only [readProc, htransfer, hpoll, hread, Res.andThen_ok], (hafter1.trans hafter2).trans hafter3⟩

/-- R160, R186: a bus fault in the transfer frame. -/
theorem readProc_transfer_fault (hf : cfg.hasBusFault = true) (hl : ts.length < 4)
    (hans : b.answers = answersOf ts ++ .fault :: rest) :
    ∃ b', readProc cfg c p b = .raise .busFault c b' ∧
      b.After b' (some c) (.sel c :: exchanges ((transferFrame cfg p).take ts.length) ts ++
        [.x ((transferFrame cfg p).getD ts.length 0) .fault]) rest := by
  obtain ⟨b', htransfer, hafter⟩ := busyFrame_fault (cfg := cfg) (c := c) (hdr := transferFrame cfg p) hf hl hans
  exact ⟨b', by rw [readProc, htransfer, Res.andThen_raise], hafter⟩

/-- R186: a poll after the transfer that ends in an error. -/
theorem readProc_poll_raise {e : ErrorKind} {cs : Option Nat} {es : List Event} {tail : List Answer} (hl : ts.length = 4)
    (hans : b.answers = answersOf ts ++ tail)
    (hpoll : ∀ b1 : Bus, b1.cs = none → b1.answers = tail →
      ∃ b', pollReady cfg c b1 = .raise e c b' ∧ b1.After b' cs es rest) :
    ∃ b', readProc cfg c p b = .raise e c b' ∧ b.After b' cs (frameTrace c (transferFrame cfg p) ts ++ es) rest := by
  obtain ⟨b1, htransfer, hafter1⟩ := busyFrame_script (cfg := cfg) (c := c) (hdr := transferFrame cfg p) hl hans
  obtain ⟨b2, hraise, hafter2⟩ := hpoll b1 hafter1.1 hafter1.2.2
  exact ⟨b2, by rw [readProc, htransfer, Res.andThen_ok, hraise, Res.andThen_raise], hafter1.trans hafter2⟩

/-- R160, R186: a bus fault in the buffer-read frame. -/
theorem readProc_read_fault {is : List Byte} (hf : cfg.hasBusFault = true) (hl : ts.length = 4)
    (hp : PollSucceeds cfg.pollLimit ps) (hlt : is.length < (readOuts cfg p).length)
    (hans : b.answers = answersOf (ts ++ pollBytes ps ++ is) ++ .fault :: rest) :
    ∃ b', readProc cfg c p b = .raise .busFault c b' ∧
      b.After b' (some c) (frameTrace c (transferFrame cfg p) ts ++ pollTrace c ps ++
        (.sel c :: exchanges ((readOuts cfg p).take is.length) is ++ [.x ((readOuts cfg p).getD is.length 0) .fault])) rest := by
  obtain ⟨b1, htransfer, hafter1⟩ := busyFrame_script (cfg := cfg) (c := c) (hdr := transferFrame cfg p) hl
    (rest := answersOf (pollBytes ps ++ is) ++ .fault :: rest) (by simpa using hans)
  obtain ⟨b2, hpoll, hafter2⟩ := poll_script (cfg := cfg) (c := c) hp (rest := answersOf is ++ .fault :: rest)
    (by simpa using hafter1.2.2)
  obtain ⟨b3, hread, hafter3⟩ := frame_fault (cfg := cfg) (c := c) (hdr := readFrame p) (nd := cfg.bufReadDummy)
    (nr := cfg.pageSize) hf (by rwa [readOuts_length] at hlt) hafter2.2.2
  rw [frameOuts_readFrame] at hafter3
  exact ⟨b3, by simp only [readProc, htransfer, hpoll, hread, Res.andThen_ok], (hafter1.trans hafter2).trans hafter3⟩

end ReadProc

/-! The operation. -/

section ReadPage

variable {s : State} {b : Bus}

theorem readChecks_none (hi : s.idle = true) (hp : (s.handle s.curR).rpage < s.cfg.numPages) :
    firstError [(s.idle, ErrorKind.sequenceMisuse),
      (decide ((s.handle s.curR).rpage < s.cfg.numPages), ErrorKind.invalidAddress)] = none := by
  simp [hi, hp]

/-- R214: a `READ_PAGE` whose bus procedure ends normally. -/
theorem readPage_exec {data : List Byte} (hi : s.idle = true) (hp : (s.handle s.curR).rpage < s.cfg.numPages)
    (h : readProc s.cfg s.curR (s.handle s.curR).rpage s.bus = .ok data b) :
    exec .readPage s = .next { s with
      handles := s.handles.set s.curR (s.handle s.curR).wasRead
      curR := nextChip s.cfg s.curR
      bus := b
      stream := s.stream ++ data
      responses := s.responses ++ [okResponse data] } := by
  have hbody : readBody s = .ok data { s with
      handles := s.handles.modify s.curR Handle.wasRead
      curR := nextChip s.cfg s.curR
      bus := b
      stream := s.stream ++ data } := by
    rw [readBody, engReadPage_eq, State.onBus_ok h]
    rfl
  rw [State.modify_eq_set] at hbody
  exact perform_ok (readChecks_none hi hp) hbody

/-- R214, R257: one whose bus procedure fails. -/
theorem readBody_raise {e : ErrorKind} {c : Nat} (h : readProc s.cfg s.curR (s.handle s.curR).rpage s.bus = .raise e c b) :
    readBody s = .raise e c { s with bus := b } := by
  rw [readBody, engReadPage_eq, State.onBus_raise h]
  rfl

end ReadPage

/-- Settles O25: the three frames of `engReadPage`, then the registers. -/
theorem readPageStreamsAPage : Obligations.ReadPageStreamsAPage := by
  unfold Obligations.ReadPageStreamsAPage
  intro s ts hs data ps rest hI hi hp hl hps hh hd hans c h q
  obtain ⟨b, hproc, hafter⟩ := readProc_script (c := c) (p := h.rpage) hl hps hh hd hans
  exact ⟨b, readPage_exec hi hp hproc, hafter⟩

/-- Settles O26: by where the bus procedure fails; no register has been written by then. -/
theorem readPageFails : Obligations.ReadPageFails := by
  unfold Obligations.ReadPageFails
  intro s rest hI hi hp c h q transfer read
  have hchecks := readChecks_none hi hp
  refine ⟨fun ts ps hl hps hans => ?timeout, fun ts hb hl hans => ?transfer, fun ts is ps hb hl hps hans => ?poll,
    fun ts is ps hb hl hps hlt hans => ?read⟩
  case timeout =>
    obtain ⟨b, hproc, hafter⟩ := readProc_poll_raise (c := c) (p := h.rpage) hl
      (tail := answersOf (pollBytes ps) ++ rest) (by simpa using hans) fun _ hcs => poll_timeout hcs hps
    exact ⟨b, perform_raise_deselected hI hi hchecks (readBody_raise hproc) hafter.1, hafter⟩
  case transfer =>
    obtain ⟨b, hproc, hafter⟩ := readProc_transfer_fault (c := c) (p := h.rpage) hb hl hans
    exact ⟨_, perform_raise_selected hI hi hchecks (readBody_raise hproc) hafter.1, hafter.cut (es := []) s.cfg⟩
  case poll =>
    obtain ⟨b, hproc, hafter⟩ := readProc_poll_raise (c := c) (p := h.rpage) hl hans fun _ _ => poll_fault hb hps
    exact ⟨_, perform_raise_selected hI hi hchecks (readBody_raise hproc) hafter.1, hafter.cut_poll s.cfg⟩
  case read =>
    obtain ⟨b, hproc, hafter⟩ := readProc_read_fault (c := c) (p := h.rpage) hb hl hps hlt hans
    refine ⟨_, perform_raise_selected hI hi hchecks (readBody_raise hproc) hafter.1, ?_⟩
    exact (hafter.desel s.cfg c).of_eq (by simp only [List.append_assoc, List.cons_append, List.nil_append]; rfl)

end Sys2Proof.Machine
end

section
/-! `ERASE_RANGE` (R215) with the incoming bytes given (R308) and with the reference chips, and the seeks (R216, R217). -/

namespace Sys2Proof.Machine

/-- Settles O27: one erase frame and its poll for each logical page, in order. -/
theorem eraseRangeErasesEachPageOnce : Obligations.EraseRangeErasesEachPageOnce := by
  unfold Obligations.EraseRangeErasesEachPageOnce
  intro s n es polls rest hI hi hn hp hans
  obtain ⟨b, hproc, hafter⟩ := eraseFrom_script (l := 0) (hI.atRest hi).2.2 hp hans
  simp only [Nat.zero_add] at hafter
  exact ⟨b, perform_ok (countChecks_none hi hn) (busBody_ok hproc), hafter⟩

/-- Settles O28: by what ends the erase of logical page `k`. -/
theorem eraseRangeTimesOut : Obligations.EraseRangeTimesOut := by
  unfold Obligations.EraseRangeTimesOut
  intro s n k es polls rest hI hi hn hk hp erase before answered c
  have hcs := (hI.atRest hi).2.2
  have hchecks := countChecks_none hi hn
  refine ⟨fun hl hpk hans => ?timeout, fun hb hl hans => ?frame, fun is hb hl hpk hans => ?poll⟩
  case timeout =>
    obtain ⟨b, hproc, hafter⟩ := eraseFrom_raise (l := 0) hcs hk hp hans fun b1 _ => erase_timeout hl hpk
    simp only [Nat.zero_add] at hproc hafter
    exact ⟨b, perform_raise_deselected hI hi hchecks (busBody_raise hproc) hafter.1, hafter⟩
  case frame =>
    obtain ⟨b, hproc, hafter⟩ := eraseFrom_raise (l := 0) hcs hk hp hans fun b1 _ => erase_fault hb hl
    simp only [Nat.zero_add] at hproc hafter
    exact ⟨_, perform_raise_selected hI hi hchecks (busBody_raise hproc) hafter.1, hafter.cut s.cfg⟩
  case poll =>
    obtain ⟨b, hproc, hafter⟩ := eraseFrom_raise (l := 0) hcs hk hp hans fun b1 _ => erase_pollFault hb hl hpk
    simp only [Nat.zero_add] at hproc hafter
    refine ⟨_, perform_raise_selected hI hi hchecks (busBody_raise hproc) hafter.1, ?_⟩
    exact ((hafter.of_eq (List.append_assoc ..).symm).cut_poll s.cfg).of_eq (List.append_assoc ..)

/-- Settles O29: a seek is no bus event, and a bank's cursor is `cursorAt` of its index. -/
theorem seekSetsTheCursors : Obligations.SeekSetsTheCursors := by
  unfold Obligations.SeekSetsTheCursors
  intro s l hI hi hl
  have hchecks := countChecks_none hi hl
  have hwrite : seekBodyW l.toNat s = .ok [] { s with
      handles := s.handles.mapIdx fun c h => { h with wpage := cursorAt s.cfg l.toNat c }
      curW := pageChip s.cfg l.toNat } := by rw [seekBodyW, forEachChip_seekW s _ hI.banks]
  have hread : seekBodyR l.toNat s = .ok [] { s with
      handles := s.handles.mapIdx fun c h => { h with rpage := cursorAt s.cfg l.toNat c }
      curR := pageChip s.cfg l.toNat } := by rw [seekBodyR, forEachChip_seekR s _ hI.banks]
  exact ⟨perform_ok hchecks hwrite, perform_ok hchecks hread⟩

/-- R215: an `ERASE_RANGE` that answers `OK` has run its bus procedure to the end. -/
theorem eraseFrom_of_eraseRange_ok {s t : State} {n : ArgField} (hi : s.idle = true)
    (hn : n.toNat ≤ s.cfg.chips * s.cfg.numPages) (h : exec (.eraseRange n) s = .next t)
    (hr : t.responses = s.responses ++ [okResponse []]) : eraseFrom s.cfg n.toNat 0 s.bus = .ok () t.bus := by
  have hchecks := countChecks_none hi hn
  cases hproc : eraseFrom s.cfg n.toNat 0 s.bus with
  | ok a b =>
    obtain rfl := Host.Outcome.next.inj ((perform_ok hchecks (busBody_ok hproc)).symm.trans h)
    rfl
  | raise e c b =>
    obtain rfl := Host.Outcome.next.inj ((perform_raise hchecks (busBody_raise hproc)).symm.trans h)
    cases congrArg Response.err (response_inj hr)

/-- R64: logical page `p * N + c` is on chip `c`. -/
theorem pageChip_of_location {cfg : Config} {c : Nat} (hc : c < cfg.chips) (p : Nat) : pageChip cfg (p * cfg.chips + c) = c := by
  rw [pageChip, Nat.mul_add_mod_self_right, Nat.mod_eq_of_lt hc]

theorem pageIndex_lt {cfg : Config} {l : Nat} (hl : l < cfg.chips * cfg.numPages) : pageIndex cfg l < cfg.numPages :=
  Nat.div_lt_of_lt_mul hl

/-- Settles O54: page by page, among ready chips; a page that has been erased is in no doubt. -/
theorem eraseRangeErasesItsPages : Obligations.EraseRangeErasesItsPages := by
  unfold Obligations.EraseRangeErasesItsPages
  intro s t n hI hi hn hf ha hready hexec hr
  have hdecode : ∀ j, j < 0 + n.toNat → decodePage s.cfg (encodePage s.cfg (pageIndex s.cfg j)) = pageIndex s.cfg j :=
    fun j hj => decodePage_encodePage hI.valid (pageIndex_lt (by omega))
  have hmemory := eraseFrom_memory hf hI.chips_pos n.toNat 0 ⟨ha, hI.devices, hready⟩ hdecode
    (eraseFrom_of_eraseRange_ok hi hn hexec hr)
  refine ⟨fun c p o hc hp ho => ?pages, fun c hc => ?rest⟩
  case pages =>
    obtain ⟨hmain, -, -, hcertain⟩ := hmemory c hc
    refine ⟨fun hlt => ?erased, fun hge => ?kept⟩
    case erased =>
      have hnil := hcertain ⟨p * s.cfg.chips + c, by omega, by omega, (pageChip_of_location hc p).symm⟩
      rw [Chip.arrayByte_of_no_doubts hnil c p o]
      exact (hmain p o ho).trans (if_pos (by omega))
    case kept => exact (hmain p o ho).trans (if_neg (by omega))
  case rest =>
    obtain ⟨-, hbuf, hdoubts, -⟩ := hmemory c hc
    exact ⟨hbuf, hdoubts⟩

end Sys2Proof.Machine
end

section
/-! Requests that a check turns away (R253 to R255): the phase first, then the ranges. -/

namespace Sys2Proof.Machine

section Checks

variable {s : State} {phase : Bool} {ranges : List (Bool × ErrorKind)} {low : List Byte → Byte}
  {body : State → Res State (List Byte)}

/-- R255: the state precondition decides before the ranges do. -/
theorem perform_wrong_phase (h : phase = false) : perform ((phase, .sequenceMisuse) :: ranges) low body s =
    .next { s with responses := s.responses ++ [errResponse .sequenceMisuse 0] } :=
  perform_refused (by rw [h, firstError_false]) low body s

/-- R255: in the right phase the ranges decide. -/
theorem perform_out_of_range (h : phase = true) (hr : firstError ranges = some .invalidAddress) :
    perform ((phase, .sequenceMisuse) :: ranges) low body s =
      .next { s with responses := s.responses ++ [errResponse .invalidAddress 0] } :=
  perform_refused (by rw [h, firstError_true, hr]) low body s

/-- Checks that all answer `e`: which of them fails makes no difference. -/
theorem firstError_of_all {checks : List (Bool × ErrorKind)} {e : ErrorKind} (hall : ∀ x ∈ checks, x.2 = e)
    (hfail : ∃ x ∈ checks, x.1 = false) : firstError checks = some e := by
  induction checks with
  | nil => obtain ⟨x, hx, -⟩ := hfail; cases hx
  | cons x rest ih =>
    obtain ⟨holds, k⟩ := x
    obtain ⟨rfl, hrest⟩ := List.forall_mem_cons.1 hall
    cases holds with
    | false => rfl
    | true => exact ih hrest (by simpa using hfail)

theorem firstError_range {holds : Prop} [Decidable holds] (h : ¬ holds) :
    firstError [(decide holds, .invalidAddress)] = some .invalidAddress := by
  rw [decide_eq_false h, firstError_false]

/-- R253: a page operand or a chip operand out of range. -/
theorem firstError_page_operands {c : ChipField} {p : ArgField} (h : s.cfg.chips ≤ c.toNat ∨ s.cfg.numPages ≤ p.toNat) :
    firstError [(chipInRange s.cfg c, .invalidAddress), (pageInRange s.cfg p, .invalidAddress)] = some .invalidAddress := by
  refine firstError_of_all (by simp) ?_
  simpa [chipInRange, pageInRange] using h

end Checks

/-- Settles O36: in the wrong phase the first check fails; an `END_W` off a page boundary passes it and fails the second. -/
theorem wrongPhaseIsSequenceMisuse : Obligations.WrongPhaseIsSequenceMisuse := by
  unfold Obligations.WrongPhaseIsSequenceMisuse
  intro s i hI
  refine ⟨?_, fun w hw => malformedWordsAreRefused.1 w s hw⟩
  rintro (⟨hi, h⟩ | ⟨hf, hoff, rfl⟩ | ⟨hf, h⟩)
  · have hphase : s.filling = false := hI.filling_eq_false hi
    rcases h with ⟨v, rfl⟩ | rfl
    all_goals exact perform_wrong_phase hphase
  · exact perform_refused (by rw [hf, firstError_true, decide_eq_false hoff, firstError_false]) _ _ s
  · have hphase : s.idle = false := hI.idle_eq_false hf
    rcases h with rfl | rfl | ⟨n, rfl⟩ | ⟨l, rfl⟩ | ⟨l, rfl⟩ | ⟨c, rfl⟩ | ⟨c, rfl⟩ | ⟨c, p, rfl⟩ | ⟨c, p, rfl⟩ | ⟨c, rfl⟩
    all_goals exact perform_wrong_phase hphase

/-- Settles O37: the phase is right, so the operand or the cursor out of range decides. -/
theorem outOfRangeIsInvalidAddress : Obligations.OutOfRangeIsInvalidAddress := by
  unfold Obligations.OutOfRangeIsInvalidAddress
  rintro s i - (⟨hf, ⟨v, rfl⟩, hfull⟩ | ⟨hi, ⟨rfl, hend⟩ | ⟨c, p, h, hp⟩ | ⟨n, h, hn⟩ | ⟨c, p, h, hc⟩⟩)
  · exact perform_out_of_range hf (firstError_range (by rw [hfull]; exact lt_irrefl _))
  · exact perform_out_of_range hi (firstError_range (by rw [hend]; exact lt_irrefl _))
  · have hrange := firstError_page_operands (c := c) (.inr hp)
    rcases h with rfl | rfl
    all_goals exact perform_out_of_range hi hrange
  · have hrange : firstError [(countInRange s.cfg n, .invalidAddress)] = some .invalidAddress :=
      firstError_range (Nat.not_le.2 hn)
    rcases h with rfl | rfl | rfl
    all_goals exact perform_out_of_range hi hrange
  · have hchip : firstError [(chipInRange s.cfg c, .invalidAddress)] = some .invalidAddress :=
      firstError_range (Nat.not_lt.2 hc)
    have hrange := firstError_page_operands (p := p) (.inl hc)
    rcases h with rfl | rfl | rfl | rfl | rfl
    · exact perform_out_of_range hi hchip
    · exact perform_out_of_range hi hchip
    · exact perform_out_of_range hi hrange
    · exact perform_out_of_range hi hrange
    · exact perform_out_of_range hi hchip

end Sys2Proof.Machine
end

section
/-! What the response of an instruction says of the state it leaves (R250, R256 to R258, R269). -/

namespace Sys2Proof.Machine

section Response

variable {s t : State} {i : Instr} {r : Response} {e : ErrorKind}

/-- R269, R11: the errors of an instruction. -/
theorem exec_error (hI : s.Inv) (h : exec i s = .next t) (hr : t.responses = s.responses ++ [r]) (he : r.err = some e) :
    mayAnswer i e = true ∧ (e = .busFault → s.cfg.hasBusFault = true) := by
  cases exec_outcome hI h with
  | refused k hmay hcheck ht =>
    subst ht
    obtain rfl := response_inj hr
    obtain rfl := Option.some.inj he
    exact ⟨hmay, by rintro rfl; cases hcheck <;> contradiction⟩
  | answered data w _ _ _ _ _ ht =>
    subst ht
    obtain rfl := response_inj hr
    cases he
  | failed k c base _ _ hmay _ hfault _ _ _ ht _ =>
    rw [ht] at hr
    obtain rfl := response_inj hr
    obtain rfl := Option.some.inj he
    exact ⟨hmay, hfault⟩

theorem not_turnedAway_of_ok (hok : r.err = none) : ¬ turnedAway r := by simp [turnedAway, hok]

theorem not_aborts_of_ok (hok : r.err = none) : ¬ aborts r := by simp [aborts, hok]

/-- R256: the two kinds of errors. -/
theorem not_aborts_of_turnedAway (h : turnedAway r) : ¬ aborts r := by
  rcases h with hk | hk
  all_goals simp [aborts, hk]

/-- R18, R256: the response tells which of the three ends an operation has had, and each has its state. -/
theorem exec_by_response (hI : s.Inv) (h : exec i s = .next t) (hr : t.responses = s.responses ++ [r]) :
    (r.err = none ∧ Ready s i ∧ ∃ data w, OkRegs s data i w ∧ t = { w with responses := s.responses ++ [r] }) ∨
      (turnedAway r ∧ t = { s with responses := s.responses ++ [r] }) ∨
      (aborts r ∧ (∃ base : State, t = { base.aborted t.bus with responses := s.responses ++ [r] }) ∧ t.bus.cs = none ∧
        (inSession i = true → ∃ b : Bus, t.bus = b.loseBuffers)) := by
  cases exec_outcome hI h with
  | refused k _ hk ht =>
    subst ht
    obtain rfl := response_inj hr
    exact .inr (.inl ⟨hk.imp (congrArg some) (congrArg some), rfl⟩)
  | answered data w hready hregs _ _ _ ht =>
    subst ht
    obtain rfl := response_inj hr
    exact .inl ⟨rfl, hready, data, w, hregs, rfl⟩
  | failed k c base _ _ _ hk _ _ hcs _ ht hlost =>
    have hresp : t.responses = s.responses ++ [errResponse k c] := congrArg State.responses ht
    obtain rfl := response_inj (hresp.symm.trans hr)
    exact .inr (.inr ⟨hk.imp (congrArg some) (congrArg some), ⟨base, ht⟩, hcs, hlost⟩)

theorem exec_of_ok (hI : s.Inv) (h : exec i s = .next t) (hr : t.responses = s.responses ++ [r]) (hok : r.err = none) :
    Ready s i ∧ ∃ data w, OkRegs s data i w ∧ t = { w with responses := s.responses ++ [r] } := by
  obtain ⟨-, hend⟩ | ⟨hk, -⟩ | ⟨hk, -⟩ := exec_by_response hI h hr
  · exact hend
  · exact absurd hk (not_turnedAway_of_ok hok)
  · exact absurd hk (not_aborts_of_ok hok)

theorem exec_of_turnedAway (hI : s.Inv) (h : exec i s = .next t) (hr : t.responses = s.responses ++ [r])
    (hturned : turnedAway r) : t = { s with responses := s.responses ++ [r] } := by
  obtain ⟨hk, -⟩ | ⟨-, hend⟩ | ⟨hk, -⟩ := exec_by_response hI h hr
  · exact absurd hturned (not_turnedAway_of_ok hk)
  · exact hend
  · exact absurd hk (not_aborts_of_turnedAway hturned)

theorem exec_of_aborts (hI : s.Inv) (h : exec i s = .next t) (hr : t.responses = s.responses ++ [r]) (ha : aborts r) :
    (∃ base : State, t = { base.aborted t.bus with responses := s.responses ++ [r] }) ∧ t.bus.cs = none ∧
      (inSession i = true → ∃ b : Bus, t.bus = b.loseBuffers) := by
  obtain ⟨hk, -⟩ | ⟨hk, -⟩ | ⟨-, hend⟩ := exec_by_response hI h hr
  · exact absurd ha (not_aborts_of_ok hk)
  · exact absurd ha (not_aborts_of_turnedAway hk)
  · exact hend

end Response

/-- Settles O43: the errors of a check and of the abort, by the table of R269. -/
theorem operationsAnswerOnlyTheirErrors : Obligations.OperationsAnswerOnlyTheirErrors := by
  unfold Obligations.OperationsAnswerOnlyTheirErrors
  exact fun i s t r e hI h hr he => exec_error hI h hr he

/-- U4: what any chip's buffers hold after they are lost. -/
theorem Bus.bufByte_loseBuffers {b : Bus} {c : Nat} (hc : c < b.chips.length) (q : Parity) (o : Nat) :
    (b.loseBuffers.chip c).bufByte c q o = Config.unknownByte c (Chip.bufSpace q) b.tick o := by
  rw [Bus.chip_of_getElem? (ch := b.chips[c].loseBuffers b.tick) (by simp [hc]), Chip.loseBuffers_bufByte]

/-- Settles O45: the abort leaves every bank Idle with offset 0, and after a write session a bus whose buffers are lost. -/
theorem errorsLeaveTheBlockReady : Obligations.ErrorsLeaveTheBlockReady := by
  unfold Obligations.ErrorsLeaveTheBlockReady
  intro i s t r hI h hr
  refine ⟨exec_of_turnedAway hI h hr, fun ha => ?_⟩
  obtain ⟨⟨base, ht⟩, hcs, hlost⟩ := exec_of_aborts hI h hr ha
  refine ⟨fun x hx => ?banks, by rw [ht]; rfl, hcs, fun hi c q o hc => ?buffers⟩
  case banks =>
    have hhandles : t.handles = base.handles.map Handle.aborted := by rw [ht]; rfl
    rw [hhandles] at hx
    obtain ⟨y, -, rfl⟩ := List.mem_map.1 hx
    exact ⟨rfl, rfl⟩
  case buffers =>
    obtain ⟨b, hb⟩ := hlost hi
    have hlen : t.bus.chips.length = s.cfg.chips := (exec_shaped hI h).1
    rw [hb, Bus.loseBuffers_length] at hlen
    rw [hb]
    exact Bus.bufByte_loseBuffers (hlen ▸ hc) q o

/-! The next logical page to write. -/

section Shape

variable {s t : State} {k : Nat} {r : Response}

/-- R258: in the shape of `k` pages `Lw` is `k`, split into its page and its chip (R64). -/
theorem State.WriteShape.nextLogicalPage_eq (hI : s.Inv) (h : s.WriteShape k) : s.nextLogicalPage = k := by
  obtain ⟨-, hcur, hpages⟩ := h
  have hpage := hpages _ hI.curW_lt
  rw [hcur, cursorAt_pageChip] at hpage
  rw [State.nextLogicalPage, hcur, hpage, pageChip, Nat.div_add_mod']

theorem handle_mapIdx {w : State} {f : Nat → Handle → Handle} {c : Nat} (h : w.handles = s.handles.mapIdx f)
    (hc : c < s.handles.length) : w.handle c = f c (s.handle c) :=
  State.handle_of_getElem? (by rw [h, List.getElem?_mapIdx, State.getElem?_handle hc]; rfl)

/-- R211: a page end that answers `OK` is one logical page. -/
theorem writeShape_of_page_end {v : Byte} (hI : s.Inv) (hs : s.WriteShape k) (hsoff : s.soff + 1 = s.cfg.pageSize)
    (h : exec (.writeByte v) s = .next t) (hr : t.responses = s.responses ++ [r]) (hok : r.err = none) :
    t.WriteShape (k + 1) := by
  obtain ⟨⟨-, hroom⟩, data, w, ⟨hlt, -⟩ | ⟨-, hw, -⟩, ht⟩ := exec_of_ok hI h hr hok
  · omega
  · have hhandles : t.handles = s.handles.set s.curW (s.handle s.curW).committed := by rw [ht, hw]
    refine writeShape_commit hI hs hroom (by rw [ht, hw]) (by rw [ht, hw]) fun c _ => ?_
    rw [handle_set hhandles (hI.bank_lt hI.curW_lt)]
    split
    · next hc => rw [hc]; rfl
    · rfl

/-- R216: the shape that a seek sets. -/
theorem writeShape_of_seek {l : ArgField} (hI : s.Inv) (hi : s.idle = true) (hl : l.toNat ≤ s.cfg.totalPages)
    (h : exec (.seekW l) s = .next t) : t.WriteShape l.toNat := by
  obtain rfl := Host.Outcome.next.inj ((seekSetsTheCursors s l hI hi hl).1.symm.trans h)
  refine ⟨hl, rfl, fun c hc => ?_⟩
  rw [handle_mapIdx (s := s) rfl (hI.bank_lt hc)]
  rfl

end Shape

/-- Settles O30: the page end's response is `OK`, so its registers are those of R211. -/
theorem nextLogicalPageFollowsTheStream : Obligations.NextLogicalPageFollowsTheStream := by
  unfold Obligations.NextLogicalPageFollowsTheStream
  intro s k hI hs
  refine ⟨hs.nextLogicalPage_eq hI, fun v t _ _ hsoff h hlast => ?pageEnd, fun l t hi hl h => writeShape_of_seek hI hi hl h⟩
  case pageEnd =>
    obtain ⟨r, hr, -⟩ := exec_responds hI h
    have hok : r = okResponse [] := by simpa [hr] using hlast
    exact writeShape_of_page_end hI hs hsoff h hr (by rw [hok]; rfl)

end Sys2Proof.Machine
end

section
/-! What the model knows of readiness (R297) against the reference chips (R75, R81), instruction by instruction and over a reset. -/

namespace Sys2Proof.Machine

section Honest

variable {s t : State} {i : Instr} {d : Nat}

/-- R107, log 11: an instruction that does not stop is none of the two that no frame shape is given for. -/
theorem emitted_of_next (h : exec i s = .next t) : ∀ c rest, i ≠ .spiIdRead c rest ∧ i ≠ .spiSecurityRead c rest := by
  refine fun c rest => ⟨?_, ?_⟩
  all_goals
    rintro rfl
    cases h

theorem knownReadyHonest_iff : s.KnownReadyHonest ↔ ∀ d, s.bus.HonestAt d := by
  constructor
  · rintro ⟨ha, hk⟩ d
    exact ⟨ha, fun ch hc => hk ch (List.mem_of_getElem? hc)⟩
  · intro h
    refine ⟨(h 0).1, fun ch hch => ?_⟩
    obtain ⟨d, hd⟩ := List.mem_iff_getElem?.1 hch
    exact (h d).2 ch hd

/-! Operations outside a write session. -/

theorem harmless_read {op : Byte} (h : op = opcBuf1Read ∨ op = opcBuf2Read) (rest : List Byte) : Harmless (op :: rest) :=
  .inr ⟨op, rest, rfl, .inr (h.imp_right .inl)⟩

theorem harmless_write {op : Byte} (h : op = opcBuf1Write ∨ op = opcBuf2Write) (rest : List Byte) : Harmless (op :: rest) :=
  .inr ⟨op, rest, rfl, .inr (.inr (.inr h))⟩

theorem statusData_honest {cfg : Config} {c : Nat} {b : Bus} (hb : b.HonestAt d) : KeepsHonest cfg d (statusData cfg c b) :=
  (KeepsHonest.statusRead hb).andThen fun _ _ _ hb' => hb'

/-- R297: the bus procedure of a transport call, an `ERASE_RANGE` or a single frame. -/
theorem transportProc_honest (hcs : s.bus.cs = none) (hs : s.bus.HonestAt d) :
    KeepsHonest s.cfg d (transportProc s i s.bus) := by
  have erase : ∀ {c : ChipField} {hdr : List Byte},
      KeepsHonest s.cfg d (noData (eraseAndPoll s.cfg c.toNat hdr) s.bus) := (KeepsHonest.eraseAndPoll _ hs).noData
  have busy : ∀ {c : ChipField} {hdr : List Byte},
      KeepsHonest s.cfg d (noData (issueBusy s.cfg c.toNat hdr) s.bus) := (KeepsHonest.issueBusy _ hs).noData
  have commit : ∀ {c : ChipField} {hdr : List Byte} {p : Nat}, KeepsHonest s.cfg d
      (noData (fun b => issueBusy s.cfg c.toNat hdr (b.noteCommit s.cfg c.toNat p)) s.bus) := fun {c hdr p} =>
    KeepsHonest.noData (f := fun b => issueBusy s.cfg c.toNat hdr (b.noteCommit s.cfg c.toNat p))
      (KeepsHonest.issueBusy hdr (b := s.bus.noteCommit s.cfg c.toNat p) hs)
  have write : ∀ {c : ChipField} {op : Byte} {rest : List Byte}, op = opcBuf1Write ∨ op = opcBuf2Write →
      KeepsHonest s.cfg d
        (noData (fun b => (issue s.cfg c.toNat (op :: rest) 0 0 b).andThen fun _ b => .ok () b) s.bus) :=
    fun {c op rest} ho =>
      KeepsHonest.noData (f := fun b => (issue s.cfg c.toNat (op :: rest) 0 0 b).andThen fun _ b => .ok () b)
        ((KeepsHonest.issue (op :: rest) 0 0 hs fun _ => harmless_write ho _).andThen fun _ _ _ hb => hb)
  cases i with
  | eraseRange n => exact (KeepsHonest.eraseFrom _ _ hs).noData
  | readStatus c => exact statusData_honest hs
  | waitReady c => exact (KeepsHonest.pollReady hs hcs).noData
  | pageErase c p => exact erase
  | sectorErase c p => exact erase
  | chipErase c => exact erase
  | spiStatusRead c => exact statusData_honest hs
  | spiPageToBuf1 c a => exact busy
  | spiPageToBuf2 c a => exact busy
  | spiBuf1Read c a => exact KeepsHonest.issue _ _ _ hs fun _ => harmless_read (.inl rfl) _
  | spiBuf2Read c a => exact KeepsHonest.issue _ _ _ hs fun _ => harmless_read (.inr rfl) _
  | spiBuf1Write c a data => exact write (.inl rfl)
  | spiBuf2Write c a data => exact write (.inr rfl)
  | spiBuf1Commit c a => exact commit
  | spiBuf1CommitAlt c a => exact commit
  | spiBuf2Commit c a => exact commit
  | spiBuf2CommitAlt c a => exact commit
  | spiPageErase c a => exact busy
  | spiSectorErase c a => exact busy
  | spiChipErase c => exact busy
  | _ => exact hs

theorem readBody_honest (hs : s.bus.HonestAt d) : HonestS s.cfg d (readBody s) := by
  rw [readBody, engReadPage_eq, Res.andThen_assoc]
  exact (HonestS.onBus (f := readProc s.cfg s.curR (s.handle s.curR).rpage) (KeepsHonest.readProc _ hs)).andThen
    fun _ _ _ hw hcfg => ⟨hw, hcfg⟩

theorem honestS_of_bus {r : Res State (List Byte)} (hs : s.bus.HonestAt d)
    (hr : ∃ w, r = .ok [] w ∧ w.bus = s.bus ∧ w.cfg = s.cfg) : HonestS s.cfg d r := by
  obtain ⟨w, rfl, hbus, hcfg⟩ := hr
  exact ⟨hbus.symm ▸ hs, hcfg⟩

/-! Write sessions. -/

theorem startBody_honest (hs : s.bus.HonestAt d) : HonestS s.cfg d (startBody s) := by
  obtain ⟨hbus, hcfg⟩ := forEachChip_bus engStart (fun _ _ => ⟨rfl, rfl⟩) s.cfg.chips s
  have hopen : HonestS _ d (engOpen s.curW (s.forEachChip engStart s.cfg.chips)) := HonestS.engOpen (hbus.symm ▸ hs)
  rw [hcfg] at hopen
  exact hopen.andThen fun _ _ _ hw hc => ⟨hw, hc⟩

/-- R183: a byte fed into the open frame, a buffer write. -/
theorem engSend_honest (hI : s.Inv) (hf : s.filling = true) (v : Byte) (hs : s.bus.HonestAt d) :
    HonestS s.cfg d (engSend s.curW v s) := by
  obtain ⟨-, hcs, data, hdata, -⟩ := hI.streaming hf
  refine HonestS.andThen (HonestS.onBus (f := transferBlock s.cfg s.curW [v])
    (KeepsHonest.transferBlock [v] hs fun hd ch hch => ?_)) fun _ _ _ hw hc => ⟨hw, hc⟩
  obtain rfl := Option.some.inj (hcs.symm.trans hd)
  rw [← Bus.chip_of_getElem? hch, hdata, List.append_assoc]
  exact harmless_open _ _

/-- R211 steps 5 to 8. -/
theorem pageAdvance_honest {c : Nat} (hs : s.bus.HonestAt d) (hq : Harmless (s.bus.chip c).received) :
    HonestS s.cfg d (pageAdvance c s) := by
  refine (HonestS.engCommit hs fun _ => hq).andThen fun _ w _ hw hcfg => ?_
  rw [← hcfg]
  exact (HonestS.engOpen (s := { w with soff := 0, curW := nextChip w.cfg w.curW }) hw).andThen
    fun _ _ _ hx hc => ⟨hx, hc⟩

theorem writeBody_honest (hI : s.Inv) (hf : s.filling = true) (v : Byte) (hs : s.bus.HonestAt d) :
    HonestS s.cfg d (writeBody v s) := by
  obtain ⟨-, hcs, data, hdata, -⟩ := hI.streaming hf
  refine (engSend_honest hI hf v hs).andThen fun _ u hsend hu hcfg => ?_
  obtain ⟨-, -, -, -, hrec⟩ := (engSend_effect hcs v).of_eq_ok hsend
  show HonestS s.cfg d (if _ then _ else _)
  split
  · exact ⟨hu, hcfg⟩
  · rw [← hcfg]
    refine pageAdvance_honest hu ?_
    rw [hrec (hI.chip_lt hI.curW_lt), hdata, List.append_assoc]
    exact harmless_open _ _

theorem endBody_honest (hI : s.Inv) (hf : s.filling = true) (hs : s.bus.HonestAt d) : HonestS s.cfg d (endBody s) := by
  obtain ⟨-, -, data, hdata, -⟩ := hI.streaming hf
  have hdesel : (s.bus.desel s.cfg s.curW).HonestAt d := by
    refine ⟨hs.1, (kept_honest s.cfg d).desel hs.2 ?_⟩
    rintro rfl ch hch
    rw [← Bus.chip_of_getElem? hch, hdata]
    exact harmless_open _ _
  refine HonestS.andThen (HonestS.onBus (s := { s with bus := s.bus.desel s.cfg s.curW })
    (KeepsHonest.pollFrom _ 0 hdesel rfl)) fun _ w _ hw hcfg => ?_
  obtain ⟨hbus, hcfg'⟩ := forEachChip_bus engEnd (fun _ _ => ⟨rfl, rfl⟩) w.cfg.chips w
  exact ⟨hbus.symm ▸ hw, hcfg'.trans hcfg⟩

/-- R297: every instruction, however it ends, keeps a chip honest. -/
theorem exec_honest (hI : s.Inv) (h : exec i s = .next t) (hs : s.bus.HonestAt d) : t.bus.HonestAt d := by
  cases hk : keepsRegisters i with
  | true =>
    have hne := emitted_of_next h
    rw [exec_transport hk hne] at h
    refine HonestS.perform hs (fun hg => HonestS.onBus ?_) h
    exact transportProc_honest (hI.resting (transport_effect hI hk hne hg).1).2 hs
  | false =>
    cases i with
    | startW => exact HonestS.perform hs (fun _ => startBody_honest hs) (h : execStartW s = .next t)
    | writeByte v =>
      exact HonestS.perform hs (fun hc => writeBody_honest hI (firstError_cons_none hc).1 v hs)
        (h : execWriteByte v s = .next t)
    | endW =>
      exact HonestS.perform hs (fun hc => endBody_honest hI (firstError_cons_none hc).1 hs) (h : execEndW s = .next t)
    | readPage => exact HonestS.perform hs (fun _ => readBody_honest hs) (h : execReadPage s = .next t)
    | seekW l =>
      exact HonestS.perform hs (fun _ => honestS_of_bus hs (seekBodyW_bus l.toNat)) (h : execSeekW l s = .next t)
    | seekR l =>
      exact HonestS.perform hs (fun _ => honestS_of_bus hs (seekBodyR_bus l.toNat)) (h : execSeekR l s = .next t)
    | _ => cases hk

theorem exec_knownReadyHonest (hI : s.Inv) (h : exec i s = .next t) (hs : s.KnownReadyHonest) : t.KnownReadyHonest :=
  knownReadyHonest_iff.2 fun d => exec_honest hI h (knownReadyHonest_iff.1 hs d)

end Honest

/-! Over a reset. -/

/-- R308: replayed events take no answer from outside where there is none. -/
theorem Bus.replay_answers_nil {b : Bus} (cfg : Config) (es : List Event) (hb : b.answers = []) :
    (b.replay cfg es).answers = [] := by
  induction es generalizing b with
  | nil => exact hb
  | cons e es ih =>
    refine ih (b := b.react cfg e) ?_
    cases e <;> simp [Bus.react, hb]

/-- R293, R297: no chip is known to be ready right after a reset. -/
theorem blockReset_knownReadyHonest {s : State} (ha : s.bus.answers = []) : s.blockReset.KnownReadyHonest := by
  refine ⟨(State.blockReset_answers s).trans ha, fun ch hch hk => ?_⟩
  obtain ⟨c, hc⟩ := List.mem_iff_getElem?.1 hch
  rw [State.blockReset_chips, Bus.resetSelects_getElem?, Option.map_eq_some_iff] at hc
  obtain ⟨ch', -, rfl⟩ := hc
  cases hk

/-- Settles O16: every frame that can make a chip busy first takes the mark away, and only a status byte that the chip itself has
sent sets it. -/
theorem stepKeepsKnownReadyHonest : Obligations.StepKeepsKnownReadyHonest := by
  unfold Obligations.StepKeepsKnownReadyHonest
  intro s t hI hs h
  suffices hboth : t.Inv ∧ t.KnownReadyHonest from hboth.2
  refine step_keeps (P := fun w => w.Inv ∧ w.KnownReadyHonest) (fun hw => ?reset) (fun k w u hw _ => ?cut)
    (fun w p r k hw => ?congr) (fun i w u hw _ hx => ?exec) hI.valid ⟨hI, hs⟩ h
  case reset => exact ⟨blockReset_inv hw.1.valid hw.1.shaped, blockReset_knownReadyHonest hw.2.1⟩
  case cut =>
    obtain ⟨hI, ha, -⟩ := hw
    exact ⟨cutOff_inv hI.valid hI.shaped k, blockReset_knownReadyHonest (Bus.replay_answers_nil _ _ ha)⟩
  case congr => exact ⟨inv_congr hw.1 p r w.stream k w.past, hw.2⟩
  case exec => exact ⟨exec_inv hw.1 hx, exec_knownReadyHonest hw.1 hx hw.2⟩

end Sys2Proof.Machine
end

section
/-! The reset values (R39, decision D27), and what a reset in place leaves (R291, R293), between operations and in the middle of one. -/

namespace Sys2Proof.Machine

/-! One chip at a reset. -/

section ChipReset

variable {b : Bus} {c : Nat}

/-- R291, R293, U2, U5: chip `c` of the bus `b` has become `ch` in a reset. -/
structure ChipAtReset (cfg : Config) (b : Bus) (c : Nat) (ch : Chip) : Prop where
  busy : ch.busy = Config.unknownBusy c b.tick
  buffers : ∀ q o, ch.bufByte c q o = Config.unknownByte c (Chip.bufSpace q) b.tick o
  kept : b.cs ≠ some c → ∀ p o, ch.arrayByte cfg c p o = (b.chip c).arrayByte cfg c p o
  cut : b.cs = some c → ∀ p o, ch.arrayByte cfg c p o = Config.unknownByte c 0 b.tick (mainAddr cfg p o)

theorem resetSelects_chipAtReset (cfg : Config) (hc : c < b.chips.length) :
    ChipAtReset cfg b c (b.resetSelects.chip c) where
  busy := by rw [Bus.resetSelects_chip hc, Chip.atReset_busy]
  buffers q o := by rw [Bus.resetSelects_chip hc, Chip.atReset_bufByte]
  kept hcs p o := by rw [Bus.resetSelects_arrayByte hc, if_neg hcs]
  cut hcs p o := by rw [Bus.resetSelects_arrayByte hc, if_pos hcs]

/-- The hazard bits say nothing of a chip. -/
theorem ChipAtReset.of_hazard {cfg : Config} {x : Hazard} {ch : Chip} (h : ChipAtReset cfg { b with hazard := x } c ch) :
    ChipAtReset cfg b c ch :=
  ⟨h.busy, h.buffers, h.kept, h.cut⟩

end ChipReset

/-! An operation cut off. -/

section CutOff

variable {s t : State} {es : List Event} {k c : Nat}

/-- R291: the chips that the events before the reset have led to, at the reset. -/
theorem cutOff_chipAtReset (hI : s.Inv) (htrace : t.bus.trace = s.bus.trace ++ es) (hc : c < s.cfg.chips) :
    ChipAtReset s.cfg (s.bus.replay s.cfg (es.take k)) c ((State.cutOff k s t).bus.chip c) := by
  have hlen : c < (s.bus.replay s.cfg (es.take k)).chips.length := (hI.shaped.replay s.cfg _).1.symm ▸ hc
  rw [State.cutOff, eventsSince_of_trace htrace]
  exact (resetSelects_chipAtReset (b := { s.bus.replay s.cfg (es.take k) with hazard := t.bus.hazard }) s.cfg hlen).of_hazard

/-- R15, R291: the events before the reset are those of a run that has ended. -/
theorem cutOff_past (htrace : t.bus.trace = s.bus.trace ++ es) :
    (State.cutOff k s t).past = s.past ++ [s.bus.trace ++ es.take k] := by
  rw [State.cutOff, eventsSince_of_trace htrace, State.blockReset_past, Bus.replay_trace]

end CutOff

/-- Settles O11: the registers are written out in the model's reset, the chips are those of `ChipAtReset`; a chip that one of the
events before the reset has shown ready has no page in doubt. -/
theorem resetValues : Obligations.ResetValues := by
  unfold Obligations.ResetValues
  refine ⟨fun cfg => ?constructed, fun s hI => ?inPlace, fun i s t es k hI _ htrace _ => ?cutOff⟩
  case constructed =>
    refine ⟨List.length_replicate, fun h hm => ?_, rfl, rfl, rfl, rfl⟩
    rw [List.eq_of_mem_replicate hm]
    exact ⟨rfl, rfl, rfl, rfl, rfl⟩
  case inPlace =>
    refine ⟨blockReset_inv hI.valid hI.shaped, rfl, rfl, rfl, rfl, rfl, rfl, rfl, rfl, rfl, rfl, rfl, rfl, fun c hc => ?_⟩
    have hchip := resetSelects_chipAtReset (b := s.bus) s.cfg (hI.chip_lt hc)
    exact ⟨hchip.busy, hchip.buffers, hchip.kept, hchip.cut⟩
  case cutOff =>
    refine ⟨cutOff_inv hI.valid hI.shaped k, rfl, rfl, rfl, rfl, rfl, rfl, cutOff_past htrace, rfl, rfl, rfl, rfl,
      fun c hc => ?_⟩
    have hchip := cutOff_chipAtReset (k := k) hI htrace hc
    refine ⟨hchip.busy, hchip.buffers, hchip.kept, hchip.cut, fun before later x v hes hv hlater hcs p o => ?confirmed⟩
    case confirmed =>
      rw [hchip.kept hcs, hes]
      exact Chip.arrayByte_of_no_doubts (Bus.replay_confirmed hv hlater s.bus) c p o

end Sys2Proof.Machine
end

section
/-! The bound on the bus events of an operation (R305, log 24). -/

namespace Sys2Proof.Machine

section Bound

variable {s : State}

theorem Traced.within {cfg : Config} {n : Nat} {m m' : Monitor} {b b' : Bus} (h : Traced cfg n m m' b b') :
    ∃ es, b'.trace = b.trace ++ es ∧ es.length ≤ n := by
  obtain ⟨es, htrace, hlen, -⟩ := h
  exact ⟨es, htrace, hlen⟩

/-- R32, R104: a state of the invariant is one that a monitor of the bus can be in. -/
theorem State.Inv.exists_monitorAt (hI : s.Inv) : ∃ m, s.MonitorAt m := by
  rcases hI.phase with ⟨-, hcs⟩ | ⟨-, hcs, data, -, hlen⟩
  · exact ⟨.free, (State.monitorAt_none hcs).2 rfl⟩
  · exact ⟨_, (State.monitorAt_some hcs).2 ⟨data, hlen, rfl⟩⟩

end Bound

/-- Settles O48: an operation that a check turns away makes no event; the others are followed by the monitor, which counts. -/
theorem everyOperationTerminatesInBound : Obligations.EveryOperationTerminatesInBound := by
  unfold Obligations.EveryOperationTerminatesInBound
  intro i s t r hI h hr
  obtain ⟨m, hm⟩ := hI.exists_monitorAt
  cases exec_outcome hI h with
  | refused e _ _ ht =>
    subst ht
    exact ⟨[], (List.append_nil _).symm, Nat.zero_le _⟩
  | answered data w _ _ _ _ hmoved ht =>
    obtain ⟨m', -, htraced⟩ := hmoved m hm
    subst ht
    exact (htraced.mono (Nat.le_add_right _ _)).within
  | failed e c base _ _ _ _ _ _ _ hmoved ht _ =>
    have hresp : t.responses = s.responses ++ [errResponse e c] := congrArg State.responses ht
    obtain rfl := response_inj (hresp.symm.trans hr)
    simpa [errResponse] using (hmoved m hm).within

end Sys2Proof.Machine
end

section
/-! The hazard bits (R297, R298, R304, U9, log 17): what sets them, and that nothing takes them back. -/

namespace Sys2Proof.Machine

/-! The two notes that set a bit, and every other event, which keeps both. -/

namespace Bus

variable (cfg : Config) (c p : Nat) (b : Bus)

@[simp] theorem noteBusyFrame_unreadyFrame :
    (b.noteBusyFrame c).hazard.unreadyFrame = (b.hazard.unreadyFrame || !(b.chip c).knownReady) := rfl
@[simp] theorem noteBusyFrame_unerasedCommit :
    (b.noteBusyFrame c).hazard.unerasedCommit = b.hazard.unerasedCommit := rfl
@[simp] theorem noteCommit_unreadyFrame : (b.noteCommit cfg c p).hazard.unreadyFrame = b.hazard.unreadyFrame := rfl
@[simp] theorem noteCommit_unerasedCommit : (b.noteCommit cfg c p).hazard.unerasedCommit =
    (b.hazard.unerasedCommit || (cfg.commitVariant && !(b.chip c).pageErased cfg p)) := rfl

end Bus

theorem closed_unreadyFrame (cfg : Config) (c : Nat) : Closed cfg c (fun b => b.hazard.unreadyFrame = true) where
  sel _ h := h
  desel _ h := h
  xfer b o h := by rwa [Bus.xfer_hazard]
  noteReady _ h := h
  noteBusyFrame b h := by simp [h]
  noteCommit _ _ h := h
  loseBuffers _ h := h

theorem closed_unerasedCommit (cfg : Config) (c : Nat) : Closed cfg c (fun b => b.hazard.unerasedCommit = true) where
  sel _ h := h
  desel _ h := h
  xfer b o h := by rwa [Bus.xfer_hazard]
  noteReady _ h := h
  noteBusyFrame _ h := h
  noteCommit b p h := by simp [h]
  loseBuffers _ h := h

/-- What the body of an operation that its checks have let through leaves in the hazard bits stays; an abort adds nothing. -/
theorem hazard_of_body {P : Hazard → Prop} {checks : List (Bool × ErrorKind)} {low : List Byte → Byte}
    {body : State → Res State (List Byte)} {s t : State} {r : Response}
    (hchecks : ∀ e, firstError checks = some e → e = .sequenceMisuse ∨ e = .invalidAddress)
    (hbody : firstError checks = none → (body s).All fun w => P w.bus.hazard) (h : perform checks low body s = .next t)
    (hr : t.responses = s.responses ++ [r]) (hn : ¬ turnedAway r) : P t.bus.hazard := by
  rcases perform_cases h with ⟨e, he, rfl⟩ | ⟨hc, ⟨data, w, hw, rfl⟩ | ⟨e, d, w, hw, rfl⟩⟩
  · obtain rfl := response_inj hr
    exact absurd ((hchecks e he).imp (congrArg some) (congrArg some)) hn
  · have hend : P w.bus.hazard := (hbody hc).of_eq_ok hw
    exact hend
  · exact (State.abort_hazard w).symm ▸ (hbody hc).of_eq_raise hw

/-! Frames that make a chip busy (R298). -/

section Unready

variable {cfg : Config} {c : Nat} {b : Bus} {s t : State} {i : Instr} {r : Response}

theorem issueBusy_unready (hdr : List Byte) (hn : (b.chip c).knownReady = false) :
    (issueBusy cfg c hdr b).All fun b => b.hazard.unreadyFrame = true :=
  Closed.andThen ((closed_unreadyFrame cfg c).issue hdr 0 0 (by simp [hn])) fun _ _ hb => hb

theorem eraseAndPoll_unready (hdr : List Byte) (hn : (b.chip c).knownReady = false) :
    (eraseAndPoll cfg c hdr b).All fun b => b.hazard.unreadyFrame = true :=
  Closed.andThen (issueBusy_unready hdr hn) fun _ _ hb => (closed_unreadyFrame cfg c).pollReady hb

/-- R215: the first page is that of the chip of logical page `l`. -/
theorem eraseFrom_unready {k l : Nat} (hk : 0 < k) (hn : (b.chip (pageChip cfg l)).knownReady = false) :
    (eraseFrom cfg k l b).All fun b => b.hazard.unreadyFrame = true := by
  obtain ⟨k, rfl⟩ := Nat.exists_eq_add_one_of_ne_zero hk.ne'
  exact Closed.andThen (eraseAndPoll_unready _ hn) fun _ _ hb =>
    Closed.eraseFrom k (l + 1) (fun d _ _ => closed_unreadyFrame cfg _) hb

theorem readProc_unready (p : Nat) (hn : (b.chip c).knownReady = false) :
    (readProc cfg c p b).All fun b => b.hazard.unreadyFrame = true :=
  Closed.andThen (issueBusy_unready _ hn) fun _ _ h1 =>
    Closed.andThen ((closed_unreadyFrame cfg c).pollReady h1) fun _ _ h2 => (closed_unreadyFrame cfg c).issue _ _ _ h2

theorem noData_all {P : Bus → Prop} {f : Bus → Res Bus Unit} (h : (f b).All P) : (noData f b).All P :=
  Closed.andThen h fun _ _ hb => hb

/-- R298: the erases, `ERASE_RANGE` and the single frames that make a chip busy. -/
theorem transportProc_unready (hk : keepsRegisters i = true) (hc : firstBusyFrame s i = some c)
    (hn : (s.bus.chip c).knownReady = false) :
    (transportProc s i s.bus).All fun b => b.hazard.unreadyFrame = true := by
  have erase : ∀ {d : ChipField} {hdr : List Byte}, some d.toNat = some c →
      (noData (eraseAndPoll s.cfg d.toNat hdr) s.bus).All fun b => b.hazard.unreadyFrame = true :=
    fun hd => noData_all (eraseAndPoll_unready _ (Option.some.inj hd ▸ hn))
  have busy : ∀ {d : ChipField} {hdr : List Byte}, some d.toNat = some c →
      (noData (issueBusy s.cfg d.toNat hdr) s.bus).All fun b => b.hazard.unreadyFrame = true :=
    fun hd => noData_all (issueBusy_unready _ (Option.some.inj hd ▸ hn))
  have commit : ∀ {d : ChipField} {hdr : List Byte} {p : Nat}, some d.toNat = some c →
      (noData (fun b => issueBusy s.cfg d.toNat hdr (b.noteCommit s.cfg d.toNat p)) s.bus).All
        fun b => b.hazard.unreadyFrame = true := fun {d hdr p} hd =>
    noData_all (f := fun b => issueBusy s.cfg d.toNat hdr (b.noteCommit s.cfg d.toNat p))
      (issueBusy_unready (b := s.bus.noteCommit s.cfg d.toNat p) hdr (Option.some.inj hd ▸ hn))
  cases i with
  | eraseRange n =>
    obtain ⟨hn0, hfirst⟩ := Option.ite_none_left_eq_some.1 hc
    have hpos : 0 < n.toNat := Nat.pos_of_ne_zero fun h0 => hn0 (BitVec.eq_of_toNat_eq h0)
    exact noData_all (eraseFrom_unready hpos (Option.some.inj hfirst ▸ hn))
  | pageErase d p => exact erase hc
  | sectorErase d p => exact erase hc
  | chipErase d => exact erase hc
  | spiPageToBuf1 d a => exact busy hc
  | spiPageToBuf2 d a => exact busy hc
  | spiBuf1Commit d a => exact commit hc
  | spiBuf1CommitAlt d a => exact commit hc
  | spiBuf2Commit d a => exact commit hc
  | spiBuf2CommitAlt d a => exact commit hc
  | spiPageErase d a => exact busy hc
  | spiSectorErase d a => exact busy hc
  | spiChipErase d => exact busy hc
  | readPage => cases hk
  | _ => cases hc

theorem readBody_unready (hn : (s.bus.chip s.curR).knownReady = false) :
    (readBody s).All fun w => w.bus.hazard.unreadyFrame = true := by
  rw [readBody, engReadPage_eq, Res.andThen_assoc]
  exact (State.onBus_all (readProc_unready _ hn)).andThen fun _ _ hw => hw

/-- R298: the frame that no poll stands in front of. -/
theorem exec_unready (h : exec i s = .next t) (hr : t.responses = s.responses ++ [r]) (hc : firstBusyFrame s i = some c)
    (ht : ¬ turnedAway r) (hn : (s.bus.chip c).knownReady = false) : t.bus.hazard.unreadyFrame = true := by
  cases hk : keepsRegisters i with
  | true =>
    rw [exec_transport hk (emitted_of_next h)] at h
    exact hazard_of_body (P := fun x => x.unreadyFrame = true) (fun e he => (guard_errors he).2)
      (fun _ => State.onBus_all (transportProc_unready hk hc hn)) h hr ht
  | false =>
    cases i with
    | readPage =>
      obtain rfl := Option.some.inj hc
      exact hazard_of_body (P := fun x => x.unreadyFrame = true) (fun e he => (checks_errors (i := .readPage) he rfl).2)
        (fun _ => readBody_unready hn) (h : execReadPage s = .next t) hr ht
    | startW => cases hc
    | writeByte v => cases hc
    | endW => cases hc
    | seekW l => cases hc
    | seekR l => cases hc
    | _ => cases hk

end Unready

/-! Commits of variant 1 (R304, U9). -/

section Unerased

variable {cfg : Config} {c p o : Nat} {b : Bus} {s t : State} {i : Instr} {r : Response}

/-- U9: one byte that is not known to be erased. -/
theorem pageErased_eq_false {ch : Chip} (ho : o < cfg.pageSize) (h : ch.main.read? (mainAddr cfg p o) ≠ some 0xFF) :
    ch.pageErased cfg p = false := by
  rw [Chip.pageErased, Bool.and_eq_false_iff, List.all_eq_false]
  exact .inr ⟨o, List.mem_range.2 ho, by simpa using h⟩

theorem issueBusy_unerased (hdr : List Byte) (hv : cfg.commitVariant = true) (hn : (b.chip c).pageErased cfg p = false) :
    (issueBusy cfg c hdr (b.noteCommit cfg c p)).All fun b => b.hazard.unerasedCommit = true :=
  (closed_unerasedCommit cfg c).issueBusy hdr (by simp [hv, hn])

/-- R304: a single commit frame of variant 1. -/
theorem exec_commitAlt_unerased {d : ChipField} {a : AddrField} (hi : i = .spiBuf1CommitAlt d a ∨ i = .spiBuf2CommitAlt d a)
    (h : exec i s = .next t) (hr : t.responses = s.responses ++ [r]) (ht : ¬ turnedAway r)
    (hn : (s.bus.chip d.toNat).pageErased s.cfg (decodePage s.cfg a) = false) : t.bus.hazard.unerasedCommit = true := by
  have hcommit : ∀ op, commitOp true d op a s = .next t → t.bus.hazard.unerasedCommit = true := fun op hop => by
    refine hazard_of_body (P := fun x => x.unerasedCommit = true)
      (fun e he => (checks_errors (i := .spiBuf1CommitAlt d a) he rfl).2) (fun hc => ?_) hop hr ht
    obtain ⟨hv, -⟩ : s.cfg.commitVariant = true ∧ _ := by simpa using (frameChecks_passed hc).1
    rw [busBody_eq]
    exact State.onBus_all (noData_all
      (f := fun b => issueBusy s.cfg d.toNat (op :: addrBytes a) (b.noteCommit s.cfg d.toNat (decodePage s.cfg a)))
      (issueBusy_unerased _ hv hn))
  rcases hi with rfl | rfl
  · exact hcommit _ h
  · exact hcommit _ h

/-- R81, R82, R85, R89: status reads, buffer reads and buffer writes leave the main array. -/
theorem kept_main (cfg : Config) (d : Nat) (m : Memory) : Kept cfg d Harmless (fun ch => ch.main = m) where
  settle n ch h := (Chip.settle_main d n ch).trans h
  select ch h := h
  receive o ch h _ := (Chip.receive_main cfg o ch).trans h
  deselect ch h hq := by rw [hq.deselect]; exact h
  nil := .inl rfl
  cut _ _ h := h.cut

theorem main_blind (m : Memory) : Kept.Blind (fun ch => ch.main = m) where
  unknown _ h := h
  confirmed _ h := h

/-- R183 step 1: the byte goes into a buffer. -/
theorem engSend_main {m : Memory} (v : Byte) (hm : (s.bus.chip c).main = m)
    (hq : Harmless ((s.bus.chip c).received ++ [v])) :
    (engSend c v s).All fun u => u.bus.Has c fun ch => ch.main = m := by
  have hsend := (kept_main s.cfg c m).transferBlock c [v] (b := s.bus)
    (fun ch hch => Bus.chip_of_getElem? hch ▸ hm) fun _ ch hch => Bus.chip_of_getElem? hch ▸ hq
  exact Res.Post.andThen (State.onBus_all (Res.Post.mono hsend (fun _ _ hb => hb.2.1) fun _ _ _ hb => hb.2.1))
    fun _ _ hu => hu

/-- R184 steps 1 to 3: the end of the open frame and the poll leave the main array. -/
theorem closeAndPoll_main {b' : Bus} {a : Unit} (hc : c < b.chips.length) (hq : Harmless (b.chip c).received)
    (h : pollReady cfg c (b.desel cfg c) = .ok a b') : (b'.chip c).main = (b.chip c).main := by
  have hk := kept_main cfg c (b.chip c).main
  have hdesel : (b.desel cfg c).Has c fun ch => ch.main = (b.chip c).main :=
    hk.desel (fun ch hch => by rw [Bus.chip_of_getElem? hch]) fun _ ch hch => Bus.chip_of_getElem? hch ▸ hq
  have hpoll := hk.pollReady (c := c) (main_blind _) hdesel rfl fun _ => .inr ⟨_, _, rfl, .inl rfl⟩
  have hlen := (closed_length cfg b.chips.length c).pollReady (Bus.desel_length b cfg c)
  rw [h] at hpoll hlen
  exact hpoll.chip (hlen.symm ▸ hc)

/-- R184, R304: a page end that comes to its commit frame sets the bit, and one that does not keeps the write cursor. -/
theorem engCommit_unerased (hbank : c < s.handles.length) (hc : c < s.bus.chips.length)
    (hq : Harmless (s.bus.chip c).received) (hv : s.cfg.commitVariant = true) (ho : o < s.cfg.pageSize)
    (hn : (s.bus.chip c).main.read? (mainAddr s.cfg (s.handle c).wpage o) ≠ some 0xFF) :
    (engCommit c s).Post (fun _ u => u.bus.hazard.unerasedCommit = true)
      (fun _ _ u => (u.handle c).wpage = (s.handle c).wpage) := by
  have hclosed : ((engCloseFull c s).handle c).wpage = (s.handle c).wpage := by rw [engCloseFull_handle hbank]
  rw [engCommit_eq hbank]
  cases hp : pollReady s.cfg c (s.bus.desel s.cfg c) with
  | raise e d b => exact hclosed
  | ok a b =>
    have hpage : (b.chip c).pageErased s.cfg (s.handle c).wpage = false :=
      pageErased_eq_false ho (by rwa [closeAndPoll_main hc hq hp])
    have hissue := issueBusy_unerased (commitFrame s.cfg (s.handle c).par (s.handle c).wpage) hv hpage
    simp only
    cases hb : issueBusy s.cfg c (commitFrame s.cfg (s.handle c).par (s.handle c).wpage)
        (b.noteCommit s.cfg c (s.handle c).wpage) with
    | raise e d b' => exact hclosed
    | ok a b' => exact hissue.of_eq_ok hb

/-- The write cursor of chip `c` stands where it stood in `s`, or the bit is set. -/
def StillOrUnerased (s : State) (c : Nat) (w : State) : Prop :=
  (w.handle c).wpage = (s.handle c).wpage ∨ w.bus.hazard.unerasedCommit = true

theorem pageAdvance_unerased (hbank : c < s.handles.length) (hc : c < s.bus.chips.length)
    (hq : Harmless (s.bus.chip c).received) (hv : s.cfg.commitVariant = true) (ho : o < s.cfg.pageSize)
    (hn : (s.bus.chip c).main.read? (mainAddr s.cfg (s.handle c).wpage o) ≠ some 0xFF) :
    (pageAdvance c s).All (StillOrUnerased s c) := by
  have hcommit := engCommit_unerased hbank hc hq hv ho hn
  refine (hcommit.mono (fun _ _ hu => hu) fun _ _ _ hu => .inl hu).andThen fun _ u hu => ?_
  have hopen := engOpen_all (s := { u with soff := 0, curW := nextChip u.cfg u.curW }) (c := nextChip u.cfg u.curW)
    (closed_unerasedCommit u.cfg _) hu
  exact (hopen.mono (fun _ _ hw => .inr hw.1) fun _ _ _ hw => .inr hw.1).andThen fun _ _ hw => hw

/-- R211: the byte that fills a page. -/
theorem writeBody_unerased (hI : s.Inv) (hf : s.filling = true) (v : Byte) (hv : s.cfg.commitVariant = true)
    (ho : o < s.cfg.pageSize)
    (hn : (s.bus.chip s.curW).main.read? (mainAddr s.cfg (s.handle s.curW).wpage o) ≠ some 0xFF) :
    (writeBody v s).All (StillOrUnerased s s.curW) := by
  obtain ⟨-, hcs, data, hdata, -⟩ := hI.streaming hf
  have hbank := hI.bank_lt hI.curW_lt
  have hchip := hI.chip_lt hI.curW_lt
  have hopen : Harmless ((s.bus.chip s.curW).received ++ [v]) := by
    rw [hdata, List.append_assoc]
    exact harmless_open _ _
  have heffect := engSend_effect hcs v
  have hmain := engSend_main (s := s) v rfl hopen
  rw [writeBody]
  cases hsend : engSend s.curW v s with
  | raise e d u =>
    obtain ⟨-, -, -, hu, -⟩ := heffect.of_eq_raise hsend
    exact .inl (by rw [hu]; rfl)
  | ok a u =>
    obtain ⟨hu, -, hlen, -, hrec⟩ := heffect.of_eq_ok hsend
    have hmain := (hmain.of_eq_ok hsend).chip (hlen.symm ▸ hchip)
    generalize u.bus = b at hu hlen hrec hmain
    subst hu
    show Res.All _ (if _ then _ else _)
    split
    · have hfed : ((s.onHandle s.curW Handle.fed).handle s.curW).wpage = (s.handle s.curW).wpage := by
        rw [State.handle_onHandle hbank, Handle.fed]
      exact .inl hfed
    · exact pageAdvance_unerased (s := { s with bus := b }) hbank (hlen.symm ▸ hchip) (hrec hchip ▸ hopen) hv ho
        (hmain.symm ▸ hn)

/-- R256: an abort keeps the write cursors. -/
theorem takeError_wpage (w : State) (e : ErrorKind) (d c : Nat) : ((w.takeError e d).handle c).wpage = (w.handle c).wpage := by
  rw [State.takeError_eq]
  simp only [State.handle, List.getElem?_map]
  cases w.handles[c]? <;> rfl

/-- R304: a `WRITE_BYTE` that has moved the write cursor. -/
theorem exec_writeByte_unerased {v : Byte} (hI : s.Inv) (h : exec (.writeByte v) s = .next t) (hv : s.cfg.commitVariant = true)
    (hmoved : (t.handle s.curW).wpage = (s.handle s.curW).wpage + 1) (ho : o < s.cfg.pageSize)
    (hn : (s.bus.chip s.curW).main.read? (mainAddr s.cfg (s.handle s.curW).wpage o) ≠ some 0xFF) :
    t.bus.hazard.unerasedCommit = true := by
  suffices hstill : StillOrUnerased s s.curW t from hstill.resolve_left (by omega)
  rcases perform_cases (h : execWriteByte v s = .next t) with ⟨e, -, rfl⟩ | ⟨hc, hend⟩
  · exact .inl rfl
  · have hbody := writeBody_unerased hI (firstError_cons_none hc).1 v hv ho hn
    rcases hend with ⟨data, w, hw, rfl⟩ | ⟨e, d, w, hw, rfl⟩
    · have hw : StillOrUnerased s s.curW w := hbody.of_eq_ok hw
      exact hw
    · exact (hbody.of_eq_raise hw).imp (takeError_wpage w e d s.curW).trans
        (congrArg Hazard.unerasedCommit (State.abort_hazard w)).trans

end Unerased

/-- Settles O49: no bus event and no note clears a bit; the first two clauses set theirs in the operation's first frame, the last
in the commit frame that the write cursor's move tells of. -/
theorem hazardsAreRemembered : Obligations.HazardsAreRemembered := by
  unfold Obligations.HazardsAreRemembered
  intro i s t r hI h hr
  refine ⟨fun hset => ?unreadyStays, fun hset => ?unerasedStays, fun c hc ht hn => exec_unready h hr hc ht hn,
    fun c a hi ht hn => exec_commitAlt_unerased hi h hr ht hn, fun v o hi hv hmoved ho hn => ?pageEnd⟩
  case unreadyStays => exact (exec_closed (fun c => closed_unreadyFrame s.cfg c) hset h).1
  case unerasedStays => exact (exec_closed (fun c => closed_unerasedCommit s.cfg c) hset h).1
  case pageEnd =>
    subst hi
    exact exec_writeByte_unerased hI h hv hmoved ho hn

end Sys2Proof.Machine
end
